-- ==== Sys2Proof/Word.lean ====
section
/-!
DEFINITION. Word: the bit-vector and index types of the CLS-416.
-/
namespace Sys2Proof

/-- A byte of the export store (R84). -/
abbrev Byte := BitVec 8
/-- A store word, an operand, a word of the local port: 32 bits (R84, R185). -/
abbrev Word := BitVec 32
/-- A store offset as records and frames carry it: 0 to 65535 (R12, R182). -/
abbrev Offset := BitVec 16
/-- The byte enables of a local-port access, bit n for byte lane n (R185). -/
abbrev ByteEnables := BitVec 4
/-- A set of station numbers, bit n for station n (R61, R135, R185). -/
abbrev StationSet := BitVec 16
/-- A station number, 0 to 15 (R11). -/
abbrev Station := Fin 16
/-- A tag, 0 to 31 (R20). -/
abbrev Tag := Fin 32
/-- A generation, 0 to 3 (R22); its addition is modulo 4. -/
abbrev Generation := Fin 4
/-- The number of a command context, 0 to 31 (R145). -/
abbrev ContextNumber := Fin 32
/-- A time or a duration in microseconds (0.6 "Time"). -/
abbrev Micros := Nat

end Sys2Proof
end

