-- ==== Sys2Proof/Types.lean ====
section
/-!
DEFINITION. Types: the names the manual gives to answers, frames, port words and port accesses: the data that commands carry.
-/
namespace Sys2Proof

/-- The answers of R7 and R8. `silent` is both "drives nothing" and the resolved answer SILENT. -/
inductive Answer where
  | silent
  | accept
  | refuse
  | busy
  | damaged
deriving DecidableEq, Repr

/-- The operations of an AT_REQ (R12). -/
inductive AtomicOp where
  | fetchAdd
  | swap
  | compareSwap
deriving DecidableEq, Repr

/-- The kinds of frame with their named fields after source and target (R11, R12, R13). -/
inductive FrameBody where
  | join
  | leave
  /-- NOTICE: its 8 data bytes, in order. -/
  | notice (data : List Byte)
  | rdReq (target : Station) (tag : Tag) (generation : Generation) (offset : Offset) (length : BitVec 16)
  | wrReq (target : Station) (tag : Tag) (generation : Generation) (offset : Offset) (length : BitVec 16)
      (payload : List Byte)
  | atReq (target : Station) (tag : Tag) (generation : Generation) (offset : Offset) (op : AtomicOp) (a b : Word)
  /-- RD_DATA: `second` names piece offset 128, otherwise the piece offset is 0. -/
  | rdData (target : Station) (tag : Tag) (generation : Generation) (second : Bool) (last : Bool) (data : List Byte)
  | atData (target : Station) (tag : Tag) (generation : Generation) (old : Word)
  /-- FAIL, reason STORE_ERROR, the only reason there is. -/
  | fail (target : Station) (tag : Tag) (generation : Generation)
deriving DecidableEq, Repr

/-- A frame: its source and what follows (R11). The check is computed (R5, R183). -/
structure Frame where
  source : Station
  body : FrameBody
deriving DecidableEq, Repr

/-- The classes of R3. -/
inductive FrameClass where
  | control
  | response
  | request
deriving DecidableEq, Repr

/-- The kinds of completion, as the last-unexpected-completion record names them (R177). -/
inductive CompletionKind where
  | rdData
  | atData
  | fail
deriving DecidableEq, Repr

/-- The configuration and region words of the control window (R185): the words a CONFIG_WRITE names. -/
inductive ConfigWord where
  | config0
  | acceptMask
  | regionA (n : Fin 8)
  | regionB (n : Fin 8)
deriving DecidableEq, Repr

/-- Every word of the control-window map (R185). -/
inductive ControlWord where
  | stationState
  | start
  | softReset
  | config (w : ConfigWord)
  | interruptEnables
  | staging (n : Fin 7)
  | post
  | resultPop
  | resultData (n : Fin 2)
  | noticePop
  | noticeData (n : Fin 2)
  | bufferStatus
  | inboundStatus
  | senderStatus
  | noticeCount
  | issueStatus
  | peerStatus (n : Station)
  | counter (k : Fin 13)
  | flags
  | lastUnexpected
  | clearMask
deriving DecidableEq, Repr

/-- A word access of the local port: a read, or a write of data under byte enables (R185). -/
inductive PortAccess where
  | read
  | write (data : Word) (enables : ByteEnables)
deriving DecidableEq, Repr

/-- What a CONTENTION command tells the station (R3): that the contention begins, or how it comes out,
given the lowest priority word of the other contenders, if there is another. -/
inductive ContentionReport where
  | begins
  | settles (lowestOther : Option (BitVec 6))
deriving DecidableEq, Repr

end Sys2Proof
end

