-- ==== Sys2Proof/Syntax.lean ====
section
/-!
DEFINITION. Syntax: the commands of the station, one constructor for each row of spec/opcode_table.json.
-/
namespace Sys2Proof

/-- The 43 commands. Each is one whole step of the station. -/
inductive Instr where
  /-- POWER_ON_RESET (R174): the strap pins stand at `straps` when the reset ends. -/
  | powerOnReset (straps : Station)
  /-- STORE_INIT_END (R86). -/
  | storeInitEnd
  /-- RST_N_ASSERT (R175). -/
  | rstNAssert
  /-- RST_N_RELEASE (R175, R187): the strap pins stand at `straps` at the release. -/
  | rstNRelease (straps : Station)
  /-- SOFT_RESET (R175): a write of the soft reset word. -/
  | softReset (enables : ByteEnables)
  /-- STORE_BYTE_LOSS (R85): the byte at `offset` passes from GOOD to LOST and then holds `value`. -/
  | storeByteLoss (offset : Offset) (value : Byte)
  /-- START (R167, R168): a write of the start word. -/
  | start (enables : ByteEnables)
  /-- CONFIG_WRITE (R166). -/
  | configWrite (word : ConfigWord) (data : Word) (enables : ByteEnables)
  /-- INTERRUPT_ENABLES_WRITE (R180). -/
  | interruptEnablesWrite (data : Word) (enables : ByteEnables)
  /-- POST (R146): a write of the post word. -/
  | post (enables : ByteEnables)
  /-- RESULT_POP (R162): a read of the result pop word. -/
  | resultPop
  /-- NOTICE_POP (R140): a read of the notice pop word. -/
  | noticePop
  /-- CLEAR (R179): a write of the clear mask word. -/
  | clear (mask : Word) (enables : ByteEnables)
  /-- UNMAPPED_ACCESS (R186): an access at a port offset of the control window that names no word. -/
  | unmappedAccess (portOffset : BitVec 17) (access : PortAccess)
  /-- REGISTER_WRITE (R186): an access to a control word with no behaviour of its own. -/
  | registerWrite (word : ControlWord) (access : PortAccess)
  /-- LOCAL_READ (R95). -/
  | localRead (offset : Offset)
  /-- LOCAL_WRITE (R95). -/
  | localWrite (offset : Offset) (data : Word) (enables : ByteEnables)
  /-- LOCAL_TRANSFER_COMPLETE (R96). -/
  | localTransferComplete
  /-- STORE_GRANT (R90). -/
  | storeGrant
  /-- CONTENTION (R3). -/
  | contention (report : ContentionReport)
  /-- TRANSMIT_CONFLICT (R18). -/
  | transmitConflict
  /-- ANSWER_FIELD (R7): `body` is every bit of the frame's body as received, the check included (R182). -/
  | answerField (body : List Bool)
  /-- RESOLUTION (R10): `others` is the most dominant answer any other station drove; `time` is when. -/
  | resolution (others : Answer) (time : Micros)
  /-- COMPLETION_TIMER_EXPIRY (R37). -/
  | completionTimerExpiry (tag : Tag)
  /-- STALE_TIMER_EXPIRY (R38). -/
  | staleTimerExpiry (tag : Tag)
  /-- BACKOFF_EXPIRY (R112): of the request-queue entry at `place`, 0 being the oldest. -/
  | backoffExpiry (place : Fin 16)
  /-- READ_COMMAND (R148, R153): the take of the READ at the head of the command queue. -/
  | readCommand
  /-- WRITE_COMMAND (R148, R153). -/
  | writeCommand
  /-- ATOMIC_COMMAND (R148, R153). -/
  | atomicCommand
  /-- NOTICE_COMMAND (R143, R148). -/
  | noticeCommand
  /-- FENCE_COMMAND (R151). -/
  | fenceCommand
  /-- LEAVE_COMMAND (R152). -/
  | leaveCommand
  /-- SEGMENT_ISSUE (R154, R155). -/
  | segmentIssue
  /-- COPY_BEGIN (R156). -/
  | copyBegin
  /-- COPY_TRANSFER_COMPLETE (R97). -/
  | copyTransferComplete
  /-- SERVICE_BEGIN (R71). -/
  | serviceBegin
  /-- SERVICE_WRITE_TRANSFER_COMPLETE (R73). -/
  | serviceWriteTransferComplete
  /-- SERVICE_READ_TRANSFER_COMPLETE (R74, R75). -/
  | serviceReadTransferComplete
  /-- ATOMIC_TRANSFER_COMPLETE (R76, R77). -/
  | atomicTransferComplete
  /-- LANDING_BEGIN (R52). -/
  | landingBegin
  /-- LANDING_TRANSFER_COMPLETE (R53, R54). -/
  | landingTransferComplete
  /-- DRAIN_DONE (R171). -/
  | drainDone
  /-- COMMAND_OF_NO_KIND (R149, R150). -/
  | commandOfNoKind
deriving DecidableEq, Repr

end Sys2Proof
end

