-- ==== Sys2Proof/Decode.lean ====
section
/-!
DEFINITION. Decode: port offsets to words of the control window (R185), and `decodeTableWord`.
No row of spec/opcode_table.json gives bits, so no word spells a command.
-/
namespace Sys2Proof

/-- The port offset of a configuration or region word (R185). -/
def ConfigWord.portOffset : ConfigWord → Nat
  | .config0 => 0x10010
  | .acceptMask => 0x10014
  | .regionA n => 0x10020 + 8 * n.val
  | .regionB n => 0x10024 + 8 * n.val

/-- The port offset of each word of the map (R185). -/
def ControlWord.portOffset : ControlWord → Nat
  | .stationState => 0x10000
  | .start => 0x10004
  | .softReset => 0x10008
  | .config w => w.portOffset
  | .interruptEnables => 0x10018
  | .staging n => 0x10080 + 4 * n.val
  | .post => 0x1009C
  | .resultPop => 0x100A0
  | .resultData n => 0x100A4 + 4 * n.val
  | .noticePop => 0x100B0
  | .noticeData n => 0x100B4 + 4 * n.val
  | .bufferStatus => 0x100C0
  | .inboundStatus => 0x100C4
  | .senderStatus => 0x100C8
  | .noticeCount => 0x100CC
  | .issueStatus => 0x100D0
  | .peerStatus n => 0x10100 + 4 * n.val
  | .counter k => 0x10200 + 4 * k.val
  | .flags => 0x10240
  | .lastUnexpected => 0x10244
  | .clearMask => 0x10248

/-- Every word of the map (R185), group by group. -/
def ControlWord.groups : List (List ControlWord) :=
  [ [ControlWord.stationState, ControlWord.start, ControlWord.softReset, ControlWord.config ConfigWord.config0],
    [ControlWord.config ConfigWord.acceptMask, ControlWord.interruptEnables],
    (List.finRange 8).map (fun n => ControlWord.config (ConfigWord.regionA n)),
    (List.finRange 8).map (fun n => ControlWord.config (ConfigWord.regionB n)),
    (List.finRange 7).map ControlWord.staging,
    [ControlWord.post, ControlWord.resultPop, ControlWord.resultData 0, ControlWord.resultData 1],
    [ControlWord.noticePop, ControlWord.noticeData 0, ControlWord.noticeData 1],
    [ControlWord.bufferStatus, ControlWord.inboundStatus, ControlWord.senderStatus, ControlWord.noticeCount],
    [ControlWord.issueStatus],
    (List.finRange 16).map ControlWord.peerStatus,
    (List.finRange 13).map ControlWord.counter,
    [ControlWord.flags, ControlWord.lastUnexpected, ControlWord.clearMask] ]

/-- Every word of the map. -/
def ControlWord.all : List ControlWord :=
  ControlWord.groups.flatten

/-- The word at a port offset, if the map names one (R185, R186). -/
def ControlWord.ofPortOffset (offset : Nat) : Option ControlWord :=
  ControlWord.all.find? (fun w => w.portOffset == offset)

/-- The port's address carries bits 16:2 of the port offset, so the low two bits reach no word of their own (12.3). -/
def wordAligned (offset : Nat) : Nat :=
  offset / 4 * 4

/-- A port offset of the control window that names no word of the map (R186). -/
def isUnmapped (portOffset : BitVec 17) : Bool :=
  let aligned := wordAligned portOffset.toNat
  decide (0x10000 ≤ aligned) && (ControlWord.ofPortOffset aligned).isNone

/-- A write of the word is the row of another command (R186): the configuration words and enables, START, soft reset,
POST and CLEAR. -/
def ControlWord.writeHasOwnRow (w : ControlWord) : Bool :=
  match w with
  | .config _ | .interruptEnables | .start | .softReset | .post | .clearMask => true
  | _ => false

/-- A read of the word is the row of another command (R186): the two pops. -/
def ControlWord.readHasOwnRow (w : ControlWord) : Bool :=
  decide (w = .resultPop) || decide (w = .noticePop)

/-- The word has a behaviour of its own for this access. -/
def ControlWord.hasOwnRow (w : ControlWord) : PortAccess → Bool
  | .read => w.readHasOwnRow
  | .write _ _ => w.writeHasOwnRow

/-- The command a table word spells: none, since no row gives bits. -/
def decodeTableWord (_nbits _w : Nat) : Option Instr :=
  none

end Sys2Proof
end

