-- ==== Sys2Proof/Config.lean ====
section
/-!
DEFINITION. Config: the fixed sizes and units of the CLS-416, each with the rule that states it.
The manual leaves no implementation-defined value, so no constant here is free.
-/
namespace Sys2Proof.Config

/-- R44: storage blocks of the completion buffer. -/
abbrev bufferBlocks : Nat := 96
/-- R70: blocks of the inbound payload pool. -/
abbrev poolBlocks : Nat := 64
/-- R44, R70: bytes in a block. -/
abbrev blockBytes : Nat := 32
/-- R13: a completion piece is cut at multiples of this many bytes. -/
abbrev pieceBytes : Nat := 128
/-- R153: a command is cut into segments of at most this many bytes. -/
abbrev segmentBytes : Nat := 256
/-- R150: the longest READ or WRITE. -/
abbrev commandBytes : Nat := 4096
/-- R84: bytes of the export store. -/
abbrev storeBytes : Nat := 65536
/-- R69: entries of the inbound queue. -/
abbrev inboundEntries : Nat := 16
/-- R104: entries of the response queue. -/
abbrev responseEntries : Nat := 16
/-- R107: entries of the request queue. -/
abbrev requestEntries : Nat := 16
/-- R135: entries of the notice queue. -/
abbrev noticeEntries : Nat := 16
/-- R145: records of the command queue. -/
abbrev commandEntries : Nat := 16
/-- R148: command contexts in use plus results waiting never pass this. -/
abbrev resultPlaces : Nat := 32
/-- R120: a join count stays at this value. -/
abbrev joinCountMax : Nat := 255
/-- R107: a BUSY count stays at this value. -/
abbrev busyCountMax : Nat := 255
/-- R111: the unit of backoff, in microseconds. -/
abbrev backoffUnit : Nat := 25
/-- R111: the BUSY count beyond which the backoff grows no more. -/
abbrev backoffSteps : Nat := 16
/-- R37, R112: microseconds in a millisecond of the configured completion timeout. -/
abbrev microsPerMilli : Nat := 1000

end Sys2Proof.Config
end

