-- ==== Sys2Proof/Machine/Bits.lean ====
section
/-!
DEFINITION. Bits: blocks, byte order, byte lanes and bit sequences.
-/
namespace Sys2Proof.Machine

/-- ceil(n/32): the blocks that hold n bytes (0.6 "Sizes"). -/
def blocksFor (n : Nat) : Nat :=
  (n + 31) / 32

/-- The first block boundary above `offset` (0.6 "Sizes"). -/
def nextBoundary (offset : Nat) : Nat :=
  (offset / 32 + 1) * 32

/-- Byte n of a word: bits 8n+7 to 8n (R84, R185). -/
def byteOf (w : Word) (n : Nat) : Byte :=
  w.extractLsb' (8 * n) 8

/-- The bytes of a word in ascending offset, least significant first (R84). -/
def bytesOfWord (w : Word) : List Byte :=
  [byteOf w 0, byteOf w 1, byteOf w 2, byteOf w 3]

/-- The word of bytes in ascending offset, least significant first (R84). -/
def wordOfBytes (bytes : List Byte) : Word :=
  bytes.foldr (fun b acc => (acc <<< 8) ||| b.setWidth 32) 0

/-- The bit mask of the enabled byte lanes (R185). -/
def laneMask (enables : ByteEnables) : Word :=
  (if enables.getLsbD 0 then 0x000000FF#32 else 0) ||| (if enables.getLsbD 1 then 0x0000FF00#32 else 0) |||
    (if enables.getLsbD 2 then 0x00FF0000#32 else 0) ||| (if enables.getLsbD 3 then 0xFF000000#32 else 0)

/-- R186: a write uses only the bytes of its byte enables. -/
def mergeLanes (old new : Word) (enables : ByteEnables) : Word :=
  (old &&& ~~~(laneMask enables)) ||| (new &&& laneMask enables)

/-- `width` bits of a number, most significant first (R182). -/
def bitsOfNat (width n : Nat) : List Bool :=
  (List.range width).map (fun i => n.testBit (width - 1 - i))

/-- The number a bit sequence spells, most significant bit first (R182). -/
def natOfBits (bits : List Bool) : Nat :=
  bits.foldl (fun n b => 2 * n + b.toNat) 0

/-- The `width` bits from position `start`, as a number (R182). -/
def bitField (bits : List Bool) (start width : Nat) : Nat :=
  natOfBits ((bits.drop start).take width)

/-- Bytes on the medium: in order, each most significant bit first (R182). -/
def bitsOfBytes (bytes : List Byte) : List Bool :=
  bytes.flatMap (fun b => bitsOfNat 8 b.toNat)

/-- `count` bytes from bit position `start` (R182). -/
def bytesAt (bits : List Bool) (start count : Nat) : List Byte :=
  (List.range count).map (fun i => BitVec.ofNat 8 (bitField bits (start + 8 * i) 8))

/-- A 32-bit value on the medium: four bytes, least significant byte first (R182). -/
def bitsOfWord (w : Word) : List Bool :=
  bitsOfBytes (bytesOfWord w)

/-- The 32-bit value from bit position `start` (R182). -/
def wordAt (bits : List Bool) (start : Nat) : Word :=
  wordOfBytes (bytesAt bits start 4)

end Sys2Proof.Machine
end

