-- ==== Sys2Proof/Machine/Frames.lean ====
section
/-!
DEFINITION. Frames: the fields of frames, their bits on the medium, the check, and recognisability (R6, R11 to R13, R182 to R184).
-/
namespace Sys2Proof

open Machine

/-! ## Fields -/

/-- R11: the target of a frame; `none` is ALL. -/
def FrameBody.target : FrameBody → Option Station
  | .join => none
  | .leave => none
  | .notice _ => none
  | .rdReq t _ _ _ _ => some t
  | .wrReq t _ _ _ _ _ => some t
  | .atReq t _ _ _ _ _ _ => some t
  | .rdData t _ _ _ _ _ => some t
  | .atData t _ _ _ => some t
  | .fail t _ _ => some t

/-- R3: the class of a frame. -/
def FrameBody.frameClass : FrameBody → FrameClass
  | .join => .control
  | .leave => .control
  | .notice _ => .request
  | .rdReq _ _ _ _ _ => .request
  | .wrReq _ _ _ _ _ _ => .request
  | .atReq _ _ _ _ _ _ _ => .request
  | .rdData _ _ _ _ _ _ => .response
  | .atData _ _ _ _ => .response
  | .fail _ _ _ => .response

/-- R3: the value of a class. -/
def FrameClass.value : FrameClass → Nat
  | .control => 0
  | .response => 1
  | .request => 2

/-- R3: the priority word: class × 16 + station number. -/
def priorityWord (c : FrameClass) (n : Station) : BitVec 6 :=
  BitVec.ofNat 6 (c.value * 16 + n.val)

/-- R3: the priority word of a frame. -/
def Frame.priority (f : Frame) : BitVec 6 :=
  priorityWord f.body.frameClass f.source

/-- R182: the kind code within the class. -/
def FrameBody.kindCode : FrameBody → Nat
  | .join => 0
  | .leave => 1
  | .notice _ => 3
  | .rdReq _ _ _ _ _ => 0
  | .wrReq _ _ _ _ _ _ => 1
  | .atReq _ _ _ _ _ _ _ => 2
  | .rdData _ _ _ _ _ _ => 0
  | .atData _ _ _ _ => 1
  | .fail _ _ _ => 2

/-- R13: the piece offset an RD_DATA names. -/
def pieceOffset (second : Bool) : Nat :=
  if second then Config.pieceBytes else 0

/-! ## Bits on the medium (R182) -/

/-- The code of an atomic operation (R182, R185). -/
def AtomicOp.code : AtomicOp → Nat
  | .fetchAdd => 0
  | .swap => 1
  | .compareSwap => 2

/-- The atomic operation of a code; code 3 names none (R182, R185). -/
def atomicOpOfCode : Nat → Option AtomicOp
  | 0 => some .fetchAdd
  | 1 => some .swap
  | 2 => some .compareSwap
  | _ => none

/-- The target field: a station number, or 1Fh for ALL (R182). -/
def targetCode : Option Station → Nat
  | none => 31
  | some t => t.val

/-- The tag and generation fields (R182). -/
def tagBits (tag : Tag) (g : Generation) : List Bool :=
  bitsOfNat 5 tag.val ++ bitsOfNat 2 g.val

/-- The fields after the head (R182). -/
def FrameBody.fieldBits : FrameBody → List Bool
  | .join => []
  | .leave => []
  | .notice data => bitsOfBytes data
  | .rdReq _ tag g offset length => tagBits tag g ++ (bitsOfNat 16 offset.toNat ++ bitsOfNat 16 length.toNat)
  | .wrReq _ tag g offset length payload =>
      tagBits tag g ++ (bitsOfNat 16 offset.toNat ++ (bitsOfNat 16 length.toNat ++ bitsOfBytes payload))
  | .atReq _ tag g offset op a b =>
      tagBits tag g ++ (bitsOfNat 16 offset.toNat ++ (bitsOfNat 2 op.code ++ (bitsOfWord a ++ bitsOfWord b)))
  | .rdData _ tag g second last data =>
      tagBits tag g ++ ([second, last] ++ (bitsOfNat 8 data.length ++ bitsOfBytes data))
  | .atData _ tag g old => tagBits tag g ++ bitsOfWord old
  | .fail _ tag g => tagBits tag g ++ bitsOfNat 8 1

/-- The head: class, source, kind, target (R182). -/
def Frame.headBits (f : Frame) : List Bool :=
  bitsOfNat 2 f.body.frameClass.value ++ (bitsOfNat 4 f.source.val
    ++ (bitsOfNat 4 f.body.kindCode ++ bitsOfNat 5 (targetCode f.body.target)))

/-- Every bit of the body before the check (R182). -/
def Frame.contentBits (f : Frame) : List Bool :=
  f.headBits ++ f.body.fieldBits

/-! ## The check (R183) -/

/-- R183: the shift register takes one body bit. -/
def crcStep (register : Word) (bit : Bool) : Word :=
  if register.msb == bit then register <<< 1 else (register <<< 1) ^^^ 0x1EDC6F41#32

/-- R183: the check over body bits. -/
def crc (bits : List Bool) : Word :=
  ~~~(bits.foldl crcStep 0xFFFFFFFF#32)

/-- The whole body as sent: the content and its check, most significant bit first (R183). -/
def Frame.bodyBits (f : Frame) : List Bool :=
  f.contentBits ++ bitsOfNat 32 (crc f.contentBits).toNat

/-! ## Recognisability (R6, R183) -/

/-- A station number from a field value. -/
def stationOf (n : Nat) : Station :=
  Fin.ofNat 16 n

/-- R6, R183: a control frame: target ALL and nothing after the head. -/
def parseControl (bits : List Bool) : Option FrameBody :=
  if bitField bits 10 5 = 31 ∧ bits.length = 15 then
    match bitField bits 6 4 with
    | 0 => some .join
    | 1 => some .leave
    | _ => none
  else none

/-- The tag field. -/
def parseTag (bits : List Bool) : Tag :=
  Fin.ofNat 32 (bitField bits 15 5)

/-- The generation field. -/
def parseGeneration (bits : List Bool) : Generation :=
  Fin.ofNat 4 (bitField bits 20 2)

/-- R6, R183: an RD_DATA: data length 1 to 128, that many bytes, and piece offset 128 only with the last flag set. -/
def parseRdData (bits : List Bool) (target : Station) : Option FrameBody :=
  let second := decide (bitField bits 22 1 = 1)
  let last := decide (bitField bits 23 1 = 1)
  let n := bitField bits 24 8
  if 1 ≤ n ∧ n ≤ 128 ∧ bits.length = 32 + 8 * n ∧ (second = true → last = true) then
    some (.rdData target (parseTag bits) (parseGeneration bits) second last (bytesAt bits 32 n))
  else none

/-- R6, R183: the completion kinds. -/
def parseResponse (bits : List Bool) : Option FrameBody :=
  if bitField bits 10 5 < 16 then
    let target := stationOf (bitField bits 10 5)
    match bitField bits 6 4 with
    | 0 => parseRdData bits target
    | 1 => if bits.length = 54 then some (.atData target (parseTag bits) (parseGeneration bits) (wordAt bits 22)) else none
    | 2 =>
      if bits.length = 30 ∧ bitField bits 22 8 = 1 then some (.fail target (parseTag bits) (parseGeneration bits))
      else none
    | _ => none
  else none

/-- R183: the payload of a WR_REQ: its length field in bytes when that is 1 to 256, otherwise any whole number
of bytes from 0 to 256. -/
def payloadLengthOk (length bitCount : Nat) : Bool :=
  if 1 ≤ length ∧ length ≤ 256 then decide (bitCount = 8 * length)
  else decide (bitCount % 8 = 0 ∧ bitCount ≤ 8 * 256)

/-- R6, R183: a WR_REQ. -/
def parseWrReq (bits : List Bool) (target : Station) : Option FrameBody :=
  let offset := BitVec.ofNat 16 (bitField bits 22 16)
  let length := BitVec.ofNat 16 (bitField bits 38 16)
  if 54 ≤ bits.length ∧ payloadLengthOk length.toNat (bits.length - 54) = true then
    some (.wrReq target (parseTag bits) (parseGeneration bits) offset length (bytesAt bits 54 ((bits.length - 54) / 8)))
  else none

/-- R6, R183: an AT_REQ; operation code 3 is not recognisable. -/
def parseAtReq (bits : List Bool) (target : Station) : Option FrameBody :=
  if bits.length = 104 then
    match atomicOpOfCode (bitField bits 38 2) with
    | some op =>
      some (.atReq target (parseTag bits) (parseGeneration bits) (BitVec.ofNat 16 (bitField bits 22 16)) op
        (wordAt bits 40) (wordAt bits 72))
    | none => none
  else none

/-- R6, R183: the request kinds addressed to one station, and NOTICE with target ALL. -/
def parseRequest (bits : List Bool) : Option FrameBody :=
  if bitField bits 6 4 = 3 then
    if bitField bits 10 5 = 31 ∧ bits.length = 79 then some (.notice (bytesAt bits 15 8)) else none
  else if bitField bits 10 5 < 16 then
    let target := stationOf (bitField bits 10 5)
    match bitField bits 6 4 with
    | 0 =>
      if bits.length = 54 then
        some (.rdReq target (parseTag bits) (parseGeneration bits) (BitVec.ofNat 16 (bitField bits 22 16))
          (BitVec.ofNat 16 (bitField bits 38 16)))
      else none
    | 1 => parseWrReq bits target
    | 2 => parseAtReq bits target
    | _ => none
  else none

/-- R6, R183: the frame of a body whose check has passed, if it is recognisable; class 3 is not. -/
def parseBody (bits : List Bool) : Option FrameBody :=
  match bitField bits 0 2 with
  | 0 => parseControl bits
  | 1 => parseResponse bits
  | 2 => parseRequest bits
  | _ => none

/-- What the span interface makes of a received body (R5, R6). -/
inductive Judged where
  /-- R5: the check failed. -/
  | damaged
  /-- R6: not recognisable; the target field as received. -/
  | unrecognisable (target : Nat)
  | recognised (f : Frame)
deriving DecidableEq, Repr

/-- R183: the last 32 bits of a body are its check. -/
def checkPasses (body : List Bool) : Bool :=
  decide (47 ≤ body.length) &&
    decide (body.drop (body.length - 32) = bitsOfNat 32 (crc (body.take (body.length - 32))).toNat)

/-- R5, R6, R183: judge a received body. A body shorter than the head plus 32 bits is a check failure. -/
def judge (body : List Bool) : Judged :=
  if checkPasses body then
    let bits := body.take (body.length - 32)
    match parseBody bits with
    | some b => .recognised { source := stationOf (bitField bits 2 4), body := b }
    | none => .unrecognisable (bitField bits 10 5)
  else .damaged

/-! ## The answer field (R8, R184) -/

/-- R8: dominance, rising: SILENT, ACCEPT, REFUSE, BUSY, DAMAGED. -/
def Answer.dominance : Answer → Nat
  | .silent => 0
  | .accept => 1
  | .refuse => 2
  | .busy => 3
  | .damaged => 4

/-- R8: the medium's answer to two answers driven is the more dominant. -/
def Answer.combine (a b : Answer) : Answer :=
  if a.dominance < b.dominance then b else a

/-- R184: the code of an answer in the four positions; 0 is dominant. -/
def Answer.code : Answer → BitVec 4
  | .silent => 0b1111
  | .accept => 0b0111
  | .refuse => 0b0011
  | .busy => 0b0001
  | .damaged => 0b0000

/-! ## Frames the station may build or accept -/

/-- The field values of R12 and R13 that the types leave open, and the WR_REQ bodies R183 admits. -/
def FrameBody.fieldsFit : FrameBody → Bool
  | .notice data => decide (data.length = 8)
  | .wrReq _ _ _ _ length payload => payloadLengthOk length.toNat (8 * payload.length)
  | .rdData _ _ _ second last data => decide (1 ≤ data.length) && decide (data.length ≤ 128) && (!second || last)
  | _ => true

end Sys2Proof
end

