-- ==== Sys2Proof/Machine/State.lean ====
section
/-!
DEFINITION. State: every piece of state the manual gives the station, unit by unit, and its value after reset.
-/
namespace Sys2Proof.Machine

/-! ## Life cycle (chapter 10) -/

/-- The station states of R165. -/
inductive StationState where
  | init
  | config
  | joining
  | running
  | leaving
  | detached
  | halted
deriving DecidableEq, Repr

/-- The halt causes of R165. -/
inductive HaltCause where
  | none
  | joinRetry
  | leaveRetry
  | duplicate
deriving DecidableEq, Repr

/-- The item at which START stopped (R167). -/
inductive InvalidItem where
  | commitmentLimit
  | completionTimeout
  | retryLimit
  | region (n : Fin 8)
deriving DecidableEq, Repr

/-- The start status with its invalid item (R167). -/
inductive StartStatus where
  | none
  | started
  | invalid (item : InvalidItem)
deriving DecidableEq, Repr

/-- The life-cycle controller, the sampled station number and the reset pin. -/
structure LifeCycle where
  station : StationState
  haltCause : HaltCause
  startStatus : StartStatus
  /-- R187: the number sampled last from STN[3:0]. -/
  number : Station
  /-- R173: a give-up of the own JOIN or LEAVE at a transmit conflict, waiting for the resolution (log 16). -/
  giveUp : Option HaltCause
  /-- R175: RST_N is asserted. -/
  rstN : Bool
deriving DecidableEq, Repr

/-! ## Configuration record (R166) and export table (R61) -/

/-- An export region record (R61), with the field widths of R185. -/
structure Region where
  enabled : Bool
  base : BitVec 16
  length : BitVec 17
  grantsRead : Bool
  grantsWrite : Bool
  grantsAtomic : Bool
  peerSet : StationSet
deriving DecidableEq, Repr

/-- The configuration record (R166), with the field widths of R185. -/
structure ConfigRecord where
  commitmentLimit : BitVec 8
  completionTimeout : BitVec 8
  retryLimit : BitVec 8
  acceptMask : StationSet
  regions : Vector Region 8
  /-- R180: bits 15:0 the sixteen flags, 16 the result queue, 17 the notice queue. -/
  enables : BitVec 18
deriving DecidableEq, Repr

/-! ## Span interface (R2) -/

/-- The holding place of an offered frame (R2, R100). -/
inductive Place where
  | control
  | response
  /-- The request-queue entry in the storage place `slot`. -/
  | request (slot : Fin 16)
deriving DecidableEq, Repr

/-- The offer states of R2. -/
inductive OfferState where
  | none
  | offered
  | contending
  | sending
  | answer
deriving DecidableEq, Repr

/-- The phase of the span as this station follows it (R1, R4); `unsynced` until it has observed the span idle
after a reset (R2). -/
inductive SpanPhase where
  | unsynced
  | idle
  | contention
  | body
  | answer
deriving DecidableEq, Repr

/-- What the receive holding holds of the frame being received (R2, R4, R9): the bits of its body received so far (log 26),
the frame they are once its check has passed and it is recognised, the answer this station drove, and whether the unit that
chose it keeps a provisional take. -/
structure Received where
  bits : List Bool
  frame : Option Frame
  drove : Answer
  take : Bool
deriving DecidableEq, Repr

/-- The span interface (R2). The retransmission count of the offered frame stands in its holding place. -/
structure SpanInterface where
  phase : SpanPhase
  offer : Option Place
  offerState : OfferState
  received : Option Received
deriving DecidableEq, Repr

/-! ## Tag table (R20) -/

/-- The tag states of R20. -/
inductive TagState where
  | free
  | queued
  | held
  | sent
  | partialRead
  | stale
deriving DecidableEq, Repr

/-- The kinds of segment (R20). -/
inductive SegmentKind where
  | read
  | write
  | atomic
deriving DecidableEq, Repr

/-- A tag record (R20); an absent field is `none`, or 0 where R21 says "absent or 0". -/
structure TagRecord where
  state : TagState
  generation : Generation
  kind : Option SegmentKind
  target : Option Station
  length : Nat
  localOffset : Option Nat
  reserved : Nat
  received : Nat
  landed : Nat
  context : Option ContextNumber
  segment : Option Nat
  deadline : Option Micros
deriving DecidableEq, Repr

/-! ## Completion buffer and landing engine (R44, R51) -/

/-- A piece (R47). Its length and blocks are those of its data. -/
structure Piece where
  tag : Tag
  generation : Generation
  destination : Nat
  data : List Byte
deriving DecidableEq, Repr

/-- The piece being landed and the landing position (R51). -/
structure Landing where
  piece : Piece
  position : Nat
deriving DecidableEq, Repr

/-- The piece list, oldest first, and the landing engine. The reserved and occupied counts of R44 are computed. -/
structure CompletionBuffer where
  pieces : List Piece
  landing : Option Landing
deriving DecidableEq, Repr

/-! ## Inbound service (R69, R70, R71) -/

/-- The part of an inbound entry that depends on its kind (R69). -/
inductive InboundWork where
  | read (length : Nat)
  /-- The payload its pool blocks hold (R70). -/
  | write (payload : List Byte)
  | atomic (op : AtomicOp) (a b : Word)
deriving DecidableEq, Repr

/-- An inbound queue entry (R69). -/
structure InboundEntry where
  source : Station
  tag : Tag
  generation : Generation
  offset : Nat
  work : InboundWork
  begun : Bool
  orphaned : Bool
deriving DecidableEq, Repr

/-- The service of the head entry in progress: how many bytes of the request have been transferred (R73, R74)
and the bytes of the piece being filled. -/
structure Service where
  position : Nat
  piece : List Byte
deriving DecidableEq, Repr

/-- The inbound queue, head first, and the service in progress. -/
structure Inbound where
  queue : List InboundEntry
  service : Option Service
deriving DecidableEq, Repr

/-! ## Export store and arbiter (R84, R89) -/

/-- The export store: the bytes that are not 00h and the offsets of the LOST bytes, both in rising order. -/
structure Store where
  bytes : List Host.Cell
  lost : List Nat
deriving DecidableEq, Repr

/-- The claimants of R88, in the rotation order of R89. -/
inductive Claimant where
  | localPort
  | service
  | landing
  | issue
deriving DecidableEq, Repr

/-- A store transfer (R87): a READ of `count` bytes, a WRITE of the bytes named, an ATOMIC of one word. -/
inductive Transfer where
  | read (offset count : Nat)
  | write (cells : List Host.Cell)
  | atomic (offset : Nat) (op : AtomicOp) (a b : Word)
deriving DecidableEq, Repr

/-- The transfer granted and not yet completed, with its result (R87): the bytes read (of an ATOMIC, the old
word's), the parity verdict, and whether the claimant's work has ended so that the result is discarded (R92). -/
structure Granted where
  claimant : Claimant
  transfer : Transfer
  data : List Byte
  parityError : Bool
  discarded : Bool
deriving DecidableEq, Repr

/-- The store arbiter (R89): the grant pointer, the raised request of each claimant, and the store's business. -/
structure Arbiter where
  pointer : Claimant
  raisedLocal : Option Transfer
  raisedService : Option Transfer
  raisedLanding : Option Transfer
  raisedIssue : Option Transfer
  granted : Option Granted
deriving DecidableEq, Repr

/-! ## Sender (R100) -/

/-- The frames of the control slot (R103). -/
inductive ControlKind where
  | join
  | leave
deriving DecidableEq, Repr

/-- The control slot's frame with its retransmission count (R100). -/
structure ControlFrame where
  kind : ControlKind
  retransmissions : Nat
deriving DecidableEq, Repr

/-- A response-queue entry (R104). -/
structure ResponseEntry where
  frame : Frame
  retransmissions : Nat
deriving DecidableEq, Repr

/-- The unit to which an entry's outcome is handed (R107). -/
inductive Owner where
  | tag (t : Tag)
  | context (n : ContextNumber)
deriving DecidableEq, Repr

/-- The entry states of R107; a FILLING entry is copied from the own store at `source` upward (R97). -/
inductive EntryState where
  | filling (source : Nat) (length : Nat)
  | ready
  | held
deriving DecidableEq, Repr

/-- A request-queue entry (R107). `slot` names the storage place it occupies (log 18); the payload stands in the frame. -/
structure RequestEntry where
  slot : Fin 16
  frame : Frame
  owner : Owner
  state : EntryState
  retransmissions : Nat
  busyCount : Nat
  holdStart : Option Micros
  backoffExpiry : Option Micros
  /-- R112: the backoff expiry has been reached and did not end the entry. -/
  backoffReached : Bool
  withdrawn : Bool
deriving DecidableEq, Repr

/-- The three holding places (R100); the queues are oldest first. -/
structure Sender where
  control : Option ControlFrame
  responses : List ResponseEntry
  requests : List RequestEntry
deriving DecidableEq, Repr

/-! ## Peer table (R120) and notice unit (R135) -/

/-- The peer states of R120. -/
inductive PeerState where
  | unknown
  | present
  | absent
  | self
deriving DecidableEq, Repr

/-- A peer record (R120). -/
structure PeerRecord where
  state : PeerState
  joinCount : Nat
deriving DecidableEq, Repr

/-- A notice-queue entry (R135). -/
structure Notice where
  source : Station
  data : List Byte
deriving DecidableEq, Repr

/-- The notice queue, oldest first, and the pop latch, `none` being the empty entry (R135). -/
structure NoticeUnit where
  queue : List Notice
  latch : Option Notice
deriving DecidableEq, Repr

/-! ## Issue engine (R145) -/

/-- The statuses of R159 and R185. -/
inductive Status where
  | ok
  | refused
  | noStation
  | peerLost
  | timeout
  | targetBusy
  | spanFault
  | storeError
  | badCommand
  | notRunning
  | halted
deriving DecidableEq, Repr

/-- A command record (R147), with the field widths of R185. -/
structure CommandRecord where
  id : BitVec 8
  kind : BitVec 4
  target : BitVec 4
  remoteOffset : BitVec 16
  length : BitVec 16
  localOffset : BitVec 16
  operation : BitVec 2
  a : Word
  b : Word
  /-- Notice bytes 0 to 3, byte 0 in bits 7:0. -/
  noticeLow : Word
  /-- Notice bytes 4 to 7, byte 4 in bits 7:0. -/
  noticeHigh : Word
deriving DecidableEq, Repr

/-- The phases of a context in use (R157). -/
inductive ContextPhase where
  | issuing
  | outstanding
  | leave
deriving DecidableEq, Repr

/-- A command context in use (R157). -/
structure Context where
  number : ContextNumber
  phase : ContextPhase
  command : CommandRecord
  total : Nat
  next : Nat
  outstanding : Nat
  issuingFinished : Bool
  firstFailure : Option (Nat × Status)
  atomicValue : Option Word
deriving DecidableEq, Repr

/-- A result entry (R159). -/
structure Result where
  id : BitVec 8
  kind : BitVec 4
  status : Status
  bytesDone : Nat
  value : Word
deriving DecidableEq, Repr

/-- The resources the waiting segment was refused (R145, R155); none set outside WAITING. -/
structure WaitingFor where
  tag : Bool
  blocks : Bool
  entry : Bool
deriving DecidableEq, Repr

/-- The issue engine (R145). The contexts in use are listed in the order their commands were taken (R160);
a context not listed is FREE. -/
structure IssueEngine where
  staging : CommandRecord
  commands : List CommandRecord
  contexts : List Context
  current : Option ContextNumber
  waitingFor : WaitingFor
  /-- R156: the FILLING entry whose copy has begun. -/
  copying : Option (Fin 16)
  results : List Result
  /-- R162: `none` is the empty entry. -/
  latch : Option Result
deriving DecidableEq, Repr

/-! ## Incident unit (R176, R177) and local port (R95, R186) -/

/-- A valid last-unexpected-completion record (R177). -/
structure Unexpected where
  source : Station
  tag : Tag
  generation : Generation
  kind : CompletionKind
deriving DecidableEq, Repr

/-- The incident unit (R176, R177); counters and flags in the positions of R185. -/
structure Incidents where
  counters : Vector (BitVec 16) 13
  flags : BitVec 16
  lastUnexpected : Option Unexpected
deriving DecidableEq, Repr

/-- A store access the port holds (R95). -/
inductive HeldAccess where
  | read (offset : Nat)
  | write (offset : Nat) (data : Word) (enables : ByteEnables)
deriving DecidableEq, Repr

/-- How the last port access completed (R96, R186): the word of a read, and the error indication. -/
structure Completion where
  data : Option Word
  error : Bool
deriving DecidableEq, Repr

/-- The local port: the store access it holds, and the completion of the access that completed last. -/
structure Port where
  held : Option HeldAccess
  completed : Option Completion
deriving DecidableEq, Repr

/-! ## The whole station -/

/-- Everything the station holds, and the queue of commands that wait (log 1). -/
structure State where
  pending : List Instr
  /-- The time of the latest timed event (log 4). -/
  clock : Micros
  life : LifeCycle
  written : ConfigRecord
  inForce : ConfigRecord
  span : SpanInterface
  tags : Vector TagRecord 32
  buffer : CompletionBuffer
  inbound : Inbound
  store : Store
  arbiter : Arbiter
  sender : Sender
  peers : Vector PeerRecord 16
  notices : NoticeUnit
  issue : IssueEngine
  incidents : Incidents
  port : Port
deriving DecidableEq, Repr

/-- No event of the manual stops the block, so there is no fault: no command raises one. Safe: nothing is claimed of it. -/
inductive Fault
deriving DecidableEq, Repr

/-- The reasons a command is turned away by the model. -/
inductive Refusal where
  /-- Raised by exec's arm of a command that has no meaning yet, and by nothing else. Safe: the model stops. -/
  | notModelled (mnemonic : String)
deriving DecidableEq, Repr

/-! ## Reset values -/

/-- R61: a region after every reset. -/
def Region.reset : Region where
  enabled := false
  base := 0
  length := 0
  grantsRead := false
  grantsWrite := false
  grantsAtomic := false
  peerSet := 0

/-- R166: the configuration record after every reset. -/
def ConfigRecord.reset : ConfigRecord where
  commitmentLimit := 96
  completionTimeout := 8
  retryLimit := 7
  acceptMask := 0xFFFF
  regions := Vector.replicate 8 Region.reset
  enables := 0

/-- R2: the span interface after every reset. -/
def SpanInterface.reset : SpanInterface where
  phase := .unsynced
  offer := none
  offerState := .none
  received := none

/-- A FREE record of generation `g` (R20). -/
def TagRecord.freeOf (g : Generation) : TagRecord where
  state := .free
  generation := g
  kind := none
  target := none
  length := 0
  localOffset := none
  reserved := 0
  received := 0
  landed := 0
  context := none
  segment := none
  deadline := none

/-- R21: the tag table after every reset. -/
def resetTags : Vector TagRecord 32 :=
  Vector.replicate 32 (TagRecord.freeOf 0)

/-- R44, R51: the completion buffer after every reset. -/
def CompletionBuffer.reset : CompletionBuffer where
  pieces := []
  landing := none

/-- R69, R71: the inbound service after every reset. -/
def Inbound.reset : Inbound where
  queue := []
  service := none

/-- R86: the store after its initialization: every byte 00h and GOOD. -/
def Store.zeroed : Store where
  bytes := []
  lost := []

/-- R89: the arbiter after every reset. -/
def Arbiter.reset : Arbiter where
  pointer := .localPort
  raisedLocal := none
  raisedService := none
  raisedLanding := none
  raisedIssue := none
  granted := none

/-- R100: the sender after every reset. -/
def Sender.reset : Sender where
  control := none
  responses := []
  requests := []

/-- R120: the peer table after every reset and every START of the station with number `own`. -/
def resetPeers (own : Station) : Vector PeerRecord 16 :=
  (Vector.replicate 16 { state := .unknown, joinCount := 0 }).set own.val { state := .self, joinCount := 0 } own.isLt

/-- R135: the notice unit after every reset. -/
def NoticeUnit.reset : NoticeUnit where
  queue := []
  latch := none

/-- R145: the staging record after every reset; kind code 0 is READ. -/
def CommandRecord.reset : CommandRecord where
  id := 0
  kind := 0
  target := 0
  remoteOffset := 0
  length := 0
  localOffset := 0
  operation := 0
  a := 0
  b := 0
  noticeLow := 0
  noticeHigh := 0

/-- R155: not waiting. -/
def WaitingFor.nothing : WaitingFor where
  tag := false
  blocks := false
  entry := false

/-- R145: the issue engine after every reset. -/
def IssueEngine.reset : IssueEngine where
  staging := CommandRecord.reset
  commands := []
  contexts := []
  current := none
  waitingFor := WaitingFor.nothing
  copying := none
  results := []
  latch := none

/-- R176, R177: the incident unit after every reset. -/
def Incidents.reset : Incidents where
  counters := Vector.replicate 13 0
  flags := 0
  lastUnexpected := none

/-- R165: the life-cycle controller after a reset that leaves the station in `station` with number `own`. -/
def LifeCycle.resetTo (station : StationState) (own : Station) : LifeCycle where
  station := station
  haltCause := .none
  startStatus := .none
  number := own
  giveUp := none
  rstN := false

/-- The port after every reset: no access held. -/
def Port.reset : Port where
  held := none
  completed := none

/-- The station right after power-on reset (R174): in INIT, nothing listed in the store.
DESIGN CHOICE (log 11): the strap pins stand at 0. -/
def State.reset : State where
  pending := []
  clock := 0
  life := LifeCycle.resetTo .init 0
  written := ConfigRecord.reset
  inForce := ConfigRecord.reset
  span := SpanInterface.reset
  tags := resetTags
  buffer := CompletionBuffer.reset
  inbound := Inbound.reset
  store := Store.zeroed
  arbiter := Arbiter.reset
  sender := Sender.reset
  peers := resetPeers 0
  notices := NoticeUnit.reset
  issue := IssueEngine.reset
  incidents := Incidents.reset
  port := Port.reset

end Sys2Proof.Machine
end

