-- ==== Sys2Proof/Machine/Updates.lean ====
section
/-!
DEFINITION. Updates: one update of State for each of its fields. Sys2Proof/Laws/State.lean says what each leaves.
-/
namespace Sys2Proof.Machine.State

/-- Replace `pending`. -/
def withPending (s : State) (x : List Instr) : State := { s with pending := x }

/-- Replace `clock`. -/
def withClock (s : State) (x : Micros) : State := { s with clock := x }

/-- Replace `life`. -/
def withLife (s : State) (x : LifeCycle) : State := { s with life := x }

/-- Replace `written`. -/
def withWritten (s : State) (x : ConfigRecord) : State := { s with written := x }

/-- Replace `inForce`. -/
def withInForce (s : State) (x : ConfigRecord) : State := { s with inForce := x }

/-- Replace `span`. -/
def withSpan (s : State) (x : SpanInterface) : State := { s with span := x }

/-- Replace `tags`. -/
def withTags (s : State) (x : Vector TagRecord 32) : State := { s with tags := x }

/-- Replace `buffer`. -/
def withBuffer (s : State) (x : CompletionBuffer) : State := { s with buffer := x }

/-- Replace `inbound`. -/
def withInbound (s : State) (x : Inbound) : State := { s with inbound := x }

/-- Replace `store`. -/
def withStore (s : State) (x : Store) : State := { s with store := x }

/-- Replace `arbiter`. -/
def withArbiter (s : State) (x : Arbiter) : State := { s with arbiter := x }

/-- Replace `sender`. -/
def withSender (s : State) (x : Sender) : State := { s with sender := x }

/-- Replace `peers`. -/
def withPeers (s : State) (x : Vector PeerRecord 16) : State := { s with peers := x }

/-- Replace `notices`. -/
def withNotices (s : State) (x : NoticeUnit) : State := { s with notices := x }

/-- Replace `issue`. -/
def withIssue (s : State) (x : IssueEngine) : State := { s with issue := x }

/-- Replace `incidents`. -/
def withIncidents (s : State) (x : Incidents) : State := { s with incidents := x }

/-- Replace `port`. -/
def withPort (s : State) (x : Port) : State := { s with port := x }

end Sys2Proof.Machine.State
end

