-- ==== Sys2Proof/Machine/Flags.lean ====
section
/-!
DEFINITION. Flags: the incident unit's counters and sticky flags, the last-unexpected-completion record, and INTL (chapter 11).
-/
namespace Sys2Proof.Machine

/-- The sixteen incidents of section 11.1, in the order of R185. -/
inductive Incident where
  | segDelayed
  | busyReceived
  | damageSeen
  | lateCompletion
  | unexpectedCompletion
  | completionRefused
  | completionDropped
  | storeParity
  | commandOverflow
  | inboundBusyGiven
  | inboundRefusedGiven
  | noticeBusyGiven
  | peerLoss
  | duplicateStation
  | configLocked
  | halted
deriving DecidableEq, Repr

/-- R185: the position of an incident in the flags word, the enables and the clear mask, and of its counter. -/
def Incident.position : Incident → Nat
  | .segDelayed => 0
  | .busyReceived => 1
  | .damageSeen => 2
  | .lateCompletion => 3
  | .unexpectedCompletion => 4
  | .completionRefused => 5
  | .completionDropped => 6
  | .storeParity => 7
  | .commandOverflow => 8
  | .inboundBusyGiven => 9
  | .inboundRefusedGiven => 10
  | .noticeBusyGiven => 11
  | .peerLoss => 12
  | .duplicateStation => 13
  | .configLocked => 14
  | .halted => 15

/-- R176: a counter grows by 1 and stays at FFFFh. -/
def growCounter (c : BitVec 16) : BitVec 16 :=
  if c = 0xFFFF#16 then c else c + 1

/-- R176: a report sets the incident's flag and, if it is a counted one, grows its counter. -/
def Incidents.report (u : Incidents) (i : Incident) : Incidents :=
  { u with
    counters := if h : i.position < 13 then u.counters.set i.position (growCounter u.counters[i.position]) h else u.counters
    flags := u.flags ||| BitVec.twoPow 16 i.position }

/-- R177: an unexpected completion is counted, and fills the record if the record is empty. -/
def Incidents.reportUnexpected (u : Incidents) (x : Unexpected) : Incidents :=
  { u.report .unexpectedCompletion with
    lastUnexpected := match u.lastUnexpected with
      | some held => some held
      | none => some x }

/-- R179: a clear under a 17-bit mask. -/
def Incidents.clear (u : Incidents) (mask : Word) : Incidents where
  counters := u.counters.mapFinIdx (fun k c _ => if mask.getLsbD k then 0 else c)
  flags := u.flags &&& ~~~(mask.setWidth 16)
  lastUnexpected := if mask.getLsbD 16 then none else u.lastUnexpected

/-- One unit reports an incident to the incident unit (R176). -/
def State.report (s : State) (i : Incident) : State :=
  s.withIncidents (s.incidents.report i)

/-- R181: INTL is asserted. -/
def State.intl (s : State) : Bool :=
  (!s.issue.results.isEmpty && s.inForce.enables.getLsbD 16)
    || (!s.notices.queue.isEmpty && s.inForce.enables.getLsbD 17)
    || decide (s.incidents.flags &&& s.inForce.enables.setWidth 16 ≠ 0)

end Sys2Proof.Machine
end

