-- ==== Sys2Proof/Machine/StoreOps.lean ====
section
/-!
DEFINITION. StoreOps: the export store's bytes and their integrity, store transfers, and the arbiter (chapter 5).
-/
namespace Sys2Proof.Machine

/-! ## Memory: bytes and integrity (R84) -/

/-- What an offset reads as; an offset not listed reads 00h (log 12). -/
def readCells : List Host.Cell → Nat → Byte
  | [], _ => 0
  | (a, v) :: rest, o => if a = o then v else readCells rest o

/-- Write one byte, keeping the cells rising and without 00h. -/
def writeCell : List Host.Cell → Nat → Byte → List Host.Cell
  | [], o, v => if v = 0 then [] else [(o, v)]
  | (a, w) :: rest, o, v =>
    if o < a then (if v = 0 then (a, w) :: rest else (o, v) :: (a, w) :: rest)
    else if o = a then (if v = 0 then rest else (o, v) :: rest)
    else (a, w) :: writeCell rest o v

/-- Put an offset into a rising list. -/
def insertOffset : List Nat → Nat → List Nat
  | [], o => [o]
  | a :: rest, o => if o < a then o :: a :: rest else if o = a then a :: rest else a :: insertOffset rest o

/-- Strictly rising, from `low` upward. -/
def risingFrom : Nat → List Nat → Bool
  | _, [] => true
  | low, a :: rest => decide (low ≤ a) && risingFrom (a + 1) rest

/-- The canonical form of the store: offsets strictly rising and inside the store, no listed byte 00h. -/
def Memory.wf (st : Store) : Bool :=
  risingFrom 0 (st.bytes.map Prod.fst) && st.bytes.all (fun c => decide (c.1 < Config.storeBytes) && decide (c.2 ≠ 0))
    && risingFrom 0 st.lost && st.lost.all (fun o => decide (o < Config.storeBytes))

/-- The value of the byte at an offset (R84). -/
def Store.byte (st : Store) (offset : Nat) : Byte :=
  readCells st.bytes offset

/-- The byte at an offset is LOST (R84). -/
def Store.isLost (st : Store) (offset : Nat) : Bool :=
  st.lost.contains offset

/-- R84: a write gives the byte its value and leaves it GOOD. There is no byte beyond offset 65535. -/
def Store.writeByte (st : Store) (offset : Nat) (value : Byte) : Store :=
  if offset < Config.storeBytes then
    { bytes := writeCell st.bytes offset value, lost := st.lost.filter (fun o => o != offset) }
  else st

/-- R85: a byte passes from GOOD to LOST and holds `value` from then on. -/
def Store.loseByte (st : Store) (offset : Nat) (value : Byte) : Store :=
  if offset < Config.storeBytes then
    { bytes := writeCell st.bytes offset value, lost := insertOffset st.lost offset }
  else st

/-- The bytes of a range, in ascending offset. -/
def Store.readRange (st : Store) (offset count : Nat) : List Byte :=
  (List.range count).map (fun i => st.byte (offset + i))

/-- R94: some byte of a range is LOST. -/
def Store.rangeLost (st : Store) (offset count : Nat) : Bool :=
  (List.range count).any (fun i => st.isLost (offset + i))

/-- Write cells one after another. -/
def Store.writeCells (st : Store) (cells : List Host.Cell) : Store :=
  cells.foldl (fun acc c => acc.writeByte c.1 c.2) st

/-- The cells of bytes laid from `offset` upward. -/
def cellsAt (offset : Nat) : List Byte → List Host.Cell
  | [] => []
  | b :: rest => (offset, b) :: cellsAt (offset + 1) rest

/-- R95: the cells a local write names: the bytes of the word whose lanes are enabled. -/
def laneCells (offset : Nat) (data : Word) (enables : ByteEnables) : List Host.Cell :=
  (List.range 4).filterMap (fun n => if enables.getLsbD n then some (offset + n, byteOf data n) else none)

/-! ## Transfers (R87, R93, R94) -/

/-- R76, R93: the word an ATOMIC leaves, or `none` where it writes nothing. -/
def atomicResult (op : AtomicOp) (a b old : Word) : Option Word :=
  match op with
  | .fetchAdd => some (old + a)
  | .swap => some a
  | .compareSwap => if old = a then some b else none

/-- R87: the bytes a transfer returns. -/
def Transfer.data (tr : Transfer) (st : Store) : List Byte :=
  match tr with
  | .read offset count => st.readRange offset count
  | .write _ => []
  | .atomic offset _ _ _ => st.readRange offset 4

/-- R94: the verdict of a checked read is a parity error. A WRITE is not checked. -/
def Transfer.parityError (tr : Transfer) (st : Store) : Bool :=
  match tr with
  | .read offset count => st.rangeLost offset count
  | .write _ => false
  | .atomic offset _ _ _ => st.rangeLost offset 4

/-- R87, R93: the store after a transfer's grant. -/
def Transfer.effect (tr : Transfer) (st : Store) : Store :=
  match tr with
  | .read _ _ => st
  | .write cells => st.writeCells cells
  | .atomic offset op a b =>
    if st.rangeLost offset 4 then st
    else match atomicResult op a b (wordOfBytes (st.readRange offset 4)) with
      | some w => st.writeCells (cellsAt offset (bytesOfWord w))
      | none => st

/-! ## Arbiter (R89, R90, R92) -/

/-- R89: the rotation order. -/
def Claimant.following : Claimant → Claimant
  | .localPort => .service
  | .service => .landing
  | .landing => .issue
  | .issue => .localPort

/-- R89: the four claimants in priority, from the grant pointer round the rotation. -/
def Claimant.rotation (c : Claimant) : List Claimant :=
  [c, c.following, c.following.following, c.following.following.following]

/-- The raised request of a claimant. -/
def Arbiter.raised (a : Arbiter) : Claimant → Option Transfer
  | .localPort => a.raisedLocal
  | .service => a.raisedService
  | .landing => a.raisedLanding
  | .issue => a.raisedIssue

/-- Set or take away the raised request of a claimant. -/
def Arbiter.setRaised (a : Arbiter) (c : Claimant) (tr : Option Transfer) : Arbiter :=
  match c with
  | .localPort => { a with raisedLocal := tr }
  | .service => { a with raisedService := tr }
  | .landing => { a with raisedLanding := tr }
  | .issue => { a with raisedIssue := tr }

/-- R90: the claimant to grant: the first in priority whose request is raised. -/
def Arbiter.choice (a : Arbiter) : Option Claimant :=
  a.pointer.rotation.find? (fun c => (a.raised c).isSome)

/-- R88: the claimant has a request raised or granted. -/
def Arbiter.occupied (a : Arbiter) (c : Claimant) : Bool :=
  (a.raised c).isSome || (match a.granted with
    | some g => decide (g.claimant = c)
    | none => false)

/-- R92: the claimant's work has ended: its raised request is withdrawn, and the result of a granted transfer
will be discarded. -/
def Arbiter.abandon (a : Arbiter) (c : Claimant) : Arbiter :=
  { a.setRaised c none with
    granted := a.granted.map (fun g => if g.claimant = c then { g with discarded := true } else g) }

/-- A claimant raises a request (R88). -/
def State.raise (s : State) (c : Claimant) (tr : Transfer) : State :=
  s.withArbiter (s.arbiter.setRaised c (some tr))

/-- The store is no longer busy (R87). -/
def State.storeIdle (s : State) : State :=
  s.withArbiter { s.arbiter with granted := none }

end Sys2Proof.Machine
end

