-- ==== Sys2Proof/Machine/Ops.lean ====
section
/-!
DEFINITION. Ops: the operations that commands share: configured values, the offer, tags, request-queue entries, contexts and
results, the end of a segment, cleanup for a peer, entry to HALTED, the resets.
-/
namespace Sys2Proof.Machine

/-- The outcome of a command: a next state. -/
abbrev Next := Host.Outcome State Fault Refusal

/-- A command whose condition holds has its effect; otherwise the event does not take place (log 2). -/
def whenever (c : Bool) (s t : State) : Next :=
  if c then .next t else .next s

/-! ## Configured values (R166: every unit uses the copy in force) -/

/-- The completion timeout in force, in microseconds (R37). -/
def State.timeout (s : State) : Micros :=
  s.inForce.completionTimeout.toNat * Config.microsPerMilli

/-- The retry limit in force (R17). -/
def State.retryLimit (s : State) : Nat :=
  s.inForce.retryLimit.toNat

/-- R4: the states in which the station checks, answers and reports frames. -/
def StationState.onSpan : StationState → Bool
  | .joining => true
  | .running => true
  | .leaving => true
  | _ => false

/-- R175: RST_N is not asserted, so the units work. -/
def State.awake (s : State) : Bool :=
  !s.life.rstN

/-- The granted transfer of a claimant, if the store is busy with one; while RST_N is asserted none completes (R175). -/
def State.grantedTo (s : State) (c : Claimant) : Option Granted :=
  s.arbiter.granted.filter (fun g => s.awake && decide (g.claimant = c))

/-- The station passes to a state (R165). -/
def State.enter (s : State) (x : StationState) : State :=
  s.withLife { s.life with station := x }

/-! ## Counts of the completion buffer and the payload pool (R44, R70) -/

/-- R44: the blocks reserved: the sum of the reserved fields of all tags. -/
def State.reservedBlocks (s : State) : Nat :=
  (s.tags.toList.map TagRecord.reserved).sum

/-- R47: the blocks of a piece. -/
def Piece.blocks (p : Piece) : Nat :=
  blocksFor p.data.length

/-- R44: the blocks occupied: those of every listed piece and of the piece being landed. -/
def CompletionBuffer.occupied (b : CompletionBuffer) : Nat :=
  (b.pieces.map Piece.blocks).sum + (match b.landing with
    | some l => l.piece.blocks
    | none => 0)

/-- R44: the blocks that can still be reserved. -/
def State.availableBlocks (s : State) : Nat :=
  s.inForce.commitmentLimit.toNat - s.reservedBlocks - s.buffer.occupied

/-- R69, R70: the pool blocks an inbound entry holds. -/
def InboundEntry.poolBlocks (e : InboundEntry) : Nat :=
  match e.work with
  | .write payload => blocksFor payload.length
  | .read _ => 0
  | .atomic _ _ _ => 0

/-- R70: the free blocks of the payload pool. -/
def Inbound.poolFree (b : Inbound) : Nat :=
  Config.poolBlocks - (b.queue.map InboundEntry.poolBlocks).sum

/-! ## The offer (R101, R109) -/

/-- R107: an entry's target key; `none` is ALL. -/
def RequestEntry.key (e : RequestEntry) : Option Station :=
  e.frame.body.target

/-- R109, the first two conditions: READY, or HELD with its backoff expiry reached; not withdrawn. -/
def RequestEntry.sendable (e : RequestEntry) : Bool :=
  !e.withdrawn && (match e.state with
    | .ready => true
    | .held => e.backoffReached
    | .filling _ _ => false)

/-- R109: the oldest eligible entry, given the keys of the entries already passed over. -/
def firstEligible (older : List (Option Station)) : List RequestEntry → Option RequestEntry
  | [] => none
  | e :: rest => if e.sendable && !older.contains e.key then some e else firstEligible (e.key :: older) rest

/-- R101: the holding place whose frame the sender chooses to offer. -/
def Sender.choice (d : Sender) : Option Place :=
  if d.control.isSome then some .control
  else if !d.responses.isEmpty then some .response
  else (firstEligible [] d.requests).map (fun e => .request e.slot)

/-- R2: the offer is fixed for a contention. -/
def OfferState.isFixed : OfferState → Bool
  | .none => false
  | .offered => false
  | .contending => true
  | .sending => true
  | .answer => true

/-- R101: while the offer is not fixed it is the one the choice names. DESIGN CHOICE (log 5): R2 and R102 fix an offer at once
where the span is idle; here it stays OFFERED, free to be replaced or withdrawn, until a CONTENTION command begins the
contention. -/
def SpanInterface.follow (u : SpanInterface) (choice : Option Place) : SpanInterface :=
  if u.offerState.isFixed then u
  else { u with offer := choice, offerState := if choice.isSome then .offered else .none }

/-- Bring the offer up to date with the holding places (R101). -/
def State.refreshOffer (s : State) : State :=
  s.withSpan (s.span.follow s.sender.choice)

/-- R11, R103: the frame of the control slot. -/
def controlFrame (own : Station) (c : ControlFrame) : Frame :=
  { source := own, body := match c.kind with
    | .join => .join
    | .leave => .leave }

/-- The request-queue entry in a storage place. -/
def Sender.entryAt (d : Sender) (slot : Fin 16) : Option RequestEntry :=
  d.requests.find? (fun e => e.slot == slot)

/-- The frame the span interface holds as its offer (R2). -/
def State.offeredFrame (s : State) : Option Frame :=
  match s.span.offer with
  | none => none
  | some .control => s.sender.control.map (controlFrame s.life.number)
  | some .response => s.sender.responses.head?.map ResponseEntry.frame
  | some (.request slot) => (s.sender.entryAt slot).map RequestEntry.frame

/-- The frame of the request-queue entry is fixed on the span (R116). -/
def State.fixedOn (s : State) (slot : Fin 16) : Bool :=
  s.span.offerState.isFixed && decide (s.span.offer = some (.request slot))

/-! ## Request-queue entries (R107, R116) -/

/-- Replace the request queue. -/
def State.withRequests (s : State) (q : List RequestEntry) : State :=
  s.withSender { s.sender with requests := q }

/-- Change the entry in a storage place. -/
def State.updateEntry (s : State) (slot : Fin 16) (f : RequestEntry → RequestEntry) : State :=
  s.withRequests (s.sender.requests.map (fun e => if e.slot = slot then f e else e))

/-- R156: no copy is under way. -/
def State.noCopy (s : State) : State :=
  s.withIssue { s.issue with copying := none }

/-- R97: if the entry's payload is being copied, its copy stops: a raised request is withdrawn, and the result of a
granted transfer will be discarded. -/
def State.stopCopyOf (s : State) (slot : Fin 16) : State :=
  if s.issue.copying = some slot then
    s.noCopy.withArbiter (s.arbiter.abandon .issue)
  else s

/-- An entry leaves the list; one whose frame is fixed on the span is marked withdrawn instead and stays (R116). -/
def State.removeEntry (s : State) (slot : Fin 16) : State :=
  let s := s.stopCopyOf slot
  if s.fixedOn slot then s.updateEntry slot (fun e => { e with withdrawn := true })
  else s.withRequests (s.sender.requests.filter (fun e => e.slot != slot))

/-- R116: at the end of an attempt a withdrawn entry leaves the list. -/
def State.dropWithdrawn (s : State) : State :=
  s.withRequests (s.sender.requests.filter (fun e => !e.withdrawn))

/-- The entry in the list whose owner is tag `t`; a withdrawn entry's owner has been dealt with (R116). -/
def Sender.entryOf (d : Sender) (t : Tag) : Option RequestEntry :=
  d.requests.find? (fun e => decide (e.owner = .tag t) && !e.withdrawn)

/-- The entry of a tag leaves the list, if the tag has one. -/
def State.removeEntryOf (s : State) (t : Tag) : State :=
  match s.sender.entryOf t with
  | some e => s.removeEntry e.slot
  | none => s

/-! ## Tags (R20, R22) -/

/-- Replace a tag record. -/
def State.setTag (s : State) (t : Tag) (r : TagRecord) : State :=
  s.withTags (s.tags.set t.val r t.isLt)

/-- The record of a tag. -/
def State.tagAt (s : State) (t : Tag) : TagRecord :=
  s.tags[t.val]

/-- R22: a record that enters FREE has its generation grown by 1 modulo 4. -/
def TagRecord.freed (r : TagRecord) : TagRecord :=
  TagRecord.freeOf (r.generation + 1)

/-- R37: the record turns STALE, and its deadline becomes the expiry plus one completion timeout. -/
def TagRecord.turnedStale (r : TagRecord) (timeout : Micros) : TagRecord :=
  { r with
    state := .stale
    reserved := 0
    context := none
    segment := none
    deadline := r.deadline.map (fun d => d + timeout) }

/-- R42, R43: the tag states of a segment in flight. -/
def TagState.inFlight : TagState → Bool
  | .queued => true
  | .held => true
  | .sent => true
  | .partialRead => true
  | .free => false
  | .stale => false

/-- The tag's request frame has not been accepted: the tag is QUEUED or HELD. -/
def TagState.waitsToGo : TagState → Bool
  | .queued => true
  | .held => true
  | _ => false

/-- All tags, in rising order. -/
def allTags : List Tag :=
  List.finRange 32

/-- R23: the FREE tag with the lowest number. -/
def State.lowestFreeTag (s : State) : Option Tag :=
  allTags.find? (fun t => decide ((s.tagAt t).state = .free))

/-- R50: the tag's pieces whose landing has not begun leave the piece list. -/
def State.dropPieces (s : State) (t : Tag) (g : Generation) : State :=
  s.withBuffer { s.buffer with pieces := s.buffer.pieces.filter (fun p => !(decide (p.tag = t) && decide (p.generation = g))) }

/-! ## Contexts and results (R157 to R160) -/

/-- The context of a number, if it is in use. -/
def IssueEngine.context (e : IssueEngine) (n : ContextNumber) : Option Context :=
  e.contexts.find? (fun c => c.number == n)

/-- Change the context of a number. -/
def State.updateContext (s : State) (n : ContextNumber) (f : Context → Context) : State :=
  s.withIssue { s.issue with contexts := s.issue.contexts.map (fun c => if c.number = n then f c else c) }

/-- R157: an issued segment reaches its context: one fewer outstanding; the old value of an ATOMIC is taken. -/
def Context.accounted (c : Context) (value : Option Word) : Context :=
  { c with outstanding := c.outstanding - 1, atomicValue := match value with
    | some w => some w
    | none => c.atomicValue }

/-- R158: the first failure is that of the lowest-index failed segment. -/
def lowerFailure (held : Option (Nat × Status)) (k : Nat) (st : Status) : Option (Nat × Status) :=
  match held with
  | none => some (k, st)
  | some (j, old) => if k < j then some (k, st) else some (j, old)

/-- R158: a failed segment finishes the command's issuing. -/
def Context.failed (c : Context) (k : Nat) (st : Status) : Context :=
  { c with
    firstFailure := lowerFailure c.firstFailure k st
    issuingFinished := true
    phase := .outstanding }

/-- R155: what the engine waits for; nothing outside WAITING. -/
def State.withWaiting (s : State) (w : WaitingFor) : State :=
  s.withIssue { s.issue with waitingFor := w }

/-- R158: when the current command's issuing finishes there is no current command, and a wait ends. -/
def State.issuingEnds (s : State) (n : ContextNumber) : State :=
  if s.issue.current = some n then
    s.withIssue { s.issue with current := none, waitingFor := WaitingFor.nothing }
  else s

/-- R28: a tag is withdrawn: its entry leaves, its reservation and pieces are given back, it becomes FREE, and its
context hears that the segment is no longer outstanding. -/
def State.withdrawTag (s : State) (t : Tag) : State :=
  let r := s.tagAt t
  let s := ((s.removeEntryOf t).dropPieces t r.generation).setTag t r.freed
  match r.context with
  | some n => s.updateContext n (fun c => c.accounted none)
  | none => s

/-- R114: the tag belongs to a segment of context `n` later than segment `k` whose entry is in the request queue. -/
def TagRecord.isLaterOf (r : TagRecord) (n : ContextNumber) (k : Nat) : Bool :=
  r.state.waitsToGo && decide (r.context = some n) && (match r.segment with
    | some j => decide (k < j)
    | none => false)

/-- R114: the entries of the later segments of a failed segment's command are removed, and their tags withdrawn. -/
def State.withdrawLater (s : State) (n : ContextNumber) (k : Nat) : State :=
  allTags.foldl (fun acc t => if (acc.tagAt t).isLaterOf n k then acc.withdrawTag t else acc) s

/-- R158: a segment of a command fails. -/
def State.failSegment (s : State) (n : ContextNumber) (k : Nat) (st : Status) : State :=
  ((s.updateContext n (fun c => c.failed k st)).issuingEnds n).withdrawLater n k

/-- R157: an end report reaches the context. -/
def State.reportEnd (s : State) (n : ContextNumber) (k : Nat) (st : Status) (value : Option Word) : State :=
  let s := s.updateContext n (fun c => c.accounted value)
  if st = .ok then s else s.failSegment n k st

/-- R40, R41: the segment of a tag ends with a status: its entry, if it still has one, leaves; its reservation and
its pieces not begun are given back unless it ends OK; the tag becomes STALE for TIMEOUT and FREE otherwise; the end
report goes to its context. -/
def State.endSegment (s : State) (t : Tag) (st : Status) (value : Option Word) : State :=
  let r := s.tagAt t
  let s := s.removeEntryOf t
  let s := if st = .ok then s else s.dropPieces t r.generation
  let s := s.setTag t (if st = .timeout then r.turnedStale s.timeout else r.freed)
  match r.context, r.segment with
  | some n, some k => s.reportEnd n k st value
  | _, _ => s

/-- R144: a NOTICE entry leaves, and its command hears its status. -/
def State.endNotice (s : State) (slot : Fin 16) (n : ContextNumber) (st : Status) : State :=
  (s.removeEntry slot).reportEnd n 0 st none

/-- The owner of an entry hears that the entry has ended with a status (R107). -/
def State.endEntry (s : State) (e : RequestEntry) (st : Status) : State :=
  match e.owner with
  | .tag t => s.endSegment t st none
  | .context n => s.endNotice e.slot n st

/-- R159: bytes done of a command, by its kind code. -/
def Context.bytesDone (c : Context) : Nat :=
  match c.firstFailure with
  | some (k, _) => if c.command.kind = 0 ∨ c.command.kind = 1 then Config.segmentBytes * k else 0
  | none =>
    if c.command.kind = 0 ∨ c.command.kind = 1 then c.command.length.toNat
    else if c.command.kind = 2 then 4
    else if c.command.kind = 3 then 8
    else 0

/-- R159: the result of a context. -/
def Context.result (c : Context) : Result where
  id := c.command.id
  kind := c.command.kind
  status := match c.firstFailure with
    | some (_, st) => st
    | none => .ok
  bytesDone := c.bytesDone
  value := match c.firstFailure, c.atomicValue with
    | none, some w => w
    | _, _ => 0

/-- R159: the context's result is due: issuing finished and no segment outstanding. -/
def Context.isDone (c : Context) : Bool :=
  c.issuingFinished && decide (c.outstanding = 0)

/-- R160: the results due join the result queue in the order their commands were taken, and their contexts become FREE. -/
def State.produceResults (s : State) : State :=
  s.withIssue { s.issue with
    contexts := s.issue.contexts.filter (fun c => !c.isDone)
    results := s.issue.results ++ (s.issue.contexts.filter Context.isDone).map Context.result }

/-! ## Cleanup (R125, R129) and the peer table (R120) -/

/-- The record of a station. -/
def State.peerAt (s : State) (n : Station) : PeerRecord :=
  s.peers[n.val]

/-- Replace the record of a station. -/
def State.setPeer (s : State) (n : Station) (p : PeerRecord) : State :=
  s.withPeers (s.peers.set n.val p n.isLt)

/-- R42: what cleanup for a station does to one tag. -/
def State.cleanTag (s : State) (peer : Station) (t : Tag) : State :=
  if (s.tagAt t).target = some peer then
    if (s.tagAt t).state.inFlight then s.endSegment t .peerLost none
    else if (s.tagAt t).state = .stale then s.setTag t (s.tagAt t).freed
    else s
  else s

/-- R42: the tag table's part of a cleanup. -/
def State.cleanTags (s : State) (peer : Station) : State :=
  allTags.foldl (fun acc t => acc.cleanTag peer t) s

/-- R115: no entry with the peer's key stays in the request queue. -/
def State.cleanRequests (s : State) (peer : Station) : State :=
  s.withRequests (s.sender.requests.filter (fun e => e.key != some peer))

/-- R106: every completion to the peer leaves the response queue. -/
def State.cleanResponses (s : State) (peer : Station) : State :=
  s.withSender { s.sender with responses := s.sender.responses.filter (fun r => r.frame.body.target != some peer) }

/-- R79: what becomes of one inbound entry at a removal for its source. -/
def InboundEntry.removed (e : InboundEntry) : Option InboundEntry :=
  if e.begun then some { e with orphaned := true }
  else match e.work with
    | .write _ => some e
    | .read _ => none
    | .atomic _ _ _ => none

/-- R79: the inbound service's part of a cleanup. -/
def State.cleanInbound (s : State) (peer : Station) : State :=
  s.withInbound { s.inbound with
    queue := s.inbound.queue.filterMap (fun e => if e.source = peer then e.removed else some e) }

/-- R125, R126: cleanup for a peer, one event. -/
def State.cleanup (s : State) (peer : Station) : State :=
  ((((s.cleanTags peer).cleanRequests peer).cleanResponses peer).cleanInbound peer).report .peerLoss

/-- R155: the engine is WAITING. -/
def IssueEngine.isWaiting (e : IssueEngine) : Bool :=
  e.waitingFor.tag || e.waitingFor.blocks || e.waitingFor.entry

/-- R147: the command is a READ, WRITE or ATOMIC: it has a target. -/
def CommandRecord.hasTarget (c : CommandRecord) : Bool :=
  decide (c.kind = 0) || decide (c.kind = 1) || decide (c.kind = 2)

/-- The target of a command record as a station number. -/
def CommandRecord.targetStation (c : CommandRecord) : Station :=
  c.target.toFin

/-- R129: the waiting segment of a command to a peer that becomes ABSENT ends NO_STATION without a claim. -/
def State.endWaitFor (s : State) (peer : Station) : State :=
  match s.issue.current with
  | none => s
  | some n =>
    match s.issue.context n with
    | none => s
    | some c =>
      if s.issue.isWaiting && c.command.hasTarget && decide (c.command.targetStation = peer) then
        s.failSegment n c.next .noStation
      else s

/-- R123, R124: a peer becomes ABSENT, always with a cleanup for it. -/
def State.markAbsent (s : State) (peer : Station) : State :=
  ((s.setPeer peer { s.peerAt peer with state := .absent }).endWaitFor peer).cleanup peer

/-- R124: a SILENT report for a station. The SELF record never changes (R120). -/
def State.silentReport (s : State) (peer : Station) : State :=
  if peer = s.life.number then s else s.markAbsent peer

/-- R121: a JOIN of a peer is observed. -/
def State.observeJoin (s : State) (peer : Station) : State :=
  let p := s.peerAt peer
  let t := s.setPeer peer { state := .present, joinCount := min (p.joinCount + 1) Config.joinCountMax }
  if p.state = .present then t.cleanup peer else t

/-- R121: a frame of any kind but JOIN and LEAVE of a peer is observed. -/
def State.observeOther (s : State) (peer : Station) : State :=
  s.setPeer peer { s.peerAt peer with state := .present }

/-! ## Entry to HALTED (R173) -/

/-- R43: what entry to HALTED does to one tag. -/
def State.haltTag (s : State) (t : Tag) : State :=
  if (s.tagAt t).state.inFlight then s.endSegment t .halted none
  else if (s.tagAt t).state = .stale then s.setTag t (s.tagAt t).freed
  else s

/-- R43: the tag table at entry to HALTED. -/
def State.haltTags (s : State) : State :=
  allTags.foldl (fun acc t => acc.haltTag t) s

/-- R118, R144: a NOTICE entry fails HALTED; a withdrawn entry's owner has been dealt with (R116). -/
def State.haltNotice (s : State) (e : RequestEntry) : State :=
  match e.owner with
  | .context n => if e.withdrawn then s else s.endNotice e.slot n .halted
  | .tag _ => s

/-- R118, R144: every NOTICE entry fails HALTED. -/
def State.haltNotices (s : State) : State :=
  s.sender.requests.foldl State.haltNotice s

/-- R155, R163: the current command's next segment, waiting or about to be issued, ends HALTED without a claim (log 15). -/
def State.haltCurrent (s : State) : State :=
  match s.issue.current with
  | none => s
  | some n =>
    match s.issue.context n with
    | none => s.issuingEnds n
    | some c => s.failSegment n c.next .halted

/-- R152: the LEAVE context ends with a status. -/
def State.endLeave (s : State) (st : Status) : State :=
  s.withIssue { s.issue with contexts := s.issue.contexts.map (fun c =>
    if c.phase = .leave then
      { c with issuingFinished := true, firstFailure := if st = .ok then none else some (0, st) }
    else c) }

/-- R131, R173: the halt cause is recorded and the flags are set. -/
def State.recordHalt (s : State) (cause : HaltCause) : State :=
  let t := s.withLife { s.life with station := .halted, haltCause := cause, giveUp := none }
  (if cause = .duplicate then t.report .duplicateStation else t).report .halted

/-- R19: the offer is withdrawn, and nothing is received any more. -/
def State.haltSpan (s : State) : State :=
  s.withSpan { s.span with offer := none, offerState := .none, received := none }

/-- R43, R163: every segment, notice and LEAVE in progress ends HALTED, and no copy goes on. -/
def State.haltWork (s : State) : State :=
  ((s.haltCurrent.haltTags.haltNotices).endLeave .halted).noCopy

/-- R80, R98, R118: the requests of SERVICE and ISSUE are withdrawn; the inbound queue and the sender are emptied. -/
def State.haltQueues (s : State) : State :=
  ((s.withArbiter ((s.arbiter.abandon .issue).abandon .service)).withInbound Inbound.reset).withSender Sender.reset

/-- R173: entry to HALTED with a cause, one event over every unit. -/
def State.enterHalted (s : State) (cause : HaltCause) : State :=
  (s.recordHalt cause).haltSpan.haltWork.haltQueues

/-! ## Resets (R174, R175) -/

/-- R174, R175: every unit at its reset value; the store and its integrity are kept, and so are the waiting commands and
the time. The station comes out in `station` with number `own`. -/
def State.resetUnits (s : State) (station : StationState) (own : Station) : State :=
  ((((State.reset.withPending s.pending).withClock s.clock).withStore s.store).withLife
    (LifeCycle.resetTo station own)).withPeers (resetPeers own)

/-! ## Time (log 4) -/

/-- Time does not run backwards: an event at `time` finds the clock at least there. -/
def State.advance (s : State) (time : Micros) : State :=
  s.withClock (max s.clock time)

end Sys2Proof.Machine
end

