-- ==== Sys2Proof/Machine/Service.lean ====
section
/-!
DEFINITION. Service: the stretches of store transfers, and the beginning of an inbound request's service (R53, R71 to R76, R97).
-/
namespace Sys2Proof.Machine

/-! ## Stretches of store transfers (R53, R73, R74, R97) -/

/-- R53, R73, R74, R97: a transfer covers what remains, up to the next block boundary. -/
def chunk (offset remaining : Nat) : Nat :=
  min remaining (nextBoundary offset - offset)

/-- R53, R73: the WRITE of the bytes of `data` from `position` upward, laid from `base`. -/
def writeChunk (base position : Nat) (data : List Byte) : Transfer :=
  .write (cellsAt (base + position) ((data.drop position).take (chunk (base + position) (data.length - position))))

/-- R74, R97: the READ from `base + position` upward, with `remaining` bytes to go. -/
def readChunk (base position remaining : Nat) : Transfer :=
  .read (base + position) (chunk (base + position) remaining)

/-! ## The beginning of a service (R71, R72) -/

/-- R69: the bytes a request covers. -/
def InboundWork.length : InboundWork → Nat
  | .read length => length
  | .write payload => payload.length
  | .atomic _ _ _ => 4

/-- R72: the response-queue entries a service can need. -/
def InboundWork.completions : InboundWork → Nat
  | .read length => if length ≤ Config.pieceBytes then 1 else 2
  | .write _ => 0
  | .atomic _ _ _ => 1

/-- R72: the response queue has a free entry for each completion a service can need; a WRITE needs none. -/
def Sender.hasRoomFor (d : Sender) (w : InboundWork) : Bool :=
  decide (w.completions ≤ Config.responseEntries - d.responses.length)

/-- R74: the bytes from `position` to the end of its piece. -/
def pieceRemaining (position length : Nat) : Nat :=
  min (length - position) (Config.pieceBytes - position % Config.pieceBytes)

/-- R73, R74, R76: the transfer a service makes at `position`. -/
def InboundEntry.transferAt (e : InboundEntry) (position : Nat) : Transfer :=
  match e.work with
  | .read length => readChunk e.offset position (pieceRemaining position length)
  | .write payload => writeChunk e.offset position payload
  | .atomic op a b => .atomic e.offset op a b

/-- R71: the service stands at `position`, with the bytes of the piece being filled, and raises its transfer. -/
def State.serveAt (s : State) (e : InboundEntry) (position : Nat) (piece : List Byte) : State :=
  (s.withInbound { s.inbound with service := some { position := position, piece := piece } }).raise .service
    (e.transferAt position)

/-- R71: the head's service begins. -/
def State.serviceBegun (s : State) (e : InboundEntry) : State :=
  (s.withInbound { s.inbound with queue := { e with begun := true } :: s.inbound.queue.tail }).serveAt e 0 []

/-- R71, R72: the head's service has not begun, and the response queue has room for it. -/
def State.serviceMayBegin (s : State) (e : InboundEntry) : Bool :=
  !e.begun && s.sender.hasRoomFor e.work

/-- R71: the service engine begins the head's service as soon as its condition holds. -/
def State.turnService (s : State) : State :=
  match s.inbound.queue.head? with
  | some e => if s.serviceMayBegin e then s.serviceBegun e else s
  | none => s

end Sys2Proof.Machine
end

