-- ==== Sys2Proof/Machine/Issue.lean ====
section
/-!
DEFINITION. Issue: the segments of a command, the claim of a segment's resources, the wait for them, and the end of every
event (R153 to R155, R160, R101).
-/
namespace Sys2Proof.Machine

/-! ## Segments (R153) -/

/-- R153: the segments of a command. -/
def CommandRecord.segments (c : CommandRecord) : Nat :=
  if c.kind = 0 ∨ c.kind = 1 then (c.length.toNat + 255) / Config.segmentBytes else 1

/-- R153: the length of segment k: 4 for an ATOMIC. -/
def CommandRecord.segmentLength (c : CommandRecord) (k : Nat) : Nat :=
  if c.kind = 2 then 4 else min Config.segmentBytes (c.length.toNat - Config.segmentBytes * k)

/-- R153: the remote offset of segment k. -/
def CommandRecord.segmentRemote (c : CommandRecord) (k : Nat) : Nat :=
  c.remoteOffset.toNat + Config.segmentBytes * k

/-- R153: the local offset of segment k. -/
def CommandRecord.segmentLocal (c : CommandRecord) (k : Nat) : Nat :=
  c.localOffset.toNat + Config.segmentBytes * k

/-- R46, R154: the completion-buffer blocks segment k asks for. -/
def CommandRecord.segmentBlocks (c : CommandRecord) (k : Nat) : Nat :=
  if c.kind = 0 then blocksFor (c.segmentLength k) else if c.kind = 2 then 1 else 0

/-- R20: the kind of a command's segments. -/
def CommandRecord.segmentKind (c : CommandRecord) : SegmentKind :=
  if c.kind = 0 then .read else if c.kind = 1 then .write else .atomic

/-- R147: the atomic operation of a command that passed R150's check. -/
def CommandRecord.atomicOp (c : CommandRecord) : AtomicOp :=
  (atomicOpOfCode c.operation.toNat).getD .fetchAdd

/-- R12, R147: operand B travels for COMPARE_SWAP only. -/
def CommandRecord.sentB (c : CommandRecord) : Word :=
  if c.atomicOp = .compareSwap then c.b else 0

/-- The 8 notice bytes in order (R147, R185). -/
def CommandRecord.noticeBytes (c : CommandRecord) : List Byte :=
  bytesOfWord c.noticeLow ++ bytesOfWord c.noticeHigh

/-- R12, R108: the frame of segment k under a tag; a WR_REQ's payload comes with its copy. -/
def CommandRecord.segmentBody (c : CommandRecord) (k : Nat) (tag : Tag) (g : Generation) : FrameBody :=
  let offset := BitVec.ofNat 16 (c.segmentRemote k)
  let length := BitVec.ofNat 16 (c.segmentLength k)
  match c.segmentKind with
  | .read => .rdReq c.targetStation tag g offset length
  | .write => .wrReq c.targetStation tag g offset length []
  | .atomic => .atReq c.targetStation tag g offset c.atomicOp c.a c.sentB

/-! ## The claim (R154, R155) -/

/-- R107: the lowest-numbered free storage place of the request queue (log 18). -/
def Sender.freeSlot (d : Sender) : Option (Fin 16) :=
  (List.finRange 16).find? (fun n => (d.entryAt n).isNone)

/-- R107: a new entry joins the tail of the request queue. -/
def State.appendEntry (s : State) (slot : Fin 16) (body : FrameBody) (owner : Owner) (x : EntryState) : State :=
  s.withRequests (s.sender.requests ++ [{
    slot := slot
    frame := { source := s.life.number, body := body }
    owner := owner
    state := x
    retransmissions := 0
    busyCount := 0
    holdStart := none
    backoffExpiry := none
    backoffReached := false
    withdrawn := false }])

/-- R23: the record of a tag granted for segment k of a command. -/
def CommandRecord.grantedTag (c : CommandRecord) (k : Nat) (g : Generation) (n : ContextNumber) : TagRecord where
  state := .queued
  generation := g
  kind := some c.segmentKind
  target := some c.targetStation
  length := c.segmentLength k
  localOffset := if c.kind = 0 then some (c.segmentLocal k) else none
  reserved := c.segmentBlocks k
  received := 0
  landed := 0
  context := some n
  segment := some k
  deadline := none

/-- R154: the context after segment `next` is issued. -/
def Context.issued (c : Context) : Context :=
  let finished := decide (c.next + 1 = c.total)
  { c with
    next := c.next + 1
    outstanding := c.outstanding + 1
    issuingFinished := c.issuingFinished || finished
    phase := if finished then .outstanding else c.phase }

/-- R154: a segment is issued: its context counts it; after the last there is no current command, and a wait ends. -/
def State.segmentIssued (s : State) (c : Context) : State :=
  let s := (s.updateContext c.number Context.issued).withWaiting WaitingFor.nothing
  if c.next + 1 = c.total then s.issuingEnds c.number else s

/-- R107: a WR_REQ joins FILLING, every other frame READY. -/
def CommandRecord.entryState (c : CommandRecord) (k : Nat) : EntryState :=
  if c.kind = 1 then .filling (c.segmentLocal k) (c.segmentLength k) else .ready

/-- R23, R46, R107, R154: the grant of a READ, WRITE or ATOMIC segment. -/
def State.grantSegment (s : State) (c : Context) (t : Tag) (slot : Fin 16) : State :=
  let g := (s.tagAt t).generation
  let s := s.setTag t (c.command.grantedTag c.next g c.number)
  let s := s.appendEntry slot (c.command.segmentBody c.next t g) (.tag t) (c.command.entryState c.next)
  s.segmentIssued c

/-- R143: the grant of a NOTICE's entry. -/
def State.grantNotice (s : State) (c : Context) (slot : Fin 16) : State :=
  (s.appendEntry slot (.notice c.command.noticeBytes) (.context c.number) .ready).segmentIssued c

/-- R155: the resources the next segment of a command is refused. -/
def State.refused (s : State) (c : Context) : WaitingFor where
  tag := c.command.hasTarget && s.lowestFreeTag.isNone
  blocks := c.command.hasTarget && decide (s.availableBlocks < c.command.segmentBlocks c.next)
  entry := decide (Config.requestEntries ≤ s.sender.requests.length)

/-- R155: some resource is refused. -/
def WaitingFor.any (w : WaitingFor) : Bool :=
  w.tag || w.blocks || w.entry

/-- R155: the engine enters WAITING, or stays there; the episode is counted once. -/
def State.delaySegment (s : State) (w : WaitingFor) : State :=
  (if s.issue.isWaiting then s else s.report .segDelayed).withWaiting w

/-- R154: every resource asked is available: all are granted. -/
def State.grant (s : State) (c : Context) : State :=
  match s.sender.freeSlot with
  | none => s
  | some slot =>
    if c.command.hasTarget then
      match s.lowestFreeTag with
      | some t => s.grantSegment c t slot
      | none => s
    else s.grantNotice c slot

/-- R129: the target's record is ABSENT. -/
def State.targetAbsent (s : State) (c : CommandRecord) : Bool :=
  c.hasTarget && decide ((s.peerAt c.targetStation).state = .absent)

/-- R129, R154, R155: the issue engine asks for the next segment of a command. -/
def State.issueSegment (s : State) (c : Context) : State :=
  if s.targetAbsent c.command then s.failSegment c.number c.next .noStation
  else if (s.refused c).any then s.delaySegment (s.refused c)
  else s.grant c

/-- The context of the current command. -/
def IssueEngine.currentContext (e : IssueEngine) : Option Context :=
  e.current.bind e.context

/-- R154: the next segment of the current command. -/
def State.issueNext (s : State) : State :=
  match s.issue.currentContext with
  | some c => s.issueSegment c
  | none => s

/-! ## The end of an event (R71, R101, R155, R160) -/

/-- R155: a waiting engine asks again for the same segment. It waits in RUNNING alone, since it issues in no other state.
Asked at an event that returned nothing, the request is refused as before, and nothing changes. -/
def State.askAgain (s : State) : State :=
  if s.life.station = .running ∧ s.issue.isWaiting = true then s.issueNext else s

/-- What every event ends with: the results it makes due (R160), the waiting segment asked for again (R155), a result that
this makes due, the offer its changes call for (R101), and the service of a head that it left to begin (R71). Where one event
returns a resource and also ends the wait, the end of the wait comes first (log 24); where one frees response-queue entries and
also removes the head, the removal comes first (log 25). -/
def State.settle (s : State) : State :=
  s.produceResults.askAgain.produceResults.refreshOffer.turnService

end Sys2Proof.Machine
end

