-- ==== Sys2Proof/Machine/Commands.lean ====
section
/-!
DEFINITION. Commands: the meanings of the issue of a segment and of the takes of the local commands (chapter 9).
-/
namespace Sys2Proof.Machine

/-! ## The issue of a segment (R154) -/

/-- R154: without a current command no segment is issued. -/
def execSegmentIssue (s : State) : Next :=
  whenever (s.awake && s.issue.currentContext.isSome) s s.issueNext.settle

/-! ## Takes (R148 to R150) -/

/-- R148: the station is in a state in which commands are taken. -/
def StationState.takes : StationState → Bool
  | .running => true
  | .leaving => true
  | .detached => true
  | .halted => true
  | _ => false

/-- R148: the further conditions of a FENCE and a LEAVE. -/
def State.earlierWorkDone (s : State) (c : CommandRecord) : Bool :=
  (decide (c.kind ≠ 4) || s.issue.contexts.isEmpty)
    && (decide (c.kind ≠ 5) || (s.issue.contexts.isEmpty && s.sender.requests.isEmpty))

/-- R148: the head of the command queue can be taken. -/
def State.mayTake (s : State) (c : CommandRecord) : Bool :=
  s.awake && s.issue.current.isNone && s.life.station.takes
    && decide (s.issue.contexts.length + s.issue.results.length < Config.resultPlaces) && s.earlierWorkDone c

/-- R148: the command taken, if the head has a kind that the row names and can be taken. -/
def State.taken (s : State) (kinds : BitVec 4 → Bool) : Option CommandRecord :=
  s.issue.commands.head?.filter (fun c => kinds c.kind && s.mayTake c)

/-- R148: the head leaves the command queue. -/
def State.dequeue (s : State) : State :=
  s.withIssue { s.issue with commands := s.issue.commands.tail }

/-- R149 to R151: a command settled at its take: its result joins the result queue, and its context is FREE again. -/
def State.settleAtTake (s : State) (c : CommandRecord) (st : Status) : State :=
  s.withIssue { s.issue with results := s.issue.results ++ [{
    id := c.id
    kind := c.kind
    status := st
    bytesDone := 0
    value := 0 }] }

/-- R150: the check of a READ or WRITE. -/
def CommandRecord.badTransfer (c : CommandRecord) (own : Station) : Bool :=
  decide (c.targetStation = own) || decide (c.length.toNat = 0) || decide (Config.commandBytes < c.length.toNat)
    || decide (Config.storeBytes < c.remoteOffset.toNat + c.length.toNat)
    || decide (Config.storeBytes < c.localOffset.toNat + c.length.toNat)

/-- R150: the check of an ATOMIC. -/
def CommandRecord.badAtomic (c : CommandRecord) (own : Station) : Bool :=
  decide (c.targetStation = own) || decide (c.remoteOffset.toNat % 4 ≠ 0) || (atomicOpOfCode c.operation.toNat).isNone

/-- R150: a condition of the check holds. -/
def CommandRecord.bad (c : CommandRecord) (own : Station) : Bool :=
  if c.kind = 0 ∨ c.kind = 1 then c.badTransfer own
  else if c.kind = 2 then c.badAtomic own
  else decide (5 < c.kind.toNat)

/-- R149, R150: a take: NOT_RUNNING outside RUNNING, BAD_COMMAND on a failed check, and otherwise the kind's own effect. -/
def State.take (s : State) (c : CommandRecord) (run : State → CommandRecord → State) : State :=
  if s.life.station = .running then
    if c.bad s.life.number then s.dequeue.settleAtTake c .badCommand else run s.dequeue c
  else s.dequeue.settleAtTake c .notRunning

/-- R148: the take of the head, if the row names its kind and it can be taken; otherwise nothing happens (log 2). -/
def takeCommand (kinds : BitVec 4 → Bool) (run : State → CommandRecord → State) (s : State) : Next :=
  match s.taken kinds with
  | some c => .next (s.take c run).settle
  | none => .next s

/-- R148: the FREE context with the lowest number. -/
def IssueEngine.freeContext (e : IssueEngine) : ContextNumber :=
  ((List.finRange 32).find? (fun n => (e.context n).isNone)).getD 0

/-- R157: a context enters use; a LEAVE has no segment and nothing to issue. -/
def State.openContext (s : State) (c : CommandRecord) (phase : ContextPhase) : State :=
  s.withIssue { s.issue with contexts := s.issue.contexts ++ [{
    number := s.issue.freeContext
    phase := phase
    command := c
    total := c.segments
    next := 0
    outstanding := 0
    issuingFinished := false
    firstFailure := none
    atomicValue := none }] }

/-- R150: the command becomes current, with its context in the ISSUING phase; nothing waits. -/
def State.makeCurrent (s : State) (c : CommandRecord) : State :=
  let n := s.issue.freeContext
  let s := s.openContext c .issuing
  s.withIssue { s.issue with current := some n, waitingFor := WaitingFor.nothing }

/-- R152: the station passes to LEAVING, and the LEAVE's context stays in use. -/
def State.beginLeave (s : State) (c : CommandRecord) : State :=
  (s.openContext c .leave).enter .leaving

/-- R150, R153: a READ becomes current; its segments follow by SEGMENT_ISSUE. -/
def execReadCommand (s : State) : Next :=
  takeCommand (fun k => decide (k = 0)) State.makeCurrent s

/-- R150, R153: a WRITE becomes current; its segments follow by SEGMENT_ISSUE. -/
def execWriteCommand (s : State) : Next :=
  takeCommand (fun k => decide (k = 1)) State.makeCurrent s

/-- R147, R150, R154: an ATOMIC becomes current and asks for its one segment. -/
def execAtomicCommand (s : State) : Next :=
  takeCommand (fun k => decide (k = 2)) (fun t c => (t.makeCurrent c).issueNext) s

/-- R143: a NOTICE becomes current and asks for its entry. -/
def execNoticeCommand (s : State) : Next :=
  takeCommand (fun k => decide (k = 3)) (fun t c => (t.makeCurrent c).issueNext) s

/-- R151: a FENCE ends OK at its take. -/
def execFenceCommand (s : State) : Next :=
  takeCommand (fun k => decide (k = 4)) (fun t c => t.settleAtTake c .ok) s

/-- R152: a LEAVE moves the station to LEAVING. -/
def execLeaveCommand (s : State) : Next :=
  takeCommand (fun k => decide (k = 5)) State.beginLeave s

/-- R149, R150: a record whose kind code names no kind never passes the check. -/
def execCommandOfNoKind (s : State) : Next :=
  takeCommand (fun k => decide (5 < k.toNat)) (fun t c => t.settleAtTake c .badCommand) s

end Sys2Proof.Machine
end

