-- ==== Sys2Proof/Machine/Engines.lean ====
section
/-!
DEFINITION. Engines: the meanings of the moves of the copy, the service engine and the landing engine (R52 to R54, R71 to R77, R97).
-/
namespace Sys2Proof.Machine

/-- The bytes a WRITE transfer names. -/
def Transfer.bytesWritten : Transfer → Nat
  | .read _ _ => 0
  | .write cells => cells.length
  | .atomic _ _ _ _ => 0

/-! ## Copy of a WRITE payload (R97, R156) -/

/-- The payload a WR_REQ frame carries so far. -/
def FrameBody.payload : FrameBody → List Byte
  | .wrReq _ _ _ _ _ payload => payload
  | _ => []

/-- R97: copied bytes join the payload of a WR_REQ. -/
def FrameBody.withCopied (b : FrameBody) (data : List Byte) : FrameBody :=
  match b with
  | .wrReq t tag g offset length payload => .wrReq t tag g offset length (payload ++ data)
  | _ => b

/-- R107: the entry is FILLING. -/
def EntryState.isFilling : EntryState → Bool
  | .filling _ _ => true
  | _ => false

/-- R97: the next copy transfer of a FILLING entry. -/
def RequestEntry.copyTransfer (e : RequestEntry) : Option Transfer :=
  match e.state with
  | .filling source length =>
    let position := (FrameBody.payload e.frame.body).length
    some (readChunk source position (length - position))
  | _ => none

/-- R156: the next FILLING entry, in claim order. -/
def Sender.nextFilling (d : Sender) : Option RequestEntry :=
  d.requests.find? (fun e => e.state.isFilling)

/-- R156: no copy is under way, and the ISSUE claimant has no transfer (R88). -/
def State.copyIsIdle (s : State) : Bool :=
  s.awake && s.issue.copying.isNone && !s.arbiter.occupied .issue

/-- R97: the copy of an entry raises a transfer. -/
def State.raiseCopy (s : State) (e : RequestEntry) : State :=
  match e.copyTransfer with
  | some tr => (s.withIssue { s.issue with copying := some e.slot }).raise .issue tr
  | none => s

/-- R156. -/
def execCopyBegin (s : State) : Next :=
  match s.sender.nextFilling with
  | some e => whenever s.copyIsIdle s (s.raiseCopy e)
  | none => .next s

/-- R97: the entry after a clean transfer. -/
def RequestEntry.copied (e : RequestEntry) (data : List Byte) : RequestEntry :=
  { e with frame := { e.frame with body := FrameBody.withCopied e.frame.body data } }

/-- R97: the entry's whole payload has been copied. -/
def RequestEntry.copyDone (e : RequestEntry) : Bool :=
  match e.state with
  | .filling _ length => decide (length ≤ (FrameBody.payload e.frame.body).length)
  | _ => true

/-- R97: a clean transfer: the copy goes on, or ends with the entry READY. -/
def State.copyCarried (s : State) (e : RequestEntry) (data : List Byte) : State :=
  let e := e.copied data
  if e.copyDone then
    (s.updateEntry e.slot (fun _ => { e with state := .ready })).noCopy
  else (s.updateEntry e.slot (fun _ => e)).raiseCopy e

/-- R97, R116: the entry being copied; the copy of a withdrawn entry has stopped. -/
def State.copiedEntry (s : State) : Option RequestEntry :=
  (s.issue.copying.bind s.sender.entryAt).filter (fun e => !e.withdrawn)

/-- R97: the result of a copy transfer reaches the entry being copied; a parity error ends the segment STORE_ERROR. -/
def State.copyCompleted (s : State) (g : Granted) : State :=
  match s.copiedEntry with
  | some e => if g.parityError then s.endEntry e .storeError else s.copyCarried e g.data
  | none => s

/-- R92, R97: a transfer completes; a discarded result reaches nothing. -/
def execCopyTransferComplete (s : State) : Next :=
  match s.grantedTo .issue with
  | some g => .next (if g.discarded then s.storeIdle else (s.storeIdle.copyCompleted g).settle)
  | none => .next s

/-! ## Service of inbound requests (R71 to R78) -/

/-- R71: the row of the move that every event ends with (`State.turnService`): where an event has made it, nothing is left to
begin (log 3). -/
def execServiceBegin (s : State) : Next :=
  whenever s.awake s s.turnService

/-- R78, R79: a completion of an entry joins the response queue; an orphaned service's is discarded. -/
def State.appendCompletion (s : State) (e : InboundEntry) (body : FrameBody) : State :=
  if e.orphaned then s
  else s.withSender { s.sender with responses := s.sender.responses ++ [{
    frame := { source := s.life.number, body := body }
    retransmissions := 0 }] }

/-- R71: the service ends: the head leaves the queue with its pool blocks. -/
def State.serviceEnded (s : State) : State :=
  s.withInbound { queue := s.inbound.queue.tail, service := none }

/-- R75, R77: one FAIL ends the service. -/
def State.serviceFailed (s : State) (e : InboundEntry) : State :=
  (s.appendCompletion e (.fail e.source e.tag e.generation)).serviceEnded

/-- R73: a WRITE transfer of the payload is done: the next follows, or the service ends. -/
def State.writeServed (s : State) (e : InboundEntry) (v : Service) (count : Nat) : State :=
  let position := v.position + count
  if e.work.length ≤ position then s.serviceEnded else s.serveAt e position []

/-- R74: a piece is complete at `position`. -/
def pieceComplete (position length : Nat) : Bool :=
  decide (position % Config.pieceBytes = 0) || decide (length ≤ position)

/-- R13, R74: the RD_DATA of the piece that ends at `position`. -/
def InboundEntry.pieceBody (e : InboundEntry) (position : Nat) (piece : List Byte) : FrameBody :=
  .rdData e.source e.tag e.generation (decide (Config.pieceBytes ≤ position - piece.length))
    (decide (e.work.length ≤ position)) piece

/-- R74, R75: a READ transfer is done. -/
def State.readServed (s : State) (e : InboundEntry) (v : Service) (g : Granted) : State :=
  let position := v.position + g.data.length
  let piece := v.piece ++ g.data
  if g.parityError then s.serviceFailed e
  else if pieceComplete position e.work.length then
    let s := s.appendCompletion e (e.pieceBody position piece)
    if e.work.length ≤ position then s.serviceEnded else s.serveAt e position []
  else s.serveAt e position piece

/-- R76, R77: the ATOMIC transfer is done. -/
def State.atomicServed (s : State) (e : InboundEntry) (g : Granted) : State :=
  if g.parityError then s.serviceFailed e
  else (s.appendCompletion e (.atData e.source e.tag e.generation (wordOfBytes g.data))).serviceEnded

/-- R71, R92: the result of a SERVICE transfer reaches the service in progress; a discarded one reaches nothing. -/
def State.serviceResult (s : State) (g : Granted) (act : State → InboundEntry → Service → State) : State :=
  let s := s.storeIdle
  if g.discarded then s
  else match s.inbound.queue.head?, s.inbound.service with
    | some e, some v => (act s e v).settle
    | _, _ => s

/-- R73. -/
def execServiceWriteTransferComplete (s : State) : Next :=
  match s.grantedTo .service with
  | none => .next s
  | some g =>
    match g.transfer with
    | .write cells => .next (s.serviceResult g (fun t e v => t.writeServed e v cells.length))
    | _ => .next s

/-- R74. -/
def execServiceReadTransferComplete (s : State) : Next :=
  match s.grantedTo .service with
  | none => .next s
  | some g =>
    match g.transfer with
    | .read _ _ => .next (s.serviceResult g (fun t e v => t.readServed e v g))
    | _ => .next s

/-- R76, R77. -/
def execAtomicTransferComplete (s : State) : Next :=
  match s.grantedTo .service with
  | none => .next s
  | some g =>
    match g.transfer with
    | .atomic _ _ _ _ => .next (s.serviceResult g (fun t e _ => t.atomicServed e g))
    | _ => .next s

/-! ## Landing (R52 to R54) -/

/-- R53: the landing stands at `position` and raises its transfer. -/
def State.landAt (s : State) (p : Piece) (position : Nat) : State :=
  (s.withBuffer { s.buffer with landing := some { piece := p, position := position } }).raise .landing
    (writeChunk p.destination position p.data)

/-- R52: the head piece becomes the current piece. -/
def State.landingBegun (s : State) (p : Piece) : State :=
  (s.withBuffer { s.buffer with pieces := s.buffer.pieces.tail }).landAt p 0

/-- R52: the landing engine is idle. -/
def State.landingIsIdle (s : State) : Bool :=
  s.awake && s.buffer.landing.isNone && !s.arbiter.occupied .landing

/-- R52. -/
def execLandingBegin (s : State) : Next :=
  match s.buffer.pieces.head? with
  | some p => whenever s.landingIsIdle s (s.landingBegun p)
  | none => .next s

/-- R36: the landing report of a piece. -/
def State.landingReported (s : State) (p : Piece) : State :=
  let r := s.tagAt p.tag
  if r.state = .partialRead ∧ r.generation = p.generation then
    let s := s.setTag p.tag { r with landed := r.landed + p.data.length }
    if r.landed + p.data.length = r.length then s.endSegment p.tag .ok none else s
  else s

/-- R52, R54: the engine that turns idle takes the head of the list, if the list is not empty. -/
def State.takeNextPiece (s : State) : State :=
  match s.buffer.pieces.head? with
  | some p => s.landingBegun p
  | none => s

/-- R54: the landing of the piece ends: its blocks are free, it is reported, and the next piece is taken. -/
def State.landingEnded (s : State) (p : Piece) : State :=
  ((s.withBuffer { s.buffer with landing := none }).landingReported p).takeNextPiece.settle

/-- R53, R54: a LANDING transfer of `count` bytes is done. -/
def State.landed (s : State) (l : Landing) (count : Nat) : State :=
  let position := l.position + count
  if l.piece.data.length ≤ position then s.landingEnded l.piece else s.landAt l.piece position

/-- R53, R54. -/
def execLandingTransferComplete (s : State) : Next :=
  match s.grantedTo .landing with
  | none => .next s
  | some g =>
    match s.buffer.landing with
    | some l => .next (s.storeIdle.landed l g.transfer.bytesWritten)
    | none => .next s.storeIdle

end Sys2Proof.Machine
end

