-- ==== Sys2Proof/Machine/Operands.lean ====
section
/-!
DEFINITION. Operands: the words of the control window, as they read and as a write changes them (R146, R166, R185, R186).
-/
namespace Sys2Proof.Machine

/-! ## Codes (R185) -/

/-- Put field values at their bit positions. -/
def packFields (fields : List (Nat × Nat)) : Word :=
  fields.foldr (fun f acc => (BitVec.ofNat 32 f.1 <<< f.2) ||| acc) 0

/-- A flag as a field value. -/
def flagValue (b : Bool) : Nat :=
  if b then 1 else 0

/-- Station state codes. -/
def StationState.code : StationState → Nat
  | .init => 0
  | .config => 1
  | .joining => 2
  | .running => 3
  | .leaving => 4
  | .detached => 5
  | .halted => 6

/-- Halt cause codes. -/
def HaltCause.code : HaltCause → Nat
  | .none => 0
  | .joinRetry => 1
  | .leaveRetry => 2
  | .duplicate => 3

/-- Start status codes. -/
def StartStatus.code : StartStatus → Nat
  | .none => 0
  | .started => 1
  | .invalid _ => 2

/-- Invalid item codes; 0 where there is none (R167). -/
def StartStatus.itemCode : StartStatus → Nat
  | .invalid .commitmentLimit => 0
  | .invalid .completionTimeout => 1
  | .invalid .retryLimit => 2
  | .invalid (.region _) => 3
  | .none => 0
  | .started => 0

/-- Invalid region; 0 for the other items (R167). -/
def StartStatus.regionCode : StartStatus → Nat
  | .invalid (.region n) => n.val
  | _ => 0

/-- Result status codes. -/
def Status.code : Status → Nat
  | .ok => 0
  | .refused => 1
  | .noStation => 2
  | .peerLost => 3
  | .timeout => 4
  | .targetBusy => 5
  | .spanFault => 6
  | .storeError => 7
  | .badCommand => 8
  | .notRunning => 9
  | .halted => 10

/-- Peer state codes. -/
def PeerState.code : PeerState → Nat
  | .unknown => 0
  | .present => 1
  | .absent => 2
  | .self => 3

/-- Completion kind codes. -/
def completionKindCode : CompletionKind → Nat
  | .rdData => 0
  | .atData => 1
  | .fail => 2

/-- The service engine's states (R71). -/
inductive ServiceState where
  | idle
  | waiting
  | serving
deriving DecidableEq, Repr

/-- R71: the service engine's state, read from the queue: a head not begun waits for room in the response queue, since every event
begins the service of a head that has room (`State.turnService`). -/
def Inbound.engineState (b : Inbound) : ServiceState :=
  match b.queue with
  | [] => .idle
  | e :: _ => if e.begun then .serving else .waiting

/-- Service engine state codes. -/
def ServiceState.code : ServiceState → Nat
  | .idle => 0
  | .waiting => 1
  | .serving => 2

/-- The issue engine's states (R145). -/
inductive IssueState where
  | idle
  | takeWait
  | issuing
  | waiting
deriving DecidableEq, Repr

/-- R145: the issue engine's state, read from the current command, the wait and the command queue (log 3). -/
def IssueEngine.engineState (e : IssueEngine) : IssueState :=
  match e.current with
  | some _ => if e.isWaiting then .waiting else .issuing
  | none => if e.commands.isEmpty then .idle else .takeWait

/-- Issue engine state codes. -/
def IssueState.code : IssueState → Nat
  | .idle => 0
  | .takeWait => 1
  | .issuing => 2
  | .waiting => 3

/-- Control slot codes (R119). -/
def controlSlotCode : Option ControlFrame → Nat
  | none => 0
  | some c => match c.kind with
    | .join => 1
    | .leave => 2

/-- Offer source codes (R119). -/
def offerSourceCode : Option Place → Nat
  | none => 0
  | some .control => 1
  | some .response => 2
  | some (.request _) => 3

/-! ## Words as they read -/

/-- A configuration or region word of a record. -/
def ConfigRecord.read (c : ConfigRecord) : ConfigWord → Word
  | .config0 =>
    packFields [(c.commitmentLimit.toNat, 0), (c.completionTimeout.toNat, 8), (c.retryLimit.toNat, 16)]
  | .acceptMask => c.acceptMask.setWidth 32
  | .regionA n => let r := c.regions[n.val]; packFields [(r.base.toNat, 0), (r.peerSet.toNat, 16)]
  | .regionB n =>
    let r := c.regions[n.val]
    packFields [(r.length.toNat, 0), (flagValue r.enabled, 24), (flagValue r.grantsRead, 25),
      (flagValue r.grantsWrite, 26), (flagValue r.grantsAtomic, 27)]

/-- A staging word of the staging record (R146). -/
def CommandRecord.read (c : CommandRecord) (n : Fin 7) : Word :=
  match n.val with
  | 0 => packFields [(c.id.toNat, 0), (c.kind.toNat, 8), (c.target.toNat, 12), (c.operation.toNat, 16)]
  | 1 => packFields [(c.remoteOffset.toNat, 0), (c.length.toNat, 16)]
  | 2 => c.localOffset.setWidth 32
  | 3 => c.a
  | 4 => c.b
  | 5 => c.noticeLow
  | _ => c.noticeHigh

/-- The empty mark of both pop words (R185). -/
def emptyMark : Word :=
  0x80000000#32

/-- The result pop word of an entry (R162). -/
def resultWord : Option Result → Word
  | none => emptyMark
  | some r => packFields [(r.id.toNat, 0), (r.kind.toNat, 8), (r.status.code, 16)]

/-- The notice pop word of an entry (R140). -/
def noticeWord : Option Notice → Word
  | none => emptyMark
  | some n => packFields [(n.source.val, 0)]

/-- The result data words (R162): bytes done, value; 0 of the empty entry. -/
def resultDataWord (latch : Option Result) (n : Fin 2) : Word :=
  match latch with
  | none => 0
  | some r => if n.val = 0 then BitVec.ofNat 32 r.bytesDone else r.value

/-- The notice data words (R140): bytes 0 to 3, bytes 4 to 7; 0 of the empty entry. -/
def noticeDataWord (latch : Option Notice) (n : Fin 2) : Word :=
  match latch with
  | none => 0
  | some x => wordOfBytes ((x.data.drop (4 * n.val)).take 4)

/-- R165: the station state word. -/
def LifeCycle.read (l : LifeCycle) : Word :=
  packFields [(l.station.code, 0), (l.haltCause.code, 4), (l.startStatus.code, 8), (l.startStatus.itemCode, 12),
    (l.startStatus.regionCode, 16), (l.number.val, 24)]

/-- R59: the buffer status word. -/
def State.bufferStatus (s : State) : Word :=
  packFields [(s.reservedBlocks, 0), (s.buffer.occupied, 8), (s.buffer.pieces.length, 16),
    (flagValue s.buffer.landing.isSome, 23), (s.inForce.commitmentLimit.toNat, 24)]

/-- R83: the inbound status word. -/
def Inbound.status (b : Inbound) : Word :=
  packFields [(b.queue.length, 0), (b.poolFree, 8), (b.engineState.code, 16), (match b.queue with
    | [] => 0
    | e :: _ => e.source.val, 20)]

/-- R119: the sender status word. -/
def State.senderStatus (s : State) : Word :=
  packFields [(controlSlotCode s.sender.control, 0), (s.sender.responses.length, 4), (s.sender.requests.length, 12),
    ((s.sender.requests.filter (fun e => decide (e.state = .held))).length, 20), (offerSourceCode s.span.offer, 28)]

/-- R164: the issue status word. -/
def IssueEngine.status (e : IssueEngine) : Word :=
  packFields [(e.commands.length, 0), (e.contexts.length, 8), (e.results.length, 16), (e.engineState.code, 24),
    (flagValue e.waitingFor.tag, 28), (flagValue e.waitingFor.blocks, 29), (flagValue e.waitingFor.entry, 30)]

/-- R134: a peer status word. -/
def PeerRecord.read (p : PeerRecord) : Word :=
  packFields [(p.state.code, 0), (p.joinCount, 8)]

/-- R177, R178: the last-unexpected-completion word. -/
def unexpectedWord : Option Unexpected → Word
  | none => 0
  | some x => packFields [(x.source.val, 0), (x.tag.val, 4), (x.generation.val, 9), (completionKindCode x.kind, 12), (1, 31)]

/-- R185, R186: what a read of a control word returns; of a pop word, what the pop at that moment returns. -/
def State.readControl (s : State) : ControlWord → Word
  | .stationState => s.life.read
  | .start => 0
  | .softReset => 0
  | .config w => s.written.read w
  | .interruptEnables => s.written.enables.setWidth 32
  | .staging n => s.issue.staging.read n
  | .post => 0
  | .resultPop => resultWord s.issue.results.head?
  | .resultData n => resultDataWord s.issue.latch n
  | .noticePop => noticeWord s.notices.queue.head?
  | .noticeData n => noticeDataWord s.notices.latch n
  | .bufferStatus => s.bufferStatus
  | .inboundStatus => s.inbound.status
  | .senderStatus => s.senderStatus
  | .noticeCount => BitVec.ofNat 32 s.notices.queue.length
  | .issueStatus => s.issue.status
  | .peerStatus n => (s.peerAt n).read
  | .counter k => s.incidents.counters[k.val].setWidth 32
  | .flags => s.incidents.flags.setWidth 32
  | .lastUnexpected => unexpectedWord s.incidents.lastUnexpected
  | .clearMask => 0

/-! ## Writes -/

/-- The fields of region word A take a word's bits (R185). -/
def Region.setA (r : Region) (w : Word) : Region :=
  { r with base := w.extractLsb' 0 16, peerSet := w.extractLsb' 16 16 }

/-- The fields of region word B take a word's bits (R185). -/
def Region.setB (r : Region) (w : Word) : Region :=
  { r with
    length := w.extractLsb' 0 17
    enabled := w.getLsbD 24
    grantsRead := w.getLsbD 25
    grantsWrite := w.getLsbD 26
    grantsAtomic := w.getLsbD 27 }

/-- The items a configuration word holds take a word's bits (R166, R185). -/
def ConfigRecord.set (c : ConfigRecord) (cw : ConfigWord) (w : Word) : ConfigRecord :=
  match cw with
  | .config0 =>
    { c with
      commitmentLimit := w.extractLsb' 0 8
      completionTimeout := w.extractLsb' 8 8
      retryLimit := w.extractLsb' 16 8 }
  | .acceptMask => { c with acceptMask := w.extractLsb' 0 16 }
  | .regionA n => { c with regions := c.regions.set n.val (c.regions[n.val].setA w) n.isLt }
  | .regionB n => { c with regions := c.regions.set n.val (c.regions[n.val].setB w) n.isLt }

/-- R166, R186: a write to a configuration word under byte enables. -/
def ConfigRecord.write (c : ConfigRecord) (cw : ConfigWord) (data : Word) (enables : ByteEnables) : ConfigRecord :=
  c.set cw (mergeLanes (c.read cw) data enables)

/-- R180, R186: the interrupt enables after a write under byte enables. -/
def mergeEnables (old : BitVec 18) (data : Word) (enables : ByteEnables) : BitVec 18 :=
  (mergeLanes (old.setWidth 32) data enables).setWidth 18

/-- The fields a staging word holds take a word's bits (R146, R185). -/
def CommandRecord.set (c : CommandRecord) (n : Fin 7) (w : Word) : CommandRecord :=
  match n.val with
  | 0 =>
    { c with
      id := w.extractLsb' 0 8
      kind := w.extractLsb' 8 4
      target := w.extractLsb' 12 4
      operation := w.extractLsb' 16 2 }
  | 1 => { c with remoteOffset := w.extractLsb' 0 16, length := w.extractLsb' 16 16 }
  | 2 => { c with localOffset := w.extractLsb' 0 16 }
  | 3 => { c with a := w }
  | 4 => { c with b := w }
  | 5 => { c with noticeLow := w }
  | _ => { c with noticeHigh := w }

/-- R146, R186: a write to a staging word under byte enables. -/
def CommandRecord.write (c : CommandRecord) (n : Fin 7) (data : Word) (enables : ByteEnables) : CommandRecord :=
  c.set n (mergeLanes (c.read n) data enables)

/-! ## Port accesses (R95, R186) -/

/-- The port can take an access: RST_N is not asserted and no access is held (log 9). -/
def State.portFree (s : State) : Bool :=
  s.awake && s.port.held.isNone

/-- The port after an access has completed. -/
def Port.done (data : Option Word) (error : Bool) : Port where
  held := none
  completed := some { data := data, error := error }

/-- A port access completes. -/
def State.completeAccess (s : State) (data : Option Word) (error : Bool) : State :=
  s.withPort (Port.done data error)

/-- The transfer a held access raises (R95). -/
def HeldAccess.transfer : HeldAccess → Transfer
  | .read offset => .read offset 4
  | .write offset data enables => .write (laneCells offset data enables)

/-- A store access starts: the port holds it and, unless the store is initializing (R86), raises its request. -/
def State.holdAccess (s : State) (h : HeldAccess) : State :=
  let s := s.withPort { held := some h, completed := none }
  if s.life.station = .init then s else s.raise .localPort h.transfer

end Sys2Proof.Machine
end

