-- ==== Sys2Proof/Machine/Lifecycle.lean ====
section
/-!
DEFINITION. Lifecycle: the meanings of the resets, the end of the store's initialization, START and DRAIN_DONE (chapter 10).
-/
namespace Sys2Proof.Machine

/-- R174: power-on reset: every unit at its reset value, the straps sampled, the station in INIT. The store's old bytes
cannot be observed and are replaced when INIT ends (log 12). -/
def execPowerOnReset (straps : Station) (s : State) : Next :=
  .next (s.resetUnits .init straps)

/-- R86: the last block is written: every byte 00h and GOOD, the station in CONFIG, a held access raises its request. -/
def State.initEnds (s : State) : State :=
  let s := (s.withStore Store.zeroed).enter .config
  match s.port.held with
  | some h => s.raise .localPort h.transfer
  | none => s

/-- R86. -/
def execStoreInitEnd (s : State) : Next :=
  whenever (s.awake && decide (s.life.station = .init)) s s.initEnds

/-- R175: RST_N is asserted: the units are held at their reset values; in INIT the power-on sequence starts again (R174). -/
def State.assertReset (s : State) : State :=
  let t := s.resetUnits (if s.life.station = .init then .init else .config) s.life.number
  t.withLife { t.life with rstN := true }

/-- R175. -/
def execRstNAssert (s : State) : Next :=
  whenever s.awake s s.assertReset

/-- R175, R187: RST_N is released: the straps are sampled, and the station is in CONFIG, or in INIT if the reset came there. -/
def State.releaseReset (s : State) (straps : Station) : State :=
  (s.withLife { s.life with rstN := false, number := straps }).withPeers (resetPeers straps)

/-- R175, R187. -/
def execRstNRelease (straps : Station) (s : State) : Next :=
  whenever s.life.rstN s (s.releaseReset straps)

/-- R174, R175, R186: a write of the soft reset word; ignored in INIT and with no byte enable. -/
def execSoftReset (enables : ByteEnables) (s : State) : Next :=
  let t := if enables = 0 ∨ s.life.station = .init then s else s.resetUnits .config s.life.number
  whenever s.portFree s (t.completeAccess none false)

/-- R61: the conditions on an enabled region. -/
def Region.valid (r : Region) : Bool :=
  decide (r.base.toNat % 32 = 0) && decide (r.length.toNat % 32 = 0) && decide (32 ≤ r.length.toNat)
    && decide (r.length.toNat ≤ Config.storeBytes) && decide (r.base.toNat + r.length.toNat ≤ Config.storeBytes)

/-- R61, R167: the lowest-numbered invalid region; a disabled region is not judged. -/
def ConfigRecord.invalidRegion (c : ConfigRecord) : Option (Fin 8) :=
  (List.finRange 8).find? (fun n => c.regions[n.val].enabled && !c.regions[n.val].valid)

/-- R167: the first invalid item of a record, in the order START judges them. -/
def ConfigRecord.firstInvalid (c : ConfigRecord) : Option InvalidItem :=
  if c.commitmentLimit.toNat < 8 ∨ 96 < c.commitmentLimit.toNat then some .commitmentLimit
  else if c.completionTimeout.toNat < 1 ∨ 64 < c.completionTimeout.toNat then some .completionTimeout
  else if c.retryLimit.toNat < 1 ∨ 15 < c.retryLimit.toNat then some .retryLimit
  else c.invalidRegion.map .region

/-- R167, R168: the station passes to JOINING: start status, peer records, the JOIN in the control slot. -/
def State.beginJoining (s : State) : State :=
  let s := s.withLife { s.life with station := .joining, startStatus := .started }
  let s := s.withPeers (resetPeers s.life.number)
  (s.withSender { s.sender with control := some { kind := .join, retransmissions := 0 } }).refreshOffer

/-- R167, R168: the effect of START in each station state. -/
def State.startEffect (s : State) : State :=
  if s.life.station = .config then
    match s.written.firstInvalid with
    | some item => s.withLife { s.life with startStatus := .invalid item }
    | none => (s.withInForce s.written).beginJoining
  else if s.life.station = .detached then s.beginJoining
  else s

/-- R167, R168, R186: a write of the start word; with no byte enable it performs no START. -/
def execStart (enables : ByteEnables) (s : State) : Next :=
  let t := if enables = 0 then s else s.startEffect
  whenever s.portFree s (t.completeAccess none false)

/-- The frame is a request: RD_REQ, WR_REQ or AT_REQ. -/
def FrameBody.isInboundRequest : FrameBody → Bool
  | .rdReq _ _ _ _ _ => true
  | .wrReq _ _ _ _ _ _ => true
  | .atReq _ _ _ _ _ _ _ => true
  | _ => false

/-- R171: the receive holding holds a provisional take of the inbound service. -/
def Received.isInboundTake (r : Received) : Bool :=
  r.take && (match r.frame with
    | some f => FrameBody.isInboundRequest f.body
    | none => false)

/-- R171: the conditions under which the drain of LEAVING is done and the LEAVE is placed. -/
def State.drainIsDone (s : State) : Bool :=
  decide (s.life.station = .leaving) && s.sender.control.isNone && s.inbound.queue.isEmpty && s.sender.responses.isEmpty
    && !(s.span.received.any Received.isInboundTake)

/-- R103, R171: the LEAVE is placed in the control slot. -/
def State.placeLeave (s : State) : State :=
  (s.withSender { s.sender with control := some { kind := .leave, retransmissions := 0 } }).refreshOffer

/-- R171. -/
def execDrainDone (s : State) : Next :=
  whenever (s.awake && s.drainIsDone) s s.placeLeave

end Sys2Proof.Machine
end

