-- ==== Sys2Proof/Machine/PortAccess.lean ====
section
/-!
DEFINITION. PortAccess: the meanings of the local agent's accesses to the control window (R140, R146, R162, R166, R179, R180, R186).
-/
namespace Sys2Proof.Machine

/-- R166, R186: a write to a configuration or region word: taken in CONFIG, otherwise ignored with CONFIG_LOCKED set.
A write with no byte enable does nothing (log 14). -/
def State.configWritten (s : State) (word : ConfigWord) (data : Word) (enables : ByteEnables) : State :=
  if enables = 0 then s
  else if s.life.station = .config then s.withWritten (s.written.write word data enables)
  else s.report .configLocked

/-- R166. -/
def execConfigWrite (word : ConfigWord) (data : Word) (enables : ByteEnables) (s : State) : Next :=
  whenever s.portFree s ((s.configWritten word data enables).completeAccess none false)

/-- R166, R180: both copies of the enables take the write, in every station state. -/
def State.enablesWritten (s : State) (data : Word) (enables : ByteEnables) : State :=
  let e := mergeEnables s.written.enables data enables
  (s.withWritten { s.written with enables := e }).withInForce { s.inForce with enables := e }

/-- R180. -/
def execInterruptEnablesWrite (data : Word) (enables : ByteEnables) (s : State) : Next :=
  whenever s.portFree s ((s.enablesWritten data enables).completeAccess none false)

/-- R146: a POST. -/
def State.posted (s : State) : State :=
  if s.issue.commands.length < Config.commandEntries then
    s.withIssue { s.issue with commands := s.issue.commands ++ [s.issue.staging] }
  else s.report .commandOverflow

/-- R146, R186. -/
def execPost (enables : ByteEnables) (s : State) : Next :=
  whenever s.portFree s ((if enables = 0 then s else s.posted).completeAccess none false)

/-- R162: a pop of the result queue. -/
def State.resultPopped (s : State) : State :=
  s.withIssue { s.issue with results := s.issue.results.tail, latch := s.issue.results.head? }

/-- R162. -/
def execResultPop (s : State) : Next :=
  whenever s.portFree s (s.resultPopped.completeAccess (some (resultWord s.issue.results.head?)) false)

/-- R140: a pop of the notice queue. -/
def State.noticePopped (s : State) : State :=
  s.withNotices { queue := s.notices.queue.tail, latch := s.notices.queue.head? }

/-- R140. -/
def execNoticePop (s : State) : Next :=
  whenever s.portFree s (s.noticePopped.completeAccess (some (noticeWord s.notices.queue.head?)) false)

/-- R179, R186: a clear; a position in a lane that is not enabled counts as 0. -/
def execClear (mask : Word) (enables : ByteEnables) (s : State) : Next :=
  whenever s.portFree s
    ((s.withIncidents (s.incidents.clear (mask &&& laneMask enables))).completeAccess none false)

/-- R186: what an access that changes nothing returns. -/
def PortAccess.data (a : PortAccess) (word : Word) : Option Word :=
  match a with
  | .read => some word
  | .write _ _ => none

/-- R186: an access to an offset that names no word. -/
def execUnmappedAccess (portOffset : BitVec 17) (access : PortAccess) (s : State) : Next :=
  whenever (s.portFree && isUnmapped portOffset) s (s.completeAccess (PortAccess.data access 0) true)

/-- R146, R186: a write to a word with no behaviour of its own: a staging word changes its fields, a read-only word
ignores it. -/
def State.registerWritten (s : State) (word : ControlWord) (data : Word) (enables : ByteEnables) : State :=
  match word with
  | .staging n => s.withIssue { s.issue with staging := s.issue.staging.write n data enables }
  | _ => s

/-- R186: an access to a word with no behaviour of its own: a read returns the word and changes nothing (log 8). -/
def execRegisterWrite (word : ControlWord) (access : PortAccess) (s : State) : Next :=
  let t := match access with
    | .read => s
    | .write data enables => s.registerWritten word data enables
  whenever (s.portFree && !word.hasOwnRow access) s
    (t.completeAccess (PortAccess.data access (s.readControl word)) false)

end Sys2Proof.Machine
end

