-- ==== Sys2Proof/Machine/Answering.lean ====
section
/-!
DEFINITION. Answering: the answer the station chooses for a received frame (R6, R7, R29, R62 to R66, R136).
-/
namespace Sys2Proof.Machine

/-! ## Requests (R62 to R66) -/

/-- R61: the rights a region grants. -/
inductive Right where
  | read
  | write
  | atomic
deriving DecidableEq, Repr

/-- R61: the region grants a right. -/
def Region.grants (r : Region) : Right → Bool
  | .read => r.grantsRead
  | .write => r.grantsWrite
  | .atomic => r.grantsAtomic

/-- R62: one region satisfies every condition of the access check. -/
def Region.passes (r : Region) (right : Right) (source : Station) (offset size : Nat) : Bool :=
  r.enabled && decide (r.base.toNat ≤ offset) && decide (offset + size ≤ r.base.toNat + r.length.toNat)
    && r.grants right && r.peerSet.getLsbD source.val

/-- R62: the access check. -/
def ConfigRecord.accessPasses (c : ConfigRecord) (right : Right) (source : Station) (offset size : Nat) : Bool :=
  c.regions.toList.any (fun r => r.passes right source offset size)

/-- R65: the length field or the range of a RD_REQ or WR_REQ is out of bounds. -/
def rangeMalformed (offset length : Nat) : Bool :=
  decide (length = 0) || decide (256 < length) || decide (Config.storeBytes < offset + length)

/-- R66: the room test for a request that takes `blocks` pool blocks. -/
def Inbound.hasRoom (b : Inbound) (blocks : Nat) : Bool :=
  decide (b.queue.length < Config.inboundEntries) && decide (blocks ≤ b.poolFree)

/-- R64: the three tests, in order. -/
def threeTests (malformed passes room : Bool) : Answer :=
  if malformed then .refuse else if !passes then .refuse else if !room then .busy else .accept

/-- R64: the decision in RUNNING on a request of `source`. -/
def State.decideRequest (s : State) (source : Station) (body : FrameBody) : Answer :=
  let own := decide (source = s.life.number)
  match body with
  | .rdReq _ _ _ offset length =>
    threeTests (own || rangeMalformed offset.toNat length.toNat)
      (s.inForce.accessPasses .read source offset.toNat length.toNat) (s.inbound.hasRoom 0)
  | .wrReq _ _ _ offset length _ =>
    threeTests (own || rangeMalformed offset.toNat length.toNat)
      (s.inForce.accessPasses .write source offset.toNat length.toNat) (s.inbound.hasRoom (blocksFor length.toNat))
  | .atReq _ _ _ offset _ _ _ =>
    threeTests (own || decide (offset.toNat % 4 ≠ 0))
      (s.inForce.accessPasses .atomic source offset.toNat 4) (s.inbound.hasRoom 0)
  | _ => .silent

/-- R63: the answer to a request addressed to this station, by station state. -/
def State.answerRequest (s : State) (source : Station) (body : FrameBody) : Answer :=
  match s.life.station with
  | .running => s.decideRequest source body
  | .leaving => .refuse
  | _ => .silent

/-! ## Completions (R29) -/

/-- What the tag table makes of a completion (R29). -/
inductive Matching where
  | matched
  | late
  | unexpected
deriving DecidableEq, Repr

/-- R29: the tag awaits completions. -/
def TagState.awaits : TagState → Bool
  | .sent => true
  | .partialRead => true
  | _ => false

/-- R29, first row: an RD_DATA of `count` bytes at piece offset `p` is the piece a READ tag expects next. -/
def TagRecord.expectsPiece (r : TagRecord) (p count : Nat) (last : Bool) : Bool :=
  r.state.awaits && decide (r.kind = some .read) && decide (p = r.received) && decide (r.received < r.length)
    && decide (count = min Config.pieceBytes (r.length - p)) && decide (last = decide (p + count = r.length))

/-- R29: the further conditions of the match rows, by frame kind. -/
def TagRecord.expects (r : TagRecord) (body : FrameBody) : Bool :=
  match body with
  | .rdData _ _ _ second last data => r.expectsPiece (pieceOffset second) data.length last
  | .atData _ _ _ _ => decide (r.state = .sent) && decide (r.kind = some .atomic)
  | .fail _ _ _ => r.state.awaits && (decide (r.kind = some .read) || decide (r.kind = some .atomic))
  | _ => false

/-- R29: a completion of `source` and generation `g` against the record it names. -/
def TagRecord.matching (r : TagRecord) (source : Station) (g : Generation) (body : FrameBody) : Matching :=
  if r.target ≠ some source ∨ r.generation ≠ g then .unexpected
  else if r.state = .stale then .late
  else if r.expects body then .matched
  else .unexpected

/-- The tag, generation and kind a completion names (R13). -/
def FrameBody.completion : FrameBody → Option (Tag × Generation × CompletionKind)
  | .rdData _ tag g _ _ _ => some (tag, g, .rdData)
  | .atData _ tag g _ => some (tag, g, .atData)
  | .fail _ tag g => some (tag, g, .fail)
  | _ => none

/-- R29: what the tag table makes of a completion now. -/
def State.matching (s : State) (source : Station) (body : FrameBody) : Matching :=
  match FrameBody.completion body with
  | some (tag, g, _) => (s.tagAt tag).matching source g body
  | none => .unexpected

/-- R7: the station is in RUNNING or LEAVING. -/
def StationState.answers : StationState → Bool
  | .running => true
  | .leaving => true
  | _ => false

/-- R7, R29: the answer to a completion addressed to this station. -/
def State.answerCompletion (s : State) (source : Station) (body : FrameBody) : Answer :=
  if s.life.station.answers then
    if s.matching source body = .unexpected then .refuse else .accept
  else .silent

/-! ## Broadcasts (R7, R136) -/

/-- R7: the answer to a JOIN or LEAVE this station did not send. -/
def State.answerControl (s : State) : Answer :=
  if s.life.station.answers then .accept else .silent

/-- R135: a sender is admitted when the mask holds its number and it is not the own number. -/
def State.admits (s : State) (source : Station) : Bool :=
  s.inForce.acceptMask.getLsbD source.val && decide (source ≠ s.life.number)

/-- R136: the answer to a NOTICE this station did not send. -/
def State.answerNotice (s : State) (source : Station) : Answer :=
  if s.life.station = .running then
    if s.admits source && decide (Config.noticeEntries ≤ s.notices.queue.length) then .busy else .accept
  else .silent

/-! ## The answer field (R5 to R7, R9) -/

/-- R7: the answer to a recognisable frame. -/
def State.answerTo (s : State) (f : Frame) : Answer :=
  match f.body with
  | .join => s.answerControl
  | .leave => s.answerControl
  | .notice _ => s.answerNotice f.source
  | .rdReq t _ _ _ _ => if t = s.life.number then s.answerRequest f.source f.body else .silent
  | .wrReq t _ _ _ _ _ => if t = s.life.number then s.answerRequest f.source f.body else .silent
  | .atReq t _ _ _ _ _ _ => if t = s.life.number then s.answerRequest f.source f.body else .silent
  | .rdData t _ _ _ _ _ => if t = s.life.number then s.answerCompletion f.source f.body else .silent
  | .atData t _ _ _ => if t = s.life.number then s.answerCompletion f.source f.body else .silent
  | .fail t _ _ => if t = s.life.number then s.answerCompletion f.source f.body else .silent

/-- R9, R136: a provisional take goes with ACCEPT; that of JOIN and LEAVE, and of a NOTICE not admitted, is empty. -/
def State.takesFrom (s : State) (f : Frame) : Bool :=
  decide (s.answerTo f = .accept) && (match f.body with
    | .join => false
    | .leave => false
    | .notice _ => s.admits f.source
    | _ => true)

/-- R6: the answer to an unrecognisable frame with a target field, by the station it names, or by every station for ALL. -/
def State.answerUnrecognisable (s : State) (target : Nat) : Answer :=
  if (target = s.life.number.val ∨ target = 31) ∧ s.life.station.answers = true then .refuse else .silent

/-- R5, R6, R7, R9: the receive holding once the answer is chosen. -/
def State.receive (s : State) (body : List Bool) (j : Judged) : Received :=
  match j with
  | .damaged => { bits := body, frame := none, drove := .damaged, take := false }
  | .unrecognisable target => { bits := body, frame := none, drove := s.answerUnrecognisable target, take := false }
  | .recognised f => { bits := body, frame := some f, drove := s.answerTo f, take := s.takesFrom f }

end Sys2Proof.Machine
end

