-- ==== Sys2Proof/Machine/Outcomes.lean ====
section
/-!
DEFINITION. Outcomes: what an outcome does to the station's own frame (R14 to R18, R105, R110 to R113, R144, R169, R172) and
what a resolution commits of a received frame (R10, R30 to R34, R67, R68, R121, R137, R139).
-/
namespace Sys2Proof.Machine

/-! ## Own request frames and notices (R14, R16, R110, R111, R113) -/

/-- R20: a tag's state alone changes. -/
def State.setTagState (s : State) (t : Tag) (x : TagState) : State :=
  s.setTag t { s.tagAt t with state := x }

/-- The tag that owns an entry passes to a state; a NOTICE has no tag. -/
def State.setOwnerState (s : State) (o : Owner) (x : TagState) : State :=
  match o with
  | .tag t => s.setTagState t x
  | .context _ => s

/-- R24, R110: the target has committed the request: DONE for a WRITE, SENT with its completion timer running otherwise. -/
def State.tagAccepted (s : State) (slot : Fin 16) (t : Tag) : State :=
  if (s.tagAt t).kind = some .write then s.endSegment t .ok none
  else (s.removeEntry slot).setTag t { s.tagAt t with state := .sent, deadline := some (s.clock + s.timeout) }

/-- R110, R144: ACCEPT. -/
def State.entryAccepted (s : State) (e : RequestEntry) : State :=
  match e.owner with
  | .tag t => s.tagAccepted e.slot t
  | .context n => s.endNotice e.slot n .ok

/-- R110, R144: REFUSE. -/
def State.entryRefused (s : State) (e : RequestEntry) : State :=
  match e.owner with
  | .tag t => s.endSegment t .refused none
  | .context n => s.endNotice e.slot n .ok

/-- R124: a SILENT report for a frame's target; a broadcast makes none. -/
def State.reportSilence (s : State) (target : Option Station) : State :=
  match target with
  | some p => s.silentReport p
  | none => s

/-- R110, R124, R144: SILENT: the segment ends NO_STATION first, then its target is reported. -/
def State.entrySilent (s : State) (e : RequestEntry) : State :=
  match e.owner with
  | .tag t => (s.endSegment t .noStation none).reportSilence e.key
  | .context n => s.endNotice e.slot n .ok

/-- R111: the entry after a BUSY resolved at `now`. -/
def RequestEntry.afterBusy (e : RequestEntry) (now : Micros) : RequestEntry :=
  let count := min (e.busyCount + 1) Config.busyCountMax
  { e with
    state := .held
    busyCount := count
    holdStart := some (e.holdStart.getD now)
    backoffExpiry := some (now + Config.backoffUnit * min count Config.backoffSteps)
    backoffReached := false }

/-- R25, R111: BUSY. -/
def State.entryBusy (s : State) (e : RequestEntry) : State :=
  ((s.updateEntry e.slot (fun x => x.afterBusy s.clock)).setOwnerState e.owner .held).report .busyReceived

/-- R113: the entry after a DAMAGED within the retry limit. -/
def RequestEntry.afterDamage (e : RequestEntry) : RequestEntry :=
  { e with
    state := .ready
    retransmissions := e.retransmissions + 1
    backoffExpiry := none
    backoffReached := false }

/-- R17, R26, R113: DAMAGED or a transmit conflict. -/
def State.entryDamaged (s : State) (e : RequestEntry) : State :=
  if e.retransmissions + 1 ≤ s.retryLimit then
    (s.updateEntry e.slot RequestEntry.afterDamage).setOwnerState e.owner .queued
  else s.endEntry e .spanFault

/-- R110 to R113: the outcome of an entry that is not withdrawn. -/
def State.entryOutcome (s : State) (e : RequestEntry) (a : Answer) : State :=
  match a with
  | .accept => s.entryAccepted e
  | .refuse => s.entryRefused e
  | .silent => s.entrySilent e
  | .busy => s.entryBusy e
  | .damaged => s.entryDamaged e

/-- R116: the outcome of a withdrawn entry is ignored, and the entry leaves. -/
def State.requestOutcome (s : State) (slot : Fin 16) (a : Answer) : State :=
  match s.sender.entryAt slot with
  | none => s
  | some e => if e.withdrawn then s.dropWithdrawn else s.entryOutcome e a

/-! ## Own completions (R15, R105) -/

/-- The head completion leaves the response queue. -/
def State.dropResponse (s : State) : State :=
  s.withSender { s.sender with responses := s.sender.responses.tail }

/-- R17, R105: DAMAGED or a transmit conflict on the head completion. -/
def State.responseDamaged (s : State) (r : ResponseEntry) : State :=
  if r.retransmissions + 1 ≤ s.retryLimit then
    s.withSender { s.sender with
      responses := { r with retransmissions := r.retransmissions + 1 } :: s.sender.responses.tail }
  else s.dropResponse.report .completionDropped

/-- R105: the outcome of the head completion. A resolved BUSY does not arise and changes nothing (log 13). -/
def State.responseOutcome (s : State) (a : Answer) : State :=
  match s.sender.responses.head? with
  | none => s
  | some r =>
    match a with
    | .accept => s.dropResponse
    | .refuse => s.dropResponse.report .completionRefused
    | .silent => s.dropResponse.reportSilence r.frame.body.target
    | .busy => s
    | .damaged => s.responseDamaged r

/-! ## Own JOIN and LEAVE (R16, R103, R169, R172) -/

/-- The control slot is emptied. -/
def State.emptyControl (s : State) : State :=
  s.withSender { s.sender with control := none }

/-- R43: a STALE tag becomes FREE. -/
def State.freeIfStale (s : State) (t : Tag) : State :=
  if (s.tagAt t).state = .stale then s.setTag t (s.tagAt t).freed else s

/-- R43: every STALE tag becomes FREE. -/
def State.freeStale (s : State) : State :=
  allTags.foldl (fun acc t => acc.freeIfStale t) s

/-- R169: the station has joined. -/
def State.joined (s : State) : State :=
  s.emptyControl.enter .running

/-- R172: the station has left. -/
def State.left (s : State) : State :=
  (((s.emptyControl).freeStale).endLeave .ok).enter .detached

/-- R16: the broadcast has succeeded. -/
def State.controlDone (s : State) (k : ControlKind) : State :=
  match k with
  | .join => s.joined
  | .leave => s.left

/-- R165, R173: the cause of a halt by giving up a control frame. -/
def ControlKind.giveUpCause : ControlKind → HaltCause
  | .join => .joinRetry
  | .leave => .leaveRetry

/-- R17: the control frame with its count grown by 1. -/
def State.recountControl (s : State) (c : ControlFrame) : State :=
  s.withSender { s.sender with control := some { c with retransmissions := c.retransmissions + 1 } }

/-- R169, R172: a resolved DAMAGED. -/
def State.controlDamaged (s : State) (c : ControlFrame) : State :=
  if c.retransmissions + 1 ≤ s.retryLimit then s.recountControl c
  else s.enterHalted c.kind.giveUpCause

/-- R16, R169, R172: the outcome of the control frame. A resolved BUSY does not arise and changes nothing (log 13). -/
def State.controlOutcome (s : State) (a : Answer) : State :=
  match s.sender.control with
  | none => s
  | some c =>
    match a with
    | .accept => s.controlDone c.kind
    | .refuse => s.controlDone c.kind
    | .silent => s.controlDone c.kind
    | .busy => s
    | .damaged => s.controlDamaged c

/-- R173: a conflict on a control frame; a give-up waits for the resolution of the frame that remains (log 16). -/
def State.controlConflict (s : State) : State :=
  match s.sender.control with
  | none => s
  | some c =>
    if c.retransmissions + 1 ≤ s.retryLimit then s.recountControl c
    else (s.recountControl c).withLife { s.life with giveUp := some c.kind.giveUpCause }

/-! ## The outcome of an attempt -/

/-- R2: the attempt has ended: no frame of the station is on the span. -/
def State.endAttempt (s : State) : State :=
  s.withSpan { s.span with offer := none, offerState := .none }

/-- R10: the resolved answer goes to the owner of the frame's holding place. -/
def State.outcomeAt (s : State) (p : Place) (a : Answer) : State :=
  match p with
  | .control => s.controlOutcome a
  | .response => s.responseOutcome a
  | .request slot => s.requestOutcome slot a

/-- R18: a transmit conflict counts as a DAMAGED for the frame's own count. -/
def State.conflictAt (s : State) (p : Place) : State :=
  match p with
  | .control => s.controlConflict
  | .response => s.responseOutcome .damaged
  | .request slot => s.requestOutcome slot .damaged

/-- R10: the own frame's outcome. -/
def State.ownOutcome (s : State) (a : Answer) : State :=
  match s.span.offer with
  | some p => s.endAttempt.outcomeAt p a
  | none => s.endAttempt

/-- R18: the own frame's conflict. -/
def State.ownConflict (s : State) : State :=
  match s.span.offer with
  | some p => s.endAttempt.conflictAt p
  | none => s.endAttempt

/-! ## Counts made at a resolution (R29, R68, R139) -/

/-- R177: the record of an unexpected completion. -/
def Frame.asUnexpected (f : Frame) : Option Unexpected :=
  (FrameBody.completion f.body).map (fun c => { source := f.source, tag := c.1, generation := c.2.1, kind := c.2.2 })

/-- R29, R30: an unexpected completion is counted and recorded. -/
def State.countUnexpected (s : State) (f : Frame) : State :=
  match Frame.asUnexpected f with
  | some x => s.withIncidents (s.incidents.reportUnexpected x)
  | none => s

/-- R68: a request answered BUSY or REFUSE that resolves as driven. -/
def State.countRequestAnswer (s : State) (drove answer : Answer) : State :=
  if drove = .busy ∧ answer = .busy then s.report .inboundBusyGiven
  else if drove = .refuse ∧ answer = .refuse then s.report .inboundRefusedGiven
  else s

/-- R29, R68, R139: what a receiver counts of its own answer. -/
def State.countAnswer (s : State) (f : Frame) (drove answer : Answer) : State :=
  match f.body with
  | .rdReq _ _ _ _ _ => s.countRequestAnswer drove answer
  | .wrReq _ _ _ _ _ _ => s.countRequestAnswer drove answer
  | .atReq _ _ _ _ _ _ _ => s.countRequestAnswer drove answer
  | .notice _ => if drove = .busy then s.report .noticeBusyGiven else s
  | .rdData _ _ _ _ _ _ => if drove = .refuse ∧ answer = .refuse then s.countUnexpected f else s
  | .atData _ _ _ _ => if drove = .refuse ∧ answer = .refuse then s.countUnexpected f else s
  | .fail _ _ _ => if drove = .refuse ∧ answer = .refuse then s.countUnexpected f else s
  | .join => s
  | .leave => s

/-! ## Commits (R9, R30 to R34, R67, R137) -/

/-- R67: a request joins the tail of the inbound queue. -/
def State.commitRequest (s : State) (source : Station) (tag : Tag) (g : Generation) (offset : Nat) (w : InboundWork) : State :=
  s.withInbound { s.inbound with queue := s.inbound.queue ++ [{
    source := source
    tag := tag
    generation := g
    offset := offset
    work := w
    begun := false
    orphaned := false }] }

/-- R31, R47: a matched RD_DATA. -/
def State.commitPiece (s : State) (t : Tag) (g : Generation) (p : Nat) (data : List Byte) : State :=
  let r := s.tagAt t
  let piece : Piece := { tag := t, generation := g, destination := r.localOffset.getD 0 + p, data := data }
  (s.setTag t { r with
    state := .partialRead
    received := r.received + data.length
    reserved := r.reserved - blocksFor data.length }).withBuffer
    { s.buffer with pieces := s.buffer.pieces ++ [piece] }

/-- R31 to R33: a matched completion is committed by its kind. -/
def State.commitMatched (s : State) (body : FrameBody) : State :=
  match body with
  | .rdData _ tag g second _ data => s.commitPiece tag g (pieceOffset second) data
  | .atData _ tag _ old => s.endSegment tag .ok (some old)
  | .fail _ tag _ => s.endSegment tag .storeError none
  | _ => s

/-- R34: the completion is the last its responder sends: an RD_DATA with its last flag, an AT_DATA or a FAIL. -/
def FrameBody.isLastCompletion : FrameBody → Bool
  | .rdData _ _ _ _ last _ => last
  | .atData _ _ _ _ => true
  | .fail _ _ _ => true
  | _ => false

/-- R34: a late completion is counted, and the last one frees the tag. -/
def State.commitLate (s : State) (t : Tag) (body : FrameBody) : State :=
  let s := s.report .lateCompletion
  if FrameBody.isLastCompletion body then s.setTag t (s.tagAt t).freed else s

/-- R30: a completion answered ACCEPT is matched again as its tag stands at the resolution. -/
def State.commitCompletion (s : State) (f : Frame) (t : Tag) : State :=
  match s.matching f.source f.body with
  | .matched => s.commitMatched f.body
  | .late => s.commitLate t f.body
  | .unexpected => s.countUnexpected f

/-- R137: a notice joins the tail of the notice queue. -/
def State.commitNotice (s : State) (source : Station) (data : List Byte) : State :=
  s.withNotices { s.notices with queue := s.notices.queue ++ [{ source := source, data := data }] }

/-- R9: the provisional take becomes a commit, by the unit that kept it. -/
def State.commit (s : State) (f : Frame) : State :=
  match f.body with
  | .rdReq _ tag g offset length => s.commitRequest f.source tag g offset.toNat (.read length.toNat)
  | .wrReq _ tag g offset _ payload => s.commitRequest f.source tag g offset.toNat (.write payload)
  | .atReq _ tag g offset op a b => s.commitRequest f.source tag g offset.toNat (.atomic op a b)
  | .rdData _ tag _ _ _ _ => s.commitCompletion f tag
  | .atData _ tag _ _ => s.commitCompletion f tag
  | .fail _ tag _ => s.commitCompletion f tag
  | .notice data => s.commitNotice f.source data
  | .join => s
  | .leave => s

/-! ## Source observation (R10, R121, R131, R132) -/

/-- R131, R132: an observation of the own number: a JOIN halts the station, any other kind changes nothing. -/
def State.observeOwn (s : State) (body : FrameBody) : State :=
  match body with
  | .join => s.enterHalted .duplicate
  | _ => s

/-- R121: an observation of a peer's frame. -/
def State.observePeer (s : State) (peer : Station) (body : FrameBody) : State :=
  match body with
  | .join => s.observeJoin peer
  | .leave => s.markAbsent peer
  | _ => s.observeOther peer

/-- R10: the source observation. -/
def State.observe (s : State) (f : Frame) : State :=
  if f.source = s.life.number then s.observeOwn f.body else s.observePeer f.source f.body

/-! ## The resolution of a received frame (R9, R10) -/

/-- R9, R10: counts, commit and source observation of a frame whose check passed and which is recognisable. -/
def State.resolveFrame (s : State) (f : Frame) (drove answer : Answer) (take : Bool) : State :=
  let s := s.countAnswer f drove answer
  let s := if take = true ∧ answer = .accept then s.commit f else s
  if answer = .damaged then s else s.observe f

/-- R10: a received frame resolves; one that was not recognised is not taken and reports no source (R5, R6). -/
def State.resolveReceived (s : State) (r : Received) (answer : Answer) : State :=
  match r.frame with
  | some f => s.resolveFrame f r.drove answer r.take
  | none => s

/-- R173: a give-up at a transmit conflict takes effect at the resolution of the frame that remained. -/
def State.completeGiveUp (s : State) : State :=
  match s.life.giveUp with
  | some cause => if s.life.station.onSpan then s.enterHalted cause else s
  | none => s

/-- R10: the damage count. -/
def State.countDamage (s : State) (answer : Answer) : State :=
  if answer = .damaged then s.report .damageSeen else s

end Sys2Proof.Machine
end

