-- ==== Sys2Proof/Machine/SpanEvents.lean ====
section
/-!
DEFINITION. SpanEvents: the meanings of the span's events: CONTENTION, TRANSMIT_CONFLICT, ANSWER_FIELD and RESOLUTION (chapter 1).
-/
namespace Sys2Proof.Machine

/-! ## CONTENTION (R3) -/

/-- R4: the receive holding while the bits of a body arrive: nothing is judged, driven or taken. -/
def Received.arriving (bits : List Bool) : Received where
  bits := bits
  frame := none
  drove := .silent
  take := false

/-- R4: the receive holding at the start of a frame's body: the priority word, which is the class and the source at the head
of the body (R182) and which the contention has shown; the other bits come with the ANSWER_FIELD (log 26). -/
def Received.begun (word : BitVec 6) : Received :=
  Received.arriving (bitsOfNat 6 word.toNat)

/-- R2, R3: a contention begins at the idle: an offer is fixed. A station not yet synchronised observes the idle by it
(log 7); a contention under way is not begun again. DESIGN CHOICE (log 5): R2 and R102 begin a contention at once when the span
turns idle with an offer, or an offer is placed on an idle span; the model begins it at a CONTENTION command. -/
def SpanInterface.beginContention (u : SpanInterface) : SpanInterface :=
  if u.phase = .unsynced ∨ u.phase = .idle then
    { u with phase := .contention, offerState := if u.offerState = .offered then .contending else u.offerState }
  else u

/-- R3: the station comes out as a winner: no other contender has a lower priority word. -/
def State.wins (s : State) (lowestOther : Option (BitVec 6)) : Bool :=
  match lowestOther, s.offeredFrame with
  | none, _ => true
  | some p, some f => decide (f.priority.toNat ≤ p.toNat)
  | some _, none => false

/-- R3, R4: the winner drives its body, and receives it by reading back. -/
def State.won (s : State) : State :=
  s.withSpan { s.span with
    offerState := .sending
    phase := .body
    received := s.offeredFrame.map (fun f => Received.begun f.priority) }

/-- R3, R4, R116: the loser keeps its frame, returns to OFFERED and receives the winner's; a withdrawn entry leaves. -/
def State.lost (s : State) (lowestOther : Option (BitVec 6)) : State :=
  ((s.withSpan { s.span with
    offerState := .offered
    phase := .body
    received := lowestOther.map Received.begun }).dropWithdrawn).settle

/-- R3, R4: the contention under way comes out; the body that follows is received from its start. -/
def State.settleContention (s : State) (lowestOther : Option (BitVec 6)) : State :=
  if s.span.phase = .contention then
    if s.span.offerState = .contending then
      if s.wins lowestOther then s.won else s.lost lowestOther
    else s.withSpan { s.span with
      phase := if lowestOther.isSome then .body else .idle
      received := lowestOther.map Received.begun }
  else s

/-- R2: the contention in progress when the station came out of a reset comes out without this station: the frame of its
winner is not followed, and the span is observed idle only where no station is left to drive one (log 7). -/
def State.settleUnsynced (s : State) (lowestOther : Option (BitVec 6)) : State :=
  if lowestOther.isSome then s else s.withSpan { s.span with phase := .idle }

/-- R2, R3: a contention begins at the idle (log 7 for the first idle after a reset), or comes out; a report that an idle
span's contention has come out begins it in the same step (log 5). -/
def State.contend (s : State) (report : ContentionReport) : State :=
  match report with
  | .begins => s.withSpan s.span.beginContention
  | .settles lowestOther =>
    if s.span.phase = .unsynced then s.settleUnsynced lowestOther
    else (s.withSpan s.span.beginContention).settleContention lowestOther

/-- R3. -/
def execContention (report : ContentionReport) (s : State) : Next :=
  whenever s.awake s (s.contend report)

/-! ## TRANSMIT_CONFLICT (R18) -/

/-- R18: the attempt is abandoned and counted; the station goes on as a receiver of the frame that remains. -/
def State.conflict (s : State) : State :=
  ((s.report .damageSeen).ownConflict).settle

/-- R18. -/
def execTransmitConflict (s : State) : Next :=
  whenever (s.awake && decide (s.span.offerState = .sending)) s s.conflict

/-! ## ANSWER_FIELD (R7) -/

/-- R2, R7: the answer field of a frame that the station can follow may begin. DESIGN CHOICE (log 6): where the contention
or the body that R1 puts before it had no command of its own (the span reads idle, or is in a contention in which this
station does not contend), the answer field is taken as that of a frame whose contention and body have passed. -/
def State.answerIsDue (s : State) : Bool :=
  s.awake && decide (s.span.phase ≠ .unsynced) && decide (s.span.phase ≠ .answer)
    && decide (s.span.offerState ≠ .contending)

/-- R4, R7: the sender has received its own frame by reading back; it does not check it and drives nothing into its answer
field. -/
def State.sentBody (s : State) (body : List Bool) : State :=
  s.withSpan { s.span with phase := .answer, offerState := .answer, received := some (Received.arriving body) }

/-- R4, R7, R9: the body has been received; a receiver checks the frame, chooses its answer and keeps its take; off the span it
does none of the three. DESIGN CHOICE (log 23): a frame whose answer field passes in CONFIG or DETACHED stays unchecked, so that
after a START its resolution in JOINING observes no source. -/
def State.answered (s : State) (body : List Bool) : State :=
  s.withSpan { s.span with
    phase := .answer
    received := some (if s.life.station.onSpan then s.receive body (judge body) else Received.arriving body) }

/-- R7. -/
def execAnswerField (body : List Bool) (s : State) : Next :=
  whenever s.answerIsDue s (if s.span.offerState = .sending then s.sentBody body else s.answered body)

/-! ## RESOLUTION (R10) -/

/-- R1, R2: a frame's resolution may be observed: after its answer field, or of a frame the station does not follow. -/
def State.resolutionIsDue (s : State) : Bool :=
  s.awake && (decide (s.span.phase = .answer) || decide (s.span.phase = .unsynced)
    || decide (s.span.offerState = .sending))

/-- R1, R4: after resolution the span is idle and the receive holding empty. -/
def State.turnIdle (s : State) : State :=
  s.withSpan { s.span with phase := .idle, received := none }

/-- R2: a frame of the station's own is on the span, its body sent or being sent. -/
def OfferState.sends : OfferState → Bool
  | .sending => true
  | .answer => true
  | _ => false

/-- R7, R8, R10: the reports of a resolution observed on the span, of the own frame or of the frame held. The resolved answer is
the most dominant of what the others drove and what this station drove; into its own frame's answer field it drives nothing. -/
def State.makeReports (s : State) (held : Option Received) (others : Answer) : State :=
  let s := if s.span.offerState.sends then (s.countDamage others).ownOutcome others
    else match held with
      | some r => (s.countDamage (r.drove.combine others)).resolveReceived r (r.drove.combine others)
      | none => s.countDamage others
  s.completeGiveUp.settle

/-- R2, R4, R10: a resolution: of a frame the station does not follow, off the span, or on it. -/
def State.resolved (s : State) (others : Answer) : State :=
  if s.span.phase = .unsynced then s.turnIdle
  else if s.life.station.onSpan then s.turnIdle.makeReports s.span.received others
  else s.turnIdle

/-- R10. -/
def execResolution (others : Answer) (time : Micros) (s : State) : Next :=
  whenever s.resolutionIsDue s ((s.advance time).resolved others)

end Sys2Proof.Machine
end

