-- ==== Sys2Proof/Machine/StoreAccess.lean ====
section
/-!
DEFINITION. StoreAccess: the meanings of a byte's loss, the local agent's store accesses and the arbiter's grant (chapter 5).
-/
namespace Sys2Proof.Machine

/-- R85: a GOOD byte becomes LOST, and may change its value; the station does not observe it. -/
def execStoreByteLoss (offset : Offset) (value : Byte) (s : State) : Next :=
  whenever (!s.store.isLost offset.toNat) s (s.withStore (s.store.loseByte offset.toNat value))

/-- R95: a local read of the word at `offset`. -/
def execLocalRead (offset : Offset) (s : State) : Next :=
  whenever s.portFree s (s.holdAccess (.read (wordAligned offset.toNat)))

/-- R95: a local write of the word at `offset`. -/
def execLocalWrite (offset : Offset) (data : Word) (enables : ByteEnables) (s : State) : Next :=
  whenever s.portFree s (s.holdAccess (.write (wordAligned offset.toNat) data enables))

/-- R95, R96: the held access completes with the result of its transfer. -/
def State.localCompleted (s : State) (g : Granted) : State :=
  match s.port.held with
  | some (.read _) => s.storeIdle.completeAccess (some (wordOfBytes g.data)) g.parityError
  | some (.write _ _ _) => s.storeIdle.completeAccess none false
  | none => s.storeIdle

/-- R95, R96. -/
def execLocalTransferComplete (s : State) : Next :=
  match s.grantedTo .localPort with
  | some g => .next (s.localCompleted g)
  | none => .next s

/-- R87, R90, R94: the arbiter grants a claimant's transfer, which takes effect at once. -/
def State.granting (s : State) (c : Claimant) (tr : Transfer) : State :=
  let a := s.arbiter.setRaised c none
  let t := (s.withStore (tr.effect s.store)).withArbiter { a with
    pointer := c.following
    granted := some {
      claimant := c
      transfer := tr
      data := tr.data s.store
      parityError := tr.parityError s.store
      discarded := false } }
  if tr.parityError s.store then t.report .storeParity else t

/-- R86, R90: the arbiter can grant: the store is not busy and not initializing. -/
def State.storeCanGrant (s : State) : Bool :=
  s.awake && s.arbiter.granted.isNone && decide (s.life.station ≠ .init)

/-- R90. -/
def execStoreGrant (s : State) : Next :=
  match s.arbiter.choice with
  | none => .next s
  | some c =>
    match s.arbiter.raised c with
    | none => .next s
    | some tr => whenever s.storeCanGrant s (s.granting c tr)

end Sys2Proof.Machine
end

