-- ==== Sys2Proof/Machine/Timers.lean ====
section
/-!
DEFINITION. Timers: the meanings of the expiries of the completion timer, the stale timer and a backoff (R37, R38, R112).
-/
namespace Sys2Proof.Machine

/-- R37: the deadline of a completion timer that runs. -/
def TagRecord.completionDeadline (r : TagRecord) : Option Micros :=
  if r.state.awaits then r.deadline else none

/-- R38: the deadline of a stale timer that runs. -/
def TagRecord.staleDeadline (r : TagRecord) : Option Micros :=
  if r.state = .stale then r.deadline else none

/-- R37: the completion timer of a tag expires at `deadline`. -/
def State.completionExpired (s : State) (t : Tag) (deadline : Micros) : State :=
  ((s.advance deadline).endSegment t .timeout none).settle

/-- R37: a timer that does not run does not expire. -/
def execCompletionTimerExpiry (tag : Tag) (s : State) : Next :=
  match (s.tagAt tag).completionDeadline with
  | some d => whenever s.awake s (s.completionExpired tag d)
  | none => .next s

/-- R38: the stale timer of a tag expires at `deadline`. -/
def State.staleExpired (s : State) (t : Tag) (deadline : Micros) : State :=
  ((s.advance deadline).setTag t (s.tagAt t).freed).settle

/-- R38. -/
def execStaleTimerExpiry (tag : Tag) (s : State) : Next :=
  match (s.tagAt tag).staleDeadline with
  | some d => whenever s.awake s (s.staleExpired tag d)
  | none => .next s

/-- R111, R112: the backoff expiry of an entry that backs off. -/
def RequestEntry.runningBackoff (e : RequestEntry) : Option Micros :=
  if e.state = .held ∧ e.backoffReached = false ∧ e.withdrawn = false then e.backoffExpiry else none

/-- R112: the hold has lasted more than the completion timeout at `now`. -/
def RequestEntry.heldTooLong (e : RequestEntry) (now timeout : Micros) : Bool :=
  decide (timeout < now - e.holdStart.getD now)

/-- R112: the backoff of an entry expires at `expiry`. -/
def State.backoffExpired (s : State) (e : RequestEntry) (expiry : Micros) : State :=
  let s := s.advance expiry
  (if e.heldTooLong expiry s.timeout then s.endEntry e .targetBusy
   else s.updateEntry e.slot (fun x => { x with backoffReached := true })).settle

/-- R112: of the entry at `place`, if there is one and it backs off. -/
def execBackoffExpiry (place : Fin 16) (s : State) : Next :=
  match s.sender.requests[place.val]? with
  | none => .next s
  | some e =>
    match e.runningBackoff with
    | some x => whenever s.awake s (s.backoffExpired e x)
    | none => .next s

end Sys2Proof.Machine
end

