-- ==== Sys2Proof/Machine/Dispatch.lean ====
section
/-!
DEFINITION. Dispatch: one arm for each command, each a direct call of its meaning.
-/
namespace Sys2Proof.Machine

/-- The effect of a command on everything but the queue of waiting commands. -/
def exec (i : Instr) (s : State) : Host.Outcome State Fault Refusal :=
  match i with
  | .powerOnReset straps => Sys2Proof.Machine.execPowerOnReset straps s
  | .storeInitEnd => Sys2Proof.Machine.execStoreInitEnd s
  | .rstNAssert => Sys2Proof.Machine.execRstNAssert s
  | .rstNRelease straps => Sys2Proof.Machine.execRstNRelease straps s
  | .softReset enables => Sys2Proof.Machine.execSoftReset enables s
  | .storeByteLoss offset value => Sys2Proof.Machine.execStoreByteLoss offset value s
  | .start enables => Sys2Proof.Machine.execStart enables s
  | .configWrite word data enables => Sys2Proof.Machine.execConfigWrite word data enables s
  | .interruptEnablesWrite data enables => Sys2Proof.Machine.execInterruptEnablesWrite data enables s
  | .post enables => Sys2Proof.Machine.execPost enables s
  | .resultPop => Sys2Proof.Machine.execResultPop s
  | .noticePop => Sys2Proof.Machine.execNoticePop s
  | .clear mask enables => Sys2Proof.Machine.execClear mask enables s
  | .unmappedAccess portOffset access => Sys2Proof.Machine.execUnmappedAccess portOffset access s
  | .registerWrite word access => Sys2Proof.Machine.execRegisterWrite word access s
  | .localRead offset => Sys2Proof.Machine.execLocalRead offset s
  | .localWrite offset data enables => Sys2Proof.Machine.execLocalWrite offset data enables s
  | .localTransferComplete => Sys2Proof.Machine.execLocalTransferComplete s
  | .storeGrant => Sys2Proof.Machine.execStoreGrant s
  | .contention report => Sys2Proof.Machine.execContention report s
  | .transmitConflict => Sys2Proof.Machine.execTransmitConflict s
  | .answerField body => Sys2Proof.Machine.execAnswerField body s
  | .resolution others time => Sys2Proof.Machine.execResolution others time s
  | .completionTimerExpiry tag => Sys2Proof.Machine.execCompletionTimerExpiry tag s
  | .staleTimerExpiry tag => Sys2Proof.Machine.execStaleTimerExpiry tag s
  | .backoffExpiry place => Sys2Proof.Machine.execBackoffExpiry place s
  | .readCommand => Sys2Proof.Machine.execReadCommand s
  | .writeCommand => Sys2Proof.Machine.execWriteCommand s
  | .atomicCommand => Sys2Proof.Machine.execAtomicCommand s
  | .noticeCommand => Sys2Proof.Machine.execNoticeCommand s
  | .fenceCommand => Sys2Proof.Machine.execFenceCommand s
  | .leaveCommand => Sys2Proof.Machine.execLeaveCommand s
  | .segmentIssue => Sys2Proof.Machine.execSegmentIssue s
  | .copyBegin => Sys2Proof.Machine.execCopyBegin s
  | .copyTransferComplete => Sys2Proof.Machine.execCopyTransferComplete s
  | .serviceBegin => Sys2Proof.Machine.execServiceBegin s
  | .serviceWriteTransferComplete => Sys2Proof.Machine.execServiceWriteTransferComplete s
  | .serviceReadTransferComplete => Sys2Proof.Machine.execServiceReadTransferComplete s
  | .atomicTransferComplete => Sys2Proof.Machine.execAtomicTransferComplete s
  | .landingBegin => Sys2Proof.Machine.execLandingBegin s
  | .landingTransferComplete => Sys2Proof.Machine.execLandingTransferComplete s
  | .drainDone => Sys2Proof.Machine.execDrainDone s
  | .commandOfNoKind => Sys2Proof.Machine.execCommandOfNoKind s

end Sys2Proof.Machine
end

