-- ==== Sys2Proof/Machine/Step.lean ====
section
/-!
DEFINITION. Step: take the command at the front of the queue and run it on the state with the rest of the queue.
-/
namespace Sys2Proof.Machine

/-- One step: the front command's effect; on an empty queue the station idles (log 1). -/
def step (s : State) : Host.Outcome State Fault Refusal :=
  match s.pending with
  | [] => .next s
  | c :: rest => exec c { s with pending := rest }

/-- The state with the command a table word spells at the front of its queue; unchanged where it spells none. -/
def State.withFetchWord (s : State) (nbits w : Nat) : State :=
  match decodeTableWord nbits w with
  | none => s
  | some c => { s with pending := c :: s.pending }

end Sys2Proof.Machine
end

