-- ==== Sys2Proof/Laws/State.lean ====
section
/-!
SUPPORT. Laws/State: one lemma for each field and each update of State, so that no proof unfolds a record update.
-/
namespace Sys2Proof.Machine.State

variable (s : State)

@[simp] theorem withPending_pending (x : List Instr) : (s.withPending x).pending = x := rfl
@[simp] theorem withPending_clock (x : List Instr) : (s.withPending x).clock = s.clock := rfl
@[simp] theorem withPending_life (x : List Instr) : (s.withPending x).life = s.life := rfl
@[simp] theorem withPending_written (x : List Instr) : (s.withPending x).written = s.written := rfl
@[simp] theorem withPending_inForce (x : List Instr) : (s.withPending x).inForce = s.inForce := rfl
@[simp] theorem withPending_span (x : List Instr) : (s.withPending x).span = s.span := rfl
@[simp] theorem withPending_tags (x : List Instr) : (s.withPending x).tags = s.tags := rfl
@[simp] theorem withPending_buffer (x : List Instr) : (s.withPending x).buffer = s.buffer := rfl
@[simp] theorem withPending_inbound (x : List Instr) : (s.withPending x).inbound = s.inbound := rfl
@[simp] theorem withPending_store (x : List Instr) : (s.withPending x).store = s.store := rfl
@[simp] theorem withPending_arbiter (x : List Instr) : (s.withPending x).arbiter = s.arbiter := rfl
@[simp] theorem withPending_sender (x : List Instr) : (s.withPending x).sender = s.sender := rfl
@[simp] theorem withPending_peers (x : List Instr) : (s.withPending x).peers = s.peers := rfl
@[simp] theorem withPending_notices (x : List Instr) : (s.withPending x).notices = s.notices := rfl
@[simp] theorem withPending_issue (x : List Instr) : (s.withPending x).issue = s.issue := rfl
@[simp] theorem withPending_incidents (x : List Instr) : (s.withPending x).incidents = s.incidents := rfl
@[simp] theorem withPending_port (x : List Instr) : (s.withPending x).port = s.port := rfl

@[simp] theorem withClock_pending (x : Micros) : (s.withClock x).pending = s.pending := rfl
@[simp] theorem withClock_clock (x : Micros) : (s.withClock x).clock = x := rfl
@[simp] theorem withClock_life (x : Micros) : (s.withClock x).life = s.life := rfl
@[simp] theorem withClock_written (x : Micros) : (s.withClock x).written = s.written := rfl
@[simp] theorem withClock_inForce (x : Micros) : (s.withClock x).inForce = s.inForce := rfl
@[simp] theorem withClock_span (x : Micros) : (s.withClock x).span = s.span := rfl
@[simp] theorem withClock_tags (x : Micros) : (s.withClock x).tags = s.tags := rfl
@[simp] theorem withClock_buffer (x : Micros) : (s.withClock x).buffer = s.buffer := rfl
@[simp] theorem withClock_inbound (x : Micros) : (s.withClock x).inbound = s.inbound := rfl
@[simp] theorem withClock_store (x : Micros) : (s.withClock x).store = s.store := rfl
@[simp] theorem withClock_arbiter (x : Micros) : (s.withClock x).arbiter = s.arbiter := rfl
@[simp] theorem withClock_sender (x : Micros) : (s.withClock x).sender = s.sender := rfl
@[simp] theorem withClock_peers (x : Micros) : (s.withClock x).peers = s.peers := rfl
@[simp] theorem withClock_notices (x : Micros) : (s.withClock x).notices = s.notices := rfl
@[simp] theorem withClock_issue (x : Micros) : (s.withClock x).issue = s.issue := rfl
@[simp] theorem withClock_incidents (x : Micros) : (s.withClock x).incidents = s.incidents := rfl
@[simp] theorem withClock_port (x : Micros) : (s.withClock x).port = s.port := rfl

@[simp] theorem withLife_pending (x : LifeCycle) : (s.withLife x).pending = s.pending := rfl
@[simp] theorem withLife_clock (x : LifeCycle) : (s.withLife x).clock = s.clock := rfl
@[simp] theorem withLife_life (x : LifeCycle) : (s.withLife x).life = x := rfl
@[simp] theorem withLife_written (x : LifeCycle) : (s.withLife x).written = s.written := rfl
@[simp] theorem withLife_inForce (x : LifeCycle) : (s.withLife x).inForce = s.inForce := rfl
@[simp] theorem withLife_span (x : LifeCycle) : (s.withLife x).span = s.span := rfl
@[simp] theorem withLife_tags (x : LifeCycle) : (s.withLife x).tags = s.tags := rfl
@[simp] theorem withLife_buffer (x : LifeCycle) : (s.withLife x).buffer = s.buffer := rfl
@[simp] theorem withLife_inbound (x : LifeCycle) : (s.withLife x).inbound = s.inbound := rfl
@[simp] theorem withLife_store (x : LifeCycle) : (s.withLife x).store = s.store := rfl
@[simp] theorem withLife_arbiter (x : LifeCycle) : (s.withLife x).arbiter = s.arbiter := rfl
@[simp] theorem withLife_sender (x : LifeCycle) : (s.withLife x).sender = s.sender := rfl
@[simp] theorem withLife_peers (x : LifeCycle) : (s.withLife x).peers = s.peers := rfl
@[simp] theorem withLife_notices (x : LifeCycle) : (s.withLife x).notices = s.notices := rfl
@[simp] theorem withLife_issue (x : LifeCycle) : (s.withLife x).issue = s.issue := rfl
@[simp] theorem withLife_incidents (x : LifeCycle) : (s.withLife x).incidents = s.incidents := rfl
@[simp] theorem withLife_port (x : LifeCycle) : (s.withLife x).port = s.port := rfl

@[simp] theorem withWritten_pending (x : ConfigRecord) : (s.withWritten x).pending = s.pending := rfl
@[simp] theorem withWritten_clock (x : ConfigRecord) : (s.withWritten x).clock = s.clock := rfl
@[simp] theorem withWritten_life (x : ConfigRecord) : (s.withWritten x).life = s.life := rfl
@[simp] theorem withWritten_written (x : ConfigRecord) : (s.withWritten x).written = x := rfl
@[simp] theorem withWritten_inForce (x : ConfigRecord) : (s.withWritten x).inForce = s.inForce := rfl
@[simp] theorem withWritten_span (x : ConfigRecord) : (s.withWritten x).span = s.span := rfl
@[simp] theorem withWritten_tags (x : ConfigRecord) : (s.withWritten x).tags = s.tags := rfl
@[simp] theorem withWritten_buffer (x : ConfigRecord) : (s.withWritten x).buffer = s.buffer := rfl
@[simp] theorem withWritten_inbound (x : ConfigRecord) : (s.withWritten x).inbound = s.inbound := rfl
@[simp] theorem withWritten_store (x : ConfigRecord) : (s.withWritten x).store = s.store := rfl
@[simp] theorem withWritten_arbiter (x : ConfigRecord) : (s.withWritten x).arbiter = s.arbiter := rfl
@[simp] theorem withWritten_sender (x : ConfigRecord) : (s.withWritten x).sender = s.sender := rfl
@[simp] theorem withWritten_peers (x : ConfigRecord) : (s.withWritten x).peers = s.peers := rfl
@[simp] theorem withWritten_notices (x : ConfigRecord) : (s.withWritten x).notices = s.notices := rfl
@[simp] theorem withWritten_issue (x : ConfigRecord) : (s.withWritten x).issue = s.issue := rfl
@[simp] theorem withWritten_incidents (x : ConfigRecord) : (s.withWritten x).incidents = s.incidents := rfl
@[simp] theorem withWritten_port (x : ConfigRecord) : (s.withWritten x).port = s.port := rfl

@[simp] theorem withInForce_pending (x : ConfigRecord) : (s.withInForce x).pending = s.pending := rfl
@[simp] theorem withInForce_clock (x : ConfigRecord) : (s.withInForce x).clock = s.clock := rfl
@[simp] theorem withInForce_life (x : ConfigRecord) : (s.withInForce x).life = s.life := rfl
@[simp] theorem withInForce_written (x : ConfigRecord) : (s.withInForce x).written = s.written := rfl
@[simp] theorem withInForce_inForce (x : ConfigRecord) : (s.withInForce x).inForce = x := rfl
@[simp] theorem withInForce_span (x : ConfigRecord) : (s.withInForce x).span = s.span := rfl
@[simp] theorem withInForce_tags (x : ConfigRecord) : (s.withInForce x).tags = s.tags := rfl
@[simp] theorem withInForce_buffer (x : ConfigRecord) : (s.withInForce x).buffer = s.buffer := rfl
@[simp] theorem withInForce_inbound (x : ConfigRecord) : (s.withInForce x).inbound = s.inbound := rfl
@[simp] theorem withInForce_store (x : ConfigRecord) : (s.withInForce x).store = s.store := rfl
@[simp] theorem withInForce_arbiter (x : ConfigRecord) : (s.withInForce x).arbiter = s.arbiter := rfl
@[simp] theorem withInForce_sender (x : ConfigRecord) : (s.withInForce x).sender = s.sender := rfl
@[simp] theorem withInForce_peers (x : ConfigRecord) : (s.withInForce x).peers = s.peers := rfl
@[simp] theorem withInForce_notices (x : ConfigRecord) : (s.withInForce x).notices = s.notices := rfl
@[simp] theorem withInForce_issue (x : ConfigRecord) : (s.withInForce x).issue = s.issue := rfl
@[simp] theorem withInForce_incidents (x : ConfigRecord) : (s.withInForce x).incidents = s.incidents := rfl
@[simp] theorem withInForce_port (x : ConfigRecord) : (s.withInForce x).port = s.port := rfl

@[simp] theorem withSpan_pending (x : SpanInterface) : (s.withSpan x).pending = s.pending := rfl
@[simp] theorem withSpan_clock (x : SpanInterface) : (s.withSpan x).clock = s.clock := rfl
@[simp] theorem withSpan_life (x : SpanInterface) : (s.withSpan x).life = s.life := rfl
@[simp] theorem withSpan_written (x : SpanInterface) : (s.withSpan x).written = s.written := rfl
@[simp] theorem withSpan_inForce (x : SpanInterface) : (s.withSpan x).inForce = s.inForce := rfl
@[simp] theorem withSpan_span (x : SpanInterface) : (s.withSpan x).span = x := rfl
@[simp] theorem withSpan_tags (x : SpanInterface) : (s.withSpan x).tags = s.tags := rfl
@[simp] theorem withSpan_buffer (x : SpanInterface) : (s.withSpan x).buffer = s.buffer := rfl
@[simp] theorem withSpan_inbound (x : SpanInterface) : (s.withSpan x).inbound = s.inbound := rfl
@[simp] theorem withSpan_store (x : SpanInterface) : (s.withSpan x).store = s.store := rfl
@[simp] theorem withSpan_arbiter (x : SpanInterface) : (s.withSpan x).arbiter = s.arbiter := rfl
@[simp] theorem withSpan_sender (x : SpanInterface) : (s.withSpan x).sender = s.sender := rfl
@[simp] theorem withSpan_peers (x : SpanInterface) : (s.withSpan x).peers = s.peers := rfl
@[simp] theorem withSpan_notices (x : SpanInterface) : (s.withSpan x).notices = s.notices := rfl
@[simp] theorem withSpan_issue (x : SpanInterface) : (s.withSpan x).issue = s.issue := rfl
@[simp] theorem withSpan_incidents (x : SpanInterface) : (s.withSpan x).incidents = s.incidents := rfl
@[simp] theorem withSpan_port (x : SpanInterface) : (s.withSpan x).port = s.port := rfl

@[simp] theorem withTags_pending (x : Vector TagRecord 32) : (s.withTags x).pending = s.pending := rfl
@[simp] theorem withTags_clock (x : Vector TagRecord 32) : (s.withTags x).clock = s.clock := rfl
@[simp] theorem withTags_life (x : Vector TagRecord 32) : (s.withTags x).life = s.life := rfl
@[simp] theorem withTags_written (x : Vector TagRecord 32) : (s.withTags x).written = s.written := rfl
@[simp] theorem withTags_inForce (x : Vector TagRecord 32) : (s.withTags x).inForce = s.inForce := rfl
@[simp] theorem withTags_span (x : Vector TagRecord 32) : (s.withTags x).span = s.span := rfl
@[simp] theorem withTags_tags (x : Vector TagRecord 32) : (s.withTags x).tags = x := rfl
@[simp] theorem withTags_buffer (x : Vector TagRecord 32) : (s.withTags x).buffer = s.buffer := rfl
@[simp] theorem withTags_inbound (x : Vector TagRecord 32) : (s.withTags x).inbound = s.inbound := rfl
@[simp] theorem withTags_store (x : Vector TagRecord 32) : (s.withTags x).store = s.store := rfl
@[simp] theorem withTags_arbiter (x : Vector TagRecord 32) : (s.withTags x).arbiter = s.arbiter := rfl
@[simp] theorem withTags_sender (x : Vector TagRecord 32) : (s.withTags x).sender = s.sender := rfl
@[simp] theorem withTags_peers (x : Vector TagRecord 32) : (s.withTags x).peers = s.peers := rfl
@[simp] theorem withTags_notices (x : Vector TagRecord 32) : (s.withTags x).notices = s.notices := rfl
@[simp] theorem withTags_issue (x : Vector TagRecord 32) : (s.withTags x).issue = s.issue := rfl
@[simp] theorem withTags_incidents (x : Vector TagRecord 32) : (s.withTags x).incidents = s.incidents := rfl
@[simp] theorem withTags_port (x : Vector TagRecord 32) : (s.withTags x).port = s.port := rfl

@[simp] theorem withBuffer_pending (x : CompletionBuffer) : (s.withBuffer x).pending = s.pending := rfl
@[simp] theorem withBuffer_clock (x : CompletionBuffer) : (s.withBuffer x).clock = s.clock := rfl
@[simp] theorem withBuffer_life (x : CompletionBuffer) : (s.withBuffer x).life = s.life := rfl
@[simp] theorem withBuffer_written (x : CompletionBuffer) : (s.withBuffer x).written = s.written := rfl
@[simp] theorem withBuffer_inForce (x : CompletionBuffer) : (s.withBuffer x).inForce = s.inForce := rfl
@[simp] theorem withBuffer_span (x : CompletionBuffer) : (s.withBuffer x).span = s.span := rfl
@[simp] theorem withBuffer_tags (x : CompletionBuffer) : (s.withBuffer x).tags = s.tags := rfl
@[simp] theorem withBuffer_buffer (x : CompletionBuffer) : (s.withBuffer x).buffer = x := rfl
@[simp] theorem withBuffer_inbound (x : CompletionBuffer) : (s.withBuffer x).inbound = s.inbound := rfl
@[simp] theorem withBuffer_store (x : CompletionBuffer) : (s.withBuffer x).store = s.store := rfl
@[simp] theorem withBuffer_arbiter (x : CompletionBuffer) : (s.withBuffer x).arbiter = s.arbiter := rfl
@[simp] theorem withBuffer_sender (x : CompletionBuffer) : (s.withBuffer x).sender = s.sender := rfl
@[simp] theorem withBuffer_peers (x : CompletionBuffer) : (s.withBuffer x).peers = s.peers := rfl
@[simp] theorem withBuffer_notices (x : CompletionBuffer) : (s.withBuffer x).notices = s.notices := rfl
@[simp] theorem withBuffer_issue (x : CompletionBuffer) : (s.withBuffer x).issue = s.issue := rfl
@[simp] theorem withBuffer_incidents (x : CompletionBuffer) : (s.withBuffer x).incidents = s.incidents := rfl
@[simp] theorem withBuffer_port (x : CompletionBuffer) : (s.withBuffer x).port = s.port := rfl

@[simp] theorem withInbound_pending (x : Inbound) : (s.withInbound x).pending = s.pending := rfl
@[simp] theorem withInbound_clock (x : Inbound) : (s.withInbound x).clock = s.clock := rfl
@[simp] theorem withInbound_life (x : Inbound) : (s.withInbound x).life = s.life := rfl
@[simp] theorem withInbound_written (x : Inbound) : (s.withInbound x).written = s.written := rfl
@[simp] theorem withInbound_inForce (x : Inbound) : (s.withInbound x).inForce = s.inForce := rfl
@[simp] theorem withInbound_span (x : Inbound) : (s.withInbound x).span = s.span := rfl
@[simp] theorem withInbound_tags (x : Inbound) : (s.withInbound x).tags = s.tags := rfl
@[simp] theorem withInbound_buffer (x : Inbound) : (s.withInbound x).buffer = s.buffer := rfl
@[simp] theorem withInbound_inbound (x : Inbound) : (s.withInbound x).inbound = x := rfl
@[simp] theorem withInbound_store (x : Inbound) : (s.withInbound x).store = s.store := rfl
@[simp] theorem withInbound_arbiter (x : Inbound) : (s.withInbound x).arbiter = s.arbiter := rfl
@[simp] theorem withInbound_sender (x : Inbound) : (s.withInbound x).sender = s.sender := rfl
@[simp] theorem withInbound_peers (x : Inbound) : (s.withInbound x).peers = s.peers := rfl
@[simp] theorem withInbound_notices (x : Inbound) : (s.withInbound x).notices = s.notices := rfl
@[simp] theorem withInbound_issue (x : Inbound) : (s.withInbound x).issue = s.issue := rfl
@[simp] theorem withInbound_incidents (x : Inbound) : (s.withInbound x).incidents = s.incidents := rfl
@[simp] theorem withInbound_port (x : Inbound) : (s.withInbound x).port = s.port := rfl

@[simp] theorem withStore_pending (x : Store) : (s.withStore x).pending = s.pending := rfl
@[simp] theorem withStore_clock (x : Store) : (s.withStore x).clock = s.clock := rfl
@[simp] theorem withStore_life (x : Store) : (s.withStore x).life = s.life := rfl
@[simp] theorem withStore_written (x : Store) : (s.withStore x).written = s.written := rfl
@[simp] theorem withStore_inForce (x : Store) : (s.withStore x).inForce = s.inForce := rfl
@[simp] theorem withStore_span (x : Store) : (s.withStore x).span = s.span := rfl
@[simp] theorem withStore_tags (x : Store) : (s.withStore x).tags = s.tags := rfl
@[simp] theorem withStore_buffer (x : Store) : (s.withStore x).buffer = s.buffer := rfl
@[simp] theorem withStore_inbound (x : Store) : (s.withStore x).inbound = s.inbound := rfl
@[simp] theorem withStore_store (x : Store) : (s.withStore x).store = x := rfl
@[simp] theorem withStore_arbiter (x : Store) : (s.withStore x).arbiter = s.arbiter := rfl
@[simp] theorem withStore_sender (x : Store) : (s.withStore x).sender = s.sender := rfl
@[simp] theorem withStore_peers (x : Store) : (s.withStore x).peers = s.peers := rfl
@[simp] theorem withStore_notices (x : Store) : (s.withStore x).notices = s.notices := rfl
@[simp] theorem withStore_issue (x : Store) : (s.withStore x).issue = s.issue := rfl
@[simp] theorem withStore_incidents (x : Store) : (s.withStore x).incidents = s.incidents := rfl
@[simp] theorem withStore_port (x : Store) : (s.withStore x).port = s.port := rfl

@[simp] theorem withArbiter_pending (x : Arbiter) : (s.withArbiter x).pending = s.pending := rfl
@[simp] theorem withArbiter_clock (x : Arbiter) : (s.withArbiter x).clock = s.clock := rfl
@[simp] theorem withArbiter_life (x : Arbiter) : (s.withArbiter x).life = s.life := rfl
@[simp] theorem withArbiter_written (x : Arbiter) : (s.withArbiter x).written = s.written := rfl
@[simp] theorem withArbiter_inForce (x : Arbiter) : (s.withArbiter x).inForce = s.inForce := rfl
@[simp] theorem withArbiter_span (x : Arbiter) : (s.withArbiter x).span = s.span := rfl
@[simp] theorem withArbiter_tags (x : Arbiter) : (s.withArbiter x).tags = s.tags := rfl
@[simp] theorem withArbiter_buffer (x : Arbiter) : (s.withArbiter x).buffer = s.buffer := rfl
@[simp] theorem withArbiter_inbound (x : Arbiter) : (s.withArbiter x).inbound = s.inbound := rfl
@[simp] theorem withArbiter_store (x : Arbiter) : (s.withArbiter x).store = s.store := rfl
@[simp] theorem withArbiter_arbiter (x : Arbiter) : (s.withArbiter x).arbiter = x := rfl
@[simp] theorem withArbiter_sender (x : Arbiter) : (s.withArbiter x).sender = s.sender := rfl
@[simp] theorem withArbiter_peers (x : Arbiter) : (s.withArbiter x).peers = s.peers := rfl
@[simp] theorem withArbiter_notices (x : Arbiter) : (s.withArbiter x).notices = s.notices := rfl
@[simp] theorem withArbiter_issue (x : Arbiter) : (s.withArbiter x).issue = s.issue := rfl
@[simp] theorem withArbiter_incidents (x : Arbiter) : (s.withArbiter x).incidents = s.incidents := rfl
@[simp] theorem withArbiter_port (x : Arbiter) : (s.withArbiter x).port = s.port := rfl

@[simp] theorem withSender_pending (x : Sender) : (s.withSender x).pending = s.pending := rfl
@[simp] theorem withSender_clock (x : Sender) : (s.withSender x).clock = s.clock := rfl
@[simp] theorem withSender_life (x : Sender) : (s.withSender x).life = s.life := rfl
@[simp] theorem withSender_written (x : Sender) : (s.withSender x).written = s.written := rfl
@[simp] theorem withSender_inForce (x : Sender) : (s.withSender x).inForce = s.inForce := rfl
@[simp] theorem withSender_span (x : Sender) : (s.withSender x).span = s.span := rfl
@[simp] theorem withSender_tags (x : Sender) : (s.withSender x).tags = s.tags := rfl
@[simp] theorem withSender_buffer (x : Sender) : (s.withSender x).buffer = s.buffer := rfl
@[simp] theorem withSender_inbound (x : Sender) : (s.withSender x).inbound = s.inbound := rfl
@[simp] theorem withSender_store (x : Sender) : (s.withSender x).store = s.store := rfl
@[simp] theorem withSender_arbiter (x : Sender) : (s.withSender x).arbiter = s.arbiter := rfl
@[simp] theorem withSender_sender (x : Sender) : (s.withSender x).sender = x := rfl
@[simp] theorem withSender_peers (x : Sender) : (s.withSender x).peers = s.peers := rfl
@[simp] theorem withSender_notices (x : Sender) : (s.withSender x).notices = s.notices := rfl
@[simp] theorem withSender_issue (x : Sender) : (s.withSender x).issue = s.issue := rfl
@[simp] theorem withSender_incidents (x : Sender) : (s.withSender x).incidents = s.incidents := rfl
@[simp] theorem withSender_port (x : Sender) : (s.withSender x).port = s.port := rfl

@[simp] theorem withPeers_pending (x : Vector PeerRecord 16) : (s.withPeers x).pending = s.pending := rfl
@[simp] theorem withPeers_clock (x : Vector PeerRecord 16) : (s.withPeers x).clock = s.clock := rfl
@[simp] theorem withPeers_life (x : Vector PeerRecord 16) : (s.withPeers x).life = s.life := rfl
@[simp] theorem withPeers_written (x : Vector PeerRecord 16) : (s.withPeers x).written = s.written := rfl
@[simp] theorem withPeers_inForce (x : Vector PeerRecord 16) : (s.withPeers x).inForce = s.inForce := rfl
@[simp] theorem withPeers_span (x : Vector PeerRecord 16) : (s.withPeers x).span = s.span := rfl
@[simp] theorem withPeers_tags (x : Vector PeerRecord 16) : (s.withPeers x).tags = s.tags := rfl
@[simp] theorem withPeers_buffer (x : Vector PeerRecord 16) : (s.withPeers x).buffer = s.buffer := rfl
@[simp] theorem withPeers_inbound (x : Vector PeerRecord 16) : (s.withPeers x).inbound = s.inbound := rfl
@[simp] theorem withPeers_store (x : Vector PeerRecord 16) : (s.withPeers x).store = s.store := rfl
@[simp] theorem withPeers_arbiter (x : Vector PeerRecord 16) : (s.withPeers x).arbiter = s.arbiter := rfl
@[simp] theorem withPeers_sender (x : Vector PeerRecord 16) : (s.withPeers x).sender = s.sender := rfl
@[simp] theorem withPeers_peers (x : Vector PeerRecord 16) : (s.withPeers x).peers = x := rfl
@[simp] theorem withPeers_notices (x : Vector PeerRecord 16) : (s.withPeers x).notices = s.notices := rfl
@[simp] theorem withPeers_issue (x : Vector PeerRecord 16) : (s.withPeers x).issue = s.issue := rfl
@[simp] theorem withPeers_incidents (x : Vector PeerRecord 16) : (s.withPeers x).incidents = s.incidents := rfl
@[simp] theorem withPeers_port (x : Vector PeerRecord 16) : (s.withPeers x).port = s.port := rfl

@[simp] theorem withNotices_pending (x : NoticeUnit) : (s.withNotices x).pending = s.pending := rfl
@[simp] theorem withNotices_clock (x : NoticeUnit) : (s.withNotices x).clock = s.clock := rfl
@[simp] theorem withNotices_life (x : NoticeUnit) : (s.withNotices x).life = s.life := rfl
@[simp] theorem withNotices_written (x : NoticeUnit) : (s.withNotices x).written = s.written := rfl
@[simp] theorem withNotices_inForce (x : NoticeUnit) : (s.withNotices x).inForce = s.inForce := rfl
@[simp] theorem withNotices_span (x : NoticeUnit) : (s.withNotices x).span = s.span := rfl
@[simp] theorem withNotices_tags (x : NoticeUnit) : (s.withNotices x).tags = s.tags := rfl
@[simp] theorem withNotices_buffer (x : NoticeUnit) : (s.withNotices x).buffer = s.buffer := rfl
@[simp] theorem withNotices_inbound (x : NoticeUnit) : (s.withNotices x).inbound = s.inbound := rfl
@[simp] theorem withNotices_store (x : NoticeUnit) : (s.withNotices x).store = s.store := rfl
@[simp] theorem withNotices_arbiter (x : NoticeUnit) : (s.withNotices x).arbiter = s.arbiter := rfl
@[simp] theorem withNotices_sender (x : NoticeUnit) : (s.withNotices x).sender = s.sender := rfl
@[simp] theorem withNotices_peers (x : NoticeUnit) : (s.withNotices x).peers = s.peers := rfl
@[simp] theorem withNotices_notices (x : NoticeUnit) : (s.withNotices x).notices = x := rfl
@[simp] theorem withNotices_issue (x : NoticeUnit) : (s.withNotices x).issue = s.issue := rfl
@[simp] theorem withNotices_incidents (x : NoticeUnit) : (s.withNotices x).incidents = s.incidents := rfl
@[simp] theorem withNotices_port (x : NoticeUnit) : (s.withNotices x).port = s.port := rfl

@[simp] theorem withIssue_pending (x : IssueEngine) : (s.withIssue x).pending = s.pending := rfl
@[simp] theorem withIssue_clock (x : IssueEngine) : (s.withIssue x).clock = s.clock := rfl
@[simp] theorem withIssue_life (x : IssueEngine) : (s.withIssue x).life = s.life := rfl
@[simp] theorem withIssue_written (x : IssueEngine) : (s.withIssue x).written = s.written := rfl
@[simp] theorem withIssue_inForce (x : IssueEngine) : (s.withIssue x).inForce = s.inForce := rfl
@[simp] theorem withIssue_span (x : IssueEngine) : (s.withIssue x).span = s.span := rfl
@[simp] theorem withIssue_tags (x : IssueEngine) : (s.withIssue x).tags = s.tags := rfl
@[simp] theorem withIssue_buffer (x : IssueEngine) : (s.withIssue x).buffer = s.buffer := rfl
@[simp] theorem withIssue_inbound (x : IssueEngine) : (s.withIssue x).inbound = s.inbound := rfl
@[simp] theorem withIssue_store (x : IssueEngine) : (s.withIssue x).store = s.store := rfl
@[simp] theorem withIssue_arbiter (x : IssueEngine) : (s.withIssue x).arbiter = s.arbiter := rfl
@[simp] theorem withIssue_sender (x : IssueEngine) : (s.withIssue x).sender = s.sender := rfl
@[simp] theorem withIssue_peers (x : IssueEngine) : (s.withIssue x).peers = s.peers := rfl
@[simp] theorem withIssue_notices (x : IssueEngine) : (s.withIssue x).notices = s.notices := rfl
@[simp] theorem withIssue_issue (x : IssueEngine) : (s.withIssue x).issue = x := rfl
@[simp] theorem withIssue_incidents (x : IssueEngine) : (s.withIssue x).incidents = s.incidents := rfl
@[simp] theorem withIssue_port (x : IssueEngine) : (s.withIssue x).port = s.port := rfl

@[simp] theorem withIncidents_pending (x : Incidents) : (s.withIncidents x).pending = s.pending := rfl
@[simp] theorem withIncidents_clock (x : Incidents) : (s.withIncidents x).clock = s.clock := rfl
@[simp] theorem withIncidents_life (x : Incidents) : (s.withIncidents x).life = s.life := rfl
@[simp] theorem withIncidents_written (x : Incidents) : (s.withIncidents x).written = s.written := rfl
@[simp] theorem withIncidents_inForce (x : Incidents) : (s.withIncidents x).inForce = s.inForce := rfl
@[simp] theorem withIncidents_span (x : Incidents) : (s.withIncidents x).span = s.span := rfl
@[simp] theorem withIncidents_tags (x : Incidents) : (s.withIncidents x).tags = s.tags := rfl
@[simp] theorem withIncidents_buffer (x : Incidents) : (s.withIncidents x).buffer = s.buffer := rfl
@[simp] theorem withIncidents_inbound (x : Incidents) : (s.withIncidents x).inbound = s.inbound := rfl
@[simp] theorem withIncidents_store (x : Incidents) : (s.withIncidents x).store = s.store := rfl
@[simp] theorem withIncidents_arbiter (x : Incidents) : (s.withIncidents x).arbiter = s.arbiter := rfl
@[simp] theorem withIncidents_sender (x : Incidents) : (s.withIncidents x).sender = s.sender := rfl
@[simp] theorem withIncidents_peers (x : Incidents) : (s.withIncidents x).peers = s.peers := rfl
@[simp] theorem withIncidents_notices (x : Incidents) : (s.withIncidents x).notices = s.notices := rfl
@[simp] theorem withIncidents_issue (x : Incidents) : (s.withIncidents x).issue = s.issue := rfl
@[simp] theorem withIncidents_incidents (x : Incidents) : (s.withIncidents x).incidents = x := rfl
@[simp] theorem withIncidents_port (x : Incidents) : (s.withIncidents x).port = s.port := rfl

@[simp] theorem withPort_pending (x : Port) : (s.withPort x).pending = s.pending := rfl
@[simp] theorem withPort_clock (x : Port) : (s.withPort x).clock = s.clock := rfl
@[simp] theorem withPort_life (x : Port) : (s.withPort x).life = s.life := rfl
@[simp] theorem withPort_written (x : Port) : (s.withPort x).written = s.written := rfl
@[simp] theorem withPort_inForce (x : Port) : (s.withPort x).inForce = s.inForce := rfl
@[simp] theorem withPort_span (x : Port) : (s.withPort x).span = s.span := rfl
@[simp] theorem withPort_tags (x : Port) : (s.withPort x).tags = s.tags := rfl
@[simp] theorem withPort_buffer (x : Port) : (s.withPort x).buffer = s.buffer := rfl
@[simp] theorem withPort_inbound (x : Port) : (s.withPort x).inbound = s.inbound := rfl
@[simp] theorem withPort_store (x : Port) : (s.withPort x).store = s.store := rfl
@[simp] theorem withPort_arbiter (x : Port) : (s.withPort x).arbiter = s.arbiter := rfl
@[simp] theorem withPort_sender (x : Port) : (s.withPort x).sender = s.sender := rfl
@[simp] theorem withPort_peers (x : Port) : (s.withPort x).peers = s.peers := rfl
@[simp] theorem withPort_notices (x : Port) : (s.withPort x).notices = s.notices := rfl
@[simp] theorem withPort_issue (x : Port) : (s.withPort x).issue = s.issue := rfl
@[simp] theorem withPort_incidents (x : Port) : (s.withPort x).incidents = s.incidents := rfl
@[simp] theorem withPort_port (x : Port) : (s.withPort x).port = x := rfl

end Sys2Proof.Machine.State
end

