-- ==== Sys2Proof/Laws/Ops.lean ====
section
/-!
SUPPORT. Ops: what the shared operations leave alone: the fields no unit's own work touches (`outer`).
-/
namespace Sys2Proof.Machine

/-- The fields that no unit's work on the span, on tags, entries or contexts ever touches, and the record of the own number. -/
structure Outer where
  pending : List Instr
  written : ConfigRecord
  inForce : ConfigRecord
  store : Store
  port : Port
  number : Station
  selfRecord : PeerRecord
  commands : List CommandRecord
  staging : CommandRecord

/-- The untouched fields of a state. -/
def State.outer (s : State) : Outer where
  pending := s.pending
  written := s.written
  inForce := s.inForce
  store := s.store
  port := s.port
  number := s.life.number
  selfRecord := s.peerAt s.life.number
  commands := s.issue.commands
  staging := s.issue.staging

/-! ## Updates -/

@[simp] theorem outer_withClock (s : State) (x : Micros) : (s.withClock x).outer = s.outer := rfl
@[simp] theorem outer_withSpan (s : State) (x : SpanInterface) : (s.withSpan x).outer = s.outer := rfl
@[simp] theorem outer_withTags (s : State) (x : Vector TagRecord 32) : (s.withTags x).outer = s.outer := rfl
@[simp] theorem outer_withBuffer (s : State) (x : CompletionBuffer) : (s.withBuffer x).outer = s.outer := rfl
@[simp] theorem outer_withInbound (s : State) (x : Inbound) : (s.withInbound x).outer = s.outer := rfl
@[simp] theorem outer_withArbiter (s : State) (x : Arbiter) : (s.withArbiter x).outer = s.outer := rfl
@[simp] theorem outer_withSender (s : State) (x : Sender) : (s.withSender x).outer = s.outer := rfl
@[simp] theorem outer_withNotices (s : State) (x : NoticeUnit) : (s.withNotices x).outer = s.outer := rfl
@[simp] theorem outer_withIncidents (s : State) (x : Incidents) : (s.withIncidents x).outer = s.outer := rfl

/-- A fold of operations that each keep the fields keeps them. -/
theorem outer_foldl {α : Type} (f : State → α → State) (h : ∀ s a, (f s a).outer = s.outer) :
    ∀ (l : List α) (s : State), (l.foldl f s).outer = s.outer
  | [], _ => rfl
  | a :: rest, s => (outer_foldl f h rest (f s a)).trans (h s a)

/-! ## Reports, store requests, time -/

@[simp] theorem outer_report (s : State) (i : Incident) : (s.report i).outer = s.outer := rfl
@[simp] theorem outer_raise (s : State) (c : Claimant) (tr : Transfer) : (s.raise c tr).outer = s.outer := rfl
@[simp] theorem outer_storeIdle (s : State) : s.storeIdle.outer = s.outer := rfl
@[simp] theorem outer_advance (s : State) (t : Micros) : (s.advance t).outer = s.outer := rfl
@[simp] theorem outer_enter (s : State) (x : StationState) : (s.enter x).outer = s.outer := rfl

/-! ## Entries, tags, contexts -/

@[simp] theorem outer_refreshOffer (s : State) : s.refreshOffer.outer = s.outer := rfl
@[simp] theorem outer_withRequests (s : State) (q : List RequestEntry) : (s.withRequests q).outer = s.outer := rfl
@[simp] theorem outer_updateEntry (s : State) (n : Fin 16) (f : RequestEntry → RequestEntry) :
    (s.updateEntry n f).outer = s.outer := rfl
@[simp] theorem outer_noCopy (s : State) : s.noCopy.outer = s.outer := rfl
@[simp] theorem outer_stopCopyOf (s : State) (n : Fin 16) : (s.stopCopyOf n).outer = s.outer := by
  unfold State.stopCopyOf; split <;> rfl
@[simp] theorem outer_removeEntry (s : State) (n : Fin 16) : (s.removeEntry n).outer = s.outer := by
  unfold State.removeEntry; dsimp only; split <;> simp
@[simp] theorem outer_dropWithdrawn (s : State) : s.dropWithdrawn.outer = s.outer := rfl
@[simp] theorem outer_removeEntryOf (s : State) (t : Tag) : (s.removeEntryOf t).outer = s.outer := by
  unfold State.removeEntryOf; split <;> simp
@[simp] theorem outer_setTag (s : State) (t : Tag) (r : TagRecord) : (s.setTag t r).outer = s.outer := rfl
@[simp] theorem outer_dropPieces (s : State) (t : Tag) (g : Generation) : (s.dropPieces t g).outer = s.outer := rfl
@[simp] theorem outer_updateContext (s : State) (n : ContextNumber) (f : Context → Context) :
    (s.updateContext n f).outer = s.outer := rfl
@[simp] theorem outer_withWaiting (s : State) (w : WaitingFor) : (s.withWaiting w).outer = s.outer := rfl
@[simp] theorem outer_issuingEnds (s : State) (n : ContextNumber) : (s.issuingEnds n).outer = s.outer := by
  unfold State.issuingEnds; split <;> rfl
@[simp] theorem outer_withdrawTag (s : State) (t : Tag) : (s.withdrawTag t).outer = s.outer := by
  unfold State.withdrawTag; dsimp only; split <;> simp
@[simp] theorem outer_withdrawLater (s : State) (n : ContextNumber) (k : Nat) : (s.withdrawLater n k).outer = s.outer :=
  outer_foldl _ (fun s t => by split <;> simp) _ _
@[simp] theorem outer_failSegment (s : State) (n : ContextNumber) (k : Nat) (st : Status) :
    (s.failSegment n k st).outer = s.outer := by
  simp [State.failSegment]
@[simp] theorem outer_reportEnd (s : State) (n : ContextNumber) (k : Nat) (st : Status) (v : Option Word) :
    (s.reportEnd n k st v).outer = s.outer := by
  unfold State.reportEnd; dsimp only; split <;> simp
@[simp] theorem outer_endSegment (s : State) (t : Tag) (st : Status) (v : Option Word) :
    (s.endSegment t st v).outer = s.outer := by
  unfold State.endSegment; dsimp only; split <;> (simp only [outer_reportEnd, outer_setTag]; split <;> simp)
@[simp] theorem outer_endNotice (s : State) (n : Fin 16) (c : ContextNumber) (st : Status) :
    (s.endNotice n c st).outer = s.outer := by
  simp [State.endNotice]
@[simp] theorem outer_endEntry (s : State) (e : RequestEntry) (st : Status) : (s.endEntry e st).outer = s.outer := by
  unfold State.endEntry; split <;> simp
@[simp] theorem outer_produceResults (s : State) : s.produceResults.outer = s.outer := rfl

/-! ## The issue of a segment, and the end of an event -/

@[simp] theorem outer_appendEntry (s : State) (n : Fin 16) (b : FrameBody) (o : Owner) (x : EntryState) :
    (s.appendEntry n b o x).outer = s.outer := rfl
@[simp] theorem outer_segmentIssued (s : State) (c : Context) : (s.segmentIssued c).outer = s.outer := by
  unfold State.segmentIssued; dsimp only; split <;> simp
@[simp] theorem outer_grant (s : State) (c : Context) : (s.grant c).outer = s.outer := by
  unfold State.grant State.grantSegment State.grantNotice
  (repeat' split) <;> simp
@[simp] theorem outer_issueSegment (s : State) (c : Context) : (s.issueSegment c).outer = s.outer := by
  unfold State.issueSegment State.delaySegment
  (repeat' split) <;> simp
@[simp] theorem outer_issueNext (s : State) : s.issueNext.outer = s.outer := by
  unfold State.issueNext; split <;> simp
@[simp] theorem outer_askAgain (s : State) : s.askAgain.outer = s.outer := by
  unfold State.askAgain; split <;> simp
@[simp] theorem outer_turnService (s : State) : s.turnService.outer = s.outer := by
  unfold State.turnService; (repeat' split) <;> rfl
@[simp] theorem outer_settle (s : State) : s.settle.outer = s.outer := by
  simp [State.settle]

/-! ## Peers, cleanup, entry to HALTED -/

/-- A peer's record is not the record of the own number. -/
theorem outer_setPeer (s : State) (n : Station) (p : PeerRecord) (h : n ≠ s.life.number) :
    (s.setPeer n p).outer = s.outer := by
  have hn : n.val ≠ s.life.number.val := fun e => h (Fin.ext e)
  simp [State.outer, State.setPeer, State.peerAt, State.withPeers, Vector.getElem_set_ne, hn]

@[simp] theorem outer_cleanTags (s : State) (p : Station) : (s.cleanTags p).outer = s.outer :=
  outer_foldl _ (fun s t => by
    unfold State.cleanTag; split
    · split
      · simp
      · split <;> simp
    · rfl) _ _
@[simp] theorem outer_cleanRequests (s : State) (p : Station) : (s.cleanRequests p).outer = s.outer := rfl
@[simp] theorem outer_cleanResponses (s : State) (p : Station) : (s.cleanResponses p).outer = s.outer := rfl
@[simp] theorem outer_cleanInbound (s : State) (p : Station) : (s.cleanInbound p).outer = s.outer := rfl
@[simp] theorem outer_cleanup (s : State) (p : Station) : (s.cleanup p).outer = s.outer := by
  simp [State.cleanup]
@[simp] theorem outer_endWaitFor (s : State) (p : Station) : (s.endWaitFor p).outer = s.outer := by
  unfold State.endWaitFor; split
  · rfl
  · split
    · rfl
    · split <;> simp
/-- Marking a peer ABSENT touches no kept field. -/
theorem outer_markAbsent (s : State) (p : Station) (h : p ≠ s.life.number) : (s.markAbsent p).outer = s.outer := by
  simp [State.markAbsent, outer_setPeer s p _ h]
@[simp] theorem outer_silentReport (s : State) (p : Station) : (s.silentReport p).outer = s.outer := by
  unfold State.silentReport; split
  · rfl
  · exact outer_markAbsent s p ‹_›
@[simp] theorem outer_haltTags (s : State) : s.haltTags.outer = s.outer :=
  outer_foldl _ (fun s t => by
    unfold State.haltTag; split
    · simp
    · split <;> simp) _ _
@[simp] theorem outer_haltNotices (s : State) : s.haltNotices.outer = s.outer :=
  outer_foldl _ (fun s e => by unfold State.haltNotice; (repeat' split) <;> simp) _ _
@[simp] theorem outer_haltCurrent (s : State) : s.haltCurrent.outer = s.outer := by
  unfold State.haltCurrent; split
  · rfl
  · split <;> simp
@[simp] theorem outer_endLeave (s : State) (st : Status) : (s.endLeave st).outer = s.outer := rfl
@[simp] theorem outer_recordHalt (s : State) (c : HaltCause) : (s.recordHalt c).outer = s.outer := by
  unfold State.recordHalt; dsimp only; split <;> rfl
@[simp] theorem outer_haltSpan (s : State) : s.haltSpan.outer = s.outer := rfl
@[simp] theorem outer_haltWork (s : State) : s.haltWork.outer = s.outer := by
  rw [State.haltWork, outer_noCopy, outer_endLeave, outer_haltNotices, outer_haltTags, outer_haltCurrent]
@[simp] theorem outer_haltQueues (s : State) : s.haltQueues.outer = s.outer := rfl
@[simp] theorem outer_enterHalted (s : State) (c : HaltCause) : (s.enterHalted c).outer = s.outer := by
  rw [State.enterHalted, outer_haltQueues, outer_haltWork, outer_haltSpan, outer_recordHalt]

/-! ## Outcomes and commits -/

@[simp] theorem outer_setTagState (s : State) (t : Tag) (x : TagState) : (s.setTagState t x).outer = s.outer := rfl
@[simp] theorem outer_setOwnerState (s : State) (o : Owner) (x : TagState) : (s.setOwnerState o x).outer = s.outer := by
  cases o <;> rfl
@[simp] theorem outer_tagAccepted (s : State) (n : Fin 16) (t : Tag) : (s.tagAccepted n t).outer = s.outer := by
  unfold State.tagAccepted; split <;> simp
@[simp] theorem outer_reportSilence (s : State) (t : Option Station) : (s.reportSilence t).outer = s.outer := by
  cases t <;> simp [State.reportSilence]
@[simp] theorem outer_entryOutcome (s : State) (e : RequestEntry) (a : Answer) : (s.entryOutcome e a).outer = s.outer := by
  cases a with
  | silent => simp only [State.entryOutcome, State.entrySilent]; split <;> simp
  | accept => simp only [State.entryOutcome, State.entryAccepted]; split <;> simp
  | refuse => simp only [State.entryOutcome, State.entryRefused]; split <;> simp
  | busy => simp [State.entryOutcome, State.entryBusy]
  | damaged => simp only [State.entryOutcome, State.entryDamaged]; split <;> simp
@[simp] theorem outer_requestOutcome (s : State) (n : Fin 16) (a : Answer) : (s.requestOutcome n a).outer = s.outer := by
  unfold State.requestOutcome; split
  · rfl
  · split <;> simp
@[simp] theorem outer_dropResponse (s : State) : s.dropResponse.outer = s.outer := rfl
@[simp] theorem outer_responseOutcome (s : State) (a : Answer) : (s.responseOutcome a).outer = s.outer := by
  unfold State.responseOutcome; split
  · rfl
  · split <;> try simp
    unfold State.responseDamaged; split <;> simp
@[simp] theorem outer_freeStale (s : State) : s.freeStale.outer = s.outer :=
  outer_foldl _ (fun s t => by unfold State.freeIfStale; split <;> simp) _ _
@[simp] theorem outer_joined (s : State) : s.joined.outer = s.outer := rfl
@[simp] theorem outer_left (s : State) : s.left.outer = s.outer := by
  simp only [State.left, outer_enter, outer_endLeave, outer_freeStale]; rfl
@[simp] theorem outer_controlDone (s : State) (k : ControlKind) : (s.controlDone k).outer = s.outer := by
  cases k <;> simp [State.controlDone]
@[simp] theorem outer_recountControl (s : State) (c : ControlFrame) : (s.recountControl c).outer = s.outer := rfl
@[simp] theorem outer_controlOutcome (s : State) (a : Answer) : (s.controlOutcome a).outer = s.outer := by
  unfold State.controlOutcome; split
  · rfl
  · split <;> try simp
    unfold State.controlDamaged; split <;> simp
@[simp] theorem outer_controlConflict (s : State) : s.controlConflict.outer = s.outer := by
  unfold State.controlConflict; split
  · rfl
  · split <;> rfl
@[simp] theorem outer_endAttempt (s : State) : s.endAttempt.outer = s.outer := rfl
@[simp] theorem outer_ownOutcome (s : State) (a : Answer) : (s.ownOutcome a).outer = s.outer := by
  unfold State.ownOutcome; split
  · unfold State.outcomeAt; split <;> simp
  · simp
@[simp] theorem outer_ownConflict (s : State) : s.ownConflict.outer = s.outer := by
  unfold State.ownConflict; split
  · unfold State.conflictAt; split <;> simp
  · simp
@[simp] theorem outer_countUnexpected (s : State) (f : Frame) : (s.countUnexpected f).outer = s.outer := by
  unfold State.countUnexpected; split <;> simp
@[simp] theorem outer_countAnswer (s : State) (f : Frame) (d a : Answer) : (s.countAnswer f d a).outer = s.outer := by
  unfold State.countAnswer State.countRequestAnswer
  (repeat' split) <;> simp
@[simp] theorem outer_commit (s : State) (f : Frame) : (s.commit f).outer = s.outer := by
  unfold State.commit State.commitRequest State.commitCompletion State.commitMatched State.commitPiece State.commitLate
    State.commitNotice
  dsimp only
  (repeat' split) <;> simp
@[simp] theorem outer_observe (s : State) (f : Frame) : (s.observe f).outer = s.outer := by
  unfold State.observe; split
  · unfold State.observeOwn; split <;> simp
  · rename_i h
    unfold State.observePeer; split
    · unfold State.observeJoin
      dsimp only
      split
      · rw [outer_cleanup, outer_setPeer _ _ _ h]
      · exact outer_setPeer _ _ _ h
    · exact outer_markAbsent _ _ h
    · exact outer_setPeer _ _ _ h
@[simp] theorem outer_resolveReceived (s : State) (r : Received) (a : Answer) : (s.resolveReceived r a).outer = s.outer := by
  unfold State.resolveReceived State.resolveFrame
  dsimp only
  (repeat' split) <;> simp
@[simp] theorem outer_completeGiveUp (s : State) : s.completeGiveUp.outer = s.outer := by
  unfold State.completeGiveUp; (repeat' split) <;> simp
@[simp] theorem outer_countDamage (s : State) (a : Answer) : (s.countDamage a).outer = s.outer := by
  unfold State.countDamage; split <;> simp
@[simp] theorem outer_makeReports (s : State) (r : Option Received) (a : Answer) :
    (s.makeReports r a).outer = s.outer := by
  unfold State.makeReports
  dsimp only
  (repeat' split) <;> simp
@[simp] theorem outer_turnIdle (s : State) : s.turnIdle.outer = s.outer := rfl
@[simp] theorem outer_resolved (s : State) (a : Answer) : (s.resolved a).outer = s.outer := by
  unfold State.resolved; (repeat' split) <;> simp
@[simp] theorem outer_contend (s : State) (r : ContentionReport) : (s.contend r).outer = s.outer := by
  unfold State.contend State.settleUnsynced State.settleContention State.won State.lost
  dsimp only
  (repeat' split) <;> simp
@[simp] theorem outer_conflict (s : State) : s.conflict.outer = s.outer := by
  simp [State.conflict]

/-! ## Timers and engines -/

@[simp] theorem outer_completionExpired (s : State) (t : Tag) (d : Micros) : (s.completionExpired t d).outer = s.outer := by
  simp [State.completionExpired]
@[simp] theorem outer_staleExpired (s : State) (t : Tag) (d : Micros) : (s.staleExpired t d).outer = s.outer := by
  simp [State.staleExpired]
@[simp] theorem outer_backoffExpired (s : State) (e : RequestEntry) (x : Micros) :
    (s.backoffExpired e x).outer = s.outer := by
  unfold State.backoffExpired; dsimp only; split <;> simp
@[simp] theorem outer_raiseCopy (s : State) (e : RequestEntry) : (s.raiseCopy e).outer = s.outer := by
  unfold State.raiseCopy; split <;> rfl
@[simp] theorem outer_copyCompleted (s : State) (g : Granted) : (s.copyCompleted g).outer = s.outer := by
  unfold State.copyCompleted State.copyCarried
  dsimp only
  (repeat' split) <;> first | rfl | simp
@[simp] theorem outer_serveAt (s : State) (e : InboundEntry) (p : Nat) (l : List Byte) :
    (s.serveAt e p l).outer = s.outer := rfl
@[simp] theorem outer_appendCompletion (s : State) (e : InboundEntry) (b : FrameBody) :
    (s.appendCompletion e b).outer = s.outer := by
  unfold State.appendCompletion; split <;> rfl
@[simp] theorem outer_serviceEnded (s : State) : s.serviceEnded.outer = s.outer := rfl
@[simp] theorem outer_writeServed (s : State) (e : InboundEntry) (v : Service) (n : Nat) :
    (s.writeServed e v n).outer = s.outer := by
  unfold State.writeServed; dsimp only; split <;> simp
@[simp] theorem outer_readServed (s : State) (e : InboundEntry) (v : Service) (g : Granted) :
    (s.readServed e v g).outer = s.outer := by
  unfold State.readServed State.serviceFailed; dsimp only; (repeat' split) <;> simp
@[simp] theorem outer_atomicServed (s : State) (e : InboundEntry) (g : Granted) : (s.atomicServed e g).outer = s.outer := by
  unfold State.atomicServed State.serviceFailed; split <;> simp
/-- A service result keeps the fields if the row's own act does. -/
theorem outer_serviceResult (s : State) (g : Granted) (act : State → InboundEntry → Service → State)
    (h : ∀ s e v, (act s e v).outer = s.outer) : (s.serviceResult g act).outer = s.outer := by
  unfold State.serviceResult; dsimp only; (repeat' split) <;> simp [h]
@[simp] theorem outer_landed (s : State) (l : Landing) (n : Nat) : (s.landed l n).outer = s.outer := by
  unfold State.landed State.landingEnded State.landingReported State.takeNextPiece State.landingBegun State.landAt
  dsimp only
  (repeat' split) <;> simp

end Sys2Proof.Machine
end

