-- ==== Sys2Proof/Laws/Segments.lean ====
section
/-!
SUPPORT. Segments: what withdrawals, failures and ends of segments do to tags, pieces and contexts, and what they
leave alone.
-/
namespace Sys2Proof.Machine

/-- The fields that the removal of a request-queue entry leaves alone. -/
structure SegmentView where
  tags : Vector TagRecord 32
  buffer : CompletionBuffer
  contexts : List Context
  current : Option ContextNumber
  waitingFor : WaitingFor
  results : List Result
  commands : List CommandRecord
  control : Option ControlFrame
  responses : List ResponseEntry
  life : LifeCycle
  span : SpanInterface
  inbound : Inbound
  peers : Vector PeerRecord 16
  notices : NoticeUnit
  incidents : Incidents
  store : Store
  clock : Micros
  inForce : ConfigRecord
  written : ConfigRecord
  port : Port
  pending : List Instr
  staging : CommandRecord
  latch : Option Result

/-- The fields of a state that the removal of an entry leaves alone. -/
def State.segmentView (s : State) : SegmentView where
  tags := s.tags
  buffer := s.buffer
  contexts := s.issue.contexts
  current := s.issue.current
  waitingFor := s.issue.waitingFor
  results := s.issue.results
  commands := s.issue.commands
  control := s.sender.control
  responses := s.sender.responses
  life := s.life
  span := s.span
  inbound := s.inbound
  peers := s.peers
  notices := s.notices
  incidents := s.incidents
  store := s.store
  clock := s.clock
  inForce := s.inForce
  written := s.written
  port := s.port
  pending := s.pending
  staging := s.issue.staging
  latch := s.issue.latch

/-- Stopping a copy leaves the view. -/
theorem segmentView_stopCopyOf (s : State) (n : Fin 16) : (s.stopCopyOf n).segmentView = s.segmentView := by
  unfold State.stopCopyOf; split <;> rfl
/-- Removing an entry leaves the view. -/
theorem segmentView_removeEntry (s : State) (n : Fin 16) : (s.removeEntry n).segmentView = s.segmentView := by
  rw [← segmentView_stopCopyOf s n]
  unfold State.removeEntry; dsimp only; split <;> rfl
/-- Removing a tag's entry leaves the view. -/
theorem segmentView_removeEntryOf (s : State) (t : Tag) : (s.removeEntryOf t).segmentView = s.segmentView := by
  unfold State.removeEntryOf; split
  · exact segmentView_removeEntry _ _
  · rfl

/-- R28: the view after a withdrawal. -/
theorem segmentView_withdrawTag (s : State) (t : Tag) (n : ContextNumber) (h : (s.tagAt t).context = some n) :
    (s.withdrawTag t).segmentView = { s.segmentView with
      tags := s.tags.set t.val (s.tagAt t).freed t.isLt
      buffer := { s.buffer with pieces := s.buffer.pieces.filter (fun p => !(decide (p.tag = t) && decide
          (p.generation = (s.tagAt t).generation))) }
      contexts := s.issue.contexts.map (fun c => if c.number = n then c.accounted none else c) } := by
  have := segmentView_removeEntryOf s t
  unfold State.withdrawTag
  simp only [h]
  simp only [State.segmentView, SegmentView.mk.injEq] at this
  simp only [State.segmentView, State.updateContext, State.withIssue, State.setTag, State.withTags, State.dropPieces,
      State.withBuffer, this]

/-- Tag `x` belongs to a later segment of context `n` that still waits to go (R114). -/
abbrev laterIn (s : State) (n : ContextNumber) (k : Nat) (x : Tag) : Bool := (s.tagAt x).isLaterOf n k

/-- The record of a tag after one record is replaced. -/
theorem tagAt_set (s : State) (t x : Tag) (r : TagRecord) : (s.tags.set t.val r t.isLt)[x.val] = if x = t then r else
    s.tagAt x := by
  by_cases h : x = t
  · subst h; simp
  · have : t.val ≠ x.val := fun e => h (Fin.ext e.symm)
    rw [Vector.getElem_set_ne _ _ this, if_neg h]; rfl

/-- The record of a tag, read from the view. -/
theorem tagAt_of_segmentView {u : State} {v : Vector TagRecord 32} (h : u.segmentView.tags = v) (x : Tag) : u.tagAt x
    = v[x.val] := by
  subst h; rfl

/-- A later segment names its context. -/
theorem isLaterOf_ctx {r : TagRecord} {n : ContextNumber} {k : Nat} (h : r.isLaterOf n k = true) : r.context = some n
    := by
  simp [TagRecord.isLaterOf] at h; exact h.1.2

/-- A freed record is no later segment. -/
theorem freed_not_later (r : TagRecord) (n : ContextNumber) (k : Nat) : r.freed.isLaterOf n k = false := by
  simp [TagRecord.isLaterOf, TagRecord.freed, TagRecord.freeOf, TagState.waitsToGo]

/-- R28, R114: what withdrawing the later segments among distinct tags does. -/
theorem withdrawFold_spec (n : ContextNumber) (k : Nat) : ∀ (l : List Tag), l.Nodup → ∀ (s : State),
    let u := l.foldl (fun acc t => if (acc.tagAt t).isLaterOf n k then acc.withdrawTag t else acc) s
    (∀ x, u.tagAt x = if x ∈ l ∧ laterIn s n k x = true then (s.tagAt x).freed else s.tagAt x) ∧
    u.segmentView = { s.segmentView with
      tags := u.tags
      buffer := { s.buffer with pieces := s.buffer.pieces.filter (fun p => !(decide (p.tag ∈ l) && laterIn s n k
          p.tag && decide (p.generation = (s.tagAt p.tag).generation))) }
      contexts := s.issue.contexts.map (fun c => if c.number = n then { c with outstanding := c.outstanding -
          (l.filter (laterIn s n k)).length } else c) } := by
  intro l
  induction l with
  | nil =>
    intro _ s
    refine ⟨by simp, ?_⟩
    simp [State.segmentView]
  | cons t l ih =>
    intro hl s
    rw [List.nodup_cons] at hl
    by_cases h : laterIn s n k t = true
    · have hc := isLaterOf_ctx h
      have hw := segmentView_withdrawTag s t n hc
      have htags : ∀ x, (s.withdrawTag t).tagAt x = if x = t then (s.tagAt t).freed else s.tagAt x := by
        intro x
        rw [tagAt_of_segmentView (congrArg SegmentView.tags hw) x]
        exact tagAt_set s t x _
      obtain ⟨i1, i2⟩ := ih hl.2 (s.withdrawTag t)
      have hlat : ∀ x, laterIn (s.withdrawTag t) n k x = (decide (x ≠ t) && laterIn s n k x) := by
        intro x
        simp only [laterIn, htags]
        split
        · rename_i e; subst e; simp [freed_not_later]
        · rename_i e; simp [e]
      simp only [List.foldl_cons, h, if_true]
      have hb : (s.withdrawTag t).buffer = _ := congrArg SegmentView.buffer hw
      have hcx : (s.withdrawTag t).issue.contexts = _ := congrArg SegmentView.contexts hw
      refine ⟨?_, ?_⟩
      · intro x
        rw [i1 x]
        simp only [hlat, htags]
        by_cases e : x = t
        · subst e
          have : laterIn s n k x = true := h
          simp [this]
        · simp [e]
      · rw [i2, hw]
        simp only [SegmentView.mk.injEq, and_true, true_and, hb, hcx]
        refine ⟨?_, ?_⟩
        · simp only [CompletionBuffer.mk.injEq, and_true, List.filter_filter]
          apply List.filter_congr
          intro p _
          rw [hlat, htags]
          by_cases e : p.tag = t
          · have h' : laterIn s n k p.tag = true := by rw [e]; exact h
            subst e
            simp [hl.1, h']
          · simp [e]
        · rw [List.map_map]
          apply List.map_congr_left
          intro c _
          have hl' : (l.filter (laterIn (s.withdrawTag t) n k)).length = (l.filter (laterIn s n k)).length := by
            congr 1
            apply List.filter_congr
            intro x hx
            rw [hlat]
            have : x ≠ t := fun e => hl.1 (e ▸ hx)
            simp [this]
          simp only [Function.comp, hl']
          by_cases e : c.number = n
          · have h' : laterIn s n k t = true := h
            simp [e, Context.accounted, h', Nat.sub_sub, Nat.add_comm]
          · simp [e]
    · obtain ⟨i1, i2⟩ := ih hl.2 s
      have h' : laterIn s n k t = false := by simpa using h
      have hstep : (t :: l).foldl (fun acc t => if (acc.tagAt t).isLaterOf n k then acc.withdrawTag t else acc) s
        = l.foldl (fun acc t => if (acc.tagAt t).isLaterOf n k then acc.withdrawTag t else acc) s := by
        simp only [List.foldl_cons]; rw [if_neg h]
      simp only [hstep]
      refine ⟨?_, ?_⟩
      · intro x
        rw [i1 x]
        by_cases e : x = t
        · subst e; simp [hl.1, h']
        · simp [e]
      · rw [i2]
        simp only [SegmentView.mk.injEq, and_true, true_and]
        refine ⟨?_, ?_⟩
        · simp only [CompletionBuffer.mk.injEq, and_true]
          apply List.filter_congr
          intro p _
          by_cases e : p.tag = t
          · rw [e]; simp [hl.1, h']
          · simp [e]
        · simp [h']

/-- No tag stands twice among all tags. -/
theorem allTags_nodup : allTags.Nodup := List.nodup_finRange 32
/-- Every tag stands among all tags. -/
theorem mem_allTags (t : Tag) : t ∈ allTags := List.mem_finRange t

/-- R28, R114: what withdrawing the later segments of a command does. -/
theorem withdrawLater_spec (s : State) (n : ContextNumber) (k : Nat) :
    (∀ x, (s.withdrawLater n k).tagAt x = if laterIn s n k x = true then (s.tagAt x).freed else s.tagAt x) ∧
    (s.withdrawLater n k).segmentView = { s.segmentView with
      tags := (s.withdrawLater n k).tags
      buffer := { s.buffer with pieces := s.buffer.pieces.filter (fun p => !(laterIn s n k p.tag && decide
          (p.generation = (s.tagAt p.tag).generation))) }
      contexts := s.issue.contexts.map (fun c => if c.number = n then { c with outstanding := c.outstanding -
          (allTags.filter (laterIn s n k)).length } else c) } := by
  have := withdrawFold_spec n k allTags allTags_nodup s
  simpa [mem_allTags, State.withdrawLater] using this

/-- R158: a failure before the withdrawals. -/
theorem segmentView_failSegment_pre (s : State) (n : ContextNumber) (k : Nat) (st : Status) :
    ((s.updateContext n (fun c => c.failed k st)).issuingEnds n).segmentView = { s.segmentView with
      contexts := s.issue.contexts.map (fun c => if c.number = n then c.failed k st else c)
      current := if s.issue.current = some n then none else s.issue.current
      waitingFor := if s.issue.current = some n then WaitingFor.nothing else s.issue.waitingFor } := by
  have hc : (s.updateContext n (fun c => c.failed k st)).issue.current = s.issue.current := rfl
  unfold State.issuingEnds
  rw [hc]
  by_cases h : s.issue.current = some n
  · simp only [h, if_true]; rfl
  · simp only [h, if_false]; rfl

/-- R114, R158: what the failure of a segment does. -/
theorem failSegment_spec (s : State) (n : ContextNumber) (k : Nat) (st : Status) :
    (∀ x, (s.failSegment n k st).tagAt x = if laterIn s n k x = true then (s.tagAt x).freed else s.tagAt x) ∧
    (s.failSegment n k st).segmentView = { s.segmentView with
      tags := (s.failSegment n k st).tags
      buffer := { s.buffer with pieces := s.buffer.pieces.filter (fun p => !(laterIn s n k p.tag && decide
          (p.generation = (s.tagAt p.tag).generation))) }
      contexts := s.issue.contexts.map (fun c => if c.number = n then { c.failed k st with outstanding :=
          c.outstanding - (allTags.filter (laterIn s n k)).length } else c)
      current := if s.issue.current = some n then none else s.issue.current
      waitingFor := if s.issue.current = some n then WaitingFor.nothing else s.issue.waitingFor } := by
  have hp := segmentView_failSegment_pre s n k st
  obtain ⟨i1, i2⟩ := withdrawLater_spec ((s.updateContext n (fun c => c.failed k st)).issuingEnds n) n k
  have ht : ∀ x, ((s.updateContext n (fun c => c.failed k st)).issuingEnds n).tagAt x = s.tagAt x := fun x =>
    tagAt_of_segmentView (congrArg SegmentView.tags hp) x
  have hb := congrArg SegmentView.buffer hp
  have hc := congrArg SegmentView.contexts hp
  simp only [State.segmentView] at hb hc
  have hl : ∀ x, laterIn ((s.updateContext n (fun c => c.failed k st)).issuingEnds n) n k x = laterIn s n k x := by
    intro x; simp only [laterIn, ht]
  refine ⟨?_, ?_⟩
  · intro x; rw [State.failSegment, i1 x, hl, ht]
  · rw [State.failSegment, i2, hp]
    simp only [SegmentView.mk.injEq, and_true, true_and, hb, hc, hl, ht, List.map_map]
    · apply List.map_congr_left
      intro c _
      by_cases e : c.number = n
      · simp [e, Context.failed, Function.comp]
        have : laterIn ((s.updateContext n (fun c => c.failed k st)).issuingEnds n) n k = laterIn s n k := funext hl
        simp only [Context.failed] at this
        rw [this]
      · simp [e]

/-- R40, R41: the end of a segment before its report. -/
theorem endSegment_pre (s : State) (t : Tag) (st : Status) :
    let r := s.tagAt t
    let a := s.removeEntryOf t
    let b := if st = .ok then a else a.dropPieces t r.generation
    let d := b.setTag t (if st = .timeout then r.turnedStale (State.timeout b) else r.freed)
    d.segmentView = { s.segmentView with
      tags := s.tags.set t.val (if st = .timeout then r.turnedStale s.timeout else r.freed) t.isLt
      buffer := if st = .ok then s.buffer else { s.buffer with
        pieces := s.buffer.pieces.filter (fun p => !(decide (p.tag = t) && decide (p.generation = r.generation))) } } := by
  intro r a b d
  have ha : a.segmentView = s.segmentView := segmentView_removeEntryOf s t
  have hb : b.segmentView = { s.segmentView with
      buffer := if st = .ok then s.buffer else { s.buffer with
        pieces := s.buffer.pieces.filter (fun p => !(decide (p.tag = t) && decide (p.generation = r.generation))) } } := by
    simp only [b]
    by_cases e : st = .ok
    · rw [if_pos e, if_pos e]; exact ha
    · rw [if_neg e, if_neg e]
      rw [← ha]
      have : a.buffer = s.buffer := congrArg SegmentView.buffer ha
      simp only [State.segmentView, State.dropPieces, State.withBuffer, this]
  have hto : State.timeout b = s.timeout := by
    have : b.inForce = s.inForce := congrArg SegmentView.inForce hb
    simp only [State.timeout, this]
  have htg : b.tags = s.tags := congrArg SegmentView.tags hb
  have hsp : d.segmentView = { b.segmentView with tags := d.tags } := rfl
  have hd : d.tags = s.tags.set t.val (if st = .timeout then r.turnedStale s.timeout else r.freed) t.isLt := by
    simp only [d, State.setTag, State.withTags, hto, htg]
  rw [hsp, hb, hd]

/-- The fields that no end of a segment touches. -/
structure Beyond where
  results : List Result
  commands : List CommandRecord
  control : Option ControlFrame
  responses : List ResponseEntry
  life : LifeCycle
  span : SpanInterface
  inbound : Inbound
  peers : Vector PeerRecord 16
  notices : NoticeUnit
  incidents : Incidents
  store : Store
  clock : Micros
  inForce : ConfigRecord
  written : ConfigRecord
  port : Port
  pending : List Instr
  staging : CommandRecord
  latch : Option Result

/-- The fields beyond a segment's end, of a view. -/
def SegmentView.beyond (r : SegmentView) : Beyond :=
  ⟨r.results, r.commands, r.control, r.responses, r.life, r.span, r.inbound, r.peers, r.notices, r.incidents,
      r.store, r.clock, r.inForce, r.written, r.port, r.pending, r.staging, r.latch⟩

/-- The fields beyond the reach of a segment's end, of a state. -/
def State.beyond (s : State) : Beyond :=
  SegmentView.beyond s.segmentView

/-- R40: the end of a segment is its report, if it has a context, after its tag and pieces are dealt with. -/
theorem endSegment_cases (s : State) (t : Tag) (st : Status) (v : Option Word) :
   ∃ d : State, d.segmentView = { s.segmentView with
      tags := s.tags.set t.val (if st = .timeout then (s.tagAt t).turnedStale s.timeout else (s.tagAt t).freed) t.isLt
      buffer := if st = .ok then s.buffer else { s.buffer with pieces := s.buffer.pieces.filter (fun p => !(decide
          (p.tag = t) && decide (p.generation = (s.tagAt t).generation))) } }
    ∧ ((∃ n k, (s.tagAt t).context = some n ∧ (s.tagAt t).segment = some k ∧ s.endSegment t st v = d.reportEnd n k st v)
       ∨ (¬ (∃ n k, (s.tagAt t).context = some n ∧ (s.tagAt t).segment = some k) ∧ s.endSegment t st v = d)) := by
  have hpre := endSegment_pre s t st
  dsimp only at hpre
  refine ⟨_, hpre, ?_⟩
  unfold State.endSegment
  dsimp only
  split
  · rename_i n k hn hk
    exact Or.inl ⟨n, k, hn, hk, rfl⟩
  · rename_i h
    refine Or.inr ⟨?_, rfl⟩
    rintro ⟨n, k, hn, hk⟩; exact h n k hn hk

/-- A failure leaves the fields beyond it. -/
theorem beyond_failSegment (s : State) (n : ContextNumber) (k : Nat) (st : Status) : (s.failSegment n k st).beyond =
    s.beyond := by
  have h := (failSegment_spec s n k st).2
  generalize s.failSegment n k st = u at h
  unfold State.beyond
  rw [h]; rfl

/-- The end of a segment leaves the fields beyond it. -/
theorem beyond_endSegment (s : State) (t : Tag) (st : Status) (v : Option Word) : (s.endSegment t st v).beyond =
    s.beyond := by
  obtain ⟨d, hd, h⟩ := endSegment_cases s t st v
  have h0 : d.beyond = s.beyond := by
    show SegmentView.beyond d.segmentView = _
    rw [hd]; rfl
  rcases h with ⟨n, k, _, _, h⟩ | ⟨_, h⟩
  · rw [h]
    unfold State.reportEnd
    dsimp only
    split
    · exact h0
    · exact (beyond_failSegment _ n k st).trans h0
  · rw [h]; exact h0


/-- The end of a notice leaves the fields beyond it. -/
theorem beyond_endNotice (s : State) (n : Fin 16) (c : ContextNumber) (st : Status) :
    (s.endNotice n c st).beyond = s.beyond := by
  unfold State.endNotice State.reportEnd
  have h0 : ((s.removeEntry n).updateContext c (fun c => c.accounted none)).beyond = s.beyond := by
    have : (s.removeEntry n).beyond = s.beyond := by unfold State.beyond; rw [segmentView_removeEntry]
    exact this
  dsimp only
  split
  · exact h0
  · exact (beyond_failSegment _ c 0 st).trans h0

end Sys2Proof.Machine
end

