-- ==== Sys2Proof/Safety.lean ====
section
/-!
DEFINITION. Safety: what every step keeps: the properties that the statements take as premises or claim as invariants.
-/
namespace Sys2Proof.Machine

/-- The outcome is a next state: the step neither faulted nor was refused. -/
def Completes (o : Host.Outcome State Fault Refusal) : Prop :=
  ∃ t, o = .next t

/-- R101: while no frame is fixed on the span, the offer is the frame the choice names. -/
def State.offerAgrees (s : State) : Bool :=
  s.span.offerState.isFixed || (decide (s.span.offer = s.sender.choice)
    && decide (s.span.offerState = if s.sender.choice.isSome then .offered else .none))

/-- R159, R160: no context is left whose result is due. -/
def State.nothingDue (s : State) : Bool :=
  s.issue.contexts.all (fun c => !c.isDone)

/-- R129, R155: in RUNNING a waiting engine waits for what its segment would be refused now, at a target not ABSENT. -/
def State.waitsRightly (s : State) : Bool :=
  decide (s.life.station ≠ .running) || !s.issue.isWaiting || (match s.issue.currentContext with
    | some c => !s.targetAbsent c.command && decide (s.refused c = s.issue.waitingFor)
    | none => true)

/-- R71, R72: a head whose service has not begun lacks room in the response queue, so that it is a READ or an ATOMIC. -/
def State.servesRightly (s : State) : Bool :=
  s.inbound.queue.head?.all (fun e => e.begun || !s.sender.hasRoomFor e.work)

/-- What every event leaves: the offer agrees with the choice, no result is due, a wait is for what is missing, and the service
of the head has begun, or it lacks room. -/
def State.settled (s : State) : Bool :=
  s.offerAgrees && s.nothingDue && s.waitsRightly && s.servesRightly

/-- R120: the record at the own number is SELF with join count 0. -/
def State.selfKept (s : State) : Bool :=
  decide (s.peerAt s.life.number = { state := .self, joinCount := 0 })

/-- R148: contexts in use plus results waiting do not pass 32. -/
def State.placesKept (s : State) : Bool :=
  decide (s.issue.contexts.length + s.issue.results.length ≤ Config.resultPlaces)

/-- R107, R145: the command queue and the request queue hold at most 16. -/
def State.queuesKept (s : State) : Bool :=
  decide (s.issue.commands.length ≤ Config.commandEntries) && decide (s.sender.requests.length ≤ Config.requestEntries)

/-- The inbound work a kept take will commit, if the receive holding keeps one. -/
def Received.work (r : Received) : Option FrameBody :=
  if r.take then r.frame.map Frame.body else none

/-- R67, R137: a kept take finds the room it was answered with. -/
def State.takeHasRoom (s : State) : Bool :=
  match s.span.received.bind Received.work with
  | some (.rdReq _ _ _ _ _) => s.inbound.hasRoom 0
  | some (.atReq _ _ _ _ _ _ _) => s.inbound.hasRoom 0
  | some (.wrReq _ _ _ _ _ payload) => s.inbound.hasRoom (blocksFor payload.length)
  | some (.notice _) => decide (s.notices.queue.length < Config.noticeEntries)
  | _ => true

/-- R69, R70, R135: the inbound queue and the notice queue hold at most 16, and the pool gives out at most 64 blocks. -/
def State.inboundKept (s : State) : Bool :=
  decide (s.inbound.queue.length ≤ Config.inboundEntries)
    && decide ((s.inbound.queue.map InboundEntry.poolBlocks).sum ≤ Config.poolBlocks)
    && decide (s.notices.queue.length ≤ Config.noticeEntries) && s.takeHasRoom

/-- R61: the conditions on an enabled region. -/
def Region.IsValid (r : Region) : Prop :=
  r.base.toNat % 32 = 0 ∧ r.length.toNat % 32 = 0 ∧ 32 ≤ r.length.toNat ∧ r.length.toNat ≤ 65536
    ∧ r.base.toNat + r.length.toNat ≤ 65536

/-- R167: the three numbers of a configuration record lie in their ranges. -/
def ConfigRecord.NumbersValid (c : ConfigRecord) : Prop :=
  (8 ≤ c.commitmentLimit.toNat ∧ c.commitmentLimit.toNat ≤ 96)
    ∧ (1 ≤ c.completionTimeout.toNat ∧ c.completionTimeout.toNat ≤ 64)
    ∧ (1 ≤ c.retryLimit.toNat ∧ c.retryLimit.toNat ≤ 15)

/-- R2: no frame of the station's own is fixed on the span. -/
def State.OffSpan (s : State) : Prop :=
  s.span.offerState.isFixed = false

/-- R175, R185: the port can take an access: RST_N is not asserted and no access is held. -/
def State.PortReady (s : State) : Prop :=
  s.life.rstN = false ∧ s.port.held = none

/-- R101: the offer is the frame a choice names, free to be replaced. -/
def SpanInterface.offering (u : SpanInterface) (choice : Option Place) : SpanInterface :=
  { u with offer := choice, offerState := if choice.isSome then .offered else .none }

/-- R2, R10: the answer field of the station's own frame is under way, and nothing else of the span touches the station. -/
structure State.OwnFrame (s : State) (p : Place) : Prop where
  awake : s.life.rstN = false
  onSpan : s.life.station.onSpan = true
  phase : s.span.phase = .answer
  sends : s.span.offerState = .answer
  offer : s.span.offer = some p
  noGiveUp : s.life.giveUp = none

/-- R9, R10: the station has answered a received frame, and the frame has not resolved. -/
structure State.Receiving (s : State) (r : Received) : Prop where
  awake : s.life.rstN = false
  onSpan : s.life.station.onSpan = true
  phase : s.span.phase = .answer
  offSpan : s.OffSpan
  received : s.span.received = some r
  noGiveUp : s.life.giveUp = none

/-- R121, R132: the peer records once a frame of `source` that is no JOIN and no LEAVE is observed: PRESENT, but for the own
number. -/
def State.peersSeeing (s : State) (source : Station) : Vector PeerRecord 16 :=
  if source = s.life.number then s.peers
  else s.peers.set source.val { s.peers[source.val] with state := .present } source.isLt

/-- R158: the first failure once the segment `k` has failed too: that of the lower index. -/
def lowestFailure (status : Status) (held : Option (Nat × Status)) (k : Nat) : Option (Nat × Status) :=
  match held with
  | none => some (k, status)
  | some (j, old) => if k < j then some (k, status) else some (j, old)

/-- R65: the conditions under which a request of `source` is malformed at the station `own`. -/
def FrameBody.Malformed (own source : Station) (b : FrameBody) : Prop :=
  source = own ∨ match b with
    | .rdReq _ _ _ o n => n.toNat = 0 ∨ 256 < n.toNat ∨ 65536 < o.toNat + n.toNat
    | .wrReq _ _ _ o n _ => n.toNat = 0 ∨ 256 < n.toNat ∨ 65536 < o.toNat + n.toNat
    | .atReq _ _ _ o _ _ _ => o.toNat % 4 ≠ 0
    | _ => False

/-- R62: the right, the offset and the size the access check judges for a request. -/
def FrameBody.access : FrameBody → Option (Right × Nat × Nat)
  | .rdReq _ _ _ o n => some (.read, o.toNat, n.toNat)
  | .wrReq _ _ _ o n _ => some (.write, o.toNat, n.toNat)
  | .atReq _ _ _ o _ _ _ => some (.atomic, o.toNat, 4)
  | _ => none

/-- R62: one enabled region contains the whole range, grants the right and lists the source. -/
def ConfigRecord.Admits (c : ConfigRecord) (right : Right) (source : Station) (offset size : Nat) : Prop :=
  ∃ n : Fin 8, c.regions[n.val].enabled = true ∧ c.regions[n.val].base.toNat ≤ offset
    ∧ offset + size ≤ c.regions[n.val].base.toNat + c.regions[n.val].length.toNat
    ∧ (match right with
      | .read => c.regions[n.val].grantsRead
      | .write => c.regions[n.val].grantsWrite
      | .atomic => c.regions[n.val].grantsAtomic) = true
    ∧ c.regions[n.val].peerSet.getLsbD source.val = true

/-- R66: the inbound queue and, for a write, the payload pool have room for a request. -/
def State.RoomFor (s : State) (b : FrameBody) : Prop :=
  s.inbound.queue.length < 16 ∧ match b with
    | .wrReq _ _ _ _ n _ => (n.toNat + 31) / 32 ≤ s.inbound.poolFree
    | _ => True

/-- R29: the further conditions under which a completion is a match for a tag of its source and generation. -/
def TagRecord.Expects (r : TagRecord) (b : FrameBody) : Prop :=
  match b with
  | .rdData _ _ _ second last data =>
    (r.state = .sent ∨ r.state = .partialRead) ∧ r.kind = some .read ∧ pieceOffset second = r.received
      ∧ r.received < r.length ∧ data.length = min 128 (r.length - pieceOffset second)
      ∧ (last = true ↔ pieceOffset second + data.length = r.length)
  | .atData _ _ _ _ => r.state = .sent ∧ r.kind = some .atomic
  | .fail _ _ _ => (r.state = .sent ∨ r.state = .partialRead) ∧ (r.kind = some .read ∨ r.kind = some .atomic)
  | _ => False

/-- The counter and the flag of an incident grow once (R176). -/
def Incidents.counted (u : Incidents) (k : Fin 13) : Incidents :=
  { u with
    counters := u.counters.set k.val (growCounter u.counters[k.val]) k.isLt
    flags := u.flags ||| BitVec.twoPow 16 k.val }

/-- R150: the record passes the check of a command taken in RUNNING by the station `own`. -/
def CommandRecord.Passes (c : CommandRecord) (own : Station) : Prop :=
  c.kind.toNat ≤ 5
    ∧ ((c.kind = 0 ∨ c.kind = 1) → c.target.toNat ≠ own.val ∧ 1 ≤ c.length.toNat ∧ c.length.toNat ≤ 4096
      ∧ c.remoteOffset.toNat + c.length.toNat ≤ 65536 ∧ c.localOffset.toNat + c.length.toNat ≤ 65536)
    ∧ (c.kind = 2 → c.target.toNat ≠ own.val ∧ c.remoteOffset.toNat % 4 = 0 ∧ c.operation.toNat < 3)

/-- R148: `c` stands at the head of the command queue before `rest`, and the engine can take it but for the station state. -/
structure State.Taking (s : State) (c : CommandRecord) (rest : List CommandRecord) : Prop where
  awake : s.life.rstN = false
  commands : s.issue.commands = c :: rest
  noCurrent : s.issue.current = none
  place : s.issue.contexts.length + s.issue.results.length < 32
  earlierEnded : (c.kind = 4 ∨ c.kind = 5) → s.issue.contexts = []
  requestsGone : c.kind = 5 → s.sender.requests = []

/-- R148: the row of the table that takes a record of a kind. -/
def CommandRecord.takeRow (c : CommandRecord) : Instr :=
  if c.kind = 0 then .readCommand
  else if c.kind = 1 then .writeCommand
  else if c.kind = 2 then .atomicCommand
  else if c.kind = 3 then .noticeCommand
  else if c.kind = 4 then .fenceCommand
  else if c.kind = 5 then .leaveCommand
  else .commandOfNoKind

/-- R148: the lowest-numbered FREE context. -/
def IssueEngine.LowestFree (e : IssueEngine) (n : ContextNumber) : Prop :=
  (∀ x ∈ e.contexts, x.number ≠ n) ∧ ∀ m : ContextNumber, m < n → ∃ x ∈ e.contexts, x.number = m

/-- R23: the lowest-numbered FREE tag. -/
def State.LowestFreeTag (s : State) (t : Tag) : Prop :=
  (s.tagAt t).state = .free ∧ ∀ x : Tag, x < t → (s.tagAt x).state ≠ .free

/-- R107: the lowest-numbered free storage place of the request queue (log 18). -/
def Sender.LowestFreeSlot (d : Sender) (slot : Fin 16) : Prop :=
  (∀ e ∈ d.requests, e.slot ≠ slot) ∧ ∀ m : Fin 16, m < slot → ∃ e ∈ d.requests, e.slot = m

/-- R88: the claimant has no transfer raised or granted. -/
def Arbiter.Unused (a : Arbiter) (c : Claimant) : Prop :=
  a.raised c = none ∧ ∀ g, a.granted = some g → g.claimant ≠ c

/-- R53, R73, R74, R97: the bytes of a transfer from `offset`, of `remaining`: up to the next block boundary. -/
def blockPart (offset remaining : Nat) : Nat :=
  min remaining (32 - offset % 32)

/-- R53, R73: the WRITE of a stretch of `data` from `position` to the next block boundary, `data` lying from `base`. -/
def blockWrite (base position : Nat) (data : List Byte) : Transfer :=
  .write (cellsAt (base + position) ((data.drop position).take (blockPart (base + position) (data.length - position))))

/-- R72: the response-queue entries a request can need. -/
def InboundWork.needs : InboundWork → Nat
  | .read n => if n ≤ 128 then 1 else 2
  | .write _ => 0
  | .atomic _ _ _ => 1

/-- R73, R74, R76: the first transfer of a request's service. -/
def InboundEntry.firstTransfer (e : InboundEntry) : Transfer :=
  match e.work with
  | .read n => .read e.offset (blockPart e.offset (min n 128))
  | .write payload => blockWrite e.offset 0 payload
  | .atomic op a b => .atomic e.offset op a b

/-- R71, R72: the service of the head begun, where it has not begun and the response queue has room for what it can need. -/
def State.headServed (s : State) : State :=
  match s.inbound.queue with
  | [] => s
  | e :: rest =>
    if e.begun = false ∧ e.work.needs ≤ 16 - s.sender.responses.length then { s with
      inbound := { queue := { e with begun := true } :: rest, service := some { position := 0, piece := [] } }
      arbiter := { s.arbiter with raisedService := some e.firstTransfer } }
    else s

/-! ## The accounts of commands, the commitment law and the response queue -/

/-- R107, R116: no two entries stand in one storage place, and no two that are not withdrawn belong to one tag. -/
def EntriesApart (q : List RequestEntry) : Prop :=
  q.Pairwise (fun a b => a.slot ≠ b.slot
    ∧ (a.withdrawn = false → b.withdrawn = false → ∀ t, a.owner = .tag t → b.owner ≠ .tag t))

/-- R116: the entry is not withdrawn and belongs to a tag that a test names. -/
def RequestEntry.liveFor (e : RequestEntry) (named : Tag → Bool) : Bool :=
  !e.withdrawn && (match e.owner with
    | .tag t => named t
    | .context _ => false)

/-- R97, R116: the entries a test names have left the request queue, or are marked withdrawn where their frame is fixed on
the span, and the copy of any of them has stopped. -/
def State.withoutEntries (s : State) (gone : RequestEntry → Bool) : State :=
  let stops := s.sender.requests.any (fun e => gone e && decide (s.issue.copying = some e.slot))
  { s with
    sender := { s.sender with requests := s.sender.requests.filterMap (fun e =>
      if gone e then (if s.fixedOn e.slot then some { e with withdrawn := true } else none) else some e) }
    issue := { s.issue with copying := if stops then none else s.issue.copying }
    arbiter := if stops then { s.arbiter with
        raisedIssue := none
        granted := s.arbiter.granted.map (fun g => if g.claimant = .issue then { g with discarded := true } else g) }
      else s.arbiter }

/-- R157: the segments of a context issued and neither ended nor withdrawn: its tags in flight and its NOTICE entry. -/
def State.outstandingOf (s : State) (n : ContextNumber) : Nat :=
  (allTags.filter (fun t => (s.tagAt t).state.inFlight && decide ((s.tagAt t).context = some n))).length
    + (s.sender.requests.filter (fun e => !e.withdrawn && decide (e.owner = .context n))).length

/-- R157: every segment in progress is counted by its context, once, and every context in use is brought to its end. -/
structure State.Accounted (s : State) : Prop where
  numbers : (s.issue.contexts.map Context.number).Nodup
  counted : ∀ c ∈ s.issue.contexts, c.outstanding = s.outstandingOf c.number
  named : ∀ t, (s.tagAt t).state.inFlight = true →
    ∃ c ∈ s.issue.contexts, (s.tagAt t).context = some c.number ∧ (s.tagAt t).segment ≠ none
  apart : EntriesApart s.sender.requests
  ofTags : ∀ e ∈ s.sender.requests, e.withdrawn = false → ∀ t, e.owner = .tag t → (s.tagAt t).state.waitsToGo = true
  ofNotices : ∀ e ∈ s.sender.requests, e.withdrawn = false → ∀ n, e.owner = .context n →
    e.key = none ∧ ∃ c ∈ s.issue.contexts, c.number = n
  finishing : ∀ c ∈ s.issue.contexts, c.issuingFinished = false → s.issue.current = some c.number ∨ c.phase = .leave
  leaving : ∀ c ∈ s.issue.contexts, c.phase = .leave → c.outstanding = 0 ∧ s.issue.current ≠ some c.number

/-- R45: reserved plus occupied blocks stay within the limit in force, and the limit within 96; R46, R47: a READ in flight
has the blocks of what it has not received; before START nothing is committed. -/
structure State.BlocksKept (s : State) : Prop where
  limit : s.inForce.commitmentLimit.toNat ≤ 96
  committed : s.reservedBlocks + s.buffer.occupied ≤ s.inForce.commitmentLimit.toNat
  reading : ∀ t, (s.tagAt t).state.inFlight = true → (s.tagAt t).kind = some .read →
    (s.tagAt t).reserved = ((s.tagAt t).length - (s.tagAt t).received + 31) / 32
  quiet : (s.life.station = .init ∨ s.life.station = .config) →
    s.issue.current = none ∧ s.reservedBlocks = 0 ∧ s.buffer.occupied = 0

/-- R72, R74, R76: the completions that the service of an entry at `position` has still to append. -/
def InboundEntry.owed (e : InboundEntry) (position : Nat) : Nat :=
  match e.work with
  | .read n => (n + 127) / 128 - position / 128
  | .write _ => 0
  | .atomic _ _ _ => 1

/-- R72: the completions that the service in progress has still to append. -/
def Inbound.owed (b : Inbound) : Nat :=
  match b.queue, b.service with
  | e :: _, some v => e.owed v.position
  | _, _ => 0

/-- R88, R92: a SERVICE transfer is granted and its result will be used. -/
def Arbiter.Serves (a : Arbiter) (g : Granted) : Prop :=
  a.granted = some g ∧ g.claimant = .service ∧ g.discarded = false

/-- R72, R104: the response queue holds at most 16 entries, those that the service in progress has still to append among
them; a service makes the transfer of its position, and a READ held or queued has a length of 1 to 256. -/
structure State.CompletionsFit (s : State) : Prop where
  room : s.sender.responses.length + s.inbound.owed ≤ 16
  reads : ∀ e ∈ s.inbound.queue, ∀ n, e.work = .read n → 1 ≤ n ∧ n ≤ 256
  takes : ∀ t tag g o n, s.span.received.bind Received.work = some (.rdReq t tag g o n) → 1 ≤ n.toNat ∧ n.toNat ≤ 256
  idle : s.inbound.service = none → s.arbiter.raisedService = none ∧ ∀ g, ¬ s.arbiter.Serves g
  serving : ∀ v, s.inbound.service = some v → ∃ e rest, s.inbound.queue = e :: rest ∧ e.begun = true
    ∧ (∀ n, e.work = .read n → v.position < n)
    ∧ (∀ tr, s.arbiter.raisedService = some tr → tr = e.transferAt v.position ∧ ∀ g, ¬ s.arbiter.Serves g)
    ∧ (∀ g, s.arbiter.Serves g → g.transfer = e.transferAt v.position
      ∧ ∀ o n, g.transfer = .read o n → g.data.length = n)

end Sys2Proof.Machine
end

