-- ==== Sys2Proof/Laws/Removals.lean ====
section
/-!
SUPPORT. Removals: which request-queue entries withdrawals, failures and ends of segments remove, and the copies they
    stop.
-/
namespace Sys2Proof.Machine

/-- The part of a state that the removal of request-queue entries touches. -/
structure EntrySide where
  requests : List RequestEntry
  copying : Option (Fin 16)
  arbiter : Arbiter

/-- The part of a state that removals touch. -/
def State.entrySide (s : State) : EntrySide where
  requests := s.sender.requests
  copying := s.issue.copying
  arbiter := s.arbiter

/-- What becomes of one entry when a test names those that leave. -/
def RequestEntry.leaves (fixed : Fin 16 → Bool) (gone : RequestEntry → Bool) (e : RequestEntry) : Option RequestEntry :=
  if gone e then (if fixed e.slot then some { e with withdrawn := true } else none) else some e

/-- The copy under way is that of an entry named. -/
def EntrySide.stops (v : EntrySide) (gone : RequestEntry → Bool) : Bool :=
  v.requests.any (fun e => gone e && decide (v.copying = some e.slot))

/-- The entries named leave, or are marked, and the copy of any of them stops. -/
def EntrySide.without (v : EntrySide) (fixed : Fin 16 → Bool) (gone : RequestEntry → Bool) : EntrySide where
  requests := v.requests.filterMap (RequestEntry.leaves fixed gone)
  copying := if v.stops gone then none else v.copying
  arbiter := if v.stops gone then v.arbiter.abandon .issue else v.arbiter

/-- Leaving entries out of a state acts on that part alone. -/
theorem entrySide_withoutEntries (s : State) (gone : RequestEntry → Bool) :
    (s.withoutEntries gone).entrySide = s.entrySide.without s.fixedOn gone := rfl

/-- Two removals in turn are one, if a marked entry is not named a second time. -/
theorem EntrySide.without_without (v : EntrySide) (fixed : Fin 16 → Bool) (g h : RequestEntry → Bool)
    (hh : ∀ e : RequestEntry, h { e with withdrawn := true } = false) :
    (v.without fixed g).without fixed h = v.without fixed (fun e => g e || h e) := by
  have hs : v.stops (fun e => g e || h e) = (v.stops g || (v.without fixed g).stops h) := by
    by_cases hg : v.stops g = true
    · rw [hg, Bool.true_or]
      simp only [EntrySide.stops, List.any_eq_true, Bool.and_eq_true] at hg ⊢
      obtain ⟨e, h1, h2, h3⟩ := hg
      exact ⟨e, h1, by simp [h2], h3⟩
    · have hg' : v.stops g = false := by simpa using hg
      have hc : (v.without fixed g).copying = v.copying := by simp [EntrySide.without, hg']
      rw [hg', Bool.false_or]
      rw [Bool.eq_iff_iff]
      simp only [EntrySide.stops, hc, List.any_eq_true, Bool.and_eq_true, Bool.or_eq_true, decide_eq_true_eq]
      simp only [EntrySide.stops, List.any_eq_false, Bool.and_eq_true, decide_eq_true_eq, not_and] at hg'
      constructor
      · rintro ⟨e, h1, h2, h3⟩
        have hne : g e = false := by
          by_contra hx
          exact hg' e h1 (by simpa using hx) h3
        refine ⟨e, List.mem_filterMap.2 ⟨e, h1, by simp [RequestEntry.leaves, hne]⟩, ?_, h3⟩
        simpa [hne] using h2
      · rintro ⟨e', h1, h2, h3⟩
        obtain ⟨e, h4, h5⟩ := List.mem_filterMap.1 h1
        unfold RequestEntry.leaves at h5
        split at h5
        · split at h5
          · cases h5; rw [hh] at h2; cases h2
          · cases h5
        · cases h5; exact ⟨_, h4, Or.inr h2, h3⟩
  have h1 : ((v.without fixed g).without fixed h).requests = (v.without fixed (fun e => g e || h e)).requests := by
    simp only [EntrySide.without, List.filterMap_filterMap]
    apply List.filterMap_congr
    intro e _
    unfold RequestEntry.leaves
    by_cases hg : g e = true
    · by_cases hf : fixed e.slot = true
      · simp [hg, hf, hh]
      · simp [hg, hf]
    · simp [hg]
  have h2 : ((v.without fixed g).without fixed h).copying = (v.without fixed (fun e => g e || h e)).copying := by
    show (if (v.without fixed g).stops h then none else if v.stops g then none else v.copying) = (if v.stops _ then
        none else v.copying)
    rw [hs]
    cases v.stops g <;> cases (v.without fixed g).stops h <;> rfl
  have h3 : ((v.without fixed g).without fixed h).arbiter = (v.without fixed (fun e => g e || h e)).arbiter := by
    show (if (v.without fixed g).stops h then (if v.stops g then v.arbiter.abandon .issue else v.arbiter).abandon
        .issue else if v.stops g then v.arbiter.abandon .issue else v.arbiter) = (if v.stops _ then v.arbiter.abandon
        .issue else v.arbiter)
    rw [hs]
    by_cases hg : v.stops g = true
    · have : (v.without fixed g).stops h = false := by
        have hc : (v.without fixed g).copying = none := by simp [EntrySide.without, hg]
        simp [EntrySide.stops, hc]
      simp [hg, this]
    · have hg' : v.stops g = false := by simpa using hg
      simp [hg']
  generalize (v.without fixed g).without fixed h = a at h1 h2 h3
  generalize v.without fixed (fun e => g e || h e) = b at h1 h2 h3
  cases a; cases b
  simp only at h1 h2 h3
  subst h1 h2 h3; rfl

/-- Naming no entry removes none. -/
theorem EntrySide.without_none (v : EntrySide) (fixed : Fin 16 → Bool) (g : RequestEntry → Bool)
    (hg : ∀ e ∈ v.requests, g e = false) : v.without fixed g = v := by
  have hs : v.stops g = false := by
    simp only [EntrySide.stops, List.any_eq_false]
    intro e he; simp [hg e he]
  have hr : v.requests.filterMap (RequestEntry.leaves fixed g) = v.requests := by
    conv_rhs => rw [← List.filterMap_some (l := v.requests)]
    apply List.filterMap_congr
    intro e he
    simp [RequestEntry.leaves, hg e he]
  unfold EntrySide.without
  rw [hs, hr]
  rfl

/-- Tests that agree on the entries remove the same. -/
theorem EntrySide.without_congr (v : EntrySide) (fixed : Fin 16 → Bool) (g h : RequestEntry → Bool)
    (hg : ∀ e ∈ v.requests, g e = h e) : v.without fixed g = v.without fixed h := by
  have hs : v.stops g = v.stops h := by
    unfold EntrySide.stops
    rw [Bool.eq_iff_iff]
    simp only [List.any_eq_true]
    constructor <;> rintro ⟨e, h1, h2⟩
    · exact ⟨e, h1, by rw [← hg e h1]; exact h2⟩
    · exact ⟨e, h1, by rw [hg e h1]; exact h2⟩
  unfold EntrySide.without
  rw [hs, List.filterMap_congr (g := RequestEntry.leaves fixed h)]
  intro e he
  simp [RequestEntry.leaves, hg e he]

/-- An entry that stays keeps its place and its owner, and is withdrawn if it was. -/
theorem leaves_some {fixed : Fin 16 → Bool} {g : RequestEntry → Bool} {e e' : RequestEntry}
    (h : e.leaves fixed g = some e') : e'.slot = e.slot ∧ e'.owner = e.owner ∧ e'.frame = e.frame
      ∧ (e'.withdrawn = false → e.withdrawn = false ∧ g e = false ∧ e' = e) := by
  unfold RequestEntry.leaves at h
  split at h
  · split at h
    · cases h; simp
    · cases h
  · rename_i hg
    cases h
    exact ⟨rfl, rfl, rfl, fun hw => ⟨hw, by simpa using hg, rfl⟩⟩

/-- Removals keep entries apart. -/
theorem EntriesApart.without {v : EntrySide} (h : EntriesApart v.requests) (fixed : Fin 16 → Bool) (g : RequestEntry
    → Bool) :
    EntriesApart (v.without fixed g).requests := by
  unfold EntriesApart EntrySide.without
  refine List.Pairwise.filterMap _ ?_ h
  intro a b hab a' ha b' hb
  obtain ⟨h1, h2, -, h3⟩ := leaves_some ha
  obtain ⟨k1, k2, -, k3⟩ := leaves_some hb
  refine ⟨by rw [h1, k1]; exact hab.1, fun wa wb t ht => ?_⟩
  rw [k2]
  exact hab.2 (h3 wa).1 (k3 wb).1 t (by rw [← h2]; exact ht)

/-- Two members of a pairwise related list are related one way or the other, or are one. -/
theorem pairwise_mem {α : Type} {R : α → α → Prop} {l : List α} (h : l.Pairwise R) {a b : α} (ha : a ∈ l) (hb : b ∈ l) :
    a = b ∨ R a b ∨ R b a := by
  induction h with
  | nil => cases ha
  | cons hx _ ih =>
    rcases List.mem_cons.1 ha with rfl | ha'
    · rcases List.mem_cons.1 hb with rfl | hb'
      · exact Or.inl rfl
      · exact Or.inr (Or.inl (hx _ hb'))
    · rcases List.mem_cons.1 hb with rfl | hb'
      · exact Or.inr (Or.inr (hx _ ha'))
      · exact ih ha' hb'

/-- Two entries in one storage place are one. -/
theorem EntriesApart.slot_inj {l : List RequestEntry} (h : EntriesApart l) {a b : RequestEntry} (ha : a ∈ l) (hb : b
    ∈ l)
    (e : a.slot = b.slot) : a = b := by
  rcases pairwise_mem h ha hb with h1 | h1 | h1
  · exact h1
  · exact absurd e h1.1
  · exact absurd e.symm h1.1

/-- Two entries of one tag that are not withdrawn are one. -/
theorem EntriesApart.owner_inj {l : List RequestEntry} (h : EntriesApart l) {a b : RequestEntry} (ha : a ∈ l) (hb : b
    ∈ l)
    (wa : a.withdrawn = false) (wb : b.withdrawn = false) {t : Tag} (oa : a.owner = .tag t) (ob : b.owner = .tag t) :
    a = b := by
  rcases pairwise_mem h ha hb with h1 | h1 | h1
  · exact h1
  · exact absurd ob (h1.2 wa wb t oa)
  · exact absurd oa (h1.2 wb wa t ob)

/-- An entry is live for a tag. -/
theorem liveFor_iff {e : RequestEntry} {f : Tag → Bool} :
    e.liveFor f = true ↔ e.withdrawn = false ∧ ∃ t, e.owner = .tag t ∧ f t = true := by
  unfold RequestEntry.liveFor
  cases e.owner <;> simp

/-- A marked entry is live for no tag. -/
theorem liveFor_marked (e : RequestEntry) (f : Tag → Bool) : RequestEntry.liveFor { e with withdrawn := true } f =
    false := by
  simp [RequestEntry.liveFor]

/-- R116: removing the entry in a storage place. -/
theorem entrySide_removeEntry (s : State) (e : RequestEntry) (he : e ∈ s.sender.requests) :
    (s.removeEntry e.slot).entrySide = s.entrySide.without s.fixedOn (fun x => decide (x.slot = e.slot)) := by
  have hstop : s.entrySide.stops (fun x => decide (x.slot = e.slot)) = decide (s.issue.copying = some e.slot) := by
    have hc : s.entrySide.copying = s.issue.copying := rfl
    rw [Bool.eq_iff_iff]
    simp only [EntrySide.stops, List.any_eq_true, Bool.and_eq_true, decide_eq_true_eq, hc]
    constructor
    · rintro ⟨x, h1, h2, h3⟩
      rw [h3, h2]
    · intro h; exact ⟨e, he, rfl, h⟩
  have hfix : (s.stopCopyOf e.slot).fixedOn = s.fixedOn := by
    funext n; unfold State.stopCopyOf; split <;> rfl
  have hreq : (s.stopCopyOf e.slot).sender.requests = s.sender.requests := by
    unfold State.stopCopyOf; split <;> rfl
  have hreq2 : (s.removeEntry e.slot).sender.requests
      = s.sender.requests.filterMap (RequestEntry.leaves s.fixedOn (fun x => decide (x.slot = e.slot))) := by
    unfold State.removeEntry
    dsimp only
    rw [hfix]
    split
    · rename_i hf
      show (s.stopCopyOf e.slot).sender.requests.map _ = _
      rw [hreq, ← List.filterMap_eq_map]
      apply List.filterMap_congr
      intro x _
      unfold RequestEntry.leaves
      by_cases hx : x.slot = e.slot
      · simp [hx, hf]
      · simp [hx]
    · rename_i hf
      show (s.stopCopyOf e.slot).sender.requests.filter _ = _
      rw [hreq, ← List.filterMap_eq_filter]
      apply List.filterMap_congr
      intro x _
      unfold RequestEntry.leaves
      by_cases hx : x.slot = e.slot
      · simp [hx, hf]
      · simp [hx]
  have hrest : (s.removeEntry e.slot).issue.copying = (s.stopCopyOf e.slot).issue.copying
      ∧ (s.removeEntry e.slot).arbiter = (s.stopCopyOf e.slot).arbiter := by
    unfold State.removeEntry; dsimp only; split <;> exact ⟨rfl, rfl⟩
  have hcop : (s.stopCopyOf e.slot).issue.copying = (if s.issue.copying = some e.slot then none else s.issue.copying)
      ∧ (s.stopCopyOf e.slot).arbiter = (if s.issue.copying = some e.slot then s.arbiter.abandon .issue else
          s.arbiter) := by
    unfold State.stopCopyOf; split <;> exact ⟨rfl, rfl⟩
  show EntrySide.mk _ _ _ = EntrySide.mk _ _ _
  rw [hstop, hreq2, hrest.1, hrest.2, hcop.1, hcop.2]
  simp only [decide_eq_true_eq]
  rfl

/-- R116: removing the entry of a tag. -/
theorem entrySide_removeEntryOf (s : State) (t : Tag) (h : EntriesApart s.sender.requests) :
    (s.removeEntryOf t).entrySide = s.entrySide.without s.fixedOn (fun e => e.liveFor (fun x => decide (x = t))) := by
  unfold State.removeEntryOf
  split
  · rename_i e0 he0
    have hm : e0 ∈ s.sender.requests := List.mem_of_find?_eq_some he0
    have hp := List.find?_some he0
    simp only [Bool.and_eq_true, decide_eq_true_eq, Bool.not_eq_true'] at hp
    rw [entrySide_removeEntry s e0 hm]
    apply EntrySide.without_congr
    intro e he
    rw [Bool.eq_iff_iff, decide_eq_true_eq, liveFor_iff]
    constructor
    · intro hs
      rw [h.slot_inj he hm hs]
      exact ⟨hp.2, t, hp.1, by simp⟩
    · rintro ⟨h1, x, h2, h3⟩
      rw [decide_eq_true_eq] at h3
      subst h3
      rw [h.owner_inj he hm h1 hp.2 h2 hp.1]
  · rename_i hn
    rw [EntrySide.without_none]
    intro e he
    by_contra hl
    rw [Bool.not_eq_false, liveFor_iff] at hl
    obtain ⟨h1, x, h2, h3⟩ := hl
    rw [decide_eq_true_eq] at h3
    subst h3
    have := List.find?_eq_none.1 hn e he
    simp [h1, h2] at this

/-- What a withdrawal does to entries. -/
theorem entrySide_withdrawTag (s : State) (t : Tag) (h : EntriesApart s.sender.requests) :
    (s.withdrawTag t).entrySide = s.entrySide.without s.fixedOn (fun e => e.liveFor (fun x => decide (x = t))) := by
  rw [← entrySide_removeEntryOf s t h]
  unfold State.withdrawTag
  dsimp only
  split <;> rfl

/-- A withdrawal leaves the span. -/
theorem span_withdrawTag (s : State) (t : Tag) : (s.withdrawTag t).span = s.span := by
  have : (s.removeEntryOf t).span = s.span := congrArg SegmentView.span (segmentView_removeEntryOf s t)
  unfold State.withdrawTag
  dsimp only
  split <;> exact this

/-- A liveFor test that names either of two kinds. -/
theorem liveFor_or (e : RequestEntry) (f g : Tag → Bool) : (e.liveFor f || e.liveFor g) = e.liveFor (fun t => f t ||
    g t) := by
  unfold RequestEntry.liveFor
  cases e.withdrawn <;> cases e.owner <;> simp

/-- Removing the entry of a tag leaves the tags. -/
theorem tagAt_withdrawTag (s : State) (t x : Tag) : (s.withdrawTag t).tagAt x = if x = t then (s.tagAt t).freed else
    s.tagAt x := by
  have hb : (s.removeEntryOf t).tags = s.tags := congrArg SegmentView.tags (segmentView_removeEntryOf s t)
  have : (s.withdrawTag t).tags = s.tags.set t.val (s.tagAt t).freed t.isLt := by
    unfold State.withdrawTag
    dsimp only
    rw [← hb]
    split <;> rfl
  unfold State.tagAt
  rw [this]
  exact tagAt_set s t x _

/-- R114: the entries that withdrawing the later segments among distinct tags removes. -/
theorem entrySide_withdrawFold (n : ContextNumber) (k : Nat) : ∀ (l : List Tag) (s : State), EntriesApart
    s.sender.requests →
    (l.foldl (fun acc t => if (acc.tagAt t).isLaterOf n k then acc.withdrawTag t else acc) s).entrySide
      = s.entrySide.without s.fixedOn (fun e => e.liveFor (fun x => decide (x ∈ l) && laterIn s n k x)) := by
  intro l
  induction l with
  | nil =>
    intro s _
    rw [EntrySide.without_none]
    · rfl
    · intro e _
      by_contra hx
      rw [Bool.not_eq_false, liveFor_iff] at hx
      obtain ⟨_, t, _, h3⟩ := hx
      simp at h3
  | cons t l ih =>
    intro s hap
    rw [List.foldl_cons]
    by_cases h : laterIn s n k t = true
    · rw [if_pos h]
      have he := entrySide_withdrawTag s t hap
      have hap' : EntriesApart (s.withdrawTag t).sender.requests := by
        have : (s.withdrawTag t).sender.requests = (s.withdrawTag t).entrySide.requests := rfl
        rw [this, he]
        exact EntriesApart.without (v := s.entrySide) hap _ _
      have hfix : (s.withdrawTag t).fixedOn = s.fixedOn := by
        funext m; unfold State.fixedOn; rw [span_withdrawTag]
      rw [ih _ hap', he, hfix, EntrySide.without_without _ _ _ _ (fun e => liveFor_marked e _)]
      apply EntrySide.without_congr
      intro e _
      rw [liveFor_or]
      congr 1
      funext x
      have hl : laterIn (s.withdrawTag t) n k x = (decide (x ≠ t) && laterIn s n k x) := by
        unfold laterIn
        rw [tagAt_withdrawTag]
        split
        · rename_i e; simp [freed_not_later, e]
        · rename_i e; simp [e]
      rw [hl]
      by_cases hx : x = t
      · subst hx; simp [h]
      · simp [hx]
    · rw [if_neg h, ih s hap]
      apply EntrySide.without_congr
      intro e _
      congr 1
      funext x
      have h' : laterIn s n k t = false := by simpa using h
      by_cases hx : x = t
      · subst hx; simp [h']
      · simp [hx]

/-- R114: the entries that the failure of a segment removes. -/
theorem entrySide_failSegment (s : State) (n : ContextNumber) (k : Nat) (st : Status) (h : EntriesApart
    s.sender.requests) :
    (s.failSegment n k st).entrySide = s.entrySide.without s.fixedOn (fun e => e.liveFor (laterIn s n k)) := by
  have hp := segmentView_failSegment_pre s n k st
  have h0 : ((s.updateContext n (fun c => c.failed k st)).issuingEnds n).entrySide = s.entrySide := by
    unfold State.issuingEnds; split <;> rfl
  have ht : ∀ x, laterIn ((s.updateContext n (fun c => c.failed k st)).issuingEnds n) n k x = laterIn s n k x := by
    intro x
    unfold laterIn
    rw [tagAt_of_segmentView (congrArg SegmentView.tags hp) x]; rfl
  have hf : ((s.updateContext n (fun c => c.failed k st)).issuingEnds n).fixedOn = s.fixedOn := by
    funext m
    unfold State.fixedOn
    have : ((s.updateContext n (fun c => c.failed k st)).issuingEnds n).span = s.span := congrArg SegmentView.span hp
    rw [this]
  have hr : ((s.updateContext n (fun c => c.failed k st)).issuingEnds n).sender.requests = s.sender.requests :=
    congrArg EntrySide.requests h0
  unfold State.failSegment State.withdrawLater
  rw [entrySide_withdrawFold n k allTags _ (by rw [hr]; exact h), h0, hf]
  apply EntrySide.without_congr
  intro e _
  congr 1
  funext x
  simp [ht, mem_allTags]

/-- R40, R114: the entries that the end of a segment removes: its own, and those of the later segments if it failed. -/
theorem entrySide_endSegment (s : State) (t : Tag) (st : Status) (v : Option Word) (h : EntriesApart
    s.sender.requests) :
    (s.endSegment t st v).entrySide = s.entrySide.without s.fixedOn (fun e => e.liveFor (fun x => decide (x = t)
      || (match (s.tagAt t).context, (s.tagAt t).segment with
        | some n, some k => decide (st ≠ .ok) && decide (x ≠ t) && laterIn s n k x
        | _, _ => false))) := by
  have h1 := entrySide_removeEntryOf s t h
  have hpre := endSegment_pre s t st
  dsimp only at hpre
  have hap : EntriesApart (s.removeEntryOf t).sender.requests := by
    have : (s.removeEntryOf t).sender.requests = (s.removeEntryOf t).entrySide.requests := rfl
    rw [this, h1]
    exact EntriesApart.without (v := s.entrySide) h _ _
  generalize hd : State.setTag (if st = .ok then s.removeEntryOf t else (s.removeEntryOf t).dropPieces t (s.tagAt
      t).generation) t
    (if st = .timeout then (s.tagAt t).turnedStale (State.timeout (if st = .ok then s.removeEntryOf t
      else (s.removeEntryOf t).dropPieces t (s.tagAt t).generation)) else (s.tagAt t).freed) = d at hpre
  have hside : d.entrySide = (s.removeEntryOf t).entrySide := by rw [← hd]; split <;> rfl
  have hdap : EntriesApart d.sender.requests := by
    have : d.sender.requests = d.entrySide.requests := rfl
    rw [this, hside]; exact hap
  have hdtag : ∀ x, x ≠ t → d.tagAt x = s.tagAt x := by
    intro x hx
    rw [tagAt_of_segmentView (congrArg SegmentView.tags hpre) x]
    have := tagAt_set s t x (if st = .timeout then (s.tagAt t).turnedStale s.timeout else (s.tagAt t).freed)
    rw [if_neg hx] at this
    exact this
  have hdt : ∀ n k, laterIn d n k t = false := by
    intro n k
    unfold laterIn
    rw [tagAt_of_segmentView (congrArg SegmentView.tags hpre) t]
    have := tagAt_set s t t (if st = .timeout then (s.tagAt t).turnedStale s.timeout else (s.tagAt t).freed)
    rw [if_pos rfl] at this
    show TagRecord.isLaterOf _ n k = false
    rw [this]
    split
    · simp [TagRecord.isLaterOf, TagRecord.turnedStale, TagState.waitsToGo]
    · exact freed_not_later _ _ _
  have hdfix : d.fixedOn = s.fixedOn := by
    funext m; unfold State.fixedOn
    have : d.span = s.span := congrArg SegmentView.span hpre
    rw [this]
  unfold State.endSegment
  dsimp only
  rw [hd]
  have hplain : d.entrySide = s.entrySide.without s.fixedOn
      (fun e => e.liveFor (fun x => decide (x = t) || false)) := by
    rw [hside, h1]
    simp only [Bool.or_false]
  rcases hn : (s.tagAt t).context with _ | n
  · exact hplain
  rcases hk : (s.tagAt t).segment with _ | k
  · exact hplain
  · dsimp only
    unfold State.reportEnd
    dsimp only
    split
    · rename_i hst
      show d.entrySide = _
      rw [hside, h1]
      apply EntrySide.without_congr
      intro e _
      congr 1
      funext x
      simp [hst]
    · rename_i hst
      have hup : (d.updateContext n (fun c => c.accounted v)).entrySide = d.entrySide := rfl
      rw [entrySide_failSegment (d.updateContext n (fun c => c.accounted v)) n k st hdap, hup, hside]
      have hf2 : (d.updateContext n (fun c => c.accounted v)).fixedOn = s.fixedOn := hdfix
      rw [hf2, h1, EntrySide.without_without _ _ _ _ (fun e => liveFor_marked e _)]
      apply EntrySide.without_congr
      intro e _
      rw [liveFor_or]
      congr 1
      funext x
      have hl : laterIn (d.updateContext n (fun c => c.accounted v)) n k x = laterIn d n k x := rfl
      rw [hl]
      by_cases hx : x = t
      · subst hx; simp
      · have : laterIn d n k x = laterIn s n k x := by unfold laterIn; rw [hdtag x hx]
        simp [hx, hst, this]

end Sys2Proof.Machine
end

