-- ==== Sys2Proof/Laws/Endings.lean ====
section
/-!
SUPPORT. Endings: what the end of one segment, and of the segments of many tags in turn, does to tags, pieces,
    contexts and
entries.
-/
namespace Sys2Proof.Machine

/-- The first failure kept is the lowest. -/
theorem lower_eq (h : Option (Nat × Status)) (k st) : lowerFailure h k st = lowestFailure st h k := by
  cases h <;> rfl

/-- A state is what removals leave alone and what they touch. -/
theorem state_ext {a b : State} (h1 : a.segmentView = b.segmentView) (h2 : a.entrySide = b.entrySide) : a = b := by
  rcases a with ⟨_, _, _, _, _, _, _, _, _, _, _, ⟨_, _, _⟩, _, _, ⟨_, _, _, _, _, _, _, _⟩, _, _⟩
  rcases b with ⟨_, _, _, _, _, _, _, _, _, _, _, ⟨_, _, _⟩, _, _, ⟨_, _, _, _, _, _, _, _⟩, _, _⟩
  simp only [State.segmentView, SegmentView.mk.injEq, State.entrySide, EntrySide.mk.injEq] at h1 h2
  simp only [State.mk.injEq, Sender.mk.injEq, IssueEngine.mk.injEq]
  tauto

/-- R116: removing an entry is leaving it out. -/
theorem removeEntry_eq (s : State) (e : RequestEntry) (he : e ∈ s.sender.requests) : s.removeEntry e.slot =
    s.withoutEntries (fun x => decide (x.slot = e.slot)) := by
  apply state_ext
  · rw [segmentView_removeEntry]; rfl
  · rw [entrySide_removeEntry s e he]; rfl

/-- R40, R41, R114, R157, R158: what the end of a segment of a command does. -/
theorem endSegment_spec : ∀ (s : State) (t : Tag) (st : Status) (v : Option Word) (n : ContextNumber) (k : Nat),
    (s.tagAt t).context = some n → (s.tagAt t).segment = some k →
    let r := s.tagAt t
    let u := s.endSegment t st v
    let withdrawn := fun x : Tag => decide (st ≠ .ok) && decide (x ≠ t) && (s.tagAt x).isLaterOf n k
    let stopped := st ≠ .ok ∧ s.issue.current = some n
    (st ≠ .timeout → u.tagAt t = TagRecord.freeOf (r.generation + 1))
    ∧ (st = .timeout → u.tagAt t = { r with
        state := .stale
        reserved := 0
        context := none
        segment := none
        deadline := r.deadline.map (fun d => d + s.inForce.completionTimeout.toNat * 1000) })
    ∧ (∀ x, x ≠ t → u.tagAt x = if withdrawn x then TagRecord.freeOf ((s.tagAt x).generation + 1) else s.tagAt x)
    ∧ u.segmentView = { s.segmentView with
      tags := u.tags
      buffer := { s.buffer with pieces := s.buffer.pieces.filter (fun p =>
        !((decide (st ≠ .ok) && decide (p.tag = t) && decide (p.generation = r.generation))
          || (withdrawn p.tag && decide (p.generation = (s.tagAt p.tag).generation)))) }
      contexts := s.issue.contexts.map (fun c => if c.number = n then { c with
          outstanding := c.outstanding - 1 - (allTags.filter withdrawn).length
          atomicValue := if v = none then c.atomicValue else v
          firstFailure := if st = .ok then c.firstFailure else lowestFailure st c.firstFailure k
          issuingFinished := c.issuingFinished || decide (st ≠ .ok)
          phase := if st = .ok then c.phase else .outstanding } else c)
      current := if stopped then none else s.issue.current
      waitingFor := if stopped then WaitingFor.nothing else s.issue.waitingFor } := by
  intro s t st v n k hn hk
  set r := s.tagAt t with hr
  have hpre := endSegment_pre s t st
  set d : State := ((if st = .ok then s.removeEntryOf t else (s.removeEntryOf t).dropPieces t r.generation).setTag t
      (if st = .timeout then r.turnedStale (State.timeout (if st = .ok then s.removeEntryOf t else (s.removeEntryOf
          t).dropPieces t r.generation)) else r.freed)) with hd
  have hu : s.endSegment t st v = d.reportEnd n k st v := by
    unfold State.endSegment
    simp only [← hr, hn, hk]
    rfl
  have hdr : d.segmentView = _ := hpre
  set e : State := d.updateContext n (fun c => c.accounted v) with he
  have her : e.segmentView = { d.segmentView with contexts := s.issue.contexts.map (fun c => if c.number = n then
      c.accounted v else c) } := by
    have : d.issue.contexts = s.issue.contexts := congrArg SegmentView.contexts hdr
    simp only [he, State.segmentView, State.updateContext, State.withIssue, this]
  have hdt : ∀ x, d.tagAt x = if x = t then (if st = .timeout then r.turnedStale s.timeout else r.freed) else s.tagAt
      x := by
    intro x
    rw [tagAt_of_segmentView (congrArg SegmentView.tags hdr) x]
    exact tagAt_set s t x _
  have het : ∀ x, e.tagAt x = d.tagAt x := fun x => rfl
  have hlate : ∀ x, laterIn e n k x = (decide (x ≠ t) && laterIn s n k x) := by
    intro x
    simp only [laterIn, het, hdt]
    by_cases ex : x = t
    · subst ex
      by_cases es : st = .timeout <;> simp [es, freed_not_later]
      simp [TagRecord.isLaterOf, TagRecord.turnedStale, TagState.waitsToGo]
    · simp [ex]
  by_cases hst : st = .ok
  · have hu' : s.endSegment t st v = e := by rw [hu, State.reportEnd, if_pos hst]
    simp only [hu', het, hdt]
    refine ⟨?_, ?_, ?_, ?_⟩
    · intro _; subst hst; simp; rfl
    · intro h; rw [h] at hst; cases hst
    · intro x hx; simp [hx, hst]
    · rw [her, hdr]
      have e1 : e.tags = d.tags := rfl
      have e2 : d.tags = _ := congrArg SegmentView.tags hdr
      subst hst
      simp only [e1, e2, SegmentView.mk.injEq, and_true, true_and]
      refine ⟨by simp, ?_, by simp; rfl, by simp; rfl⟩
      apply List.map_congr_left
      intro c _
      by_cases ec : c.number = n
      · simp [ec, Context.accounted]
        cases v <;> rfl
      · simp [ec]
  · have hu' : s.endSegment t st v = e.failSegment n k st := by rw [hu, State.reportEnd, if_neg hst]
    obtain ⟨f1, f2⟩ := failSegment_spec e n k st
    simp only [hu', f1]
    have hb : e.buffer = _ := congrArg SegmentView.buffer (her.trans (by rw [hdr]))
    have hcx : e.issue.contexts = _ := congrArg SegmentView.contexts her
    have hcu : e.issue.current = s.issue.current := (congrArg SegmentView.current hdr : d.issue.current =
        s.issue.current)
    rw [her, hdr] at f2
    have hw : e.issue.waitingFor = s.issue.waitingFor := (congrArg SegmentView.waitingFor hdr : d.issue.waitingFor =
        s.issue.waitingFor)
    simp only [hlate, het, hdt]
    refine ⟨?_, ?_, ?_, ?_⟩
    · intro h; simp [h]; rfl
    · intro h; simp [h]; rfl
    · intro x hx; simp [hx, hst]; rfl
    · rw [f2]
      simp only [SegmentView.mk.injEq, and_true, true_and, hcu, hw, hst, not_false_eq_true, ne_eq]
      refine ⟨?_, ?_⟩
      · simp only [hb, hst, if_false, CompletionBuffer.mk.injEq, List.filter_filter, and_true]
        apply List.filter_congr
        intro p _
        rw [hlate]
        by_cases ep : p.tag = t
        · simp [ep, ← hr, het, hdt]
        · simp [ep, het, hdt]
      · rw [hcx, List.map_map]
        apply List.map_congr_left
        intro c _
        have hl' : laterIn e n k = fun x => (decide (st ≠ .ok) && decide (x ≠ t) && laterIn s n k x) := by
          funext x; rw [hlate]; simp [hst]
        by_cases ec : c.number = n
        · simp [ec, Context.accounted, Context.failed, hst, Function.comp, hl', lower_eq]
          cases v <;> rfl
        · simp [ec]

/-- What a cleanup and an entry to HALTED do to one tag that a test names: its segment ends, or it leaves STALE. -/
def State.endTagIf (named : TagRecord → Bool) (st : Status) (s : State) (t : Tag) : State :=
  if named (s.tagAt t) then
    if (s.tagAt t).state.inFlight then s.endSegment t st none
    else if (s.tagAt t).state = .stale then s.setTag t (s.tagAt t).freed
    else s
  else s

/-- The tag is named and has a segment in flight. -/
def State.ends (s : State) (named : TagRecord → Bool) (t : Tag) : Bool :=
  named (s.tagAt t) && (s.tagAt t).state.inFlight

/-- R114: the tag belongs to a later segment, still waiting to go, of the command that a tag's segment belongs to. -/
def State.follows (s : State) (t x : Tag) : Bool :=
  match (s.tagAt t).context, (s.tagAt t).segment with
  | some n, some k => (s.tagAt x).isLaterOf n k
  | _, _ => false

/-- The tag is among those named that end, or is withdrawn with one. -/
def State.goneWith (s : State) (named : TagRecord → Bool) (l : List Tag) (x : Tag) : Bool :=
  (decide (x ∈ l) && s.ends named x) || l.any (fun t => s.ends named t && s.follows t x)

/-- The segments of a context that end, in the order of their tags. -/
def State.endingOf (s : State) (named : TagRecord → Bool) (l : List Tag) (n : ContextNumber) : List Nat :=
  (l.filter (fun x => s.ends named x && decide ((s.tagAt x).context = some n))).filterMap (fun x => (s.tagAt x).segment)

/-- A context after the segments `ending` of its command have ended with a status, `count` tags being gone. -/
def Context.ending (c : Context) (st : Status) (count : Nat) (ending : List Nat) : Context :=
  { c with
    outstanding := c.outstanding - count
    firstFailure := ending.foldl (lowestFailure st) c.firstFailure
    issuingFinished := c.issuingFinished || decide (ending ≠ [])
    phase := if ending = [] then c.phase else .outstanding }

/-- The tags of a context that are gone. -/
def State.goneCount (s : State) (named : TagRecord → Bool) (l : List Tag) (n : ContextNumber) : Nat :=
  (allTags.filter (fun x => s.goneWith named l x && decide ((s.tagAt x).context = some n))).length

/-- A later segment waiting to go is in flight. -/
theorem isLaterOf_inFlight {r : TagRecord} {n k} (h : r.isLaterOf n k = true) : r.state.inFlight = true := by
  unfold TagRecord.isLaterOf at h
  rw [Bool.and_eq_true, Bool.and_eq_true] at h
  revert h; cases r.state <;> simp [TagState.waitsToGo, TagState.inFlight]

/-- The tag is followed: both numbers are there, and the other is a later segment. -/
theorem follows_iff {s : State} {t x : Tag} : s.follows t x = true ↔
    ∃ n k, (s.tagAt t).context = some n ∧ (s.tagAt t).segment = some k ∧ (s.tagAt x).isLaterOf n k = true := by
  unfold State.follows
  cases (s.tagAt t).context <;> cases (s.tagAt t).segment <;> simp

/-- A later segment waiting to go, in propositions. -/
theorem isLaterOf_iff {r : TagRecord} {n k} : r.isLaterOf n k = true ↔ r.state.waitsToGo = true ∧ r.context = some n
    ∧ ∃ j, r.segment = some j ∧ k < j := by
  unfold TagRecord.isLaterOf
  cases r.segment <;> simp [and_assoc]

/-- No tag follows itself. -/
theorem not_follows_self (s : State) (t : Tag) : s.follows t t = false := by
  by_contra h
  rw [Bool.not_eq_false, follows_iff] at h
  obtain ⟨n, k, _, hk, hl⟩ := h
  obtain ⟨_, _, j, hj, hlt⟩ := isLaterOf_iff.1 hl
  rw [hk] at hj; cases hj; omega

/-- What follows a tag that follows is later still. -/
theorem follows_trans {s : State} {t x y : Tag} (h : s.follows t x = true) (k : s.follows x y = true) : s.follows t y
    = true := by
  rw [follows_iff] at h k ⊢
  obtain ⟨n, k1, h1, h2, h3⟩ := h
  obtain ⟨m, k2, g1, g2, g3⟩ := k
  obtain ⟨_, a2, j, a3, a4⟩ := isLaterOf_iff.1 h3
  rw [g1] at a2; cases a2
  rw [g2] at a3; cases a3
  obtain ⟨b1, b2, j', b3, b4⟩ := isLaterOf_iff.1 g3
  exact ⟨_, _, h1, h2, isLaterOf_iff.2 ⟨b1, b2, j', b3, by omega⟩⟩

/-- A freed record is FREE. -/
theorem freed_state (r : TagRecord) : r.freed.state = .free := rfl
/-- A freed record names no context. -/
theorem freed_context (r : TagRecord) : r.freed.context = none := rfl

/-- R28, R40, R42: the records after one ending. -/
theorem tagAt_endTagIf_cases (named : TagRecord → Bool) (st : Status) (h1 : st ≠ .ok) (h2 : st ≠ .timeout) (s :
    State) (t x : Tag) :
    (s.endTagIf named st t).tagAt x =
      if (s.ends named t = true ∧ (x = t ∨ s.follows t x = true)) ∨ (x = t ∧ named (s.tagAt t) = true ∧ (s.tagAt
          t).state = .stale)
      then (s.tagAt x).freed else s.tagAt x := by
  unfold State.endTagIf
  by_cases hn : named (s.tagAt t) = true
  · rw [if_pos hn]
    by_cases hf : (s.tagAt t).state.inFlight = true
    · have he : s.ends named t = true := by simp [State.ends, hn, hf]
      have hs : (s.tagAt t).state ≠ .stale := by intro e; rw [e] at hf; cases hf
      rw [if_pos hf]
      simp only [he, true_and, hs, and_false, or_false]
      by_cases hc : ∃ n k, (s.tagAt t).context = some n ∧ (s.tagAt t).segment = some k
      · obtain ⟨n, k, hc1, hc2⟩ := hc
        obtain ⟨a1, a2, a3, a4⟩ := endSegment_spec s t st none n k hc1 hc2
        have hfo : s.follows t x = (s.tagAt x).isLaterOf n k := by simp [State.follows, hc1, hc2]
        rw [hfo]
        by_cases hx : x = t
        · subst hx; rw [if_pos (Or.inl rfl)]; exact a1 h2
        · rw [a3 x hx]
          simp only [hx, false_or, ne_eq, h1, not_false_eq_true, decide_true, Bool.true_and]; rfl
      · have hfo : s.follows t x = false := by
          by_contra h
          rw [Bool.not_eq_false, follows_iff] at h
          obtain ⟨n, k, h1, h2, _⟩ := h; exact hc ⟨n, k, h1, h2⟩
        obtain ⟨d, hd, h⟩ := endSegment_cases s t st none
        rcases h with ⟨n, k, c1, c2, _⟩ | ⟨_, h⟩
        · exact absurd ⟨n, k, c1, c2⟩ hc
        rw [h, tagAt_of_segmentView (congrArg SegmentView.tags hd) x, hfo]
        simp only [h2, if_false]
        rw [tagAt_set]
        by_cases hx : x = t <;> simp [hx]
    · have he : s.ends named t = false := by simp [State.ends, hf]
      rw [if_neg hf]
      simp only [he, Bool.false_eq_true, false_and, false_or, hn, true_and]
      by_cases hs : (s.tagAt t).state = .stale
      · rw [if_pos hs]
        show (s.tags.set t.val _ t.isLt)[x.val] = _
        rw [tagAt_set]
        by_cases hx : x = t <;> simp [hx, hs]
      · simp [hs]
  · have he : s.ends named t = false := by simp [State.ends, hn]
    simp [hn, he]

/-- The records that one of the endings frees. -/
def State.freesAt (s : State) (named : TagRecord → Bool) (t x : Tag) : Bool :=
  (s.ends named t && (decide (x = t) || s.follows t x))
    || (decide (x = t) && named (s.tagAt t) && decide ((s.tagAt t).state = .stale))

/-- R28, R40, R42: the records after one ending, by the test. -/
theorem tagAt_endTagIf (named : TagRecord → Bool) (st : Status) (h1 : st ≠ .ok) (h2 : st ≠ .timeout) (s : State) (t x
    : Tag) :
    (s.endTagIf named st t).tagAt x = if s.freesAt named t x then (s.tagAt x).freed else s.tagAt x := by
  rw [tagAt_endTagIf_cases named st h1 h2]
  congr 1
  simp [State.freesAt, and_assoc]

section
variable {named : TagRecord → Bool} {st : Status} (h1 : st ≠ .ok) (h2 : st ≠ .timeout) (s : State) (t : Tag)
include h1 h2

/-- After one ending a tag freed by it is none that ends. -/
theorem ends_endTagIf (x : Tag) : (s.endTagIf named st t).ends named x = (!s.freesAt named t x && s.ends named x) := by
  unfold State.ends
  rw [tagAt_endTagIf named st h1 h2]
  cases s.freesAt named t x <;> simp [freed_state, TagState.inFlight]

/-- After one ending a tag freed by it follows none. -/
theorem follows_endTagIf (x y : Tag) (hx : s.freesAt named t x = false) : (s.endTagIf named st t).follows x y =
    (!s.freesAt named t y && s.follows x y) := by
  have e1 := tagAt_endTagIf named st h1 h2 s t x
  have e2 := tagAt_endTagIf named st h1 h2 s t y
  rw [hx, if_neg (by simp)] at e1
  unfold State.follows
  rw [e1, e2]
  cases s.freesAt named t y
  · simp
  · cases (s.tagAt x).context <;> cases (s.tagAt x).segment <;> simp [freed_not_later]

/-- The tags gone with a list are those the first takes with it and those gone with the rest after it. -/
theorem gone_endTagIf {l : List Tag} (hl : t ∉ l) (x : Tag) : s.goneWith named (t :: l) x =
    ((s.ends named t && (decide (x = t) || s.follows t x)) || (s.endTagIf named st t).goneWith named l x) := by
  have hg : (s.endTagIf named st t).goneWith named l x = (!s.freesAt named t x && ((decide (x ∈ l) && s.ends named x)
      || l.any (fun z => !s.freesAt named t z && s.ends named z && s.follows z x))) := by
    unfold State.goneWith
    rw [ends_endTagIf h1 h2]
    have : l.any (fun z => (s.endTagIf named st t).ends named z && (s.endTagIf named st t).follows z x)
        = (!s.freesAt named t x && l.any (fun z => !s.freesAt named t z && s.ends named z && s.follows z x)) := by
      rw [Bool.eq_iff_iff]
      simp only [List.any_eq_true, Bool.and_eq_true, ends_endTagIf h1 h2, Bool.not_eq_true']
      constructor
      · rintro ⟨z, a, ⟨b, c⟩, d⟩
        rw [follows_endTagIf h1 h2 s t z x b, Bool.and_eq_true, Bool.not_eq_true'] at d
        exact ⟨d.1, z, a, ⟨b, c⟩, d.2⟩
      · rintro ⟨e, z, a, ⟨b, c⟩, d⟩
        refine ⟨z, a, ⟨b, c⟩, ?_⟩
        rw [follows_endTagIf h1 h2 s t z x b]; simp [e, d]
    rw [this]
    cases s.freesAt named t x <;> simp
  rw [hg]
  unfold State.goneWith
  rw [Bool.eq_iff_iff]
  simp only [List.mem_cons, List.any_cons, Bool.or_eq_true, Bool.and_eq_true, decide_eq_true_eq, Bool.not_eq_true',
      List.any_eq_true]
  by_cases ht : s.ends named t = true
  · have hfx : ∀ y, s.freesAt named t y = true ↔ (y = t ∨ s.follows t y = true) := by
      intro y
      have hs : (s.tagAt t).state ≠ .stale := by
        intro e; simp [State.ends, e, TagState.inFlight] at ht
      simp [State.freesAt, ht, hs]
    by_cases hx : x = t ∨ s.follows t x = true
    · have : s.freesAt named t x = true := (hfx x).2 hx
      simp only [ht, true_and, hx, true_or, iff_true]
      rcases hx with rfl | hx
      · exact Or.inl ⟨Or.inl rfl, ht⟩
      · exact Or.inr (Or.inl hx)
    · have hfree : s.freesAt named t x = false := by
        rw [← Bool.not_eq_true, hfx]; exact hx
      push Not at hx
      simp only [ht, hx, hfree, true_and, false_or, or_false, true_or,
          Bool.false_eq_true]
      constructor
      · rintro (⟨a, b⟩ | ⟨z, a, b, c⟩)
        · exact Or.inl ⟨a, b⟩
        · refine Or.inr ⟨z, a, ⟨?_, b⟩, c⟩
          rw [← Bool.not_eq_true, hfx]
          rintro (rfl | hz)
          · exact hl a
          · exact hx.2 (follows_trans hz c)
      · rintro (⟨a, b⟩ | ⟨z, a, ⟨_, b⟩, c⟩)
        · exact Or.inl ⟨a, b⟩
        · exact Or.inr ⟨z, a, b, c⟩
  · have ht' : s.ends named t = false := by simpa using ht
    have hfx : ∀ y, s.freesAt named t y = true ↔ (y = t ∧ named (s.tagAt t) = true ∧ (s.tagAt t).state = .stale) := by
      intro y
      simp [State.freesAt, ht', and_assoc]
    simp only [ht', Bool.false_eq_true, false_and, false_or]
    constructor
    · rintro (⟨a, b⟩ | ⟨z, a, b, c⟩)
      · have hxt : x ≠ t := by rintro rfl; exact ht b
        rcases a with rfl | a
        · exact absurd rfl hxt
        exact ⟨by rw [← Bool.not_eq_true, hfx]; exact fun h => hxt h.1, Or.inl ⟨a, b⟩⟩
      · have hxf : s.freesAt named t x = false := by
          rw [← Bool.not_eq_true, hfx]
          rintro ⟨rfl, _, hs⟩
          obtain ⟨_, _, _, _, hl⟩ := follows_iff.1 c
          have := isLaterOf_inFlight hl
          rw [hs] at this; cases this
        refine ⟨hxf, Or.inr ⟨z, a, ⟨?_, b⟩, c⟩⟩
        rw [← Bool.not_eq_true, hfx]
        rintro ⟨rfl, _⟩; exact hl a
    · rintro ⟨a, (⟨b, c⟩ | ⟨z, b, ⟨_, c⟩, d⟩)⟩
      · exact Or.inl ⟨Or.inr b, c⟩
      · exact Or.inr ⟨z, b, c, d⟩
end

/-- R42, R43: the records after the endings. -/
theorem tagAt_endTags {named : TagRecord → Bool} {st : Status} (h1 : st ≠ .ok) (h2 : st ≠ .timeout) : ∀ (l : List
    Tag), l.Nodup → ∀ (s : State) (x : Tag),
    (l.foldl (State.endTagIf named st) s).tagAt x =
      if s.goneWith named l x || (decide (x ∈ l) && named (s.tagAt x) && decide ((s.tagAt x).state = .stale)) then
          (s.tagAt x).freed
      else s.tagAt x := by
  intro l
  induction l with
  | nil => intro _ s x; simp [State.goneWith]
  | cons t l ih =>
    intro hn s x
    rw [List.nodup_cons] at hn
    rw [List.foldl_cons, ih hn.2, gone_endTagIf h1 h2 s t hn.1, tagAt_endTagIf named st h1 h2]
    by_cases hf : s.freesAt named t x = true
    · have hg : (s.endTagIf named st t).goneWith named l x = false := by
        unfold State.goneWith
        rw [ends_endTagIf h1 h2, hf]
        simp only [Bool.not_true, Bool.false_and, Bool.and_false, Bool.false_or, List.any_eq_false, Bool.and_eq_true,
            not_and]
        intro z hz he
        rw [ends_endTagIf h1 h2, Bool.and_eq_true, Bool.not_eq_true'] at he
        rw [follows_endTagIf h1 h2 s t z x he.1, hf]; simp
      rw [hg, if_pos hf]
      simp only [freed_state, reduceCtorEq, decide_false, Bool.and_false, Bool.or_false, Bool.false_eq_true, if_false]
      rw [if_pos]
      simp only [State.freesAt, Bool.or_eq_true, Bool.and_eq_true, decide_eq_true_eq] at hf ⊢
      rcases hf with hf | ⟨⟨rfl, a⟩, b⟩
      · exact Or.inl hf
      · exact Or.inr ⟨⟨by simp, a⟩, b⟩
    · rw [if_neg hf]
      congr 1
      rw [Bool.not_eq_true] at hf
      simp only [State.freesAt, Bool.or_eq_false_iff] at hf
      rw [hf.1, Bool.false_or]
      by_cases hx : x = t
      · subst hx
        have := hf.2
        simp only [decide_true, Bool.true_and] at this
        simp only [List.mem_cons, true_or, decide_true, Bool.true_and, this, hn.1, decide_false, Bool.false_and]
      · simp [hx]


/-- The tags that one ending takes with it. -/
def State.takenBy (s : State) (named : TagRecord → Bool) (t x : Tag) : Bool :=
  s.ends named t && (decide (x = t) || s.follows t x)

/-- The tags gone with one tag are those it takes with it. -/
theorem goneWith_single (s : State) (named : TagRecord → Bool) (t x : Tag) : s.goneWith named [t] x = s.takenBy named
    t x := by
  unfold State.goneWith State.takenBy
  simp only [List.mem_singleton, List.any_cons, List.any_nil, Bool.or_false]
  by_cases h : x = t
  · subst h; cases s.ends named x <;> simp
  · simp [h]

/-- The segments of the contexts that tags name have numbers. -/
def State.SegmentsNamed (s : State) (named : TagRecord → Bool) : Prop :=
  ∀ t, s.ends named t = true → (s.tagAt t).context ≠ none → (s.tagAt t).segment ≠ none

/-- One ending leaves the fields beyond a segment's end. -/
theorem beyond_endTagIf (named : TagRecord → Bool) (st : Status) (s : State) (t : Tag) : (s.endTagIf named st
    t).beyond = s.beyond := by
  unfold State.endTagIf
  split
  · split
    · exact beyond_endSegment s t st none
    · split <;> rfl
  · rfl

/-- The endings leave the fields beyond a segment's end. -/
theorem beyond_endTags (named : TagRecord → Bool) (st : Status) : ∀ (l : List Tag) (s : State), (l.foldl
    (State.endTagIf named st) s).beyond = s.beyond := by
  intro l
  induction l with
  | nil => intro s; rfl
  | cons t l ih => intro s; rw [List.foldl_cons, ih, beyond_endTagIf]

/-- The length of a list filtered by either of two exclusive tests. -/
theorem length_filter_or {α : Type} (p q : α → Bool) : ∀ l : List α, (∀ x ∈ l, ¬ (p x = true ∧ q x = true)) →
    (l.filter (fun x => p x || q x)).length = (l.filter p).length + (l.filter q).length
  | [], _ => rfl
  | a :: l, h => by
    have ih := length_filter_or p q l (fun x hx => h x (List.mem_cons_of_mem _ hx))
    have ha := h a (List.mem_cons_self ..)
    simp only [List.filter_cons]
    cases hp : p a <;> cases hq : q a <;> simp_all
    all_goals omega

/-- One tag stands once among all tags. -/
theorem length_filter_tag (t : Tag) : (allTags.filter (fun x => decide (x = t))).length = 1 := by
  have := List.count_eq_one_of_mem allTags_nodup (mem_allTags t)
  rw [List.count, List.countP_eq_length_filter] at this
  exact this

/-- What the endings leave of the piece list, of the contexts and of the current command. -/
theorem work_endTagIf (named : TagRecord → Bool) {st : Status} (h1 : st ≠ .ok) (_h2 : st ≠ .timeout) (s : State) (t :
    Tag) :
    (s.endTagIf named st t).buffer = { s.buffer with pieces := s.buffer.pieces.filter (fun p =>
        !(s.takenBy named t p.tag && decide (p.generation = (s.tagAt p.tag).generation))) }
    ∧ (EntriesApart s.sender.requests → (s.endTagIf named st t).entrySide =
        s.entrySide.without s.fixedOn (fun e => e.liveFor (s.takenBy named t)))
    ∧ (s.SegmentsNamed named →
      (s.endTagIf named st t).issue.contexts = s.issue.contexts.map (fun c =>
        c.ending st (s.goneCount named [t] c.number) (s.endingOf named [t] c.number))
      ∧ (s.endTagIf named st t).issue.current = s.issue.current.filter (fun n => decide (s.endingOf named [t] n = []))
      ∧ (s.endTagIf named st t).issue.waitingFor = if s.issue.current.any (fun n => decide (s.endingOf named [t] n ≠
          []))
        then WaitingFor.nothing else s.issue.waitingFor) := by
  have hkeep : s.ends named t = false → (∀ u : State, u.buffer = s.buffer → u.entrySide = s.entrySide → u.issue =
      s.issue →
    (u.buffer = { s.buffer with pieces := s.buffer.pieces.filter (fun p =>
        !(s.takenBy named t p.tag && decide (p.generation = (s.tagAt p.tag).generation))) }
    ∧ (EntriesApart s.sender.requests → u.entrySide =
        s.entrySide.without s.fixedOn (fun e => e.liveFor (s.takenBy named t)))
    ∧ (s.SegmentsNamed named →
      u.issue.contexts = s.issue.contexts.map (fun c =>
        c.ending st (s.goneCount named [t] c.number) (s.endingOf named [t] c.number))
      ∧ u.issue.current = s.issue.current.filter (fun n => decide (s.endingOf named [t] n = []))
      ∧ u.issue.waitingFor = if s.issue.current.any (fun n => decide (s.endingOf named [t] n ≠ []))
        then WaitingFor.nothing else s.issue.waitingFor))) := by
    intro he u hb hs hi
    have hk : ∀ x, s.takenBy named t x = false := fun x => by simp [State.takenBy, he]
    have hend : ∀ n, s.endingOf named [t] n = [] := fun n => by simp [State.endingOf, he]
    have hc : ∀ n, s.goneCount named [t] n = 0 := fun n => by
      simp [State.goneCount, goneWith_single, hk]
    refine ⟨?_, ?_, ?_⟩
    · rw [hb]; simp [hk]
    · intro _
      rw [hs, EntrySide.without_none]
      intro e _
      by_contra hx
      rw [Bool.not_eq_false, liveFor_iff] at hx
      obtain ⟨_, x, _, h3⟩ := hx
      rw [hk] at h3; cases h3
    · intro _
      rw [hi]
      refine ⟨?_, ?_, ?_⟩
      · conv_lhs => rw [← List.map_id s.issue.contexts]
        apply List.map_congr_left
        intro c _
        simp [Context.ending, hend, hc]
      · cases s.issue.current <;> simp [hend, Option.filter]
      · cases s.issue.current <;> simp [hend]
  unfold State.endTagIf
  by_cases hn : named (s.tagAt t) = true
  swap
  · rw [if_neg hn]
    exact hkeep (by simp [State.ends, hn]) s rfl rfl rfl
  rw [if_pos hn]
  by_cases hf : (s.tagAt t).state.inFlight = true
  swap
  · rw [if_neg hf]
    have he : s.ends named t = false := by simp [State.ends, hf]
    split
    · exact hkeep he _ rfl rfl rfl
    · exact hkeep he s rfl rfl rfl
  rw [if_pos hf]
  clear hkeep
  have he : s.ends named t = true := by simp [State.ends, hn, hf]
  have htk : ∀ x, s.takenBy named t x = (decide (x = t) || s.follows t x) := fun x => by simp [State.takenBy, he]
  refine ⟨?_, ?_, ?_⟩
  · by_cases hc : ∃ n k, (s.tagAt t).context = some n ∧ (s.tagAt t).segment = some k
    · obtain ⟨n, k, hc1, hc2⟩ := hc
      have hfo : ∀ x, s.follows t x = (s.tagAt x).isLaterOf n k := fun x => by simp [State.follows, hc1, hc2]
      have := congrArg SegmentView.buffer (endSegment_spec s t st none n k hc1 hc2).2.2.2
      refine (show (s.endSegment t st none).buffer = _ from this).trans ?_
      simp only [CompletionBuffer.mk.injEq, and_true]
      apply List.filter_congr
      intro p _
      rw [htk, hfo]
      have hnl : ∀ r : TagRecord, r.isLaterOf n k = true → True := fun _ _ => trivial
      by_cases hp : p.tag = t
      · rw [hp]; simp [h1]
      · simp [h1, hp]
    · have hfo : ∀ x, s.follows t x = false := by
        intro x
        by_contra h
        rw [Bool.not_eq_false, follows_iff] at h
        obtain ⟨n, k, h1, h2, _⟩ := h; exact hc ⟨n, k, h1, h2⟩
      obtain ⟨d, hd, h⟩ := endSegment_cases s t st none
      rcases h with ⟨n, k, c1, c2, _⟩ | ⟨_, h⟩
      · exact absurd ⟨n, k, c1, c2⟩ hc
      rw [h]
      refine (show d.buffer = _ from congrArg SegmentView.buffer hd).trans ?_
      simp only [h1, if_false, CompletionBuffer.mk.injEq, and_true]
      apply List.filter_congr
      intro p _
      rw [htk, hfo]
      by_cases hp : p.tag = t
      · rw [hp]; simp
      · simp [hp]
  · intro ha
    rw [entrySide_endSegment s t st none ha]
    apply EntrySide.without_congr
    intro e _
    congr 1
    funext x
    rw [htk]
    unfold State.follows
    cases (s.tagAt t).context <;> cases (s.tagAt t).segment <;> simp [h1]
    by_cases hx : x = t <;> simp [hx]
  · intro hseg
    have hseg' := hseg t he
    cases hc : (s.tagAt t).context with
    | none =>
      have hfo : ∀ x, s.follows t x = false := fun x => by simp [State.follows, hc]
      obtain ⟨d, hd, h⟩ := endSegment_cases s t st none
      rcases h with ⟨n, k, c1, c2, _⟩ | ⟨_, h⟩
      · rw [hc] at c1; cases c1
      rw [h]
      have hend : ∀ n, s.endingOf named [t] n = [] := fun n => by simp [State.endingOf, hc]
      have hcnt : ∀ n, s.goneCount named [t] n = 0 := fun n => by
        simp only [State.goneCount, goneWith_single, htk, hfo, Bool.or_false, List.length_eq_zero_iff,
            List.filter_eq_nil_iff]
        intro x _ hx
        simp only [Bool.and_eq_true, decide_eq_true_eq] at hx
        rw [hx.1, hc] at hx; cases hx.2
      refine ⟨?_, ?_, ?_⟩
      · refine (show d.issue.contexts = _ from congrArg SegmentView.contexts hd).trans ?_
        conv_lhs => rw [show s.segmentView.contexts = s.issue.contexts from rfl, ← List.map_id s.issue.contexts]
        apply List.map_congr_left
        intro c _
        simp [Context.ending, hend, hcnt]
      · refine (show d.issue.current = _ from congrArg SegmentView.current hd).trans ?_
        show s.issue.current = _
        cases s.issue.current <;> simp [hend, Option.filter]
      · refine (show d.issue.waitingFor = _ from congrArg SegmentView.waitingFor hd).trans ?_
        show s.issue.waitingFor = _
        cases s.issue.current <;> simp [hend]
    | some n =>
      obtain ⟨k, hk⟩ := Option.ne_none_iff_exists'.1 (hseg' (by simp [hc]))
      have hv := (endSegment_spec s t st none n k hc hk).2.2.2
      have hfo : ∀ x, s.follows t x = (s.tagAt x).isLaterOf n k := fun x => by simp [State.follows, hc, hk]
      have hend : ∀ m, s.endingOf named [t] m = if m = n then [k] else [] := by
        intro m
        by_cases hm : m = n
        · subst hm; simp [State.endingOf, he, hc, hk]
        · have hm' : n ≠ m := fun e => hm e.symm
          simp [State.endingOf, he, hc, hm, hm']
      have hcnt : ∀ m, s.goneCount named [t] m = if m = n then 1 + (allTags.filter (fun x => decide (x ≠ t) &&
          (s.tagAt x).isLaterOf n k)).length else 0 := by
        intro m
        unfold State.goneCount
        simp only [goneWith_single, htk, hfo]
        by_cases hm : m = n
        · subst hm
          rw [if_pos rfl]
          have hsplit : allTags.filter (fun x => (decide (x = t) || (s.tagAt x).isLaterOf m k) && decide ((s.tagAt
              x).context = some m))
             = allTags.filter (fun x => decide (x = t) || (decide (x ≠ t) && (s.tagAt x).isLaterOf m k)) := by
            apply List.filter_congr
            intro x _
            by_cases hx : x = t
            · subst hx; simp [hc]
            · simp only [hx, decide_false, Bool.false_or, ne_eq, not_false_eq_true, decide_true, Bool.true_and]
              by_cases hl : (s.tagAt x).isLaterOf m k = true
              · simp [hl, isLaterOf_ctx hl]
              · simp [hl]
          rw [hsplit, length_filter_or, length_filter_tag]
          intro x _ hx
          simp only [Bool.and_eq_true, decide_eq_true_eq] at hx
          exact hx.2.1 hx.1
        · rw [if_neg hm, List.length_eq_zero_iff, List.filter_eq_nil_iff]
          intro x _ hx
          simp only [Bool.and_eq_true, Bool.or_eq_true, decide_eq_true_eq] at hx
          rcases hx with ⟨rfl | hl, hx⟩
          · rw [hc] at hx; cases hx; exact hm rfl
          · rw [isLaterOf_ctx hl] at hx; cases hx; exact hm rfl
      refine ⟨?_, ?_, ?_⟩
      · refine (show (s.endSegment t st none).issue.contexts = _ from congrArg SegmentView.contexts hv).trans ?_
        apply List.map_congr_left
        intro c _
        rw [hend, hcnt]
        by_cases hcn : c.number = n
        · simp [Context.ending, hcn, h1, Nat.sub_sub]
        · simp [Context.ending, hcn]
      · refine (show (s.endSegment t st none).issue.current = _ from congrArg SegmentView.current hv).trans ?_
        dsimp only
        cases hcu : s.issue.current with
        | none => simp
        | some m => by_cases hm : m = n <;> simp [hend, hm, h1, Option.filter]
      · refine (show (s.endSegment t st none).issue.waitingFor = _ from congrArg SegmentView.waitingFor hv).trans ?_
        dsimp only
        cases hcu : s.issue.current with
        | none => simp
        | some m => by_cases hm : m = n <;> simp [hend, hm, h1]


/-- A tag that an ending frees is gone with none of the endings after it. -/
theorem not_gone_of_freed {named : TagRecord → Bool} {st : Status} (h1 : st ≠ .ok) (h2 : st ≠ .timeout) (s : State)
    (t : Tag) (l : List Tag) (x : Tag)
    (hf : s.freesAt named t x = true) : (s.endTagIf named st t).goneWith named l x = false := by
  unfold State.goneWith
  rw [ends_endTagIf h1 h2, hf]
  simp only [Bool.not_true, Bool.false_and, Bool.and_false, Bool.false_or, List.any_eq_false, Bool.and_eq_true, not_and]
  intro z hz he
  rw [ends_endTagIf h1 h2, Bool.and_eq_true, Bool.not_eq_true'] at he
  rw [follows_endTagIf h1 h2 s t z x he.1, hf]; simp

/-- A tag taken by an ending is freed by it. -/
theorem takenBy_freesAt {s : State} {named : TagRecord → Bool} {t x : Tag} (h : s.takenBy named t x = true) :
    s.freesAt named t x = true := by
  unfold State.takenBy at h
  simp [State.freesAt, h]

/-- One ending leaves the span. -/
theorem span_endTagIf (named : TagRecord → Bool) (st : Status) (s : State) (t : Tag) : (s.endTagIf named st t).span =
    s.span :=
  congrArg Beyond.span (beyond_endTagIf named st s t)

/-- R28, R50: a tag not gone keeps its record at an ending. -/
theorem tagAt_of_gone {named : TagRecord → Bool} {st : Status} (h1 : st ≠ .ok) (h2 : st ≠ .timeout) {s : State} {t :
    Tag} {l : List Tag} {x : Tag}
    (hg : (s.endTagIf named st t).goneWith named l x = true) : (s.endTagIf named st t).tagAt x = s.tagAt x := by
  rw [tagAt_endTagIf named st h1 h2, if_neg]
  intro hf
  rw [not_gone_of_freed h1 h2 s t l x hf] at hg; cases hg

/-- R42, R43, R50: the piece list after the endings. -/
theorem buffer_endTags {named : TagRecord → Bool} {st : Status} (h1 : st ≠ .ok) (h2 : st ≠ .timeout) : ∀ (l : List
    Tag), l.Nodup → ∀ s : State,
    (l.foldl (State.endTagIf named st) s).buffer = { s.buffer with pieces := s.buffer.pieces.filter (fun p =>
        !(s.goneWith named l p.tag && decide (p.generation = (s.tagAt p.tag).generation))) } := by
  intro l
  induction l with
  | nil => intro _ s; simp [State.goneWith]
  | cons t l ih =>
    intro hn s
    rw [List.nodup_cons] at hn
    rw [List.foldl_cons, ih hn.2, (work_endTagIf named h1 h2 s t).1]
    simp only [CompletionBuffer.mk.injEq, and_true, List.filter_filter]
    apply List.filter_congr
    intro p _
    rw [gone_endTagIf h1 h2 s t hn.1]
    change _ = !((s.takenBy named t p.tag || _) && _)
    by_cases hg : (s.endTagIf named st t).goneWith named l p.tag = true
    · rw [tagAt_of_gone h1 h2 hg, hg]
      cases s.takenBy named t p.tag <;> simp
    · rw [Bool.not_eq_true] at hg
      rw [hg]; simp

/-- R115, R116: the request entries after the endings, and the copy. -/
theorem entrySide_endTags {named : TagRecord → Bool} {st : Status} (h1 : st ≠ .ok) (h2 : st ≠ .timeout) : ∀ (l : List
    Tag), l.Nodup → ∀ s : State,
    EntriesApart s.sender.requests →
    (l.foldl (State.endTagIf named st) s).entrySide = s.entrySide.without s.fixedOn (fun e => e.liveFor (s.goneWith
        named l)) := by
  intro l
  induction l with
  | nil =>
    intro _ s _
    rw [EntrySide.without_none]
    · rfl
    · intro e _
      by_contra hx
      rw [Bool.not_eq_false, liveFor_iff] at hx
      obtain ⟨_, t, _, h3⟩ := hx
      simp [State.goneWith] at h3
  | cons t l ih =>
    intro hn s ha
    rw [List.nodup_cons] at hn
    have he := (work_endTagIf named h1 h2 s t).2.1 ha
    have ha' : EntriesApart (s.endTagIf named st t).sender.requests := by
      have : (s.endTagIf named st t).sender.requests = (s.endTagIf named st t).entrySide.requests := rfl
      rw [this, he]
      exact EntriesApart.without (v := s.entrySide) ha _ _
    have hf : (s.endTagIf named st t).fixedOn = s.fixedOn := by
      funext m; unfold State.fixedOn; rw [span_endTagIf]
    rw [List.foldl_cons, ih hn.2 _ ha', he, hf, EntrySide.without_without _ _ _ _ (fun e => liveFor_marked e _)]
    apply EntrySide.without_congr
    intro e _
    rw [liveFor_or]
    congr 1
    funext x
    rw [gone_endTagIf h1 h2 s t hn.1]; rfl

/-- R158: a failure of a higher index than one recorded changes nothing. -/
theorem lowestFailure_drop {α : Type} (st : Status) (seg : α → Option Nat) (keep : α → Bool) : ∀ (l : List α) (j :
    Nat) (old : Status),
    (∀ x ∈ l, keep x = false → ∀ k, seg x = some k → j < k) →
    ((l.filter keep).filterMap seg).foldl (lowestFailure st) (some (j, old)) = (l.filterMap seg).foldl (lowestFailure
        st) (some (j, old)) := by
  intro l
  induction l with
  | nil => intros; rfl
  | cons x l ih =>
    intro j old hk
    have hk' : ∀ y ∈ l, keep y = false → ∀ k, seg y = some k → j < k := fun y hy => hk y (List.mem_cons_of_mem _ hy)
    by_cases hkk : keep x = true
    · rw [List.filter_cons_of_pos hkk]
      cases hs : seg x with
      | none => rw [List.filterMap_cons_none hs, List.filterMap_cons_none hs]; exact ih j old hk'
      | some k =>
        rw [List.filterMap_cons_some hs, List.filterMap_cons_some hs, List.foldl_cons, List.foldl_cons]
        by_cases hlt : k < j
        · simp only [lowestFailure, hlt, if_true]
          exact ih k st (fun y hy h m hm => lt_trans hlt (hk' y hy h m hm))
        · simp only [lowestFailure, hlt, if_false]
          exact ih j old hk'
    · rw [List.filter_cons_of_neg hkk]
      cases hs : seg x with
      | none => rw [List.filterMap_cons_none hs]; exact ih j old hk'
      | some k =>
        have := hk x (List.mem_cons_self ..) (by simpa using hkk) k hs
        rw [List.filterMap_cons_some hs, List.foldl_cons]
        simp only [lowestFailure, show ¬ k < j by omega, if_false]
        exact ih j old hk'

/-- A segment that ends is that of a tag that ends and names the context. -/
theorem mem_endingOf {s : State} {named : TagRecord → Bool} {l : List Tag} {n : ContextNumber} {k : Nat} :
    k ∈ s.endingOf named l n ↔ ∃ x ∈ l, s.ends named x = true ∧ (s.tagAt x).context = some n ∧ (s.tagAt x).segment =
        some k := by
  simp [State.endingOf, and_assoc]

/-- The segments that end with a list of tags are those of the first and then of the rest. -/
theorem endingOf_cons (s : State) (named : TagRecord → Bool) (t : Tag) (l : List Tag) (n : ContextNumber) :
    s.endingOf named (t :: l) n = s.endingOf named [t] n ++ s.endingOf named l n := by
  unfold State.endingOf
  rw [← List.filterMap_append, ← List.filter_append]; rfl

section
variable {named : TagRecord → Bool} {st : Status} (h1 : st ≠ .ok) (h2 : st ≠ .timeout) (s : State) (t : Tag)
include h1 h2

/-- After one ending the segments still to end are those of the tags not freed by it. -/
theorem endingOf_endTagIf (l : List Tag) (n : ContextNumber) : (s.endTagIf named st t).endingOf named l n =
    ((l.filter (fun x => s.ends named x && decide ((s.tagAt x).context = some n))).filter (fun x => !s.freesAt named
        t x)).filterMap
      (fun x => (s.tagAt x).segment) := by
  unfold State.endingOf
  rw [List.filter_filter]
  have : l.filter (fun x => (s.endTagIf named st t).ends named x && decide (((s.endTagIf named st t).tagAt x).context
      = some n))
     = l.filter (fun x => !s.freesAt named t x && (s.ends named x && decide ((s.tagAt x).context = some n))) := by
    apply List.filter_congr
    intro x _
    rw [ends_endTagIf h1 h2, tagAt_endTagIf named st h1 h2]
    cases s.freesAt named t x <;> simp
  rw [this]
  apply List.filterMap_congr
  intro x hx
  rw [List.mem_filter, Bool.and_eq_true, Bool.not_eq_true'] at hx
  rw [tagAt_endTagIf named st h1 h2, hx.2.1, if_neg (by simp)]

/-- One ending leaves the contexts that tags name with their segments. -/
theorem segmentsNamed_endTagIf (h : s.SegmentsNamed named) : (s.endTagIf named st t).SegmentsNamed named := by
  intro x hx
  rw [ends_endTagIf h1 h2, Bool.and_eq_true, Bool.not_eq_true'] at hx
  rw [tagAt_endTagIf named st h1 h2, hx.1, if_neg (by simp)]
  exact h x hx.2

/-- The tags gone with a list are counted with the first and then with the rest. -/
theorem goneCount_cons {l : List Tag} (hl : t ∉ l) (n : ContextNumber) : s.goneCount named (t :: l) n =
    s.goneCount named [t] n + (s.endTagIf named st t).goneCount named l n := by
  unfold State.goneCount
  rw [← length_filter_or]
  · congr 1
    apply List.filter_congr
    intro x _
    rw [gone_endTagIf h1 h2 s t hl, goneWith_single]
    change ((s.takenBy named t x || _) && _) = _
    by_cases hg : (s.endTagIf named st t).goneWith named l x = true
    · rw [hg, tagAt_of_gone h1 h2 hg]
      cases s.takenBy named t x <;> simp
    · rw [Bool.not_eq_true] at hg; simp [hg]
  · intro x _ ⟨a, b⟩
    rw [Bool.and_eq_true] at a b
    rw [goneWith_single] at a
    rw [not_gone_of_freed h1 h2 s t l x (takenBy_freesAt a.1)] at b
    exact absurd b.1 (by simp)

/-- One ending and then others make of a context what they make together. -/
theorem ending_ending {l : List Tag} (hl : t ∉ l) (c : Context) :
    (c.ending st (s.goneCount named [t] c.number) (s.endingOf named [t] c.number)).ending st
      ((s.endTagIf named st t).goneCount named l c.number) ((s.endTagIf named st t).endingOf named l c.number)
    = c.ending st (s.goneCount named (t :: l) c.number) (s.endingOf named (t :: l) c.number)
    ∧ (s.endingOf named (t :: l) c.number = [] ↔ s.endingOf named [t] c.number = []
        ∧ (s.endTagIf named st t).endingOf named l c.number = []) := by
  generalize hn : c.number = n
  have hcount := goneCount_cons (named := named) (st := st) h1 h2 s t hl n
  by_cases hk : s.endingOf named [t] n = []
  · -- no tag of this context goes
    have hsame : (s.endTagIf named st t).endingOf named l n = s.endingOf named l n := by
      rw [endingOf_endTagIf h1 h2]
      unfold State.endingOf
      congr 1
      rw [List.filter_eq_self]
      intro x hx
      rw [List.mem_filter, Bool.and_eq_true, decide_eq_true_eq] at hx
      rw [Bool.not_eq_true', ← Bool.not_eq_true]
      intro hf
      simp only [State.freesAt, Bool.or_eq_true, Bool.and_eq_true, decide_eq_true_eq] at hf
      rcases hf with ⟨he, rfl | hfo⟩ | ⟨⟨rfl, _⟩, _⟩
      · exact hl hx.1
      · obtain ⟨m, k, c1, c2, c3⟩ := follows_iff.1 hfo
        have := isLaterOf_ctx c3
        rw [hx.2.2] at this; cases this
        have : k ∈ s.endingOf named [t] n := mem_endingOf.2 ⟨t, by simp, he, c1, c2⟩
        rw [hk] at this; cases this
      · exact hl hx.1
    rw [endingOf_cons s named t l n, hk, hsame, List.nil_append, hcount]
    refine ⟨?_, by simp⟩
    simp [Context.ending, Nat.sub_sub]
  · obtain ⟨k, l', hkl⟩ := List.exists_cons_of_ne_nil hk
    have hmem : k ∈ s.endingOf named [t] n := by rw [hkl]; simp
    obtain ⟨x, hx, he, c1, c2⟩ := mem_endingOf.1 hmem
    rw [List.mem_singleton] at hx; subst hx
    have hone : s.endingOf named [x] n = [k] := by
      simp [State.endingOf, he, c1, c2]
    rw [endingOf_cons s named x l n, hone, hcount]
    refine ⟨?_, by simp⟩
    have hdrop : ∀ held, ((s.endTagIf named st x).endingOf named l n).foldl (lowestFailure st) (lowestFailure st held k)
        = (s.endingOf named l n).foldl (lowestFailure st) (lowestFailure st held k) := by
      intro held
      obtain ⟨j, old, hj, hjk⟩ : ∃ j old, lowestFailure st held k = some (j, old) ∧ j ≤ k := by
        unfold lowestFailure
        split
        · exact ⟨_, _, rfl, le_rfl⟩
        · split
          · exact ⟨_, _, rfl, le_rfl⟩
          · exact ⟨_, _, rfl, by omega⟩
      rw [hj, endingOf_endTagIf h1 h2]
      unfold State.endingOf
      apply lowestFailure_drop
      intro y hy hf m hm
      rw [Bool.not_eq_false'] at hf
      rw [List.mem_filter, Bool.and_eq_true, decide_eq_true_eq] at hy
      simp only [State.freesAt, Bool.or_eq_true, Bool.and_eq_true, decide_eq_true_eq] at hf
      rcases hf with ⟨_, rfl | hfo⟩ | ⟨⟨rfl, _⟩, _⟩
      · exact absurd hy.1 hl
      · obtain ⟨m', k', d1, d2, d3⟩ := follows_iff.1 hfo
        rw [c2] at d2; cases d2
        obtain ⟨_, _, i, hi, hlt⟩ := isLaterOf_iff.1 d3
        rw [hm] at hi; cases hi; omega
      · exact absurd hy.1 hl
    simp [Context.ending, Nat.sub_sub, hdrop]
end

/-- R157, R158, R160: the contexts and the current command after the endings. -/
theorem contexts_endTags {named : TagRecord → Bool} {st : Status} (h1 : st ≠ .ok) (h2 : st ≠ .timeout) : ∀ (l : List
    Tag), l.Nodup → ∀ s : State,
    s.SegmentsNamed named →
    (l.foldl (State.endTagIf named st) s).issue.contexts = s.issue.contexts.map (fun c =>
        c.ending st (s.goneCount named l c.number) (s.endingOf named l c.number))
      ∧ (l.foldl (State.endTagIf named st) s).issue.current = s.issue.current.filter (fun n => decide (s.endingOf
          named l n = []))
      ∧ (l.foldl (State.endTagIf named st) s).issue.waitingFor = if s.issue.current.any (fun n => decide (s.endingOf
          named l n ≠ []))
        then WaitingFor.nothing else s.issue.waitingFor := by
  intro l
  induction l with
  | nil =>
    intro _ s _
    refine ⟨?_, ?_, ?_⟩
    · conv_lhs => rw [List.foldl_nil, ← List.map_id s.issue.contexts]
      apply List.map_congr_left
      intro c _
      simp [Context.ending, State.goneCount, State.endingOf, State.goneWith]
    · show s.issue.current = _
      cases s.issue.current <;> simp [State.endingOf, Option.filter]
    · show s.issue.waitingFor = _
      cases s.issue.current <;> simp [State.endingOf]
  | cons t l ih =>
    intro hn s hs
    rw [List.nodup_cons] at hn
    obtain ⟨w1, w2, w3⟩ := (work_endTagIf named h1 h2 s t).2.2 hs
    obtain ⟨i1, i2, i3⟩ := ih hn.2 _ (segmentsNamed_endTagIf h1 h2 s t hs)
    have hiff : ∀ n, (s.endingOf named (t :: l) n = [] ↔ s.endingOf named [t] n = [] ∧ (s.endTagIf named st
        t).endingOf named l n = []) := by
      intro n
      exact (ending_ending h1 h2 s t hn.1 {
        number := n
        phase := .issuing
        command := CommandRecord.reset
        total := 0
        next := 0
        outstanding := 0
        issuingFinished := false
        firstFailure := none
        atomicValue := none }).2
    rw [List.foldl_cons, i1, i2, i3, w1, w2, w3]
    refine ⟨?_, ?_, ?_⟩
    · rw [List.map_map]
      apply List.map_congr_left
      intro c _
      exact (ending_ending h1 h2 s t hn.1 c).1
    · cases s.issue.current with
      | none => rfl
      | some n =>
        simp only [Option.filter, hiff]
        by_cases a : s.endingOf named [t] n = [] <;> simp [a]
    · cases s.issue.current with
      | none => rfl
      | some n =>
        simp only [Option.any_some, ne_eq, hiff]
        by_cases a : s.endingOf named [t] n = [] <;> by_cases b : (s.endTagIf named st t).endingOf named l n = [] <;>
            simp [a, b, Option.filter]

end Sys2Proof.Machine
end

