-- ==== Sys2Proof/Laws/Halting.lean ====
section
/-!
SUPPORT. Halting: the parts of a cleanup and of an entry to HALTED: their endings, the notices, the current command, and
what they leave of the arbiter.
-/
namespace Sys2Proof.Machine

/-- R42: the cleanup of one tag is an ending. -/
theorem cleanTag_eq (s : State) (peer t) : s.cleanTag peer t = s.endTagIf (fun r => decide (r.target = some peer))
    .peerLost t := by
  unfold State.cleanTag State.endTagIf; simp

/-- R42: the cleanup of the tags is the endings of those that name the peer. -/
theorem cleanTags_eq (s : State) (peer) : s.cleanTags peer = allTags.foldl (State.endTagIf (fun r => decide (r.target
    = some peer)) .peerLost) s := by
  unfold State.cleanTags
  congr 1
  funext a t; exact cleanTag_eq a peer t

/-- The tags gone when every tag is dealt with. -/
theorem goneAll (s : State) (named : TagRecord → Bool) (x : Tag) : s.goneWith named allTags x = (s.ends named x ||
    allTags.any (fun t => s.ends named t && s.follows t x)) := by
  simp [State.goneWith, mem_allTags]

/-- While every segment is counted, the tags in flight that name a context name a segment. -/
theorem accounted_named {s : State} (h : s.Accounted) (named) : s.SegmentsNamed named := by
  intro t ht _
  unfold State.ends at ht
  rw [Bool.and_eq_true] at ht
  obtain ⟨c, _, _, h3⟩ := h.named t ht.2
  exact h3

/-- The arbiter but for the request of ISSUE and whether a result granted to ISSUE will be used. -/
def outsideIssue (a : Arbiter) : Claimant × Option Transfer × Option Transfer × Option Transfer × Option Granted :=
  (a.pointer, a.raisedLocal, a.raisedLanding, a.raisedService,
    a.granted.map (fun g => if g.claimant = .issue then { g with discarded := true } else g))

/-- What ISSUE gives up leaves the rest of the arbiter. -/
theorem outsideIssue_abandon (a : Arbiter) : outsideIssue (a.abandon .issue) = outsideIssue a := by
  simp only [outsideIssue, Arbiter.abandon, Arbiter.setRaised, Option.map_map]
  congr 4
  apply Option.map_congr
  intro g _
  by_cases h : g.claimant = .issue <;> simp [h, Function.comp]

/-- Stopping a copy leaves the rest of the arbiter. -/
theorem outsideIssue_stopCopyOf (s : State) (n) : outsideIssue (s.stopCopyOf n).arbiter = outsideIssue s.arbiter := by
  unfold State.stopCopyOf; split
  · exact outsideIssue_abandon _
  · rfl
/-- Removing an entry leaves the rest of the arbiter. -/
theorem outsideIssue_removeEntry (s : State) (n) : outsideIssue (s.removeEntry n).arbiter = outsideIssue s.arbiter := by
  rw [← outsideIssue_stopCopyOf s n]
  unfold State.removeEntry; dsimp only; split <;> rfl
/-- Removing a tag's entry leaves the rest of the arbiter. -/
theorem outsideIssue_removeEntryOf (s : State) (t) : outsideIssue (s.removeEntryOf t).arbiter = outsideIssue
    s.arbiter := by
  unfold State.removeEntryOf; split
  · exact outsideIssue_removeEntry _ _
  · rfl
/-- Withdrawing a tag leaves the rest of the arbiter. -/
theorem outsideIssue_withdrawTag (s : State) (t) : outsideIssue (s.withdrawTag t).arbiter = outsideIssue s.arbiter := by
  rw [← outsideIssue_removeEntryOf s t]
  unfold State.withdrawTag; dsimp only; split <;> rfl
/-- A fold of operations that leave the rest of the arbiter leaves it. -/
theorem outsideIssue_fold {α} (f : State → α → State) (h : ∀ s a, outsideIssue (f s a).arbiter = outsideIssue
    s.arbiter) : ∀ (l : List α) s, outsideIssue (l.foldl f s).arbiter = outsideIssue s.arbiter
  | [], _ => rfl
  | a :: l, s => (outsideIssue_fold f h l (f s a)).trans (h s a)
/-- The failure of a segment leaves the rest of the arbiter. -/
theorem outsideIssue_failSegment (s : State) (n k st) : outsideIssue (s.failSegment n k st).arbiter = outsideIssue
    s.arbiter := by
  unfold State.failSegment State.withdrawLater
  rw [outsideIssue_fold]
  · unfold State.issuingEnds; split <;> rfl
  · intro s a; split
    · exact outsideIssue_withdrawTag _ _
    · rfl
/-- An end report leaves the rest of the arbiter. -/
theorem outsideIssue_reportEnd (s : State) (n k st v) : outsideIssue (s.reportEnd n k st v).arbiter = outsideIssue
    s.arbiter := by
  unfold State.reportEnd; dsimp only; split
  · rfl
  · exact outsideIssue_failSegment _ _ _ _
/-- The end of a segment leaves the rest of the arbiter. -/
theorem outsideIssue_endSegment (s : State) (t st v) : outsideIssue (s.endSegment t st v).arbiter = outsideIssue
    s.arbiter := by
  unfold State.endSegment; dsimp only
  rw [← outsideIssue_removeEntryOf s t]
  split
  · rw [outsideIssue_reportEnd]; split <;> rfl
  · split <;> rfl
/-- The end of a notice leaves the rest of the arbiter. -/
theorem outsideIssue_endNotice (s : State) (n c st) : outsideIssue (s.endNotice n c st).arbiter = outsideIssue
    s.arbiter := by
  unfold State.endNotice
  rw [outsideIssue_reportEnd, outsideIssue_removeEntry]


/-- Two ends of a context's segments in turn are one. -/
theorem ending_append (c : Context) (st) (a b : Nat) (l m : List Nat) : (c.ending st a l).ending st b m = c.ending st
    (a + b) (l ++ m) := by
  cases l <;> cases m <;> simp [Context.ending, Nat.sub_sub]

/-- No end changes nothing. -/
theorem ending_zero (c : Context) (st) : c.ending st 0 [] = c := by simp [Context.ending]

/-- An end keeps the context's number. -/
theorem number_ending (c : Context) (st a l) : (c.ending st a l).number = c.number := rfl

/-- R114, R158: the contexts after the failure of a segment. -/
theorem contexts_failSegment (s : State) (n k) (st : Status) : (s.failSegment n k st).issue.contexts =
    s.issue.contexts.map (fun c =>
    if c.number = n then c.ending st (allTags.filter (laterIn s n k)).length [k] else c) := by
  have h := (failSegment_spec s n k st).2
  generalize s.failSegment n k st = u at h
  refine (show u.issue.contexts = _ from congrArg SegmentView.contexts h).trans ?_
  apply List.map_congr_left
  intro c _
  by_cases h : c.number = n
  · simp [h, Context.ending, Context.failed, lower_eq]
  · simp [h]

/-- R118, R144: what the end of a NOTICE at entry to HALTED does, once every tag is FREE. -/
theorem haltNotice_spec (u : State) (e : RequestEntry) (hf : ∀ x, (u.tagAt x).state = .free) (hc : u.issue.current =
    none) :
    (u.haltNotice e).segmentView = { u.segmentView with
      contexts := u.issue.contexts.map (fun c =>
        if e.withdrawn = false ∧ e.owner = .context c.number then c.ending .halted 1 [0] else c) }
    ∧ outsideIssue (u.haltNotice e).arbiter = outsideIssue u.arbiter := by
  have hkeep : (e.withdrawn = true ∨ ∃ t, e.owner = .tag t) → u.segmentView = { u.segmentView with
      contexts := u.issue.contexts.map (fun c =>
        if e.withdrawn = false ∧ e.owner = .context c.number then c.ending .halted 1 [0] else c) } := by
    intro h
    have : u.issue.contexts.map (fun c =>
       if e.withdrawn = false ∧ e.owner = .context c.number then c.ending .halted 1 [0] else c) = u.issue.contexts := by
      conv_rhs => rw [← List.map_id u.issue.contexts]
      apply List.map_congr_left
      intro c _
      rw [if_neg]; rfl
      rintro ⟨h1, h2⟩
      rcases h with h | ⟨t, h⟩
      · rw [h] at h1; cases h1
      · rw [h] at h2; cases h2
    exact congrArg (fun l => { u.segmentView with contexts := l }) this.symm
  unfold State.haltNotice
  split
  · rename_i n hn
    split
    · rename_i hw; exact ⟨hkeep (Or.inl hw), rfl⟩
    · rename_i hw
      have hw' : e.withdrawn = false := by simpa using hw
      refine ⟨?_, outsideIssue_endNotice _ _ _ _⟩
      unfold State.endNotice State.reportEnd
      dsimp only
      rw [if_neg (by decide)]
      have hr := segmentView_removeEntry u e.slot
      set r := (u.removeEntry e.slot).updateContext n (fun c => c.accounted none) with hrr
      have hrv : r.segmentView = { u.segmentView with
          contexts := u.issue.contexts.map (fun c => if c.number = n then c.accounted none else c) } := by
        have h1 : r.segmentView = { (u.removeEntry e.slot).segmentView with
            contexts := (u.removeEntry e.slot).issue.contexts.map
              (fun c => if c.number = n then c.accounted none else c) } := rfl
        have h2 : (u.removeEntry e.slot).issue.contexts = u.issue.contexts := congrArg SegmentView.contexts hr
        rw [h1, h2, hr]
      have hrt : ∀ x, r.tagAt x = u.tagAt x := fun x => tagAt_of_segmentView (congrArg SegmentView.tags hrv) x
      have hl : ∀ x, laterIn r n 0 x = false := by
        intro x
        by_contra h
        have := isLaterOf_inFlight (by simpa using h : laterIn r n 0 x = true)
        rw [hrt, hf] at this; cases this
      obtain ⟨f1, f2⟩ := failSegment_spec r n 0 .halted
      have hcur : r.issue.current = none := (congrArg SegmentView.current hrv).trans hc
      have htags : (r.failSegment n 0 .halted).tags = u.tags := by
        have : ∀ x, (r.failSegment n 0 .halted).tagAt x = u.tagAt x := by
          intro x; rw [f1 x, hl, if_neg (by simp), hrt]
        apply Vector.ext
        intro i hi
        exact this ⟨i, hi⟩
      rw [f2, hrv, htags]
      have hb : r.buffer = u.buffer := congrArg SegmentView.buffer hrv
      have hw2 : r.issue.waitingFor = u.issue.waitingFor := congrArg SegmentView.waitingFor hrv
      have hcx : r.issue.contexts = u.issue.contexts.map (fun c => if c.number = n then c.accounted none else c) :=
          congrArg SegmentView.contexts hrv
      simp only [hcur, hb, hw2, hcx, hl, reduceCtorEq, if_false, Bool.false_and, Bool.not_false, List.filter_true,
          List.map_map]
      have hfl : allTags.filter (laterIn r n 0) = [] := by
        rw [List.filter_eq_nil_iff]; intro x _; rw [hl]; simp
      simp only [SegmentView.mk.injEq, and_true, true_and]
      refine ⟨rfl, rfl, ?_, hc.symm, rfl⟩
      · apply List.map_congr_left
        intro c _
        by_cases h : c.number = n
        · simp [h, hw', hn, Context.ending, Context.failed, Context.accounted, lower_eq, Function.comp, hfl]
        · have h' : n ≠ c.number := fun e => h e.symm
          simp [h, h', hn]
  · rename_i t ht
    exact ⟨hkeep (Or.inr ⟨t, ht⟩), rfl⟩

/-- The NOTICE entries of a context that are not withdrawn. -/
def noticesOf (l : List RequestEntry) (n : ContextNumber) : List RequestEntry := l.filter (fun e => !e.withdrawn &&
    decide (e.owner = .context n))

/-- R118, R144: what the end of every NOTICE at entry to HALTED does, once every tag is FREE. -/
theorem haltNotices_spec : ∀ (l : List RequestEntry) (u : State), (∀ x, (u.tagAt x).state = .free) → u.issue.current
    = none →
    (l.foldl State.haltNotice u).segmentView = { u.segmentView with
      contexts := u.issue.contexts.map (fun c =>
        c.ending .halted (noticesOf l c.number).length ((noticesOf l c.number).map (fun _ => 0))) }
    ∧ outsideIssue (l.foldl State.haltNotice u).arbiter = outsideIssue u.arbiter := by
  intro l
  induction l with
  | nil =>
    intro u _ _
    refine ⟨?_, rfl⟩
    have : u.issue.contexts.map (fun c => c.ending .halted (noticesOf [] c.number).length ((noticesOf []
        c.number).map (fun _ => 0))) = u.issue.contexts := by
      conv_rhs => rw [← List.map_id u.issue.contexts]
      apply List.map_congr_left
      intro c _
      exact ending_zero c _
    exact congrArg (fun l => { u.segmentView with contexts := l }) this.symm
  | cons e l ih =>
    intro u hf hc
    obtain ⟨v1, v2⟩ := haltNotice_spec u e hf hc
    have ht : ∀ x, (u.haltNotice e).tagAt x = u.tagAt x := fun x => tagAt_of_segmentView (congrArg SegmentView.tags
        v1) x
    have hcu : (u.haltNotice e).issue.current = none := (congrArg SegmentView.current v1).trans hc
    obtain ⟨i1, i2⟩ := ih (u.haltNotice e) (fun x => by rw [ht]; exact hf x) hcu
    rw [List.foldl_cons]
    refine ⟨?_, i2.trans v2⟩
    have hcx : (u.haltNotice e).issue.contexts = _ := congrArg SegmentView.contexts v1
    rw [i1, v1, hcx]
    simp only [List.map_map]
    congr 1
    apply List.map_congr_left
    intro c _
    simp only [Function.comp]
    by_cases h : e.withdrawn = false ∧ e.owner = .context c.number
    · rw [if_pos h, number_ending, ending_append]
      have : noticesOf (e :: l) c.number = e :: noticesOf l c.number := by simp [noticesOf, h]
      rw [this]; simp [Nat.add_comm]
    · rw [if_neg h]
      have : noticesOf (e :: l) c.number = noticesOf l c.number := by
        unfold noticesOf
        rw [List.filter_cons_of_neg]
        intro h'
        simp only [Bool.and_eq_true, Bool.not_eq_true', decide_eq_true_eq] at h'
        exact h h'
      rw [this]

/-- With no current command an ending leaves the wait. -/
theorem cur_wait_endTagIf (named st) (s : State) (t) (h : s.issue.current = none) :
   (s.endTagIf named st t).issue.current = none ∧ (s.endTagIf named st t).issue.waitingFor = s.issue.waitingFor := by
  unfold State.endTagIf
  split
  · split
    · obtain ⟨d, hd, hh⟩ := endSegment_cases s t st none
      have h0 : d.issue.current = none := (congrArg SegmentView.current hd).trans h
      have h0' : d.issue.waitingFor = s.issue.waitingFor := congrArg SegmentView.waitingFor hd
      rcases hh with ⟨n, k, _, _, hh⟩ | ⟨_, hh⟩
      · rw [hh]
        unfold State.reportEnd
        dsimp only
        split
        · exact ⟨h0, h0'⟩
        · have hv := (failSegment_spec (d.updateContext n (fun c => c.accounted none)) n k st).2
          have hc : (d.updateContext n (fun c => c.accounted none)).issue.current = none := h0
          rw [hc] at hv
          generalize (d.updateContext n (fun c => c.accounted none)).failSegment n k st = u at hv
          exact ⟨congrArg SegmentView.current hv, (congrArg SegmentView.waitingFor hv).trans h0'⟩
      · rw [hh]; exact ⟨h0, h0'⟩
    · split <;> exact ⟨h, rfl⟩
  · exact ⟨h, rfl⟩

/-- An ending leaves the rest of the arbiter. -/
theorem outsideIssue_endTagIf (named st) (s : State) (t) : outsideIssue (s.endTagIf named st t).arbiter =
    outsideIssue s.arbiter := by
  unfold State.endTagIf
  split
  · split
    · exact outsideIssue_endSegment _ _ _ _
    · split <;> rfl
  · rfl

/-- R43: the end of the tags at entry to HALTED is the endings of all. -/
theorem haltTags_eq (s : State) : s.haltTags = allTags.foldl (State.endTagIf (fun _ => true) .halted) s := by
  unfold State.haltTags
  congr 1

/-- With no current command the endings leave the wait. -/
theorem cur_wait_endTags (named st) : ∀ (l : List Tag) (s : State), s.issue.current = none →
   (l.foldl (State.endTagIf named st) s).issue.current = none ∧ (l.foldl (State.endTagIf named st)
       s).issue.waitingFor = s.issue.waitingFor := by
  intro l
  induction l with
  | nil => intro s h; exact ⟨h, rfl⟩
  | cons t l ih =>
    intro s h
    have := cur_wait_endTagIf named st s t h
    rw [List.foldl_cons]
    have h2 := ih _ this.1
    exact ⟨h2.1, h2.2.trans this.2⟩

/-- R43: at entry to HALTED every tag in flight is gone. -/
theorem goneHalt (s : State) (x : Tag) : s.goneWith (fun _ => true) allTags x = (s.tagAt x).state.inFlight := by
  have h : ∀ t, s.ends (fun _ => true) t = (s.tagAt t).state.inFlight := fun t => by simp [State.ends]
  unfold State.goneWith
  simp only [mem_allTags, decide_true, Bool.true_and, h]
  rw [Bool.eq_iff_iff, Bool.or_eq_true]
  constructor
  · rintro (h | h)
    · exact h
    · rw [List.any_eq_true] at h
      obtain ⟨t, _, h⟩ := h
      rw [Bool.and_eq_true, follows_iff] at h
      obtain ⟨_, n, k, _, _, h⟩ := h
      exact isLaterOf_inFlight h
  · intro h; exact Or.inl h

/-- R155, R163: what the end of the current command's next segment at entry to HALTED does. -/
theorem haltCurrent_spec (a : State) :
    ∃ gone : Tag → Bool, (∀ x, gone x = true → (a.tagAt x).state.inFlight = true) ∧
    (∀ x, a.haltCurrent.tagAt x = if gone x then (a.tagAt x).freed else a.tagAt x) ∧
    a.haltCurrent.segmentView = { a.segmentView with
      tags := a.haltCurrent.tags
      buffer := { a.buffer with pieces := a.buffer.pieces.filter (fun p => !(gone p.tag && decide (p.generation =
          (a.tagAt p.tag).generation))) }
      contexts := a.haltCurrent.issue.contexts
      current := none
      waitingFor := if a.issue.current = none then a.issue.waitingFor else WaitingFor.nothing }
    ∧ outsideIssue a.haltCurrent.arbiter = outsideIssue a.arbiter
    ∧ ((a.issue.contexts.map Context.number).Nodup → ∀ c ∈ a.issue.contexts,
        (∀ x, gone x = true → (a.tagAt x).context = some c.number → a.issue.current = some c.number ∧ ∃ j, (a.tagAt
            x).segment = some j ∧ c.next < j))
    ∧ ((a.issue.contexts.map Context.number).Nodup → a.haltCurrent.issue.contexts = a.issue.contexts.map (fun c =>
        c.ending .halted
        (allTags.filter (fun x => gone x && decide ((a.tagAt x).context = some c.number))).length
        (if a.issue.current = some c.number then [c.next] else [])))
    ∧ (EntriesApart a.sender.requests → a.haltCurrent.entrySide = a.entrySide.without a.fixedOn (fun e => e.liveFor
        gone)) := by
  have key : (a.issue.current = none ∨ ∃ n, a.issue.current = some n ∧ a.issue.context n = none) → ∃ gone : Tag →
      Bool, (∀ x, gone x = false) ∧
    a.haltCurrent.segmentView = { a.segmentView with
      current := none
      waitingFor := if a.issue.current = none then a.issue.waitingFor else WaitingFor.nothing }
    ∧ a.haltCurrent.entrySide = a.entrySide ∧ (∀ c ∈ a.issue.contexts, a.issue.current ≠ some c.number) := by
    rintro (h | ⟨n, h1, h2⟩)
    · refine ⟨fun _ => false, fun _ => rfl, ?_, ?_, by simp [h]⟩
      · unfold State.haltCurrent; simp only [h]
        show a.segmentView = { a.segmentView with current := none }
        have : a.segmentView.current = none := h
        rw [← this]
      · unfold State.haltCurrent; simp only [h]
    · refine ⟨fun _ => false, fun _ => rfl, ?_, ?_, ?_⟩
      · unfold State.haltCurrent State.issuingEnds; simp only [h1, h2]
        rfl
      · unfold State.haltCurrent State.issuingEnds; simp only [h1, h2]
        rfl
      · intro c hc hcc
        rw [h1] at hcc; cases hcc
        have := List.find?_eq_none.1 h2 c hc
        simp at this
  by_cases hk : a.issue.current = none ∨ ∃ n, a.issue.current = some n ∧ a.issue.context n = none
  · obtain ⟨gone, g1, g2, g3, g4⟩ := key hk
    have ht : ∀ x, a.haltCurrent.tagAt x = a.tagAt x := fun x => tagAt_of_segmentView (congrArg SegmentView.tags g2) x
    refine ⟨gone, fun x h => (by rw [g1 x] at h; cases h), fun x => (by rw [g1 x, ht x]; rfl), ?_, ?_, ?_, ?_, ?_⟩
    · have e1 : a.haltCurrent.tags = a.tags := congrArg SegmentView.tags g2
      have e2 : a.haltCurrent.issue.contexts = a.issue.contexts := congrArg SegmentView.contexts g2
      rw [g2, e1, e2]
      simp [g1, State.segmentView]
    · have := congrArg EntrySide.arbiter g3
      exact congrArg outsideIssue this
    · intro _ c _ x hx; rw [g1] at hx; cases hx
    · intro _
      have e2 : a.haltCurrent.issue.contexts = a.issue.contexts := congrArg SegmentView.contexts g2
      rw [e2]
      conv_lhs => rw [← List.map_id a.issue.contexts]
      apply List.map_congr_left
      intro c hc
      simp [g1, g4 c hc, Context.ending]
    · intro _
      rw [g3, EntrySide.without_none]
      intro e _
      by_contra hx
      rw [Bool.not_eq_false, liveFor_iff] at hx
      obtain ⟨_, x, _, h3⟩ := hx
      rw [g1] at h3; cases h3
  · push Not at hk
    obtain ⟨n, hn⟩ := Option.ne_none_iff_exists'.1 hk.1
    obtain ⟨c, hc⟩ := Option.ne_none_iff_exists'.1 (hk.2 n hn)
    have hmem : c ∈ a.issue.contexts := List.mem_of_find?_eq_some hc
    have hnum : c.number = n := beq_iff_eq.1 (List.find?_some hc :)
    have he : a.haltCurrent = a.failSegment n c.next .halted := by
      unfold State.haltCurrent; simp only [hn, hc]
    rw [he]
    obtain ⟨f1, f2⟩ := failSegment_spec a n c.next .halted
    have f3 := contexts_failSegment a n c.next .halted
    have f4 := fun h => entrySide_failSegment a n c.next .halted h
    have f5 := outsideIssue_failSegment a n c.next .halted
    refine ⟨laterIn a n c.next, fun x h => isLaterOf_inFlight h, f1, ?_, f5, ?_, ?_, f4⟩
    · rw [hn, if_pos rfl, if_pos rfl] at f2
      rw [f2, hn, f3]
      simp only [reduceCtorEq, if_false]
      simp only [SegmentView.mk.injEq, and_true, true_and]
      apply List.map_congr_left
      intro c' _
      by_cases h : c'.number = n
      · simp [h, Context.ending, Context.failed, lower_eq]
      · simp [h]
    · intro hnd c' hc' x hx hxc
      have := isLaterOf_ctx hx
      rw [hxc] at this
      have hnn : c'.number = n := by simpa using this
      have : c' = c := by
        exact List.inj_on_of_nodup_map hnd hc' hmem (hnn.trans hnum.symm)
      subst this
      obtain ⟨_, _, j, h1, h2⟩ := isLaterOf_iff.1 hx
      exact ⟨by rw [hn, hnn], j, h1, h2⟩
    · intro hnd
      rw [f3]
      apply List.map_congr_left
      intro c' hc'
      by_cases h : c'.number = n
      · have : c' = c := List.inj_on_of_nodup_map hnd hc' hmem (h.trans hnum.symm)
        subst this
        rw [if_pos h, h, if_pos hn]
        have hfe : allTags.filter (laterIn a n c'.next) = allTags.filter (fun x => laterIn a n c'.next x && decide
            ((a.tagAt x).context = some n)) := by
          apply List.filter_congr
          intro x _
          by_cases hl : laterIn a n c'.next x = true
          · simp [hl, isLaterOf_ctx hl]
          · simp [hl]
        rw [hfe]
      · rw [if_neg h]
        have h1 : ¬ a.issue.current = some c'.number := by rw [hn]; intro e; cases e; exact h rfl
        rw [if_neg h1]
        have : allTags.filter (fun x => laterIn a n c.next x && decide ((a.tagAt x).context = some c'.number)) = []
            := by
          rw [List.filter_eq_nil_iff]
          intro x _ hx
          rw [Bool.and_eq_true, decide_eq_true_eq] at hx
          rw [isLaterOf_ctx hx.1] at hx
          have := hx.2
          cases this; exact h rfl
        rw [this, List.length_nil, ending_zero]

end Sys2Proof.Machine
end

