-- ==== Sys2Proof/Laws/Settled.lean ====
section
/-!
SUPPORT. Settled: what the end of every event establishes, and that it changes nothing in a settled state.
-/
namespace Sys2Proof.Machine

/-- The end of an event leaves the offer agreeing with the choice. -/
theorem offerAgrees_refreshOffer (s : State) : s.refreshOffer.offerAgrees = true := by
  unfold State.refreshOffer State.offerAgrees SpanInterface.follow
  by_cases h : s.span.offerState.isFixed
  · simp [h]
  · simp only [State.withSpan_span, State.withSpan_sender, h, Bool.false_eq_true, if_false]
    simp

/-- Producing the results due leaves none due. -/
theorem nothingDue_produceResults (s : State) : s.produceResults.nothingDue = true := by
  simp only [State.nothingDue, State.produceResults, State.withIssue_issue, List.all_eq_true, List.mem_filter]
  intro c hc
  exact hc.2

/-- R157: a segment issued leaves its context with a segment outstanding. -/
theorem isDone_issued (c : Context) : c.issued.isDone = false := by
  simp [Context.isDone, Context.issued]

/-- A segment issued makes no result due. -/
theorem nothingDue_segmentIssued (s : State) (c : Context) (h : s.nothingDue = true) :
    (s.segmentIssued c).nothingDue = true := by
  have hk : ∀ u : State, u.issue.contexts = (s.updateContext c.number Context.issued).issue.contexts →
      u.nothingDue = true := by
    intro u hu
    simp only [State.nothingDue, hu, State.updateContext, State.withIssue_issue, List.all_eq_true, List.mem_map,
      forall_exists_index, and_imp, forall_apply_eq_imp_iff₂] at h ⊢
    intro x hx
    split
    · simp [isDone_issued]
    · exact h x hx
  apply hk
  unfold State.segmentIssued State.issuingEnds
  dsimp only
  (repeat' split) <;> rfl

/-- A segment issued ends the wait. -/
theorem isWaiting_segmentIssued (s : State) (c : Context) : (s.segmentIssued c).issue.isWaiting = false := by
  unfold State.segmentIssued State.issuingEnds
  dsimp only
  (repeat' split) <;> rfl

/-- A queue of fewer than 16 entries leaves a storage place free. -/
theorem freeSlot_isSome {d : Sender} (h : d.requests.length < Config.requestEntries) : d.freeSlot.isSome = true := by
  by_contra hn
  rw [Sender.freeSlot, List.find?_isSome] at hn
  have hall : ∀ n : Fin 16, n ∈ d.requests.map RequestEntry.slot := by
    intro n
    have hx : (d.entryAt n).isNone = false := by
      rw [Bool.eq_false_iff]
      exact fun hx => hn ⟨n, List.mem_finRange n, hx⟩
    rw [Option.isNone_eq_false_iff, Option.isSome_iff_exists] at hx
    obtain ⟨e, he⟩ := hx
    have h1 := List.mem_of_find?_eq_some he
    have h2 := List.find?_some he
    exact List.mem_map.2 ⟨e, h1, by simpa using h2⟩
  have h1 : (Finset.univ : Finset (Fin 16)) ⊆ (d.requests.map RequestEntry.slot).toFinset := by
    intro n _
    rw [List.mem_toFinset]; exact hall n
  have h2 := (Finset.card_le_card h1).trans (List.toFinset_card_le _)
  rw [Finset.card_univ, Fintype.card_fin, List.length_map] at h2
  exact absurd h2 (by simpa [Config.requestEntries] using h)

/-- R154: a granted segment is issued. -/
theorem grant_cases (s : State) (c : Context) (h : ¬ (s.refused c).any = true) :
    (s.nothingDue = true → (s.grant c).nothingDue = true) ∧ (s.grant c).issue.isWaiting = false := by
  simp only [WaitingFor.any, State.refused, Bool.or_eq_true, Bool.and_eq_true, decide_eq_true_eq, not_or, not_and] at h
  obtain ⟨⟨h1, _⟩, h3⟩ := h
  obtain ⟨slot, hs⟩ := Option.isSome_iff_exists.1 (freeSlot_isSome (not_le.1 h3))
  unfold State.grant
  rw [hs]
  dsimp only
  split
  · rename_i ht
    have := h1 ht
    rw [Option.isNone_iff_eq_none] at this
    obtain ⟨t, htg⟩ := Option.ne_none_iff_exists'.1 this
    rw [htg]
    exact ⟨fun hd => nothingDue_segmentIssued _ c hd, isWaiting_segmentIssued _ _⟩
  · exact ⟨fun hd => nothingDue_segmentIssued _ c hd, isWaiting_segmentIssued _ _⟩

/-- A state in which the engine does not wait meets the law of the wait. -/
theorem waitsRightly_of_not_waiting {s : State} (h : s.issue.isWaiting = false) : s.waitsRightly = true := by
  simp [State.waitsRightly, h]

/-- Producing results leaves the wait. -/
theorem isWaiting_produceResults (s : State) : s.produceResults.issue.isWaiting = s.issue.isWaiting := rfl

/-- R129, R158: the end of the waiting segment ends the wait. -/
theorem isWaiting_failSegment {s : State} {n : ContextNumber} (k : Nat) (st : Status) (h : s.issue.current = some n) :
    (s.failSegment n k st).issue.isWaiting = false := by
  have := congrArg SegmentView.waitingFor (failSegment_spec s n k st).2
  simp only [State.segmentView, h, if_true] at this
  simp [IssueEngine.isWaiting, this, WaitingFor.nothing]

/-- The context of the current command bears its number. -/
theorem current_of_currentContext {e : IssueEngine} {c : Context} (h : e.currentContext = some c) :
    e.current = some c.number := by
  unfold IssueEngine.currentContext IssueEngine.context at h
  obtain ⟨n, hn, hc⟩ := Option.bind_eq_some_iff.1 h
  have := List.find?_some hc
  rw [hn, beq_iff_eq.1 this]

/-- In a state with nothing due, no result is produced. -/
theorem produceResults_of_nothingDue {s : State} (h : s.nothingDue = true) : s.produceResults = s := by
  have hall : ∀ c ∈ s.issue.contexts, c.isDone = false := by
    simpa [State.nothingDue] using h
  have h1 : s.issue.contexts.filter (fun c => !c.isDone) = s.issue.contexts :=
    List.filter_eq_self.2 fun c hc => by simp [hall c hc]
  have h2 : s.issue.contexts.filter Context.isDone = [] :=
    List.filter_eq_nil_iff.2 fun c hc => by simp [hall c hc]
  simp only [State.produceResults, h1, h2, List.map_nil, List.append_nil]
  rfl

/-- With nothing due before it, asking again and producing what that makes due leaves a wait for what is missing. -/
theorem waitsRightly_askAgain {s : State} (h : s.nothingDue = true) : s.askAgain.produceResults.waitsRightly = true
    := by
  unfold State.askAgain
  split
  · rename_i hs
    unfold State.issueNext
    split
    · rename_i c hc
      unfold State.issueSegment
      split
      · apply waitsRightly_of_not_waiting
        rw [isWaiting_produceResults]
        exact isWaiting_failSegment _ _ (current_of_currentContext hc)
      · rename_i ha
        split
        · have hw : s.delaySegment (s.refused c) = s.withWaiting (s.refused c) := by simp [State.delaySegment, hs.2]
          have hd : (s.withWaiting (s.refused c)).nothingDue = true := h
          have hcx : (s.withWaiting (s.refused c)).issue.currentContext = some c := hc
          have hr : (s.withWaiting (s.refused c)).refused c = s.refused c := rfl
          have hf : (s.withWaiting (s.refused c)).issue.waitingFor = s.refused c := rfl
          have ha' : (s.withWaiting (s.refused c)).targetAbsent c.command = false := Bool.eq_false_iff.2 ha
          rw [hw, produceResults_of_nothingDue hd]
          simp only [State.waitsRightly, hcx, hr, hf, ha', decide_true, Bool.not_false, Bool.and_self, Bool.or_true]
        · rename_i hr
          apply waitsRightly_of_not_waiting
          rw [isWaiting_produceResults]
          exact (grant_cases s c hr).2
    · rename_i hc
      rw [produceResults_of_nothingDue h]
      simp [State.waitsRightly, hc]
  · rename_i hs
    rw [produceResults_of_nothingDue h]
    simp only [State.waitsRightly, Bool.or_eq_true, decide_eq_true_eq, Bool.not_eq_true']
    by_cases hr : s.life.station = .running
    · exact Or.inl (Or.inr (by simpa [hr] using hs))
    · exact Or.inl (Or.inl hr)

/-! ## The service of the head (R71) -/

/-- R53, R73, R74, R97: what remains up to the next block boundary. -/
theorem chunk_eq_blockPart (o r : Nat) : chunk o r = blockPart o r := by
  unfold chunk blockPart nextBoundary; congr 1; omega

/-- R71, R72: the move that every event ends with begins the service of a head that has room and has not begun. -/
theorem turnService_eq_headServed (s : State) : s.turnService = s.headServed := by
  unfold State.turnService State.headServed
  rcases hq : s.inbound.queue with _ | ⟨e, rest⟩
  · rfl
  · have hn : e.work.completions = e.work.needs := by cases e.work <;> rfl
    have hc : s.serviceMayBegin e = true ↔ e.begun = false ∧ e.work.needs ≤ 16 - s.sender.responses.length := by
      simp only [State.serviceMayBegin, Sender.hasRoomFor, hn, Config.responseEntries, Bool.and_eq_true, Bool.not_eq_true',
        decide_eq_true_eq]
    dsimp only [List.head?_cons]
    by_cases h : s.serviceMayBegin e = true
    · rw [if_pos h, if_pos (hc.1 h)]
      unfold State.serviceBegun
      rw [hq]
      have ht : e.transferAt 0 = e.firstTransfer := by
        unfold InboundEntry.transferAt InboundEntry.firstTransfer
        rcases e.work with n | payload | ⟨op, a, b⟩
        · simp [readChunk, chunk_eq_blockPart, pieceRemaining, Config.pieceBytes]
        · simp only [writeChunk, blockWrite, chunk_eq_blockPart]
        · rfl
      rw [← ht]
      rfl
    · rw [if_neg h, if_neg (fun x => h (hc.2 x))]

/-- R71: a head begun, or one that lacks room, is left as it is. -/
theorem turnService_of_servesRightly {s : State} (h : s.servesRightly = true) : s.turnService = s := by
  unfold State.turnService
  rcases hq : s.inbound.queue with _ | ⟨e, rest⟩
  · rfl
  · simp only [State.servesRightly, hq, List.head?_cons, Option.all_some, Bool.or_eq_true, Bool.not_eq_true'] at h
    dsimp only [List.head?_cons]
    rw [if_neg]
    simp only [State.serviceMayBegin, Bool.and_eq_true, Bool.not_eq_true']
    rintro ⟨h1, h2⟩
    rcases h with h | h
    · rw [h] at h1; cases h1
    · rw [h] at h2; cases h2

/-- R71: after the move the service of the head has begun, or the head lacks room. -/
theorem servesRightly_turnService (s : State) : s.turnService.servesRightly = true := by
  unfold State.turnService
  rcases hq : s.inbound.queue with _ | ⟨e, rest⟩
  · simp [State.servesRightly, hq]
  · dsimp only [List.head?_cons]
    split
    · rfl
    · rename_i h
      simp only [State.servesRightly, hq, List.head?_cons, Option.all_some]
      rw [State.serviceMayBegin, Bool.and_eq_true, Bool.not_eq_true', not_and_or] at h
      rcases h with h | h
      · simp [Bool.not_eq_false _ ▸ h]
      · simp [h]

/-- R71: the move leaves everything but the inbound queue and the requests at the arbiter. -/
theorem turnService_frame (s : State) : ∃ b a, s.turnService = { s with inbound := b, arbiter := a } := by
  unfold State.turnService
  (repeat' split) <;> exact ⟨_, _, rfl⟩

/-- R71: the head's service begun leaves the offer, the results due and the wait as they are. -/
theorem laws_turnService (s : State) : s.turnService.offerAgrees = s.offerAgrees
    ∧ s.turnService.nothingDue = s.nothingDue ∧ s.turnService.waitsRightly = s.waitsRightly := by
  unfold State.turnService; (repeat' split) <;> exact ⟨rfl, rfl, rfl⟩

/-- R71, R72: a head lacks room still where the inbound queue is as it was and the response queue no shorter. -/
theorem servesRightly_congr {s t : State} (h1 : t.inbound.queue = s.inbound.queue)
    (h2 : s.sender.responses.length ≤ t.sender.responses.length) (h : s.servesRightly = true) :
    t.servesRightly = true := by
  unfold State.servesRightly at h ⊢
  rw [h1]
  rcases hq : s.inbound.queue with _ | ⟨e, rest⟩
  · rfl
  · simp only [hq, List.head?_cons, Option.all_some, Bool.or_eq_true, Bool.not_eq_true', Sender.hasRoomFor,
      decide_eq_false_iff_not] at h ⊢
    exact h.imp id fun h => by omega

/-- Every event that ends with `settle` leaves the state settled. -/
theorem settled_settle (s : State) : s.settle.settled = true := by
  have h := laws_turnService s.produceResults.askAgain.produceResults.refreshOffer
  have h1 : s.settle.nothingDue = true := h.2.1.trans (nothingDue_produceResults s.produceResults.askAgain)
  have h2 : s.settle.waitsRightly = true := h.2.2.trans (waitsRightly_askAgain (nothingDue_produceResults s))
  have h3 : s.settle.offerAgrees = true := h.1.trans (offerAgrees_refreshOffer _)
  have h4 : s.settle.servesRightly = true := servesRightly_turnService _
  simp [State.settled, h1, h2, h3, h4]

/-- In a state whose offer agrees, the offer follows the choice already. -/
theorem follow_of_offerAgrees {s : State} (h : s.offerAgrees = true) : s.span.follow s.sender.choice = s.span := by
  unfold SpanInterface.follow
  split
  · rfl
  · rename_i hf
    simp only [State.offerAgrees, hf, Bool.false_or, Bool.and_eq_true, decide_eq_true_eq] at h
    rw [← h.2, ← h.1]

/-- R155: an engine that waits for what is missing is refused as before, and nothing changes. -/
theorem askAgain_of_waitsRightly {s : State} (h : s.waitsRightly = true) : s.askAgain = s := by
  unfold State.askAgain
  split
  · rename_i hs
    unfold State.issueNext
    split
    · rename_i c hc
      obtain ⟨ha, hr⟩ : s.targetAbsent c.command = false ∧ s.refused c = s.issue.waitingFor := by
        simpa [State.waitsRightly, hs.1, hs.2, hc] using h
      have hany : (s.refused c).any = true := by rw [hr]; exact hs.2
      rw [State.issueSegment, ha, if_neg Bool.false_ne_true, if_pos hany, State.delaySegment, if_pos hs.2, hr]
      rfl
    · rfl
  · rfl

/-- A settled state stays as it is at the end of an event. -/
theorem settle_of_settled {s : State} (h : s.settled = true) : s.settle = s := by
  simp only [State.settled, Bool.and_eq_true] at h
  obtain ⟨⟨⟨h1, h2⟩, h3⟩, h4⟩ := h
  have he : s.refreshOffer = s := by rw [State.refreshOffer, follow_of_offerAgrees h1]; rfl
  rw [State.settle, produceResults_of_nothingDue h2, askAgain_of_waitsRightly h3, produceResults_of_nothingDue h2, he,
    turnService_of_servesRightly h4]

/-- R155: a waiting engine still waits rightly where what it is refused has not changed. -/
theorem waitsRightly_congr {s t : State} (h0 : t.life.station = s.life.station ∨ t.life.station ≠ .running)
    (h1 : t.issue.waitingFor = s.issue.waitingFor) (h2 : t.issue.currentContext = s.issue.currentContext)
    (h3 : t.sender.requests.length = s.sender.requests.length)
    (h4 : t.lowestFreeTag.isNone = s.lowestFreeTag.isNone) (h5 : t.availableBlocks = s.availableBlocks)
    (h6 : ∀ n, (t.peerAt n).state = .absent → (s.peerAt n).state = .absent) (h : s.waitsRightly = true) :
    t.waitsRightly = true := by
  rcases h0 with h0 | h0
  · have hr : ∀ c, t.refused c = s.refused c := by
      intro c; simp only [State.refused, h3, h4, h5]
    have ha : ∀ c, s.targetAbsent c = false → t.targetAbsent c = false := by
      intro c
      simp only [State.targetAbsent, Bool.and_eq_false_iff, decide_eq_false_iff_not]
      exact Or.imp id fun h e => h (h6 _ e)
    unfold State.waitsRightly IssueEngine.isWaiting at h ⊢
    rw [h0, h1, h2]
    simp only [Bool.or_eq_true] at h ⊢
    refine h.imp id fun h => ?_
    split at h
    · simp only [Bool.and_eq_true, Bool.not_eq_true', decide_eq_true_eq] at h ⊢
      exact ⟨ha _ h.1, (hr _).trans h.2⟩
    · rfl
  · simp [State.waitsRightly, h0]

/-- R23: whether a tag is FREE is a matter of which tags are. -/
theorem lowestFreeTag_congr {s t : State} (h : ∀ x, (t.tagAt x).state = .free ↔ (s.tagAt x).state = .free) :
    t.lowestFreeTag = s.lowestFreeTag := by
  unfold State.lowestFreeTag
  congr 1
  funext x
  simp only [h x]

/-- R71, R101: where no result is due and no wait ends, an event ends with the offer its choice calls for and the head served. -/
theorem settle_of_waitsRightly {t : State} (hn : t.nothingDue = true) (hw : t.waitsRightly = true)
    (ho : t.span.offerState.isFixed = false) :
    t.settle = State.headServed { t with span := t.span.offering t.sender.choice } := by
  rw [State.settle, produceResults_of_nothingDue hn, askAgain_of_waitsRightly hw, produceResults_of_nothingDue hn,
    turnService_eq_headServed, State.refreshOffer]
  unfold SpanInterface.follow SpanInterface.offering
  rw [if_neg (by rw [ho]; simp)]
  rfl

/-- R71: a head begun, or one that lacks room, is served already. -/
theorem headServed_of_servesRightly {s : State} (h : s.servesRightly = true) : s.headServed = s :=
  (turnService_eq_headServed s).symm.trans (turnService_of_servesRightly h)

/-- From a settled state: where the issue engine and what it is refused are as they were, an event that leaves the offer free
ends with the offer its choice calls for, and the head served. -/
theorem settle_after_served {s u : State} (h : s.settled = true) (h1 : u.issue = s.issue)
    (h0 : u.life.station = s.life.station) (h3 : u.sender.requests.length = s.sender.requests.length)
    (h4 : u.lowestFreeTag.isNone = s.lowestFreeTag.isNone) (h5 : u.availableBlocks = s.availableBlocks)
    (h6 : u.peers = s.peers) (hf : u.span.offerState.isFixed = false) :
    u.settle = State.headServed { u with span := u.span.offering u.sender.choice } := by
  simp only [State.settled, Bool.and_eq_true] at h
  refine settle_of_waitsRightly ?_ (waitsRightly_congr (Or.inl h0) (by rw [h1]) (by rw [h1]) h3 h4 h5
    (by intro n; simp only [State.peerAt, h6]; exact id) h.1.2) hf
  simpa only [State.nothingDue, h1] using h.1.1.2

/-- From a settled state: where the inbound queue is as it was too, and the response queue no shorter, no service begins. -/
theorem settle_after {s u : State} (h : s.settled = true) (h1 : u.issue = s.issue)
    (h0 : u.life.station = s.life.station) (h3 : u.sender.requests.length = s.sender.requests.length)
    (h4 : u.lowestFreeTag.isNone = s.lowestFreeTag.isNone) (h5 : u.availableBlocks = s.availableBlocks)
    (h6 : u.peers = s.peers) (hf : u.span.offerState.isFixed = false) (h7 : u.inbound.queue = s.inbound.queue)
    (h8 : s.sender.responses.length ≤ u.sender.responses.length) :
    u.settle = { u with span := u.span.offering u.sender.choice } := by
  rw [settle_after_served h h1 h0 h3 h4 h5 h6 hf]
  simp only [State.settled, Bool.and_eq_true] at h
  exact headServed_of_servesRightly (servesRightly_congr (t := { u with span := u.span.offering u.sender.choice }) h7 h8 h.2)

/-- From a settled state: an event that leaves what settling looks at, but for the inbound queue, ends with the head served. -/
theorem settle_self_served {s u : State} (h : s.settled = true) (h1 : u.issue = s.issue)
    (h0 : u.life.station = s.life.station) (h2 : u.sender = s.sender)
    (h4 : u.lowestFreeTag.isNone = s.lowestFreeTag.isNone) (h5 : u.availableBlocks = s.availableBlocks)
    (h6 : ∀ n, (u.peerAt n).state = .absent → (s.peerAt n).state = .absent) (h7 : u.span.offer = s.span.offer)
    (h8 : u.span.offerState = s.span.offerState) : u.settle = u.headServed := by
  simp only [State.settled, Bool.and_eq_true] at h
  have hn : u.nothingDue = true := by simpa only [State.nothingDue, h1] using h.1.1.2
  have ho : u.offerAgrees = true := by simpa only [State.offerAgrees, h2, h7, h8] using h.1.1.1
  have he : u.refreshOffer = u := by rw [State.refreshOffer, follow_of_offerAgrees ho]; rfl
  have hw : u.waitsRightly = true :=
    waitsRightly_congr (Or.inl h0) (by rw [h1]) (by rw [h1]) (by rw [h2]) h4 h5 h6 h.1.2
  rw [State.settle, produceResults_of_nothingDue hn, askAgain_of_waitsRightly hw, produceResults_of_nothingDue hn, he,
    turnService_eq_headServed]

/-- From a settled state: an event that leaves what settling looks at leaves the state settled. -/
theorem settle_self {s u : State} (h : s.settled = true) (h1 : u.issue = s.issue)
    (h0 : u.life.station = s.life.station) (h2 : u.sender = s.sender)
    (h4 : u.lowestFreeTag.isNone = s.lowestFreeTag.isNone) (h5 : u.availableBlocks = s.availableBlocks)
    (h6 : ∀ n, (u.peerAt n).state = .absent → (s.peerAt n).state = .absent) (h7 : u.span.offer = s.span.offer)
    (h8 : u.span.offerState = s.span.offerState) (h9 : u.inbound.queue = s.inbound.queue) : u.settle = u := by
  rw [settle_self_served h h1 h0 h2 h4 h5 h6 h7 h8]
  simp only [State.settled, Bool.and_eq_true] at h
  exact headServed_of_servesRightly (servesRightly_congr h9 (by rw [h2]) h.2)

end Sys2Proof.Machine
end

