-- ==== Sys2Proof/Laws/Accounts.lean ====
section
/-!
SUPPORT. Accounts: the operations of segments, entries, contexts and results keep the accounts of commands (R157) and
    the
commitment law (R45).
-/
namespace Sys2Proof.Machine

/-- R44, R45: the reserved blocks are the sum over the tags. -/
theorem reservedBlocks_eq (s : State) : s.reservedBlocks = (allTags.map (fun t => (s.tagAt t).reserved)).sum := by
  unfold State.reservedBlocks State.tagAt
  congr 1
  apply List.ext_getElem
  · simp [allTags]
  · intro i h1 h2
    simp [allTags]

/-- Lists summed term by term. -/
theorem sum_map_le {α : Type} (f g : α → Nat) : ∀ l : List α, (∀ x ∈ l, f x ≤ g x) → (l.map f).sum ≤ (l.map g).sum
  | [], _ => le_refl _
  | a :: l, h => by
    have h1 := h a (by simp)
    have h2 := sum_map_le f g l (fun x hx => h x (List.mem_cons_of_mem _ hx))
    simp only [List.map_cons, List.sum_cons]; omega

/-- Fewer listed pieces occupy fewer blocks. -/
theorem occupied_filter_le (b : CompletionBuffer) (p : Piece → Bool) :
    CompletionBuffer.occupied { b with pieces := b.pieces.filter p } ≤ b.occupied := by
  unfold CompletionBuffer.occupied
  have : ∀ l : List Piece, ((l.filter p).map Piece.blocks).sum ≤ (l.map Piece.blocks).sum := by
    intro l
    induction l with
    | nil => simp
    | cons a l ih =>
      rw [List.filter_cons]
      split <;> simp only [List.map_cons, List.sum_cons] <;> omega
  have := this b.pieces
  dsimp only
  omega

/-- What the laws of the accounts and of the commitment both keep from a state to a later one. -/
def Keeps (s t : State) : Prop := s.Accounted → t.Accounted ∧ (s.BlocksKept → t.BlocksKept)

/-- A state keeps what it has. -/
theorem Keeps.refl (s : State) : Keeps s s := fun h => ⟨h, id⟩

/-- Two changes that keep the laws keep them together. -/
theorem Keeps.trans {s t u : State} (h : Keeps s t) (k : Keeps t u) : Keeps s u := fun a =>
  ⟨(k (h a).1).1, fun b => (k (h a).1).2 ((h a).2 b)⟩

/-- The accounts are a matter of tags, contexts, current command and entries. -/
theorem State.Accounted.of_eq {s t : State} (h1 : t.tags = s.tags) (h2 : t.issue.contexts = s.issue.contexts)
    (h3 : t.issue.current = s.issue.current) (h4 : t.sender.requests = s.sender.requests) (h : s.Accounted) :
        t.Accounted := by
  have ht : ∀ x, t.tagAt x = s.tagAt x := fun x => by unfold State.tagAt; rw [h1]
  have ho : ∀ n, t.outstandingOf n = s.outstandingOf n := fun n => by unfold State.outstandingOf; simp only [ht, h4]
  refine ⟨?_, ?_, ?_, ?_, ?_, ?_, ?_, ?_⟩
  · rw [h2]; exact h.numbers
  · simp only [h2, ho]; exact h.counted
  · simp only [ht, h2]; exact h.named
  · rw [h4]; exact h.apart
  · simp only [ht, h4]; exact h.ofTags
  · simp only [h2, h4]; exact h.ofNotices
  · simp only [h2, h3]; exact h.finishing
  · simp only [h2, h3]; exact h.leaving

/-- The commitment law is kept where the committed blocks do not grow. -/
theorem State.BlocksKept.mono {s t : State} (h0 : t.inForce.commitmentLimit = s.inForce.commitmentLimit)
    (h1 : t.reservedBlocks ≤ s.reservedBlocks) (h2 : t.buffer.occupied ≤ s.buffer.occupied)
    (h3 : ∀ x, (t.tagAt x).state.inFlight = true → (t.tagAt x).kind = some .read →
      (t.tagAt x).reserved = ((t.tagAt x).length - (t.tagAt x).received + 31) / 32)
    (h4 : (t.life.station = .init ∨ t.life.station = .config) → (s.life.station = .init ∨ s.life.station = .config))
    (h5 : s.issue.current = none → t.issue.current = none) (h : s.BlocksKept) : t.BlocksKept := by
  refine ⟨by rw [h0]; exact h.limit, ?_, h3, ?_⟩
  · rw [h0]; have := h.committed; omega
  · intro hq
    obtain ⟨q1, q2, q3⟩ := h.quiet (h4 hq)
    exact ⟨h5 q1, by omega, by omega⟩

/-- A change outside tags, contexts, current command, entries and blocks keeps both laws. -/
theorem Keeps.of_eq {s t : State} (h1 : t.tags = s.tags) (h2 : t.issue.contexts = s.issue.contexts)
    (h3 : t.issue.current = s.issue.current) (h4 : t.sender.requests = s.sender.requests)
    (h5 : t.buffer.occupied = s.buffer.occupied) (h6 : t.inForce.commitmentLimit = s.inForce.commitmentLimit)
    (h7 : (t.life.station = .init ∨ t.life.station = .config) → (s.life.station = .init ∨ s.life.station = .config))
        : Keeps s t := by
  intro a
  refine ⟨a.of_eq h1 h2 h3 h4, fun b => ?_⟩
  have ht : ∀ x, t.tagAt x = s.tagAt x := fun x => by unfold State.tagAt; rw [h1]
  refine b.mono h6 ?_ h5.le ?_ h7 (fun h => h3.trans h)
  · rw [reservedBlocks_eq, reservedBlocks_eq]; simp only [ht]; exact le_refl _
  · simp only [ht]; exact b.reading

/-- An end of work: segments of some tags end, their contexts count them, and their entries leave. -/
theorem Keeps.gone {s u : State} (gone : Tag → Bool) (f : Context → Context) (fixed : Fin 16 → Bool)
    (hg : ∀ x, gone x = true → (s.tagAt x).state.inFlight = true)
    (h1 : ∀ x, gone x = true → (u.tagAt x).state.inFlight = false ∧ (u.tagAt x).reserved = 0)
    (h2 : ∀ x, gone x = false → u.tagAt x = s.tagAt x)
    (h3 : u.issue.contexts = s.issue.contexts.map f)
    (h4 : ∀ c, (f c).number = c.number ∧
      (f c).outstanding = c.outstanding - (allTags.filter (fun x => gone x && decide ((s.tagAt x).context = some
          c.number))).length)
    (h5 : ∀ c, (f c).issuingFinished = false → c.issuingFinished = false ∧ (f c).phase = c.phase
      ∧ (s.issue.current = some c.number → u.issue.current = some c.number))
    (h6 : ∀ c, (f c).phase = .leave → c.phase = .leave)
    (h7 : ∀ n, u.issue.current = some n → s.issue.current = some n)
    (h8 : EntriesApart s.sender.requests →
      u.sender.requests = s.sender.requests.filterMap (RequestEntry.leaves fixed (fun e => e.liveFor gone)))
    (h9 : u.buffer.occupied ≤ s.buffer.occupied) (h10 : u.inForce.commitmentLimit = s.inForce.commitmentLimit)
    (h11 : u.life.station = s.life.station) : Keeps s u := by
  intro a
  have hr := h8 a.apart
  have hmem : ∀ e ∈ u.sender.requests, e.withdrawn = false → e ∈ s.sender.requests ∧ e.liveFor gone = false := by
    intro e he hw
    rw [hr, List.mem_filterMap] at he
    obtain ⟨e0, he0, hl⟩ := he
    obtain ⟨_, _, _, h⟩ := leaves_some hl
    obtain ⟨_, hl0, rfl⟩ := h hw
    exact ⟨he0, hl0⟩
  have hin : ∀ x, (u.tagAt x).state.inFlight = ((s.tagAt x).state.inFlight && !gone x) := by
    intro x
    cases hx : gone x
    · rw [h2 x hx]; simp
    · rw [(h1 x hx).1]; simp
  have hnot : ∀ n, (u.sender.requests.filter (fun e => !e.withdrawn && decide (e.owner = .context n))).length
      = (s.sender.requests.filter (fun e => !e.withdrawn && decide (e.owner = .context n))).length := by
    intro n
    rw [hr]
    generalize s.sender.requests = l
    induction l with
    | nil => rfl
    | cons e l ih =>
      rw [List.filterMap_cons]
      by_cases hl : e.liveFor gone = true
      · obtain ⟨hw, t, ho, _⟩ := liveFor_iff.1 hl
        have hne : (!e.withdrawn && decide (e.owner = .context n)) = false := by rw [ho]; simp
        rw [List.filter_cons_of_neg (by rw [hne]; simp)]
        have hm : ∀ b, e.leaves fixed (fun e => e.liveFor gone) = some b → (!b.withdrawn && decide (b.owner =
            .context n)) = false := by
          intro b hb
          obtain ⟨_, h2, _, _⟩ := leaves_some hb
          rw [h2, ho]; simp
        split
        · exact ih
        · rename_i b hb
          rw [List.filter_cons_of_neg (by rw [hm b hb]; simp)]; exact ih
      · have : e.leaves fixed (fun e => e.liveFor gone) = some e := by unfold RequestEntry.leaves; rw [if_neg hl]
        rw [this]
        dsimp only
        rw [List.filter_cons, List.filter_cons]
        split
        · simp only [List.length_cons, ih]
        · exact ih
  have hcount : ∀ n, u.outstandingOf n + (allTags.filter (fun x => gone x && decide ((s.tagAt x).context = some
      n))).length = s.outstandingOf n := by
    intro n
    unfold State.outstandingOf
    rw [hnot]
    have hp : (allTags.filter (fun t => (s.tagAt t).state.inFlight && decide ((s.tagAt t).context = some n))).length
        = (allTags.filter (fun t => (u.tagAt t).state.inFlight && decide ((u.tagAt t).context = some n))).length
        + (allTags.filter (fun x => gone x && decide ((s.tagAt x).context = some n))).length := by
      rw [← length_filter_or]
      · congr 1
        apply List.filter_congr
        intro x _
        rw [hin]
        cases hx : gone x
        · rw [h2 x hx]; simp
        · simp [hg x hx]
      · intro x _ ⟨hx1, hx2⟩
        rw [hin] at hx1
        simp only [Bool.and_eq_true] at hx1 hx2
        rw [hx2.1] at hx1; simp at hx1
    omega
  refine ⟨⟨?_, ?_, ?_, ?_, ?_, ?_, ?_, ?_⟩, fun b => ?_⟩
  · rw [h3, List.map_map]
    have : (Context.number ∘ f) = Context.number := funext fun c => (h4 c).1
    rw [this]; exact a.numbers
  · intro c hc
    rw [h3, List.mem_map] at hc
    obtain ⟨c, hc, rfl⟩ := hc
    have h := a.counted c hc
    have h' := hcount c.number
    rw [(h4 c).1, (h4 c).2]; omega
  · intro t ht
    rw [hin, Bool.and_eq_true, Bool.not_eq_true'] at ht
    obtain ⟨c, hc, h, h'⟩ := a.named t ht.1
    rw [h2 t ht.2]
    exact ⟨f c, by rw [h3]; exact List.mem_map_of_mem hc, by rw [(h4 c).1]; exact h, h'⟩
  · rw [hr]; exact EntriesApart.without (v := s.entrySide) a.apart _ _
  · intro e he hw t ho
    obtain ⟨he', hl⟩ := hmem e he hw
    have hgt : gone t = false := by
      by_contra hx
      rw [Bool.not_eq_false] at hx
      have := liveFor_iff.2 ⟨hw, t, ho, hx⟩
      rw [hl] at this; cases this
    rw [h2 t hgt]
    exact a.ofTags e he' hw t ho
  · intro e he hw n ho
    obtain ⟨he', _⟩ := hmem e he hw
    obtain ⟨hk, c, hc, hn⟩ := a.ofNotices e he' hw n ho
    exact ⟨hk, f c, by rw [h3]; exact List.mem_map_of_mem hc, by rw [(h4 c).1]; exact hn⟩
  · intro c hc hf
    rw [h3, List.mem_map] at hc
    obtain ⟨c, hc, rfl⟩ := hc
    obtain ⟨g1, g2, g3⟩ := h5 c hf
    rw [(h4 c).1, g2]
    exact (a.finishing c hc g1).imp g3 id
  · intro c hc hl
    rw [h3, List.mem_map] at hc
    obtain ⟨c, hc, rfl⟩ := hc
    obtain ⟨g1, g2⟩ := a.leaving c hc (h6 c hl)
    rw [(h4 c).1, (h4 c).2, g1]
    exact ⟨by omega, fun h => g2 (h7 _ h)⟩
  · refine b.mono h10 ?_ h9 ?_ (fun h => by rw [h11] at h; exact h) ?_
    · rw [reservedBlocks_eq, reservedBlocks_eq]
      apply sum_map_le
      intro x _
      cases hx : gone x
      · rw [h2 x hx]
      · rw [(h1 x hx).2]; omega
    · intro x hx
      rw [hin, Bool.and_eq_true, Bool.not_eq_true'] at hx
      rw [h2 x hx.2]; exact b.reading x hx.1
    · intro hn
      by_contra hx
      obtain ⟨n, hn'⟩ := Option.ne_none_iff_exists'.1 hx
      rw [h7 n hn'] at hn; cases hn

/-- R28, R114, R158: the failure of a segment keeps the accounts. -/
theorem Keeps.failSegment (s : State) (n k) (st : Status) : Keeps s (s.failSegment n k st) := by
  intro a
  obtain ⟨f1, f2⟩ := failSegment_spec s n k st
  have f3 := entrySide_failSegment s n k st
  generalize s.failSegment n k st = u at f1 f2 f3
  have hc := congrArg SegmentView.contexts f2
  have hcur : u.issue.current = if s.issue.current = some n then none else s.issue.current := congrArg
      SegmentView.current f2
  refine Keeps.gone (laterIn s n k) _ s.fixedOn (fun x h => isLaterOf_inFlight h) ?_ ?_ hc ?_ ?_ ?_ ?_
    (fun h => congrArg EntrySide.requests (f3 h)) ?_ (congrArg (fun v => v.inForce.commitmentLimit) f2)
    (congrArg (fun v => v.life.station) f2) a
  · intro x hx; rw [f1, if_pos hx]; exact ⟨rfl, rfl⟩
  · intro x hx; rw [f1, hx, if_neg (by simp)]
  · intro c
    split
    · rename_i h
      refine ⟨rfl, ?_⟩
      show c.outstanding - _ = _
      congr 2
      apply List.filter_congr
      intro x _
      by_cases hl : laterIn s n k x = true
      · rw [isLaterOf_ctx hl, h]; simp
      · simp [hl]
    · rename_i h
      refine ⟨rfl, ?_⟩
      have : allTags.filter (fun x => laterIn s n k x && decide ((s.tagAt x).context = some c.number)) = [] := by
        rw [List.filter_eq_nil_iff]
        intro x _ hx
        rw [Bool.and_eq_true, decide_eq_true_eq] at hx
        rw [isLaterOf_ctx hx.1] at hx
        exact h (by simpa using hx.2.symm)
      rw [this]; simp
  · intro c
    split
    · intro h; cases h
    · rename_i h
      intro h'
      refine ⟨h', rfl, fun hs => ?_⟩
      rw [hcur, if_neg]; exact hs
      rw [hs]; intro e; exact h (by simpa using e)
  · intro c
    split
    · intro h; cases h
    · exact id
  · intro m hm
    rw [hcur] at hm
    split at hm
    · cases hm
    · exact hm
  · rw [show u.buffer = _ from congrArg SegmentView.buffer f2]; exact occupied_filter_le _ _

/-- R40, R41, R157: the end of a segment in progress keeps the accounts. -/
theorem Keeps.endSegment {s : State} {t : Tag} (st : Status) (v : Option Word) (hf : (s.tagAt t).state.inFlight =
    true) :
    Keeps s (s.endSegment t st v) := by
  intro a
  obtain ⟨c0, hc0, hn, hk⟩ := a.named t hf
  obtain ⟨k, hk⟩ := Option.ne_none_iff_exists'.1 hk
  obtain ⟨e1, e2, e3, e4⟩ := endSegment_spec s t st v c0.number k hn hk
  have e5 := entrySide_endSegment s t st v a.apart
  rw [hn, hk] at e5
  dsimp only at e1 e2 e3 e4 e5
  generalize s.endSegment t st v = u at e1 e2 e3 e4 e5
  have hc := congrArg SegmentView.contexts e4
  have hcur : u.issue.current = if st ≠ .ok ∧ s.issue.current = some c0.number then none else s.issue.current :=
      congrArg SegmentView.current e4
  set wd : Tag → Bool := fun x => decide (st ≠ .ok) && decide (x ≠ t) && (s.tagAt x).isLaterOf c0.number k with hwd
  have hwt : wd t = false := by simp [hwd]
  have hwl : ∀ x, wd x = true → (s.tagAt x).isLaterOf c0.number k = true := by
    intro x h; simp only [hwd, Bool.and_eq_true] at h; exact h.2
  have hcase : ∀ n, (allTags.filter (fun x => (decide (x = t) || wd x) && decide ((s.tagAt x).context = some n))).length
      = if n = c0.number then 1 + (allTags.filter wd).length else 0 := by
    intro n
    split
    · rename_i h
      rw [← length_filter_tag t, ← length_filter_or]
      · congr 1
        apply List.filter_congr
        intro x _
        by_cases hx : x = t
        · subst hx; simp [hn, h]
        · by_cases hw : wd x = true
          · simp [hw, isLaterOf_ctx (hwl x hw), h]
          · simp [hw, hx]
      · rintro x _ ⟨h1, h2⟩
        have := of_decide_eq_true h1
        rw [this, hwt] at h2; cases h2
    · rename_i h
      rw [List.length_eq_zero_iff, List.filter_eq_nil_iff]
      intro x _ hx
      simp only [Bool.and_eq_true, Bool.or_eq_true, decide_eq_true_eq] at hx
      obtain ⟨hx | hx, hx'⟩ := hx
      · rw [hx, hn] at hx'; exact h (by simpa using hx'.symm)
      · rw [isLaterOf_ctx (hwl x hx)] at hx'; exact h (by simpa using hx'.symm)
  refine Keeps.gone (fun x => decide (x = t) || wd x) _ s.fixedOn ?_ ?_ ?_ hc ?_ ?_ ?_ ?_
    (fun h => ?_) ?_ (congrArg (fun v => v.inForce.commitmentLimit) e4)
    (congrArg (fun v => v.life.station) e4) a
  · intro x hx
    simp only [Bool.or_eq_true, decide_eq_true_eq] at hx
    rcases hx with rfl | hx
    · exact hf
    · exact isLaterOf_inFlight (hwl x hx)
  · intro x hx
    by_cases hxt : x = t
    · subst hxt
      by_cases hst : st = .timeout
      · rw [e2 hst]; exact ⟨rfl, rfl⟩
      · rw [e1 hst]; exact ⟨rfl, rfl⟩
    · have hw : wd x = true := by simpa [hxt] using hx
      rw [e3 x hxt, if_pos hw]; exact ⟨rfl, rfl⟩
  · intro x hx
    simp only [Bool.or_eq_false_iff, decide_eq_false_iff_not] at hx
    rw [e3 x hx.1, if_neg]
    exact Bool.eq_false_iff.1 hx.2
  · intro c
    rw [hcase]
    split
    · rename_i h
      exact ⟨rfl, by dsimp only; omega⟩
    · rename_i h
      exact ⟨rfl, by omega⟩
  · intro c
    split
    · rename_i h
      intro hf
      have hok : st = .ok := by
        by_contra hne; simp [hne] at hf
      refine ⟨by simpa [hok] using hf, by simp [hok], ?_⟩
      intro hs; rw [hcur, if_neg (fun x => x.1 hok)]; exact hs
    · rename_i h
      intro hf
      refine ⟨hf, rfl, fun hs => ?_⟩
      rw [hcur, if_neg]; exact hs
      rintro ⟨_, e⟩
      rw [hs] at e; exact h (by simpa using e)
  · intro c
    split
    · intro hp
      by_cases hok : st = .ok
      · simpa [hok] using hp
      · simp [hok] at hp
    · exact id
  · intro m hm
    rw [hcur] at hm
    split at hm
    · cases hm
    · exact hm
  · have := congrArg EntrySide.requests e5
    refine this.trans ?_
    show List.filterMap _ s.sender.requests = _
    congr 1
  · rw [show u.buffer = _ from congrArg SegmentView.buffer e4]; exact occupied_filter_le _ _

/-- Entries change in place, keeping their places, their owners and their keys. -/
theorem Keeps.mapRequests {s u : State} (f : RequestEntry → RequestEntry)
    (hf : ∀ e, (f e).slot = e.slot ∧ (f e).owner = e.owner ∧ (f e).withdrawn = e.withdrawn ∧ (f e).key = e.key)
    (h1 : u.tags = s.tags) (h2 : u.issue.contexts = s.issue.contexts) (h3 : u.issue.current = s.issue.current)
    (h4 : u.sender.requests = s.sender.requests.map f)
    (h5 : u.buffer.occupied = s.buffer.occupied) (h6 : u.inForce.commitmentLimit = s.inForce.commitmentLimit)
    (h7 : u.life.station = s.life.station) : Keeps s u := by
  intro a
  have hb : Keeps { s with sender := { s.sender with requests := u.sender.requests } } u :=
    Keeps.of_eq h1 h2 h3 rfl h5 h6 (by rw [h7]; exact id)
  have hk : Keeps s { s with sender := { s.sender with requests := u.sender.requests } } := by
    rw [h4]
    intro a
    refine ⟨⟨a.numbers, ?_, a.named, ?_, ?_, ?_, a.finishing, a.leaving⟩, fun b => b.mono (s := s) rfl (Nat.le_of_eq
        rfl) (Nat.le_of_eq rfl) b.reading id id⟩
    · intro c hc
      rw [a.counted c hc]
      unfold State.outstandingOf
      congr 1
      dsimp only
      generalize s.sender.requests = l
      induction l with
      | nil => rfl
      | cons e l ih =>
        rw [List.map_cons, List.filter_cons, List.filter_cons, (hf e).2.1, (hf e).2.2.1]
        split
        · simp only [List.length_cons, ih]
        · exact ih
    · show EntriesApart (s.sender.requests.map f)
      unfold EntriesApart
      rw [List.pairwise_map]
      refine a.apart.imp ?_
      intro x y h
      rw [(hf x).1, (hf y).1, (hf x).2.1, (hf y).2.1, (hf x).2.2.1, (hf y).2.2.1]; exact h
    · intro e he hw t ho
      obtain ⟨e', he', rfl⟩ := List.mem_map.1 he
      rw [(hf e').2.2.1] at hw; rw [(hf e').2.1] at ho
      exact a.ofTags e' he' hw t ho
    · intro e he hw t ho
      obtain ⟨e', he', rfl⟩ := List.mem_map.1 he
      rw [(hf e').2.2.1] at hw; rw [(hf e').2.1] at ho
      rw [(hf e').2.2.2]
      exact a.ofNotices e' he' hw t ho
  exact (hk.trans hb) a

/-- Entries leave, none of them the live entry of a NOTICE. -/
theorem Keeps.dropRequests {s u : State} (fixed : Fin 16 → Bool) (gone : RequestEntry → Bool)
    (hf : ∀ e ∈ s.sender.requests, gone e = true → e.withdrawn = false → e.key = none → ∀ n, e.owner ≠ .context n)
    (h1 : u.tags = s.tags) (h2 : u.issue.contexts = s.issue.contexts) (h3 : u.issue.current = s.issue.current)
    (h4 : u.sender.requests = s.sender.requests.filterMap (RequestEntry.leaves fixed gone))
    (h5 : u.buffer.occupied = s.buffer.occupied) (h6 : u.inForce.commitmentLimit = s.inForce.commitmentLimit)
    (h7 : u.life.station = s.life.station) : Keeps s u := by
  have hb : Keeps { s with sender := { s.sender with requests := u.sender.requests } } u :=
    Keeps.of_eq h1 h2 h3 rfl h5 h6 (by rw [h7]; exact id)
  refine Keeps.trans ?_ hb
  rw [h4]
  intro a
  have hmem : ∀ e ∈ s.sender.requests.filterMap (RequestEntry.leaves fixed gone), e.withdrawn = false → e ∈
      s.sender.requests := by
    intro e he hw
    rw [List.mem_filterMap] at he
    obtain ⟨e0, he0, hl⟩ := he
    obtain ⟨_, _, _, h⟩ := leaves_some hl
    obtain ⟨_, hl0, rfl⟩ := h hw
    exact he0
  refine ⟨⟨a.numbers, ?_, a.named, ?_, ?_, ?_, a.finishing, a.leaving⟩, fun b => b.mono (s := s) rfl (Nat.le_of_eq
      rfl) (Nat.le_of_eq rfl) b.reading id id⟩
  · intro c hc
    rw [a.counted c hc]
    unfold State.outstandingOf
    congr 1
    dsimp only
    have hn := a.ofNotices
    revert hf hn
    generalize s.sender.requests = l
    intro hf hn
    induction l with
    | nil => rfl
    | cons e l ih =>
      have ih := ih (fun e he => hf e (List.mem_cons_of_mem _ he)) (fun e he => hn e (List.mem_cons_of_mem _ he))
      rw [List.filterMap_cons]
      by_cases hl : gone e = true
      · have hne : (!e.withdrawn && decide (e.owner = .context c.number)) = false := by
          by_contra hx
          rw [Bool.not_eq_false, Bool.and_eq_true, Bool.not_eq_true', decide_eq_true_eq] at hx
          have hk := (hn e (by simp) hx.1 _ hx.2).1
          exact hf e (by simp) hl hx.1 hk _ hx.2
        rw [List.filter_cons_of_neg (by rw [hne]; simp)]
        split
        · exact ih
        · rename_i b hb
          have : b.withdrawn = true := by
            unfold RequestEntry.leaves at hb
            rw [if_pos hl] at hb
            split at hb
            · cases hb; rfl
            · cases hb
          rw [List.filter_cons_of_neg (by rw [this]; simp)]; exact ih
      · have : e.leaves fixed gone = some e := by unfold RequestEntry.leaves; rw [if_neg hl]
        rw [this]
        dsimp only
        rw [List.filter_cons, List.filter_cons]
        split
        · simp only [List.length_cons, ih]
        · exact ih
  · exact EntriesApart.without (v := s.entrySide) a.apart _ _
  · intro e he hw
    exact a.ofTags e (hmem e he hw) hw
  · intro e he hw
    exact a.ofNotices e (hmem e he hw) hw

/-- Filtering is leaving where nothing is fixed. -/
theorem filter_eq_leaves (p : RequestEntry → Bool) (l : List RequestEntry) :
    l.filter p = l.filterMap (RequestEntry.leaves (fun _ => false) (fun e => !p e)) := by
  rw [← List.filterMap_eq_filter]
  congr 1
  funext e
  cases h : p e <;> simp [RequestEntry.leaves, h, Option.guard]

/-- R116: the withdrawn entries leave. -/
theorem Keeps.dropWithdrawn (s : State) : Keeps s s.dropWithdrawn :=
  Keeps.dropRequests (fun _ => false) (fun e => !(!e.withdrawn)) (fun e _ h hw => by simp [hw] at h)
    rfl rfl rfl (filter_eq_leaves _ _) rfl rfl rfl

/-- R115: the entries with a peer's key leave. -/
theorem Keeps.cleanRequests (s : State) (p : Station) : Keeps s (s.cleanRequests p) :=
  Keeps.dropRequests (fun _ => false) (fun e => !(e.key != some p)) (fun e _ h _ hk => by simp [hk] at h)
    rfl rfl rfl (filter_eq_leaves _ _) rfl rfl rfl

/-- R110: the entry of a tag leaves. -/
theorem Keeps.removeTagEntry {s : State} {e : RequestEntry} {t : Tag} (he : e ∈ s.sender.requests) (ho : e.owner =
    .tag t) :
    Keeps s (s.removeEntry e.slot) := by
  intro a
  have h := entrySide_removeEntry s e he
  have hv := segmentView_removeEntry s e.slot
  refine Keeps.dropRequests s.fixedOn (fun x => decide (x.slot = e.slot)) ?_ (congrArg SegmentView.tags hv) (congrArg
      SegmentView.contexts hv)
    (congrArg SegmentView.current hv) (congrArg EntrySide.requests h)
    (congrArg (fun v => v.buffer.occupied) hv) (congrArg (fun v => v.inForce.commitmentLimit) hv) (congrArg (fun v =>
        v.life.station) hv) a
  intro x hx hg _ _ n hn
  have := a.apart.slot_inj hx he (of_decide_eq_true hg)
  rw [this, ho] at hn; cases hn

/-- A tag's record changes: it stays in flight, with its context and its segment, or stays out of flight. -/
theorem Keeps.setTag {s u : State} {t : Tag} (r : TagRecord)
    (hf : r.state.inFlight = (s.tagAt t).state.inFlight)
    (hc : r.state.inFlight = true → r.context = (s.tagAt t).context ∧ r.segment = (s.tagAt t).segment)
    (hw : (s.tagAt t).state.waitsToGo = true → r.state.waitsToGo = true
      ∨ (s.Accounted → ∀ e ∈ s.sender.requests, e.withdrawn = false → e.owner ≠ .tag t))
    (hb : s.BlocksKept → u.reservedBlocks + u.buffer.occupied ≤ s.reservedBlocks + s.buffer.occupied)
    (hq : s.reservedBlocks = 0 → s.buffer.occupied = 0 → (s.life.station = .init ∨ s.life.station = .config) →
      u.reservedBlocks = 0 ∧ u.buffer.occupied = 0)
    (hr : s.BlocksKept → r.state.inFlight = true → r.kind = some .read → r.reserved = (r.length - r.received + 31) / 32)
    (h1 : u.tags = s.tags.set t.val r t.isLt) (h2 : u.issue.contexts = s.issue.contexts) (h3 : u.issue.current =
        s.issue.current)
    (h4 : u.sender.requests = s.sender.requests)
    (h6 : u.inForce.commitmentLimit = s.inForce.commitmentLimit)
    (h7 : u.life.station = s.life.station) : Keeps s u := by
  intro a
  have ht : ∀ x, u.tagAt x = if x = t then r else s.tagAt x := by
    intro x
    unfold State.tagAt
    rw [h1, tagAt_set]; rfl
  have hin : ∀ x, (u.tagAt x).state.inFlight = (s.tagAt x).state.inFlight := by
    intro x; rw [ht]; split
    · rename_i h; rw [h, hf]
    · rfl
  have hcx : ∀ x, (u.tagAt x).state.inFlight = true → (u.tagAt x).context = (s.tagAt x).context ∧ (u.tagAt x).segment
      = (s.tagAt x).segment := by
    intro x; rw [ht]; split
    · rename_i h; rw [h]; exact hc
    · exact fun _ => ⟨rfl, rfl⟩
  refine ⟨⟨?_, ?_, ?_, ?_, ?_, ?_, ?_, ?_⟩, fun b => ⟨?_, ?_, ?_, ?_⟩⟩
  · rw [h2]; exact a.numbers
  · rw [h2]
    intro c hcm
    rw [a.counted c hcm]
    unfold State.outstandingOf
    rw [h4]
    congr 2
    apply List.filter_congr
    intro x _
    rw [hin]
    by_cases hx : (s.tagAt x).state.inFlight = true
    · rw [(hcx x (by rw [hin]; exact hx)).1]
    · simp [hx]
  · intro x hx
    rw [h2, (hcx x hx).1, (hcx x hx).2]
    rw [hin] at hx
    exact a.named x hx
  · rw [h4]; exact a.apart
  · rw [h4]
    intro e he hwd x ho
    rw [ht]
    split
    · rename_i h
      subst h
      rcases hw (a.ofTags e he hwd _ ho) with h | h
      · exact h
      · exact absurd ho (h a e he hwd)
    · exact a.ofTags e he hwd x ho
  · rw [h2, h4]; exact a.ofNotices
  · rw [h2, h3]; exact a.finishing
  · rw [h2, h3]; exact a.leaving
  · rw [h6]; exact b.limit
  · rw [h6]; exact (hb b).trans b.committed
  · intro x hx
    rw [ht] at hx ⊢
    split at hx
    · rename_i h; rw [if_pos h]; exact hr b hx
    · rename_i h; rw [if_neg h]; exact b.reading x hx
  · intro hs
    rw [h7] at hs
    obtain ⟨q1, q2, q3⟩ := b.quiet hs
    obtain ⟨q4, q5⟩ := hq q2 q3 hs
    exact ⟨h3.trans q1, q4, q5⟩

/-- Setting a record of the tag table changes the sum of the reserved blocks by the difference. -/
theorem reservedBlocks_set {s u : State} {t : Tag} (r : TagRecord) (h1 : u.tags = s.tags.set t.val r t.isLt) :
    u.reservedBlocks + (s.tagAt t).reserved = s.reservedBlocks + r.reserved := by
  have ht : ∀ x, u.tagAt x = if x = t then r else s.tagAt x := by
    intro x
    unfold State.tagAt
    rw [h1, tagAt_set]; rfl
  rw [reservedBlocks_eq, reservedBlocks_eq]
  have : ∀ l : List Tag, l.Nodup → (l.map (fun x => (u.tagAt x).reserved)).sum + (if t ∈ l then (s.tagAt t).reserved
      else 0)
      = (l.map (fun x => (s.tagAt x).reserved)).sum + (if t ∈ l then r.reserved else 0) := by
    intro l hl
    induction l with
    | nil => rfl
    | cons a l ih =>
      have ih := ih (List.nodup_cons.1 hl).2
      have hn := (List.nodup_cons.1 hl).1
      simp only [List.map_cons, List.sum_cons, List.mem_cons]
      by_cases ha : t = a
      · subst ha
        rw [if_neg hn, if_neg hn] at ih
        rw [if_pos (Or.inl rfl), if_pos (Or.inl rfl), ht, if_pos rfl]
        omega
      · rw [ht a, if_neg (fun e => ha e.symm)]
        by_cases hm : t ∈ l
        · rw [if_pos hm, if_pos hm] at ih
          rw [if_pos (Or.inr hm), if_pos (Or.inr hm)]; omega
        · rw [if_neg hm, if_neg hm] at ih
          rw [if_neg (by tauto), if_neg (by tauto)]; omega
  have := this allTags allTags_nodup
  rw [if_pos (mem_allTags t), if_pos (mem_allTags t)] at this
  exact this

/-- R20: a record changes its state among those in flight, and nothing is reserved for it. -/
theorem Keeps.setSame {s u : State} {t : Tag} (r : TagRecord)
    (hf : r.state.inFlight = (s.tagAt t).state.inFlight)
    (hc : r.state.inFlight = true → r.context = (s.tagAt t).context ∧ r.segment = (s.tagAt t).segment)
    (hw : (s.tagAt t).state.waitsToGo = true → r.state.waitsToGo = true
      ∨ (s.Accounted → ∀ e ∈ s.sender.requests, e.withdrawn = false → e.owner ≠ .tag t))
    (hb : r.reserved ≤ (s.tagAt t).reserved)
    (hr : r.state.inFlight = true → r.kind = (s.tagAt t).kind ∧ r.reserved = (s.tagAt t).reserved
      ∧ r.length = (s.tagAt t).length ∧ r.received = (s.tagAt t).received)
    (h1 : u.tags = s.tags.set t.val r t.isLt) (h2 : u.issue.contexts = s.issue.contexts) (h3 : u.issue.current =
        s.issue.current)
    (h4 : u.sender.requests = s.sender.requests) (h5 : u.buffer.occupied = s.buffer.occupied)
    (h6 : u.inForce.commitmentLimit = s.inForce.commitmentLimit)
    (h7 : u.life.station = s.life.station) : Keeps s u := by
  have hrb := reservedBlocks_set r h1
  refine Keeps.setTag r hf hc hw (fun _ => by omega) (fun _ _ _ => by omega) ?_ h1 h2 h3 h4 h6 h7
  intro b hx hk
  obtain ⟨k1, k2, k3, k4⟩ := hr hx
  rw [k2, k3, k4]
  exact b.reading t (by rw [← hf]; exact hx) (by rw [← k1]; exact hk)

/-- R38, R42, R43: a STALE tag becomes FREE. -/
theorem Keeps.freeStaleTag {s : State} {t : Tag} (h : (s.tagAt t).state = .stale) : Keeps s (s.setTag t (s.tagAt
    t).freed) := by
  have h0 : (s.tagAt t).state.inFlight = false := by rw [h]; rfl
  refine Keeps.setSame (s.tagAt t).freed ?_ ?_ ?_ ?_ ?_ rfl rfl rfl rfl rfl rfl rfl
  · rw [h0]; rfl
  · intro h'; cases h'
  · rw [h]; intro h'; cases h'
  · exact Nat.zero_le _
  · intro h'; cases h'

/-- A tag that waits to go is in flight. -/
theorem waits_inFlight {x : TagState} (h : x.waitsToGo = true) : x.inFlight = true := by
  cases x <;> first | rfl | cases h

/-- A tag that awaits completions is in flight. -/
theorem awaits_inFlight {x : TagState} (h : x = .sent ∨ x = .partialRead) : x.inFlight = true := by
  rcases h with rfl | rfl <;> rfl

/-- R144: the end of a NOTICE keeps the accounts. -/
theorem Keeps.endNotice {s : State} {e : RequestEntry} {n : ContextNumber} (he : e ∈ s.sender.requests) (hw :
    e.withdrawn = false)
    (ho : e.owner = .context n) (st : Status) : Keeps s (s.endNotice e.slot n st) := by
  have key : Keeps s ((s.removeEntry e.slot).updateContext n (fun c => c.accounted none)) := by
    intro a
    have h := entrySide_removeEntry s e he
    have hv := segmentView_removeEntry s e.slot
    set r := s.removeEntry e.slot with hr
    have hq : r.sender.requests = s.sender.requests.filterMap (RequestEntry.leaves s.fixedOn (fun x => decide (x.slot
        = e.slot))) :=
      congrArg EntrySide.requests h
    have ht : r.tags = s.tags := congrArg SegmentView.tags hv
    have hcx : r.issue.contexts = s.issue.contexts := congrArg SegmentView.contexts hv
    have hcu : r.issue.current = s.issue.current := congrArg SegmentView.current hv
    have hta : ∀ x, r.tagAt x = s.tagAt x := fun x => by unfold State.tagAt; rw [ht]
    set u := r.updateContext n (fun c => c.accounted none) with hu
    have hux : u.issue.contexts = s.issue.contexts.map (fun c => if c.number = n then c.accounted none else c) := by
      show r.issue.contexts.map _ = _
      rw [hcx]
    have hut : ∀ x, u.tagAt x = s.tagAt x := hta
    have huq : u.sender.requests = _ := hq
    have huc : u.issue.current = s.issue.current := hcu
    have hmem : ∀ x ∈ u.sender.requests, x.withdrawn = false → x ∈ s.sender.requests := by
      intro x hx hxw
      rw [huq, List.mem_filterMap] at hx
      obtain ⟨e0, he0, hl⟩ := hx
      obtain ⟨_, _, _, h⟩ := leaves_some hl
      obtain ⟨_, hl0, rfl⟩ := h hxw
      exact he0
    have hnum : ∀ c : Context, (if c.number = n then c.accounted none else c).number = c.number := by intro c; split
        <;> rfl
    have hcount : ∀ m, u.outstandingOf m + (if m = n then 1 else 0) = s.outstandingOf m := by
      intro m
      unfold State.outstandingOf
      simp only [hut, huq]
      rw [Nat.add_assoc]
      congr 1
      have hap := a.apart
      revert he hap
      generalize s.sender.requests = l
      intro he hap
      induction l with
      | nil => cases he
      | cons x l ih =>
        unfold EntriesApart at hap
        rw [List.pairwise_cons] at hap
        rw [List.filterMap_cons]
        rcases List.mem_cons.1 he with rfl | hel
        · have hrest : l.filterMap (RequestEntry.leaves s.fixedOn (fun x => decide (x.slot = e.slot))) = l := by
            conv_rhs => rw [← List.filterMap_some (l := l)]
            apply List.filterMap_congr
            intro y hy
            unfold RequestEntry.leaves
            rw [if_neg]
            simpa using fun h => (hap.1 y hy).1 h.symm
          rw [hrest]
          have hgo : ∀ b, e.leaves s.fixedOn (fun x => decide (x.slot = e.slot)) = some b → (!b.withdrawn && decide
              (b.owner = .context m)) = false := by
            intro b hb
            unfold RequestEntry.leaves at hb
            rw [if_pos (by simp)] at hb
            split at hb
            · cases hb; rfl
            · cases hb
          have hl : ((e :: l).filter (fun e => !e.withdrawn && decide (e.owner = .context m))).length
              = (l.filter (fun e => !e.withdrawn && decide (e.owner = .context m))).length + (if m = n then 1 else 0)
                  := by
            rw [List.filter_cons]
            by_cases hmn : m = n
            · rw [if_pos (by simp [hw, ho, hmn]), if_pos hmn]; rfl
            · have : ¬ n = m := fun e => hmn e.symm
              rw [if_neg (by simp [hw, ho, this]), if_neg hmn]; rfl
          rw [hl]
          split
          · rfl
          · rename_i b hb
            rw [List.filter_cons_of_neg (by rw [hgo b hb]; simp)]
        · have hne : x.slot ≠ e.slot := (hap.1 e hel).1
          have hx : x.leaves s.fixedOn (fun x => decide (x.slot = e.slot)) = some x := by
            unfold RequestEntry.leaves; rw [if_neg (by simpa using hne)]
          rw [hx]
          dsimp only
          have ih := ih hel hap.2
          rw [List.filter_cons, List.filter_cons]
          split
          · simp only [List.length_cons]; omega
          · exact ih
    refine ⟨⟨?_, ?_, ?_, ?_, ?_, ?_, ?_, ?_⟩, fun b => ?_⟩
    · rw [hux, List.map_map]
      have : Context.number ∘ (fun c : Context => if c.number = n then c.accounted none else c) = Context.number :=
          funext hnum
      rw [this]; exact a.numbers
    · intro c hc
      rw [hux, List.mem_map] at hc
      obtain ⟨c, hc, rfl⟩ := hc
      have h1 := a.counted c hc
      have h2 := hcount c.number
      rw [hnum]
      split
      · rename_i hh
        rw [if_pos hh] at h2
        show c.outstanding - 1 = _
        omega
      · rename_i hh
        rw [if_neg hh] at h2
        omega
    · intro t ht'
      rw [hut] at ht' ⊢
      obtain ⟨c, hc, h1, h2⟩ := a.named t ht'
      exact ⟨_, by rw [hux]; exact List.mem_map_of_mem hc, by rw [hnum]; exact h1, h2⟩
    · rw [huq]; exact EntriesApart.without (v := s.entrySide) a.apart _ _
    · intro x hx hxw t hxo
      rw [hut]; exact a.ofTags x (hmem x hx hxw) hxw t hxo
    · intro x hx hxw m hxo
      obtain ⟨h1, c, hc, h2⟩ := a.ofNotices x (hmem x hx hxw) hxw m hxo
      exact ⟨h1, _, by rw [hux]; exact List.mem_map_of_mem hc, by rw [hnum]; exact h2⟩
    · intro c hc hf
      rw [hux, List.mem_map] at hc
      obtain ⟨c, hc, rfl⟩ := hc
      rw [hnum, huc]
      have : c.issuingFinished = false := by split at hf <;> exact hf
      have h2 := a.finishing c hc this
      have : (if c.number = n then c.accounted none else c).phase = c.phase := by split <;> rfl
      rw [this]; exact h2
    · intro c hc hl
      rw [hux, List.mem_map] at hc
      obtain ⟨c, hc, rfl⟩ := hc
      have : (if c.number = n then c.accounted none else c).phase = c.phase := by split <;> rfl
      rw [this] at hl
      obtain ⟨g1, g2⟩ := a.leaving c hc hl
      rw [hnum, huc]
      refine ⟨?_, g2⟩
      split
      · show c.outstanding - 1 = 0; omega
      · exact g1
    · refine b.mono (congrArg (fun v => v.inForce.commitmentLimit) hv) ?_ (congrArg (fun v => v.buffer.occupied)
          hv).le ?_ ?_ (fun h => huc.trans h)
      · rw [reservedBlocks_eq, reservedBlocks_eq]; simp only [hut]; exact le_refl _
      · simp only [hut]; exact b.reading
      · intro h
        have : u.life.station = s.life.station := congrArg (fun v => v.life.station) hv
        rw [this] at h; exact h
  unfold State.endNotice State.reportEnd
  dsimp only
  split
  · exact key
  · exact key.trans (Keeps.failSegment _ _ _ _)

/-- R107: the end of a live entry keeps the accounts. -/
theorem Keeps.endEntry {s : State} {e : RequestEntry} (he : e ∈ s.sender.requests) (hw : e.withdrawn = false)
    (st : Status) : Keeps s (s.endEntry e st) := by
  unfold State.endEntry
  split
  · rename_i t ho
    intro a
    exact Keeps.endSegment st none (waits_inFlight (a.ofTags e he hw t ho)) a
  · rename_i n ho
    exact Keeps.endNotice he hw ho st

/-- R160: the results due join the result queue, and their contexts are FREE. -/
theorem Keeps.produceResults (s : State) : Keeps s s.produceResults := by
  intro a
  have hstay : ∀ c ∈ s.issue.contexts, 0 < s.outstandingOf c.number → c ∈ s.issue.contexts.filter (fun c =>
      !c.isDone) := by
    intro c hc hp
    rw [List.mem_filter]
    refine ⟨hc, ?_⟩
    have := a.counted c hc
    simp [Context.isDone]; right; omega
  refine ⟨⟨?_, ?_, ?_, a.apart, a.ofTags, ?_, ?_, ?_⟩, fun b => b.mono (s := s) rfl (Nat.le_of_eq rfl) (Nat.le_of_eq
      rfl) b.reading id id⟩
  · exact List.Nodup.sublist (List.Sublist.map _ List.filter_sublist) a.numbers
  · intro c hc; exact a.counted c (List.mem_filter.1 hc).1
  · intro t ht
    obtain ⟨c, hc, h1, h2⟩ := a.named t ht
    refine ⟨c, hstay c hc ?_, h1, h2⟩
    unfold State.outstandingOf
    have : 0 < (allTags.filter (fun t => (s.tagAt t).state.inFlight && decide ((s.tagAt t).context = some
        c.number))).length :=
      List.length_pos_of_mem (List.mem_filter.2 ⟨mem_allTags t, by
        rw [Bool.and_eq_true, decide_eq_true_eq]; exact ⟨ht, h1⟩⟩)
    omega
  · intro e he hw n ho
    obtain ⟨h0, c, hc, h1⟩ := a.ofNotices e he hw n ho
    refine ⟨h0, c, hstay c hc ?_, h1⟩
    unfold State.outstandingOf
    have : 0 < (s.sender.requests.filter (fun e => !e.withdrawn && decide (e.owner = .context c.number))).length :=
      List.length_pos_of_mem (List.mem_filter.2 ⟨he, by simp [hw, ho, h1]⟩)
    omega
  · intro c hc; exact a.finishing c (List.mem_filter.1 hc).1
  · intro c hc; exact a.leaving c (List.mem_filter.1 hc).1

end Sys2Proof.Machine
end

