-- ==== Sys2Proof/Laws/Untouched.lean ====
section
/-!
SUPPORT. Untouched: the shared operations of segments leave the life cycle alone, and neither read nor write the peer
records.
-/
namespace Sys2Proof.Machine

/-! ## The life cycle -/

/-- A fold of operations that keep the life cycle keeps it. -/
theorem life_foldl {α : Type} (f : State → α → State) (h : ∀ s a, (f s a).life = s.life) : ∀ (l : List α) (s :
    State), (l.foldl f s).life = s.life
  | [], _ => rfl
  | a :: rest, s => (life_foldl f h rest (f s a)).trans (h s a)

/-- Stopping a copy leaves the life cycle as it is. -/
theorem life_stopCopyOf (s : State) (n) : (s.stopCopyOf n).life = s.life := by unfold State.stopCopyOf; split <;> rfl

/-- Removing an entry leaves the life cycle as it is. -/
theorem life_removeEntry (s : State) (n) : (s.removeEntry n).life = s.life := by
  unfold State.removeEntry; dsimp only; split
  · exact life_stopCopyOf s n
  · exact life_stopCopyOf s n

/-- Removing a tag's entry leaves the life cycle as it is. -/
theorem life_removeEntryOf (s : State) (t) : (s.removeEntryOf t).life = s.life := by
  unfold State.removeEntryOf; split
  · exact life_removeEntry _ _
  · rfl

/-- The end of issuing leaves the life cycle as it is. -/
theorem life_issuingEnds (s : State) (n) : (s.issuingEnds n).life = s.life := by unfold State.issuingEnds; split <;> rfl

/-- Withdrawing a tag leaves the life cycle as it is. -/
theorem life_withdrawTag (s : State) (n) : (s.withdrawTag n).life = s.life := by
  unfold State.withdrawTag; dsimp only; split
  · exact life_removeEntryOf _ _
  · exact life_removeEntryOf _ _

/-- Withdrawing the later segments leaves the life cycle as it is. -/
theorem life_withdrawLater (s : State) (n k) : (s.withdrawLater n k).life = s.life :=
  life_foldl _ (fun s t => by split; exact life_withdrawTag _ _; rfl) _ _

/-- The failure of a segment leaves the life cycle as it is. -/
theorem life_failSegment (s : State) (n k st) : (s.failSegment n k st).life = s.life := by
  unfold State.failSegment; rw [life_withdrawLater, life_issuingEnds]; rfl

/-- An end report leaves the life cycle as it is. -/
theorem life_reportEnd (s : State) (n k st v) : (s.reportEnd n k st v).life = s.life := by
  unfold State.reportEnd; dsimp only; split
  · rfl
  · rw [life_failSegment]; rfl

/-- The end of a segment leaves the life cycle as it is. -/
theorem life_endSegment (s : State) (t st v) : (s.endSegment t st v).life = s.life := by
  unfold State.endSegment; dsimp only; split
  · rw [life_reportEnd]; show State.life (if st = .ok then _ else _) = _
    split <;> exact life_removeEntryOf _ _
  · show State.life (if st = .ok then _ else _) = _
    split <;> exact life_removeEntryOf _ _

/-- A cleanup leaves the life cycle as it is. -/
theorem life_cleanup (s : State) (p) : (s.cleanup p).life = s.life := by
  have e : (s.cleanup p).life = (s.cleanTags p).life := by
    unfold State.cleanup; generalize s.cleanTags p = u; rfl
  rw [e]; unfold State.cleanTags
  apply life_foldl
  intro s t
  unfold State.cleanTag; split
  · split
    · exact life_endSegment _ _ _ _
    · split <;> rfl
  · rfl

/-- The end of a wait for a peer leaves the life cycle as it is. -/
theorem life_endWaitFor (s : State) (p) : (s.endWaitFor p).life = s.life := by
  unfold State.endWaitFor; split
  · rfl
  · split
    · rfl
    · split
      · exact life_failSegment _ _ _ _
      · rfl

/-- Marking a peer ABSENT leaves the life cycle as it is. -/
theorem life_markAbsent (s : State) (p) : (s.markAbsent p).life = s.life := by
  unfold State.markAbsent; rw [life_cleanup, life_endWaitFor]; rfl

/-- The end of a notice leaves the life cycle as it is. -/
theorem life_endNotice (s : State) (n c st) : (s.endNotice n c st).life = s.life := by
  unfold State.endNotice; rw [life_reportEnd, life_removeEntry]

/-- R173: entry to HALTED leaves the life cycle as the record of the halt does. -/
theorem life_enterHalted (s : State) (c) : (s.enterHalted c).life = (s.recordHalt c).life := by
  have e0 : (s.enterHalted c).life = ((s.recordHalt c).haltSpan.haltCurrent.haltTags.haltNotices).life := by
    unfold State.enterHalted State.haltWork; generalize (s.recordHalt c).haltSpan.haltCurrent.haltTags.haltNotices
        = u; rfl
  rw [e0]
  generalize hu : (s.recordHalt c).haltSpan = u
  have e : u.life = (s.recordHalt c).life := by rw [← hu]; rfl
  rw [← e]
  have h1 : u.haltCurrent.life = u.life := by
    unfold State.haltCurrent; split
    · rfl
    · split
      · exact life_issuingEnds _ _
      · exact life_failSegment _ _ _ _
  have h2 : ∀ u : State, u.haltTags.life = u.life := fun u => life_foldl _ (fun s t => by
    unfold State.haltTag; split
    · exact life_endSegment _ _ _ _
    · split <;> rfl) _ _
  have h3 : ∀ u : State, u.haltNotices.life = u.life := fun u => life_foldl _ (fun s t => by
    unfold State.haltNotice
    (repeat' split)
    · rfl
    · exact life_endNotice _ _ _ _
    · rfl) _ _
  rw [h3, h2, h1]

/-- R173: no give-up is pending after entry to HALTED. -/
theorem giveUp_enterHalted (s : State) (c) : (s.enterHalted c).life.giveUp = none := by
  rw [life_enterHalted]; unfold State.recordHalt; dsimp only; split <;> rfl

/-- R173: the station is in HALTED after entry to it. -/
theorem station_enterHalted (s : State) (c) : (s.enterHalted c).life.station = .halted := by
  rw [life_enterHalted]; unfold State.recordHalt; dsimp only; split <;> rfl

/-! ## The peer records -/

/-- A fold of operations that commute with a change of the peer records commutes with it. -/
theorem withPeers_foldl {α : Type} (x : Vector PeerRecord 16) (f : State → α → State) (h : ∀ s a, (f s a).withPeers x
    = f (s.withPeers x) a) : ∀ (l : List α) (s : State), (l.foldl f s).withPeers x = l.foldl f (s.withPeers x)
  | [], _ => rfl
  | a :: rest, s => (withPeers_foldl x f h rest (f s a)).trans (by rw [h]; rfl)

/-- Stopping a copy commutes with a change of the peer records: it neither reads nor writes them. -/
theorem withPeers_stopCopyOf (x) (s : State) (n) : (s.stopCopyOf n).withPeers x = (s.withPeers x).stopCopyOf n := by
  unfold State.stopCopyOf; rw [show (s.withPeers x).issue = s.issue from rfl]; split <;> rfl

/-- Removing an entry commutes with a change of the peer records: it neither reads nor writes them. -/
theorem withPeers_removeEntry (x) (s : State) (n) : (s.removeEntry n).withPeers x = (s.withPeers x).removeEntry n := by
  unfold State.removeEntry; dsimp only
  rw [← withPeers_stopCopyOf]
  rw [show ((s.stopCopyOf n).withPeers x).fixedOn n = (s.stopCopyOf n).fixedOn n from rfl]
  split <;> rfl

/-- Removing a tag's entry commutes with a change of the peer records: it neither reads nor writes them. -/
theorem withPeers_removeEntryOf (x) (s : State) (t) : (s.removeEntryOf t).withPeers x = (s.withPeers x).removeEntryOf
    t := by
  unfold State.removeEntryOf
  rw [show (s.withPeers x).sender = s.sender from rfl]; split
  · exact withPeers_removeEntry _ _ _
  · rfl

/-- The end of issuing commutes with a change of the peer records: it neither reads nor writes them. -/
theorem withPeers_issuingEnds (x) (s : State) (n) : (s.issuingEnds n).withPeers x = (s.withPeers x).issuingEnds n := by
  unfold State.issuingEnds; rw [show (s.withPeers x).issue = s.issue from rfl]; split <;> rfl

/-- Withdrawing a tag commutes with a change of the peer records: it neither reads nor writes them. -/
theorem withPeers_withdrawTag (x) (s : State) (t) : (s.withdrawTag t).withPeers x = (s.withPeers x).withdrawTag t := by
  unfold State.withdrawTag; dsimp only
  rw [← withPeers_removeEntryOf, show (s.withPeers x).tagAt t = s.tagAt t from rfl]
  split <;> rfl

/-- Withdrawing the later segments commutes with a change of the peer records: it neither reads nor writes them. -/
theorem withPeers_withdrawLater (x) (s : State) (n k) : (s.withdrawLater n k).withPeers x = (s.withPeers
    x).withdrawLater n k :=
  withPeers_foldl x _ (fun s t => by
    rw [show (s.withPeers x).tagAt t = s.tagAt t from rfl]
    split
    · exact withPeers_withdrawTag _ _ _
    · rfl) _ _

/-- The failure of a segment commutes with a change of the peer records: it neither reads nor writes them. -/
theorem withPeers_failSegment (x) (s : State) (n k st) : (s.failSegment n k st).withPeers x = (s.withPeers
    x).failSegment n k st := by
  unfold State.failSegment; rw [withPeers_withdrawLater, withPeers_issuingEnds]; rfl

/-- An end report commutes with a change of the peer records: it neither reads nor writes them. -/
theorem withPeers_reportEnd (x) (s : State) (n k st v) : (s.reportEnd n k st v).withPeers x = (s.withPeers
    x).reportEnd n k st v := by
  unfold State.reportEnd; dsimp only; split
  · rfl
  · rw [withPeers_failSegment]; rfl

/-- The end of a segment commutes with a change of the peer records: it neither reads nor writes them. -/
theorem withPeers_endSegment (x) (s : State) (t st v) : (s.endSegment t st v).withPeers x = (s.withPeers
    x).endSegment t st v := by
  unfold State.endSegment; dsimp only
  rw [show (s.withPeers x).tagAt t = s.tagAt t from rfl, ← withPeers_removeEntryOf]
  split
  · rw [withPeers_reportEnd]; congr 1
    split <;> rfl
  · split <;> rfl

/-- The end of a segment leaves the peer records as they are. -/
theorem peers_endSegment (s : State) (t st v) : (s.endSegment t st v).peers = s.peers := by
  have := congrArg State.peers (withPeers_endSegment s.peers s t st v)
  exact this.symm

end Sys2Proof.Machine
end

