-- ==== Sys2Proof/Laws/Accounting.lean ====
section
/-!
SUPPORT. Accounting: the parts of the events keep the accounts of commands (R157) and the commitment law (R45).
-/
namespace Sys2Proof.Machine

/-- R107: no entry stands in a free storage place. -/
theorem freeSlot_spec {d : Sender} {slot : Fin 16} (h : d.freeSlot = some slot) : ∀ e ∈ d.requests, e.slot ≠ slot := by
  intro e he hs
  have := List.find?_some h
  have h2 := (Option.isNone_iff_eq_none.1 this)
  have := List.find?_eq_none.1 h2 e he
  simp [hs] at this

/-- R23: the tag granted is FREE. -/
theorem lowestFreeTag_spec {s : State} {t : Tag} (h : s.lowestFreeTag = some t) : (s.tagAt t).state = .free := by
  have := List.find?_some h
  simpa using this

/-- The current context is in use, and it is the current one. -/
theorem currentContext_spec {e : IssueEngine} {c : Context} (h : e.currentContext = some c) :
    c ∈ e.contexts ∧ e.current = some c.number := by
  refine ⟨?_, current_of_currentContext h⟩
  unfold IssueEngine.currentContext at h
  cases hc : e.current with
  | none => rw [hc] at h; cases h
  | some n => rw [hc] at h; exact List.mem_of_find?_eq_some h

/-- What the issue of a segment leaves of the contexts and the current command. -/
theorem segmentIssued_spec (s : State) (c : Context) :
    (s.segmentIssued c).issue.contexts = s.issue.contexts.map (fun x => if x.number = c.number then x.issued else x)
    ∧ (s.segmentIssued c).issue.current = (if c.next + 1 = c.total ∧ s.issue.current = some c.number then none else
        s.issue.current)
    ∧ (s.segmentIssued c).tags = s.tags ∧ (s.segmentIssued c).sender = s.sender ∧ (s.segmentIssued c).buffer = s.buffer
    ∧ (s.segmentIssued c).inForce = s.inForce ∧ (s.segmentIssued c).life = s.life := by
  unfold State.segmentIssued State.issuingEnds State.updateContext State.withWaiting State.withIssue
  dsimp only
  by_cases h1 : c.next + 1 = c.total <;> by_cases h2 : s.issue.current = some c.number <;>
    simp only [h1, h2, if_true, if_false, and_self, and_true, true_and]

/-- R153: the blocks of a READ segment are those of its bytes. -/
theorem segmentBlocks_read {c : CommandRecord} (h : c.kind = 0) (k : Nat) : c.segmentBlocks k = blocksFor
    (c.segmentLength k) := by
  unfold CommandRecord.segmentBlocks; rw [if_pos h]

/-- R44: the blocks of a number of bytes. -/
theorem blocksFor_eq (n : Nat) : blocksFor n = (n + 31) / 32 := rfl

/-- R46, R154, R157: a segment granted to the current command keeps both laws. -/
theorem Keeps.grantSegment {s : State} {c : Context} {t : Tag} {slot : Fin 16} (hc : s.issue.currentContext = some c)
    (ht : (s.tagAt t).state = .free) (hslot : ∀ e ∈ s.sender.requests, e.slot ≠ slot) (hk : c.command.hasTarget = true)
    (hb : c.command.segmentBlocks c.next ≤ s.availableBlocks) : Keeps s (s.grantSegment c t slot) := by
  intro a
  obtain ⟨hm, hcu⟩ := currentContext_spec hc
  obtain ⟨i1, i2, i3, i4, i5, i6, i7⟩ := segmentIssued_spec
    ((s.setTag t (c.command.grantedTag c.next (s.tagAt t).generation c.number)).appendEntry slot
        (c.command.segmentBody c.next t (s.tagAt t).generation)
      (.tag t) (c.command.entryState c.next)) c
  have hu : s.grantSegment c t slot = ((s.setTag t (c.command.grantedTag c.next (s.tagAt t).generation
      c.number)).appendEntry slot (c.command.segmentBody c.next t (s.tagAt t).generation)
      (.tag t) (c.command.entryState c.next)).segmentIssued c := rfl
  rw [← hu] at i1 i2 i3 i4 i5 i6 i7
  generalize s.grantSegment c t slot = u at i1 i2 i3 i4 i5 i6 i7
  change u.issue.contexts = s.issue.contexts.map _ at i1
  change u.issue.current = (if c.next + 1 = c.total ∧ s.issue.current = some c.number then none else s.issue.current)
      at i2
  change u.tags = s.tags.set t.val _ t.isLt at i3
  change u.buffer = s.buffer at i5
  change u.inForce = s.inForce at i6
  change u.life = s.life at i7
  set r := c.command.grantedTag c.next (s.tagAt t).generation c.number with hr
  have hta : ∀ x, u.tagAt x = if x = t then r else s.tagAt x := by
    intro x
    unfold State.tagAt
    rw [i3, tagAt_set]; rfl
  obtain ⟨e, i4q, he⟩ : ∃ e : RequestEntry, u.sender.requests = s.sender.requests ++ [e] ∧ (e.slot = slot ∧ e.owner =
      .tag t ∧ e.withdrawn = false) := by
    refine ⟨_, congrArg Sender.requests i4, rfl, rfl, rfl⟩
  obtain ⟨he1, he2, he3⟩ := he
  have hold : ∀ x ∈ s.sender.requests, x.withdrawn = false → x.owner ≠ .tag t := by
    intro x hx hw ho
    have := a.ofTags x hx hw t ho
    rw [ht] at this; cases this
  have hnum : ∀ x : Context, (if x.number = c.number then x.issued else x).number = x.number := by intro x; split <;>
      rfl
  have hcount : ∀ n, u.outstandingOf n = s.outstandingOf n + (if n = c.number then 1 else 0) := by
    intro n
    unfold State.outstandingOf
    have h1 : (u.sender.requests.filter (fun e => !e.withdrawn && decide (e.owner = .context n))).length
        = (s.sender.requests.filter (fun e => !e.withdrawn && decide (e.owner = .context n))).length := by
      rw [i4q, List.filter_append, List.filter_cons_of_neg (by rw [he2]; simp)]; simp
    have h2 : (allTags.filter (fun x => (u.tagAt x).state.inFlight && decide ((u.tagAt x).context = some n))).length
        = (allTags.filter (fun x => (s.tagAt x).state.inFlight && decide ((s.tagAt x).context = some n))).length
          + (if n = c.number then 1 else 0) := by
      have hp : ∀ x, ((u.tagAt x).state.inFlight && decide ((u.tagAt x).context = some n))
          = (((s.tagAt x).state.inFlight && decide ((s.tagAt x).context = some n)) || (decide (x = t) && decide (n =
              c.number))) := by
        intro x
        rw [hta]
        split
        · rename_i hx
          rw [hx, ht]
          have : r.state.inFlight = true := rfl
          have h2 : r.context = some c.number := rfl
          rw [this, h2]
          by_cases hn : n = c.number
          · simp [hn, TagState.inFlight]
          · have : ¬ c.number = n := fun e => hn e.symm
            simp [hn, this, TagState.inFlight]
        · rename_i hx; simp [hx]
      simp only [hp]
      rw [length_filter_or]
      · congr 1
        by_cases hn : n = c.number
        · simp only [hn, decide_true, Bool.and_true, if_true]; exact length_filter_tag t
        · simp [hn]
      · rintro x _ ⟨h1, h2⟩
        rw [Bool.and_eq_true, decide_eq_true_eq] at h2
        rw [h2.1, ht] at h1; simp [TagState.inFlight] at h1
    omega
  have hfin : ∀ x : Context, x ∈ s.issue.contexts → x.number = c.number → x = c := fun x hx hn =>
    List.inj_on_of_nodup_map a.numbers hx hm hn
  have hnl : c.phase ≠ .leave := fun h => (a.leaving c hm h).2 hcu
  refine ⟨⟨?_, ?_, ?_, ?_, ?_, ?_, ?_, ?_⟩, fun b => ⟨?_, ?_, ?_, ?_⟩⟩
  · rw [i1, List.map_map]
    have : Context.number ∘ (fun x : Context => if x.number = c.number then x.issued else x) = Context.number :=
        funext hnum
    rw [this]; exact a.numbers
  · intro x hx
    rw [i1, List.mem_map] at hx
    obtain ⟨x, hx, rfl⟩ := hx
    rw [hnum, hcount, ← a.counted x hx]
    split <;> rfl
  · intro x hx
    rw [hta] at hx ⊢
    split at hx
    · rename_i h
      rw [if_pos h]
      exact ⟨_, by rw [i1]; exact List.mem_map_of_mem hm, by rw [hnum]; rfl, by simp [hr, CommandRecord.grantedTag]⟩
    · rename_i h
      rw [if_neg h]
      obtain ⟨d, hd, h1, h2⟩ := a.named x hx
      exact ⟨_, by rw [i1]; exact List.mem_map_of_mem hd, by rw [hnum]; exact h1, h2⟩
  · rw [i4q]
    unfold EntriesApart
    rw [List.pairwise_append]
    refine ⟨a.apart, List.pairwise_singleton _ _, ?_⟩
    intro x hx y hy
    rw [List.mem_singleton] at hy
    subst hy
    rw [he1, he2]
    refine ⟨hslot x hx, fun hw _ t' ht' h => ?_⟩
    cases h
    exact hold x hx hw ht'
  · intro x hx hw t' ho
    rw [i4q, List.mem_append, List.mem_singleton] at hx
    rw [hta]
    rcases hx with hx | rfl
    · split
      · rfl
      · exact a.ofTags x hx hw t' ho
    · rw [he2] at ho
      cases ho
      rw [if_pos rfl]; rfl
  · intro x hx hw n ho
    rw [i4q, List.mem_append, List.mem_singleton] at hx
    rcases hx with hx | rfl
    · obtain ⟨h1, d, hd, h2⟩ := a.ofNotices x hx hw n ho
      exact ⟨h1, _, by rw [i1]; exact List.mem_map_of_mem hd, by rw [hnum]; exact h2⟩
    · rw [he2] at ho; cases ho
  · intro x hx hf
    rw [i1, List.mem_map] at hx
    obtain ⟨x, hx, rfl⟩ := hx
    rw [hnum]
    split at hf
    · rename_i hn
      rw [if_pos hn]
      have hxc := hfin x hx hn
      subst hxc
      simp only [Context.issued, Bool.or_eq_false_iff, decide_eq_false_iff_not] at hf
      left
      rw [i2, if_neg (fun h => hf.2 h.1)]; exact hcu
    · rename_i hn
      rw [if_neg hn]
      rcases a.finishing x hx hf with h | h
      · rw [hcu] at h
        exact absurd (by simpa using h.symm) hn
      · exact Or.inr h
  · intro x hx hl
    rw [i1, List.mem_map] at hx
    obtain ⟨x, hx, rfl⟩ := hx
    split at hl
    · rename_i hn
      have hxc := hfin x hx hn
      subst hxc
      simp only [Context.issued] at hl
      split at hl
      · cases hl
      · exact absurd hl hnl
    · rename_i hn
      rw [if_neg hn]
      obtain ⟨g1, g2⟩ := a.leaving x hx hl
      refine ⟨g1, ?_⟩
      rw [i2]; split
      · simp
      · exact g2
  · rw [i6]; exact b.limit
  · have h1 := reservedBlocks_set r i3
    have h2 : r.reserved = c.command.segmentBlocks c.next := rfl
    rw [i5, i6]
    unfold State.availableBlocks at hb
    have := b.committed
    omega
  · intro x hx hkd
    rw [hta] at hx hkd ⊢
    split at hx
    · rename_i h
      rw [if_pos h] at hkd ⊢
      have hk0 : c.command.kind = 0 := by
        by_contra hne
        simp only [hr, CommandRecord.grantedTag, CommandRecord.segmentKind, if_neg hne] at hkd
        split at hkd <;> cases hkd
      show c.command.segmentBlocks c.next = (c.command.segmentLength c.next - 0 + 31) / 32
      rw [segmentBlocks_read hk0]; rfl
    · rename_i h
      rw [if_neg h] at hkd ⊢
      exact b.reading x hx hkd
  · intro hq
    rw [i7] at hq
    have := (b.quiet hq).1
    rw [hcu] at this; cases this

/-- R143, R157: a NOTICE entry granted to the current command keeps both laws. -/
theorem Keeps.grantNotice {s : State} {c : Context} {slot : Fin 16} (hc : s.issue.currentContext = some c)
    (hslot : ∀ e ∈ s.sender.requests, e.slot ≠ slot) : Keeps s (s.grantNotice c slot) := by
  intro a
  obtain ⟨hm, hcu⟩ := currentContext_spec hc
  obtain ⟨i1, i2, i3, i4, i5, i6, i7⟩ := segmentIssued_spec
    (s.appendEntry slot (.notice c.command.noticeBytes) (.context c.number) .ready) c
  have hu : s.grantNotice c slot = (s.appendEntry slot (.notice c.command.noticeBytes) (.context c.number)
      .ready).segmentIssued c := rfl
  rw [← hu] at i1 i2 i3 i4 i5 i6 i7
  generalize s.grantNotice c slot = u at i1 i2 i3 i4 i5 i6 i7
  change u.issue.contexts = s.issue.contexts.map _ at i1
  change u.issue.current = (if c.next + 1 = c.total ∧ s.issue.current = some c.number then none else s.issue.current)
      at i2
  change u.tags = s.tags at i3
  change u.buffer = s.buffer at i5
  change u.inForce = s.inForce at i6
  change u.life = s.life at i7
  have hta : ∀ x, u.tagAt x = s.tagAt x := by
    intro x
    unfold State.tagAt
    rw [i3]
  obtain ⟨e, i4q, he⟩ : ∃ e : RequestEntry, u.sender.requests = s.sender.requests ++ [e] ∧ (e.slot = slot ∧ e.owner =
      .context c.number ∧ e.withdrawn = false ∧ e.key = none) := by
    refine ⟨_, congrArg Sender.requests i4, rfl, rfl, rfl, rfl⟩
  obtain ⟨he1, he2, he3, he4⟩ := he
  have hnum : ∀ x : Context, (if x.number = c.number then x.issued else x).number = x.number := by intro x; split <;>
      rfl
  have hcount : ∀ n, u.outstandingOf n = s.outstandingOf n + (if n = c.number then 1 else 0) := by
    intro n
    unfold State.outstandingOf
    have h1 : (u.sender.requests.filter (fun e => !e.withdrawn && decide (e.owner = .context n))).length
        = (s.sender.requests.filter (fun e => !e.withdrawn && decide (e.owner = .context n))).length + (if n =
            c.number then 1 else 0) := by
      rw [i4q, List.filter_append]
      by_cases hn : n = c.number
      · rw [List.filter_cons_of_pos (by rw [he2, he3, hn]; simp)]; simp [hn]
      · have : ¬ c.number = n := fun e => hn e.symm
        rw [List.filter_cons_of_neg (by rw [he2, he3]; simp [this])]; simp [hn]
    simp only [hta]
    omega
  have hfin : ∀ x : Context, x ∈ s.issue.contexts → x.number = c.number → x = c := fun x hx hn =>
    List.inj_on_of_nodup_map a.numbers hx hm hn
  have hnl : c.phase ≠ .leave := fun h => (a.leaving c hm h).2 hcu
  refine ⟨⟨?_, ?_, ?_, ?_, ?_, ?_, ?_, ?_⟩, fun b =>
    b.mono (s := s) (by rw [i6]) ?_ (by rw [i5]) ?_ (by rw [i7]; exact id) ?_⟩
  · rw [i1, List.map_map]
    have : Context.number ∘ (fun x : Context => if x.number = c.number then x.issued else x) = Context.number :=
        funext hnum
    rw [this]; exact a.numbers
  · intro x hx
    rw [i1, List.mem_map] at hx
    obtain ⟨x, hx, rfl⟩ := hx
    rw [hnum, hcount, ← a.counted x hx]
    split <;> rfl
  · intro x hx
    rw [hta] at hx ⊢
    obtain ⟨d, hd, h1, h2⟩ := a.named x hx
    exact ⟨_, by rw [i1]; exact List.mem_map_of_mem hd, by rw [hnum]; exact h1, h2⟩
  · rw [i4q]
    unfold EntriesApart
    rw [List.pairwise_append]
    refine ⟨a.apart, List.pairwise_singleton _ _, ?_⟩
    intro x hx y hy
    rw [List.mem_singleton] at hy
    subst hy
    rw [he1, he2]
    exact ⟨hslot x hx, fun hw _ t' ht' h => by cases h⟩
  · intro x hx hw t' ho
    rw [i4q, List.mem_append, List.mem_singleton] at hx
    rw [hta]
    rcases hx with hx | rfl
    · exact a.ofTags x hx hw t' ho
    · rw [he2] at ho; cases ho
  · intro x hx hw n ho
    rw [i4q, List.mem_append, List.mem_singleton] at hx
    rcases hx with hx | rfl
    · obtain ⟨h1, d, hd, h2⟩ := a.ofNotices x hx hw n ho
      exact ⟨h1, _, by rw [i1]; exact List.mem_map_of_mem hd, by rw [hnum]; exact h2⟩
    · rw [he2] at ho
      cases ho
      exact ⟨he4, _, by rw [i1]; exact List.mem_map_of_mem hm, by rw [hnum]⟩
  · intro x hx hf
    rw [i1, List.mem_map] at hx
    obtain ⟨x, hx, rfl⟩ := hx
    rw [hnum]
    split at hf
    · rename_i hn
      rw [if_pos hn]
      have hxc := hfin x hx hn
      subst hxc
      simp only [Context.issued, Bool.or_eq_false_iff, decide_eq_false_iff_not] at hf
      left
      rw [i2, if_neg (fun h => hf.2 h.1)]; exact hcu
    · rename_i hn
      rw [if_neg hn]
      rcases a.finishing x hx hf with h | h
      · rw [hcu] at h
        exact absurd (by simpa using h.symm) hn
      · exact Or.inr h
  · intro x hx hl
    rw [i1, List.mem_map] at hx
    obtain ⟨x, hx, rfl⟩ := hx
    split at hl
    · rename_i hn
      have hxc := hfin x hx hn
      subst hxc
      simp only [Context.issued] at hl
      split at hl
      · cases hl
      · exact absurd hl hnl
    · rename_i hn
      rw [if_neg hn]
      obtain ⟨g1, g2⟩ := a.leaving x hx hl
      refine ⟨g1, ?_⟩
      rw [i2]; split
      · simp
      · exact g2
  · rw [reservedBlocks_eq, reservedBlocks_eq]; simp only [hta]; exact le_refl _
  · simp only [hta]; exact b.reading
  · intro h; rw [hcu] at h; cases h

/-- R129, R154, R155: the current command's ask for its next segment keeps both laws. -/
theorem Keeps.issueNext (s : State) : Keeps s s.issueNext := by
  unfold State.issueNext
  split
  · rename_i c hc
    unfold State.issueSegment
    split
    · exact Keeps.failSegment _ _ _ _
    · split
      · unfold State.delaySegment
        split
        · exact Keeps.of_eq rfl rfl rfl rfl rfl rfl id
        · exact Keeps.of_eq rfl rfl rfl rfl rfl rfl id
      · rename_i hr
        simp only [WaitingFor.any, State.refused, Bool.or_eq_true, Bool.and_eq_true, decide_eq_true_eq, not_or,
            not_and] at hr
        unfold State.grant
        split
        · exact Keeps.refl _
        · rename_i slot hslot
          split
          · rename_i hk
            split
            · rename_i t ht
              exact Keeps.grantSegment hc (lowestFreeTag_spec ht) (freeSlot_spec hslot) hk (by have := hr.1.2 hk; omega)
            · exact Keeps.refl _
          · exact Keeps.grantNotice hc (freeSlot_spec hslot)
  · exact Keeps.refl _

/-- R71: the beginning of the head's service keeps both laws. -/
theorem Keeps.turnService (s : State) : Keeps s s.turnService := by
  unfold State.turnService
  (repeat' split) <;> exact Keeps.of_eq rfl rfl rfl rfl rfl rfl id

/-- R71, R101, R155, R160: what every event ends with keeps both laws. -/
theorem Keeps.settle (s : State) : Keeps s s.settle := by
  unfold State.settle
  have h1 : ∀ u : State, Keeps u u.askAgain := by
    intro u; unfold State.askAgain; split
    · exact Keeps.issueNext _
    · exact Keeps.refl _
  have h2 : ∀ u : State, Keeps u u.refreshOffer := fun u => Keeps.of_eq rfl rfl rfl rfl rfl rfl id
  exact (Keeps.produceResults _).trans ((h1 _).trans ((Keeps.produceResults _).trans ((h2 _).trans (Keeps.turnService _))))

/-- An ending of one tag's segment, or of a STALE tag, keeps both laws. -/
theorem Keeps.endTagIf (named st) (s : State) (t) : Keeps s (s.endTagIf named st t) := by
  unfold State.endTagIf
  split
  · split
    · rename_i h; exact Keeps.endSegment _ _ h
    · split
      · rename_i h; exact Keeps.freeStaleTag h
      · exact Keeps.refl _
  · exact Keeps.refl _

/-- A fold of changes that keep both laws keeps them. -/
theorem Keeps.fold {α : Type} (f : State → α → State) (h : ∀ s a, Keeps s (f s a)) : ∀ (l : List α) (s : State),
    Keeps s (l.foldl f s)
  | [], s => Keeps.refl s
  | a :: l, s => (h s a).trans (Keeps.fold f h l (f s a))

/-- R125: a cleanup keeps both laws. -/
theorem Keeps.cleanup (s : State) (p) : Keeps s (s.cleanup p) := by
  unfold State.cleanup
  have h : Keeps s (s.cleanTags p) := by
    rw [cleanTags_eq]
    exact Keeps.fold _ (Keeps.endTagIf _ _) _ _
  generalize s.cleanTags p = u at h
  exact h.trans (Keeps.trans (Keeps.cleanRequests u p)
    (Keeps.of_eq (s := u.cleanRequests p) rfl rfl rfl rfl rfl rfl id))

/-- R129: the end of a wait for a peer keeps both laws. -/
theorem Keeps.endWaitFor (s : State) (p) : Keeps s (s.endWaitFor p) := by
  unfold State.endWaitFor
  split
  · exact Keeps.refl _
  · split
    · exact Keeps.refl _
    · split
      · exact Keeps.failSegment _ _ _ _
      · exact Keeps.refl _

/-- R123: a peer's absence keeps both laws. -/
theorem Keeps.markAbsent (s : State) (p) : Keeps s (s.markAbsent p) := by
  unfold State.markAbsent
  refine Keeps.trans ?_ (Keeps.cleanup _ _)
  exact Keeps.trans (Keeps.of_eq (t := s.setPeer p _) rfl rfl rfl rfl rfl rfl id) (Keeps.endWaitFor _ _)

/-- R152: what the end of a LEAVE does to a context. -/
def leaveEnds (st : Status) (c : Context) : Context :=
  if c.phase = .leave then
    { c with issuingFinished := true, firstFailure := if st = .ok then none else some (0, st) }
  else c

/-- R152: the end of a LEAVE keeps both laws. -/
theorem Keeps.endLeave (s : State) (st) : Keeps s (s.endLeave st) := by
  intro a
  have hnum : ∀ c : Context, (leaveEnds st c).number = c.number := by
    intro c; unfold leaveEnds; split <;> rfl
  have hx : (s.endLeave st).issue.contexts = s.issue.contexts.map (leaveEnds st) := rfl
  refine ⟨⟨?_, ?_, ?_, a.apart, a.ofTags, ?_, ?_, ?_⟩, fun b => b.mono (s := s) rfl (Nat.le_of_eq rfl) (Nat.le_of_eq
      rfl) b.reading id id⟩
  · rw [hx, List.map_map]
    have : Context.number ∘ leaveEnds st = Context.number := funext hnum
    rw [this]; exact a.numbers
  · intro c hc
    rw [hx, List.mem_map] at hc
    obtain ⟨c, hc, rfl⟩ := hc
    rw [hnum]
    refine Eq.trans ?_ (a.counted c hc)
    unfold leaveEnds; split <;> rfl
  · intro t ht
    obtain ⟨c, hc, h1, h2⟩ := a.named t ht
    exact ⟨_, by rw [hx]; exact List.mem_map_of_mem hc, by rw [hnum]; exact h1, h2⟩
  · intro e he hw n ho
    obtain ⟨h0, c, hc, h1⟩ := a.ofNotices e he hw n ho
    exact ⟨h0, _, by rw [hx]; exact List.mem_map_of_mem hc, by rw [hnum]; exact h1⟩
  · intro c hc hf
    rw [hx, List.mem_map] at hc
    obtain ⟨c, hc, rfl⟩ := hc
    rw [hnum]
    unfold leaveEnds at hf ⊢
    split at hf
    · cases hf
    · rename_i h
      rw [if_neg h]; exact a.finishing c hc hf
  · intro c hc hl
    rw [hx, List.mem_map] at hc
    obtain ⟨c, hc, rfl⟩ := hc
    rw [hnum]
    unfold leaveEnds at hl ⊢
    split at hl
    · rename_i h
      rw [if_pos h]; exact a.leaving c hc h
    · rename_i h
      rw [if_neg h]; exact a.leaving c hc hl

/-- A state with no segment in progress keeps the accounts. -/
theorem accounted_empty {u : State} (h0 : ∀ x, (u.tagAt x).state.inFlight = false) (h1 : u.sender.requests = [])
    (hn : (u.issue.contexts.map Context.number).Nodup)
    (h2 : ∀ c ∈ u.issue.contexts, c.outstanding = 0 ∧ c.issuingFinished = true) (h3 : u.issue.current = none) :
        u.Accounted := by
  refine ⟨hn, ?_, ?_, ?_, ?_, ?_, ?_, ?_⟩
  · intro c hc
    rw [(h2 c hc).1]
    unfold State.outstandingOf
    rw [h1]
    have : allTags.filter (fun t => (u.tagAt t).state.inFlight && decide ((u.tagAt t).context = some c.number)) = []
        := by
      rw [List.filter_eq_nil_iff]; intro x _; rw [h0]; simp
    rw [this]; rfl
  · intro t ht; rw [h0] at ht; cases ht
  · rw [h1]; exact List.Pairwise.nil
  · rw [h1]; intro e he; cases he
  · rw [h1]; intro e he; cases he
  · intro c hc hf; rw [(h2 c hc).2] at hf; cases hf
  · intro c hc _; rw [h3]; exact ⟨(h2 c hc).1, by simp⟩

/-- R43, R163: the end of the current command's next segment at entry to HALTED keeps both laws. -/
theorem Keeps.haltCurrent (s : State) : Keeps s s.haltCurrent := by
  unfold State.haltCurrent
  split
  · exact Keeps.refl _
  · rename_i n hn
    split
    · rename_i hc
      intro a
      unfold State.issuingEnds
      rw [if_pos hn]
      refine ⟨⟨a.numbers, a.counted, a.named, a.apart, a.ofTags, a.ofNotices, ?_, ?_⟩,
        fun b => b.mono (s := s) rfl (Nat.le_of_eq rfl) (Nat.le_of_eq rfl) b.reading id (fun _ => rfl)⟩
      · intro c hcm hf
        rcases a.finishing c hcm hf with h | h
        · exfalso
          have := List.find?_eq_none.1 hc c hcm
          rw [hn] at h
          simp only [Option.some.injEq] at h
          simp [h] at this
        · exact Or.inr h
      · intro c hcm hl
        exact ⟨(a.leaving c hcm hl).1, by show (none : Option ContextNumber) ≠ _; simp⟩
    · exact Keeps.failSegment _ _ _ _

/-- What the end of a LEAVE and of the queues at entry to HALTED leaves alone. -/
theorem haltEnd_fields (v : State) : ((v.endLeave .halted).noCopy.haltQueues).tags = v.tags
    ∧ ((v.endLeave .halted).noCopy.haltQueues).buffer = v.buffer
    ∧ ((v.endLeave .halted).noCopy.haltQueues).inForce = v.inForce
    ∧ ((v.endLeave .halted).noCopy.haltQueues).life = v.life := by
  simp [State.haltQueues, State.noCopy, State.endLeave]

/-- R118, R144, R163: once the tags are FREE and nothing is current, the end of the NOTICEs and of a LEAVE at entry to HALTED
keeps both laws. -/
theorem Keeps.haltNotices {w v : State} (hcur2 : w.issue.current = none) (hfree : ∀ x, (w.tagAt x).state = .free)
    (hv : v = w.haltNotices) (hst : v.life.station = .halted) : Keeps w ((v.endLeave .halted).noCopy.haltQueues) := by
  intro aw
  obtain ⟨n1, _⟩ := haltNotices_spec w.sender.requests w hfree hcur2
  have hn : v = w.sender.requests.foldl State.haltNotice w := hv
  rw [← hn] at n1
  clear hn hv
  have hvt : ∀ x, v.tagAt x = w.tagAt x := fun x => tagAt_of_segmentView (congrArg SegmentView.tags n1) x
  have hvc : v.issue.contexts = _ := congrArg SegmentView.contexts n1
  have hvcur : v.issue.current = none := (congrArg SegmentView.current n1).trans hcur2
  have hux : ((v.endLeave .halted).noCopy.haltQueues).issue.contexts = v.issue.contexts.map (leaveEnds .halted) := rfl
  have hut : ∀ x, ((v.endLeave .halted).noCopy.haltQueues).tagAt x = w.tagAt x := fun x => by
    unfold State.tagAt at hvt ⊢; rw [(haltEnd_fields v).1]; exact hvt x
  have hf0 : v.inForce = w.inForce := congrArg SegmentView.inForce n1
  have hb0 : v.buffer = w.buffer := congrArg SegmentView.buffer n1
  have hforce := (haltEnd_fields v).2.2.1.trans hf0
  have hbuf := (haltEnd_fields v).2.1.trans hb0
  have hlf : ((v.endLeave .halted).noCopy.haltQueues).life.station = .halted := by
    rw [(haltEnd_fields v).2.2.2]; exact hst
  have hin : ∀ x, (w.tagAt x).state.inFlight = false := fun x => by rw [hfree]; rfl
  refine ⟨accounted_empty (fun x => ?_) rfl ?_ ?_ hvcur, fun b => ?_⟩
  · rw [hut]; exact hin x
  · have h : ((v.endLeave .halted).noCopy.haltQueues).issue.contexts.map Context.number = w.issue.contexts.map
        Context.number := by
      rw [hux, hvc, List.map_map, List.map_map]
      apply List.map_congr_left
      intro c _
      simp only [Function.comp]; unfold leaveEnds; split <;> rfl
    rw [h]; exact aw.numbers
  · intro c hc
    rw [hux, List.mem_map] at hc
    obtain ⟨c, hc, rfl⟩ := hc
    rw [hvc, List.mem_map] at hc
    obtain ⟨c, hc, rfl⟩ := hc
    have hcount := aw.counted c hc
    have hof : w.outstandingOf c.number = (noticesOf w.sender.requests c.number).length := by
      unfold State.outstandingOf noticesOf
      have : allTags.filter (fun t => (w.tagAt t).state.inFlight && decide ((w.tagAt t).context = some c.number)) =
          [] := by
        rw [List.filter_eq_nil_iff]; intro x _; rw [hin]; simp
      rw [this]; simp
    have hz : (c.ending .halted (noticesOf w.sender.requests c.number).length ((noticesOf w.sender.requests
        c.number).map (fun _ => 0))).outstanding = 0 := by
      show c.outstanding - _ = 0
      omega
    unfold leaveEnds
    split
    · exact ⟨hz, rfl⟩
    · rename_i hp
      refine ⟨hz, ?_⟩
      by_contra hf
      rw [Bool.not_eq_true] at hf
      simp only [Context.ending, Bool.or_eq_false_iff, decide_eq_false_iff_not, not_not] at hf hp
      rw [if_pos hf.2] at hp
      rcases aw.finishing c hc hf.1 with h | h
      · rw [hcur2] at h; cases h
      · exact hp h
  · refine b.mono (s := w) (by rw [hforce]) ?_ (by rw [hbuf]) ?_ ?_ (fun _ => hvcur)
    · rw [reservedBlocks_eq, reservedBlocks_eq]; simp only [hut]; exact le_refl _
    · intro x; rw [hut, hin]; intro h; cases h
    · rw [hlf]; simp


/-- R43, R118, R163: entry to HALTED keeps both laws. -/
theorem Keeps.enterHalted (s : State) (cause) : Keeps s (s.enterHalted cause) := by
  intro a
  have k0 : Keeps s (s.recordHalt cause).haltSpan := by
    apply Keeps.of_eq
    all_goals first
      | (unfold State.recordHalt; dsimp only; split <;> rfl)
      | skip
    intro h
    have : (s.recordHalt cause).haltSpan.life.station = .halted := by
      unfold State.recordHalt; dsimp only; split <;> rfl
    rw [this] at h; simp at h
  have hst := station_enterHalted s cause
  have k1 := k0.trans (Keeps.haltCurrent _)
  have k2 := k1.trans (show Keeps _ (s.recordHalt cause).haltSpan.haltCurrent.haltTags by
    rw [haltTags_eq]; exact Keeps.fold _ (Keeps.endTagIf _ _) _ _)
  have hcur1 : (s.recordHalt cause).haltSpan.haltCurrent.issue.current = none := by
    obtain ⟨_, _, _, h, _⟩ := haltCurrent_spec (s.recordHalt cause).haltSpan
    exact congrArg SegmentView.current h
  have hcur2 := (cur_wait_endTags (fun _ => true) .halted allTags _ hcur1).1
  have hfree : ∀ x, ((s.recordHalt cause).haltSpan.haltCurrent.haltTags.tagAt x).state = .free := by
    intro x
    rw [haltTags_eq, tagAt_endTags (by decide) (by decide) _ allTags_nodup, goneHalt]
    split
    · rfl
    · rename_i h
      simp only [mem_allTags, decide_true, Bool.true_and, Bool.or_eq_true, decide_eq_true_eq, not_or] at h
      generalize ((s.recordHalt cause).haltSpan.haltCurrent.tagAt x).state = y at h
      cases y <;> simp [TagState.inFlight] at h ⊢
  rw [← haltTags_eq] at hcur2
  have hs : s.enterHalted cause = (((s.recordHalt cause).haltSpan.haltCurrent.haltTags.haltNotices).endLeave
      .halted).noCopy.haltQueues := rfl
  have hl : ((s.recordHalt cause).haltSpan.haltCurrent.haltTags.haltNotices).life.station = .halted := by
    rw [hs] at hst
    generalize (s.recordHalt cause).haltSpan.haltCurrent.haltTags.haltNotices = v at hst
    exact hst
  rw [hs]
  generalize (s.recordHalt cause).haltSpan.haltCurrent.haltTags = w at k2 hcur2 hfree hl
  exact (k2.trans (Keeps.haltNotices hcur2 hfree rfl hl)) a

/-! ## The meanings -/

/-- R174, R175: a reset keeps the accounts and the commitment law. -/
theorem kept_reset (s : State) (st n) : (s.resetUnits st n).Accounted ∧ (s.resetUnits st n).BlocksKept := by
  have ht : ∀ x, (s.resetUnits st n).tagAt x = TagRecord.freeOf 0 := by
    intro x
    show resetTags[x.val] = _
    simp [resetTags]
  have hr : (s.resetUnits st n).reservedBlocks = 0 := by
    rw [reservedBlocks_eq]; simp only [ht]; decide
  refine ⟨accounted_empty (fun x => by rw [ht]; rfl) rfl List.nodup_nil (fun c hc => by cases hc) rfl, ?_, ?_, ?_, ?_⟩
  · show (96 : BitVec 8).toNat ≤ 96; decide
  · rw [hr]; show 0 + 0 ≤ (96 : BitVec 8).toNat; decide
  · intro x hx; rw [ht] at hx; cases hx
  · intro _; exact ⟨rfl, hr, rfl⟩

/-- R124: a SILENT report keeps both laws. -/
theorem Keeps.reportSilence (s : State) (p) : Keeps s (s.reportSilence p) := by
  unfold State.reportSilence State.silentReport
  split
  · split
    · exact Keeps.refl _
    · exact Keeps.markAbsent _ _
  · exact Keeps.refl _

/-- R24, R110: a tag whose request was accepted waits for its completions, and its entry leaves. -/
theorem Keeps.requestSent {s : State} {e : RequestEntry} {t : Tag} (he : e ∈ s.sender.requests) (hw : e.withdrawn =
    false)
    (ho : e.owner = .tag t) (h0 : (s.tagAt t).state.waitsToGo = true) :
    Keeps s ((s.removeEntry e.slot).setTag t { s.tagAt t with state := .sent, deadline := some (s.clock + s.timeout)
        }) := by
  intro acc
  have k1 := Keeps.removeTagEntry he ho
  have hv := segmentView_removeEntry s e.slot
  have hes := entrySide_removeEntry s e he
  have ht : (s.removeEntry e.slot).tagAt t = s.tagAt t := tagAt_of_segmentView (congrArg SegmentView.tags hv) t
  have hrq : (s.removeEntry e.slot).sender.requests = _ := congrArg EntrySide.requests hes
  generalize s.removeEntry e.slot = w at k1 ht hrq
  refine (k1.trans ?_) acc
  refine Keeps.setSame (s := w) (t := t) { s.tagAt t with state := .sent, deadline := some (s.clock + s.timeout) }
    ?_ (fun _ => by rw [ht]; exact ⟨rfl, rfl⟩) (fun _ => Or.inr ?_) (by rw [ht]) (fun _ => by rw [ht]; exact ⟨rfl,
        rfl, rfl, rfl⟩)
    rfl rfl rfl rfl rfl rfl rfl
  · rw [ht, waits_inFlight h0]; rfl
  · intro _ x hx hxw hxo
    rw [hrq] at hx
    obtain ⟨e0, he0, hl⟩ := List.mem_filterMap.1 hx
    obtain ⟨_, _, _, h⟩ := leaves_some hl
    obtain ⟨g1, g2, rfl⟩ := h hxw
    have := acc.apart.owner_inj he0 he g1 hw hxo ho
    rw [this] at g2
    simp at g2

/-- R110, R114: the outcome of a live entry keeps both laws. -/
theorem Keeps.entryOutcome {s : State} {e : RequestEntry} (he : e ∈ s.sender.requests) (hw : e.withdrawn = false) (a
    : Answer) :
    Keeps s (s.entryOutcome e a) := by
  intro acc
  have hown : ∀ t, e.owner = .tag t → (s.tagAt t).state.waitsToGo = true := fun t ho => acc.ofTags e he hw t ho
  have hstate : ∀ x : TagState, x.waitsToGo = true → Keeps s (s.setOwnerState e.owner x) := by
    intro x hx
    unfold State.setOwnerState
    split
    · rename_i t ho
      have h0 := waits_inFlight (hown t ho)
      refine Keeps.setSame (s := s) (t := t) { s.tagAt t with state := x } ?_ (fun _ => ⟨rfl, rfl⟩) (fun _ => Or.inl
          hx) (le_refl _)
        (fun _ => ⟨rfl, rfl, rfl, rfl⟩) rfl rfl rfl rfl rfl rfl rfl
      exact (waits_inFlight hx).trans h0.symm
    · exact Keeps.refl _
  have hmap : ∀ f : RequestEntry → RequestEntry, (∀ e, (f e).slot = e.slot ∧ (f e).owner = e.owner ∧ (f e).withdrawn
      = e.withdrawn ∧ (f e).key = e.key) →
      ∀ x : TagState, x.waitsToGo = true → Keeps s ((s.updateEntry e.slot f).setOwnerState e.owner x) := by
    intro f hf x hx
    have h1 := hstate x hx
    have e1 : (s.updateEntry e.slot f).setOwnerState e.owner x = (s.setOwnerState e.owner x).updateEntry e.slot f := by
      unfold State.setOwnerState; split <;> rfl
    rw [e1]
    refine h1.trans (Keeps.mapRequests (fun y => if y.slot = e.slot then f y else y) ?_ rfl rfl rfl rfl rfl rfl rfl)
    intro y; split
    · exact hf y
    · exact ⟨rfl, rfl, rfl, rfl⟩
  have hdam : Keeps s (s.entryDamaged e) := by
    unfold State.entryDamaged
    split
    · exact hmap RequestEntry.afterDamage (fun e => ⟨rfl, rfl, rfl, rfl⟩) .queued rfl
    · exact Keeps.endEntry he hw _
  refine (show Keeps s _ from ?_) acc
  cases a with
  | accept =>
    show Keeps s (s.entryAccepted e)
    unfold State.entryAccepted
    split
    · rename_i t ho
      unfold State.tagAccepted
      split
      · exact Keeps.endSegment _ _ (waits_inFlight (hown t ho))
      · exact Keeps.requestSent he hw ho (hown t ho)
    · rename_i n ho
      exact Keeps.endNotice he hw ho _
  | refuse =>
    show Keeps s (s.entryRefused e)
    unfold State.entryRefused
    split
    · rename_i t ho; exact Keeps.endSegment _ _ (waits_inFlight (hown t ho))
    · rename_i n ho; exact Keeps.endNotice he hw ho _
  | silent =>
    show Keeps s (s.entrySilent e)
    unfold State.entrySilent
    split
    · rename_i t ho; exact (Keeps.endSegment _ _ (waits_inFlight (hown t ho))).trans (Keeps.reportSilence _ _)
    · rename_i n ho; exact Keeps.endNotice he hw ho _
  | busy =>
    show Keeps s (s.entryBusy e)
    unfold State.entryBusy
    have h := hmap (fun x => x.afterBusy s.clock) (fun e => ⟨rfl, rfl, rfl, rfl⟩) .held rfl
    generalize (s.updateEntry e.slot (fun x => x.afterBusy s.clock)).setOwnerState e.owner .held = u at h
    exact h.trans (Keeps.of_eq (s := u) rfl rfl rfl rfl rfl rfl id)
  | damaged => exact hdam

/-- R116: the outcome of a request entry keeps both laws. -/
theorem Keeps.requestOutcome (s : State) (n a) : Keeps s (s.requestOutcome n a) := by
  unfold State.requestOutcome
  split
  · exact Keeps.refl _
  · rename_i e he
    split
    · exact Keeps.dropWithdrawn _
    · rename_i hw
      exact Keeps.entryOutcome (List.mem_of_find?_eq_some he) (by simpa using hw) a

/-- R105: the outcome of a completion keeps both laws. -/
theorem Keeps.responseOutcome (s : State) (a) : Keeps s (s.responseOutcome a) := by
  unfold State.responseOutcome
  split
  · exact Keeps.refl _
  · split
    · exact Keeps.of_eq rfl rfl rfl rfl rfl rfl id
    · exact Keeps.of_eq rfl rfl rfl rfl rfl rfl id
    · exact (Keeps.of_eq (s := s) (t := s.dropResponse) rfl rfl rfl rfl rfl rfl id).trans (Keeps.reportSilence _ _)
    · exact Keeps.refl _
    · unfold State.responseDamaged; split
      · exact Keeps.of_eq rfl rfl rfl rfl rfl rfl id
      · exact Keeps.of_eq rfl rfl rfl rfl rfl rfl id

/-- R43: the STALE tags becoming FREE keeps both laws. -/
theorem Keeps.freeStale (s : State) : Keeps s s.freeStale := by
  refine Keeps.fold _ ?_ _ _
  intro s t
  unfold State.freeIfStale
  split
  · rename_i h; exact Keeps.freeStaleTag h
  · exact Keeps.refl _

/-- R169, R172: the outcome of the control frame keeps both laws. -/
theorem Keeps.controlOutcome (s : State) (a) : Keeps s (s.controlOutcome a) := by
  have hd : ∀ k, Keeps s (s.controlDone k) := by
    intro k
    cases k with
    | join => exact Keeps.of_eq rfl rfl rfl rfl rfl rfl (fun h => by
        change StationState.running = _ ∨ StationState.running = _ at h; simp at h)
    | leave =>
      show Keeps s s.left
      unfold State.left
      refine (Keeps.of_eq (s := s) (t := s.emptyControl) rfl rfl rfl rfl rfl rfl id).trans ((Keeps.freeStale _).trans
          ((Keeps.endLeave _ .ok).trans ?_))
      generalize (s.emptyControl.freeStale).endLeave .ok = u
      exact Keeps.of_eq (s := u) rfl rfl rfl rfl rfl rfl (fun h => by
        change StationState.detached = _ ∨ StationState.detached = _ at h; simp at h)
  unfold State.controlOutcome
  split
  · exact Keeps.refl _
  · split
    · exact hd _
    · exact hd _
    · exact hd _
    · exact Keeps.refl _
    · unfold State.controlDamaged; split
      · exact Keeps.of_eq rfl rfl rfl rfl rfl rfl id
      · exact Keeps.enterHalted _ _

/-- R10: the own frame's outcome keeps both laws. -/
theorem Keeps.ownOutcome (s : State) (a) : Keeps s (s.ownOutcome a) := by
  have h0 : Keeps s s.endAttempt := Keeps.of_eq rfl rfl rfl rfl rfl rfl id
  unfold State.ownOutcome
  split
  · refine h0.trans ?_
    unfold State.outcomeAt; split
    · exact Keeps.controlOutcome _ _
    · exact Keeps.responseOutcome _ _
    · exact Keeps.requestOutcome _ _ _
  · exact h0

/-- R18: the own frame's conflict keeps both laws. -/
theorem Keeps.ownConflict (s : State) : Keeps s s.ownConflict := by
  have h0 : Keeps s s.endAttempt := Keeps.of_eq rfl rfl rfl rfl rfl rfl id
  unfold State.ownConflict
  split
  · refine h0.trans ?_
    unfold State.conflictAt; split
    · unfold State.controlConflict; (repeat' split)
      · exact Keeps.refl _
      · exact Keeps.of_eq rfl rfl rfl rfl rfl rfl id
      · exact Keeps.of_eq rfl rfl rfl rfl rfl rfl id
    · exact Keeps.responseOutcome _ _
    · exact Keeps.requestOutcome _ _ _
  · exact h0

/-- A change of the incident unit alone keeps both laws. -/
theorem Keeps.countUnexpected (s : State) (f) : Keeps s (s.countUnexpected f) := by
  unfold State.countUnexpected
  split
  · exact Keeps.of_eq rfl rfl rfl rfl rfl rfl id
  · exact Keeps.refl _

/-- A receiver's counts keep both laws. -/
theorem Keeps.countAnswer (s : State) (f d a) : Keeps s (s.countAnswer f d a) := by
  unfold State.countAnswer State.countRequestAnswer
  (repeat' split) <;> first
    | exact Keeps.refl _
    | exact Keeps.countUnexpected _ _
    | exact Keeps.of_eq rfl rfl rfl rfl rfl rfl id

/-- R29: a completion matched is expected by its tag. -/
theorem matching_matched {r : TagRecord} {source g b} (h : r.matching source g b = .matched) : r.expects b = true := by
  unfold TagRecord.matching at h
  split at h
  · cases h
  · split at h
    · cases h
    · split at h
      · assumption
      · cases h

/-- R29: a late completion names a STALE tag. -/
theorem matching_late {r : TagRecord} {source g b} (h : r.matching source g b = .late) : r.state = .stale := by
  unfold TagRecord.matching at h
  split at h
  · cases h
  · split at h
    · assumption
    · split at h <;> cases h

/-- R29: the states that await completions. -/
theorem awaits_iff {x : TagState} (h : x.awaits = true) : x = .sent ∨ x = .partialRead := by
  cases x <;> simp [TagState.awaits] at h ⊢

/-- R31, R47: a matched piece keeps both laws. -/
theorem Keeps.commitPiece {s : State} {t : Tag} {g : Generation} {p : Nat} {data : List Byte} {last : Bool}
    (he : (s.tagAt t).expectsPiece p data.length last = true) (hns : ¬ (s.life.station = .init ∨ s.life.station =
        .config)) :
    Keeps s (s.commitPiece t g p data) := by
  simp only [TagRecord.expectsPiece, Bool.and_eq_true, decide_eq_true_eq] at he
  obtain ⟨⟨⟨⟨⟨h1, h2⟩, h3⟩, h4⟩, h5⟩, _⟩ := he
  have hs := awaits_iff h1
  have hf := awaits_inFlight hs
  have hnw : (s.tagAt t).state.waitsToGo = false := by rcases hs with h | h <;> rw [h] <;> rfl
  have h5' : data.length = min 128 ((s.tagAt t).length - p) := h5
  have hbk : blocksFor data.length = (data.length + 31) / 32 := rfl
  refine Keeps.setTag (t := t) { s.tagAt t with
    state := .partialRead
    received := (s.tagAt t).received + data.length
    reserved := (s.tagAt t).reserved - blocksFor data.length } ?_ (fun _ => ⟨rfl, rfl⟩)
    (fun h => by rw [hnw] at h; cases h) ?_
    (fun _ _ h => absurd h hns) ?_ rfl rfl rfl rfl rfl rfl
  · rw [hf]; rfl
  · intro b
    have hres := b.reading t hf h2
    have hset := reservedBlocks_set (s := s) (u := s.commitPiece t g p data) (t := t) _ rfl
    have hocc : (s.commitPiece t g p data).buffer.occupied = s.buffer.occupied + blocksFor data.length := by
      simp only [State.commitPiece, State.withBuffer, State.setTag, State.withTags, CompletionBuffer.occupied,
          List.map_append, List.sum_append, Piece.blocks,
        List.map_cons, List.map_nil, List.sum_cons, List.sum_nil]
      omega
    dsimp only at hset
    omega
  · intro b _ _
    have hres := b.reading t hf h2
    dsimp only
    rw [hbk]
    omega

/-- R30 to R34: the commit of a completion keeps both laws. -/
theorem Keeps.commitCompletion {s : State} {f : Frame} {t : Tag} (hns : ¬ (s.life.station = .init ∨ s.life.station =
    .config))
    (ht : ∃ g k, FrameBody.completion f.body = some (t, g, k)) : Keeps s (s.commitCompletion f t) := by
  obtain ⟨g0, k0, hc⟩ := ht
  have hm : s.matching f.source f.body = (s.tagAt t).matching f.source g0 f.body := by
    unfold State.matching; rw [hc]
  unfold State.commitCompletion
  split
  · rename_i h
    rw [hm] at h
    have he := matching_matched h
    unfold State.commitMatched
    split
    · rename_i tgt tag g second last data hb
      rw [hb] at hc he
      cases hc
      exact Keeps.commitPiece he hns
    · rename_i tgt tag g old hb
      rw [hb] at hc he
      cases hc
      simp only [TagRecord.expects, Bool.and_eq_true, decide_eq_true_eq] at he
      exact Keeps.endSegment _ _ (awaits_inFlight (Or.inl he.1))
    · rename_i tgt tag g hb
      rw [hb] at hc he
      cases hc
      simp only [TagRecord.expects, Bool.and_eq_true] at he
      refine Keeps.endSegment _ _ ?_
      exact awaits_inFlight (awaits_iff he.1)
    · exact Keeps.refl _
  · rename_i h
    rw [hm] at h
    have hst := matching_late h
    unfold State.commitLate
    dsimp only
    have h0 : Keeps s (s.report .lateCompletion) := Keeps.of_eq rfl rfl rfl rfl rfl rfl id
    split
    · exact h0.trans (Keeps.freeStaleTag (s := s.report .lateCompletion) (t := t) hst)
    · exact h0
  · exact Keeps.countUnexpected _ _

/-- R9: a commit keeps both laws. -/
theorem Keeps.commit (s : State) (f) (hns : ¬ (s.life.station = .init ∨ s.life.station = .config)) : Keeps s
    (s.commit f) := by
  unfold State.commit
  split
  all_goals first
    | exact Keeps.refl _
    | exact Keeps.of_eq rfl rfl rfl rfl rfl rfl id
    | (rename_i hb; exact Keeps.commitCompletion hns ⟨_, _, by rw [hb]; rfl⟩)

/-- R10: a source observation keeps both laws. -/
theorem Keeps.observe (s : State) (f) : Keeps s (s.observe f) := by
  unfold State.observe State.observeOwn State.observePeer
  (repeat' split)
  · exact Keeps.enterHalted _ _
  · exact Keeps.refl _
  · unfold State.observeJoin; dsimp only
    have h0 : ∀ p, Keeps s (s.setPeer f.source p) := fun p => Keeps.of_eq rfl rfl rfl rfl rfl rfl id
    split
    · exact (h0 _).trans (Keeps.cleanup _ _)
    · exact h0 _
  · exact Keeps.markAbsent _ _
  · exact Keeps.of_eq rfl rfl rfl rfl rfl rfl id

/-- R9, R10: the resolution of a received frame keeps both laws, on the span. -/
theorem Keeps.resolveReceived (s : State) (r a) (hns : ¬ (s.life.station = .init ∨ s.life.station = .config)) : Keeps
    s (s.resolveReceived r a) := by
  unfold State.resolveReceived
  split
  · rename_i f _
    unfold State.resolveFrame
    dsimp only
    have h1 := Keeps.countAnswer s f r.drove a
    have hl : (s.countAnswer f r.drove a).life = s.life := by
      unfold State.countAnswer State.countRequestAnswer State.countUnexpected
      (repeat' split) <;> rfl
    generalize s.countAnswer f r.drove a = v at h1 hl
    refine h1.trans ?_
    have h2 : Keeps v (if r.take = true ∧ a = .accept then v.commit f else v) := by
      split
      · exact Keeps.commit _ _ (by rw [hl]; exact hns)
      · exact Keeps.refl _
    generalize (if r.take = true ∧ a = .accept then v.commit f else v) = w at h2 ⊢
    refine h2.trans ?_
    split
    · exact Keeps.refl _
    · exact Keeps.observe _ _
  · exact Keeps.refl _

/-- R173: a give-up keeps both laws. -/
theorem Keeps.completeGiveUp (s : State) : Keeps s s.completeGiveUp := by
  unfold State.completeGiveUp
  (repeat' split)
  · exact Keeps.enterHalted _ _
  · exact Keeps.refl _
  · exact Keeps.refl _

/-- A SILENT report leaves the life cycle as it is. -/
theorem life_reportSilence (s : State) (p) : (s.reportSilence p).life = s.life := by
  unfold State.reportSilence State.silentReport
  split
  · split
    · rfl
    · exact life_markAbsent _ _
  · rfl

/-- The end of an entry leaves the life cycle as it is. -/
theorem life_endEntry (s : State) (e st) : (s.endEntry e st).life = s.life := by
  unfold State.endEntry; split
  · exact life_endSegment _ _ _ _
  · exact life_endNotice _ _ _ _

/-- The outcome of an entry leaves the life cycle as it is. -/
theorem life_entryOutcome (s : State) (e a) : (s.entryOutcome e a).life = s.life := by
  unfold State.entryOutcome State.entryAccepted State.entryRefused State.entrySilent State.entryBusy
      State.entryDamaged State.tagAccepted
  (repeat' split)
  all_goals first
    | exact life_endSegment _ _ _ _
    | exact life_endNotice _ _ _ _
    | exact life_endEntry _ _ _
    | exact (life_reportSilence _ _).trans (life_endSegment _ _ _ _)
    | exact life_removeEntry _ _
    | (unfold State.setOwnerState; split <;> rfl)

/-- R10: the own frame's outcome leaves the station where it is, or in RUNNING, DETACHED or HALTED. -/
theorem station_ownOutcome (s : State) (a) : (s.ownOutcome a).life.station = s.life.station ∨
    ¬ ((s.ownOutcome a).life.station = .init ∨ (s.ownOutcome a).life.station = .config) := by
  unfold State.ownOutcome
  split
  · unfold State.outcomeAt; split
    · unfold State.controlOutcome
      have hd : ∀ k, ¬ ((s.endAttempt.controlDone k).life.station = .init ∨ (s.endAttempt.controlDone k).life.station
          = .config) := by
        intro k
        cases k
        · show ¬ (StationState.running = _ ∨ StationState.running = _); simp
        · have : (s.endAttempt.controlDone .leave).life.station = .detached := by
            show (((s.endAttempt.emptyControl.freeStale).endLeave .ok).enter .detached).life.station = .detached
            generalize (s.endAttempt.emptyControl.freeStale).endLeave .ok = u
            rfl
          rw [this]; simp
      split
      · exact Or.inl rfl
      · split
        · exact Or.inr (hd _)
        · exact Or.inr (hd _)
        · exact Or.inr (hd _)
        · exact Or.inl rfl
        · unfold State.controlDamaged; split
          · exact Or.inl rfl
          · right; rw [station_enterHalted]; simp
    · left
      unfold State.responseOutcome
      (repeat' split)
      · rfl
      · rfl
      · rfl
      · rw [life_reportSilence]; rfl
      · rfl
      · unfold State.responseDamaged; split <;> rfl
    · left
      unfold State.requestOutcome
      (repeat' split)
      · rfl
      · rfl
      · rw [life_entryOutcome]; rfl
  · exact Or.inl rfl

/-- R10: the reports of a resolution keep both laws. -/
theorem Keeps.makeReports (s : State) (r o) (hon : s.life.station.onSpan = true) : Keeps s (s.makeReports r o) := by
  have hns : ¬ (s.life.station = .init ∨ s.life.station = .config) := by
    rintro (h | h) <;> (rw [h] at hon; cases hon)
  unfold State.makeReports
  have k1 : ∀ a, Keeps s (s.countDamage a) := by
    intro a
    unfold State.countDamage; split
    · exact Keeps.of_eq rfl rfl rfl rfl rfl rfl id
    · exact Keeps.refl _
  have l1 : ∀ a, (s.countDamage a).life = s.life := by intro a; unfold State.countDamage; split <;> rfl
  refine Keeps.trans ?_ ((Keeps.completeGiveUp _).trans (Keeps.settle _))
  split
  · exact (k1 _).trans (Keeps.ownOutcome _ _)
  · split
    · exact (k1 _).trans (Keeps.resolveReceived _ _ _ (by rw [l1]; exact hns))
    · exact k1 _

/-- R157: the lowest-numbered context not in use is not in use, while fewer than 32 are. -/
theorem freeContext_unused {e : IssueEngine} (h : e.contexts.length < 32) : ∀ c ∈ e.contexts, c.number ≠
    e.freeContext := by
  have hex : ∃ n, (List.finRange 32).find? (fun n => (e.context n).isNone) = some n := by
    by_contra hn
    rw [← Option.isSome_iff_exists, List.find?_isSome] at hn
    have hall : ∀ n : Fin 32, n ∈ e.contexts.map Context.number := by
      intro n
      have hx : (e.context n).isNone = false := by
        rw [Bool.eq_false_iff]
        exact fun hx => hn ⟨n, List.mem_finRange n, hx⟩
      rw [Option.isNone_eq_false_iff, Option.isSome_iff_exists] at hx
      obtain ⟨c, hc⟩ := hx
      exact List.mem_map.2 ⟨c, List.mem_of_find?_eq_some hc, by have := List.find?_some hc; simpa using this⟩
    have h1 : (Finset.univ : Finset (Fin 32)) ⊆ (e.contexts.map Context.number).toFinset := by
      intro n _
      rw [List.mem_toFinset]; exact hall n
    have h2 := (Finset.card_le_card h1).trans (List.toFinset_card_le _)
    rw [Finset.card_univ, Fintype.card_fin, List.length_map] at h2
    omega
  obtain ⟨n, hn⟩ := hex
  have hf : e.freeContext = n := by unfold IssueEngine.freeContext; rw [hn]; rfl
  rw [hf]
  have := List.find?_some hn
  have h2 := List.find?_eq_none.1 (Option.isNone_iff_eq_none.1 this)
  intro c hc hcn
  have := h2 c hc
  simp [hcn] at this

/-- R150, R152, R157: a context opened with nothing outstanding keeps both laws. -/
theorem Keeps.opened {s u : State} (d : Context) (hd : ∀ c ∈ s.issue.contexts, c.number ≠ d.number) (ho :
    d.outstanding = 0)
    (h1 : u.tags = s.tags) (h2 : u.issue.contexts = s.issue.contexts ++ [d]) (h4 : u.sender.requests =
        s.sender.requests)
    (h3 : s.issue.current = none) (h5 : u.issue.current = some d.number ∧ d.phase ≠ .leave ∨ u.issue.current = none ∧
        d.phase = .leave)
    (h6 : u.buffer = s.buffer) (h7 : u.inForce = s.inForce) (h8 : ¬ (u.life.station = .init ∨ u.life.station =
        .config)) : Keeps s u := by
  intro a
  have ht : ∀ x, u.tagAt x = s.tagAt x := fun x => by unfold State.tagAt; rw [h1]
  have hof : ∀ n, u.outstandingOf n = s.outstandingOf n := fun n => by unfold State.outstandingOf; simp only [ht, h4]
  have hmem : ∀ c, c ∈ u.issue.contexts ↔ c ∈ s.issue.contexts ∨ c = d := by intro c; rw [h2]; simp
  have hzero : s.outstandingOf d.number = 0 := by
    unfold State.outstandingOf
    have e1 : allTags.filter (fun t => (s.tagAt t).state.inFlight && decide ((s.tagAt t).context = some d.number)) =
        [] := by
      rw [List.filter_eq_nil_iff]
      intro t _ h
      rw [Bool.and_eq_true, decide_eq_true_eq] at h
      obtain ⟨c, hc, h', _⟩ := a.named t h.1
      rw [h.2] at h'
      exact hd c hc (by simpa using h'.symm)
    have e2 : s.sender.requests.filter (fun e => !e.withdrawn && decide (e.owner = .context d.number)) = [] := by
      rw [List.filter_eq_nil_iff]
      intro e he h
      rw [Bool.and_eq_true, Bool.not_eq_true', decide_eq_true_eq] at h
      obtain ⟨_, c, hc, h'⟩ := a.ofNotices e he h.1 _ h.2
      exact hd c hc h'
    rw [e1, e2]; rfl
  refine ⟨⟨?_, ?_, ?_, by rw [h4]; exact a.apart, ?_, ?_, ?_, ?_⟩, fun b => ⟨by rw [h7]; exact b.limit, ?_, ?_, fun h
      => absurd h h8⟩⟩
  · rw [h2, List.map_append, List.nodup_append]
    refine ⟨a.numbers, List.nodup_singleton _, ?_⟩
    intro n hn m hm
    simp only [List.map_cons, List.map_nil, List.mem_singleton] at hm
    obtain ⟨c, hc, rfl⟩ := List.mem_map.1 hn
    rw [hm]; exact hd c hc
  · intro c hc
    rw [hof]
    rcases (hmem c).1 hc with hc | rfl
    · exact a.counted c hc
    · rw [ho, hzero]
  · intro t htf
    rw [ht] at htf ⊢
    obtain ⟨c, hc, h⟩ := a.named t htf
    exact ⟨c, (hmem c).2 (Or.inl hc), h⟩
  · rw [h4]; intro e he hw t hto; rw [ht]; exact a.ofTags e he hw t hto
  · rw [h4]
    intro e he hw n hn
    obtain ⟨g, c, hc, h⟩ := a.ofNotices e he hw n hn
    exact ⟨g, c, (hmem c).2 (Or.inl hc), h⟩
  · intro c hc hf
    rcases (hmem c).1 hc with hc | rfl
    · rcases a.finishing c hc hf with h | h
      · rw [h3] at h; cases h
      · exact Or.inr h
    · rcases h5 with h | h
      · exact Or.inl h.1
      · exact Or.inr h.2
  · intro c hc hl
    rcases (hmem c).1 hc with hc | rfl
    · refine ⟨(a.leaving c hc hl).1, ?_⟩
      rcases h5 with h | h
      · rw [h.1]; intro e; exact hd c hc (by simpa using e.symm)
      · rw [h.1]; simp
    · refine ⟨ho, ?_⟩
      rcases h5 with h | h
      · exact absurd hl h.2
      · rw [h.1]; simp
  · rw [h7, h6]
    have : u.reservedBlocks = s.reservedBlocks := by rw [reservedBlocks_eq, reservedBlocks_eq]; simp only [ht]
    rw [this]; exact b.committed
  · simp only [ht]; exact b.reading

/-- What a command keeps: each of the two laws. -/
def Keeps2 (s t : State) : Prop := (s.Accounted → t.Accounted) ∧ (s.Accounted → s.BlocksKept → t.BlocksKept)

/-- A change that keeps both laws keeps each. -/
theorem Keeps.two {s t : State} (h : Keeps s t) : Keeps2 s t := ⟨fun a => (h a).1, fun a => (h a).2⟩

/-- A command with a condition keeps both laws if its effect does. -/
theorem Keeps2.when {s t : State} (b : Bool) (h : b = true → Keeps2 s t) : ∃ u, whenever b s t = .next u ∧ Keeps2 s u
    := by
  cases b
  · exact ⟨s, rfl, (Keeps.refl s).two⟩
  · exact ⟨t, rfl, h rfl⟩

/-- A command that leaves tags, contexts, entries and blocks keeps both laws. -/
theorem Keeps2.same {s t : State} (h1 : t.tags = s.tags) (h2 : t.issue.contexts = s.issue.contexts)
    (h3 : t.issue.current = s.issue.current) (h4 : t.sender.requests = s.sender.requests)
    (h5 : t.buffer = s.buffer) (h6 : t.inForce.commitmentLimit = s.inForce.commitmentLimit)
    (h7 : t.life.station = s.life.station) : Keeps2 s t :=
  (Keeps.of_eq h1 h2 h3 h4 (by rw [h5]) h6 (by rw [h7]; exact id)).two

/-- R148: a take keeps both laws, if the kind's own effect does. -/
theorem Keeps2.take (s : State) (kinds) (run : State → CommandRecord → State)
    (h : ∀ t c, t.issue.current = none → t.issue.contexts.length < 32 → t.life.station = .running → Keeps t (run t c)) :
    ∃ u, takeCommand kinds run s = .next u ∧ Keeps2 s u := by
  unfold takeCommand
  split
  · rename_i c hc
    refine ⟨_, rfl, Keeps.two ?_⟩
    refine Keeps.trans ?_ (Keeps.settle _)
    have h0 : Keeps s s.dequeue := Keeps.of_eq rfl rfl rfl rfl rfl rfl id
    unfold State.taken at hc
    obtain ⟨_, hm⟩ := Option.filter_eq_some_iff.1 hc
    rw [Bool.and_eq_true] at hm
    have hm := hm.2
    simp only [State.mayTake, Bool.and_eq_true, Option.isNone_iff_eq_none, decide_eq_true_eq, Config.resultPlaces] at hm
    unfold State.take
    split
    · rename_i hr
      split
      · exact Keeps.of_eq rfl rfl rfl rfl rfl rfl id
      · exact h0.trans (h s.dequeue c hm.1.1.1.2 (by show s.issue.contexts.length < 32; omega) hr)
    · exact Keeps.of_eq rfl rfl rfl rfl rfl rfl id
  · exact ⟨s, rfl, (Keeps.refl s).two⟩

/-- R150: a command made current keeps both laws. -/
theorem Keeps.makeCurrent {t : State} (c : CommandRecord) (h1 : t.issue.current = none) (h2 : t.issue.contexts.length
    < 32)
    (h3 : t.life.station = .running) : Keeps t (t.makeCurrent c) :=
  Keeps.opened
    { number := t.issue.freeContext, phase := .issuing, command := c, total := c.segments, next := 0, outstanding := 0,
      issuingFinished := false, firstFailure := none, atomicValue := none }
    (freeContext_unused h2) rfl rfl rfl rfl h1 (Or.inl ⟨rfl, by simp⟩) rfl rfl
    (by show ¬ (t.life.station = _ ∨ t.life.station = _); rw [h3]; simp)

/-- R152: a LEAVE begun keeps both laws. -/
theorem Keeps.beginLeave {t : State} (c : CommandRecord) (h1 : t.issue.current = none) (h2 : t.issue.contexts.length
    < 32) :
    Keeps t (t.beginLeave c) :=
  Keeps.opened
    { number := t.issue.freeContext, phase := .leave, command := c, total := c.segments, next := 0, outstanding := 0,
      issuingFinished := false, firstFailure := none, atomicValue := none }
    (freeContext_unused h2) rfl rfl rfl rfl h1 (Or.inr ⟨h1, rfl⟩) rfl rfl
    (by show ¬ (StationState.leaving = _ ∨ StationState.leaving = _); simp)

/-- The first of the pieces taken by the landing engine stays occupied. -/
theorem occupied_landingBegun {s : State} {p : Piece} (hp : s.buffer.pieces.head? = some p) (hl : s.buffer.landing =
    none) :
    (s.landingBegun p).buffer.occupied = s.buffer.occupied := by
  show CompletionBuffer.occupied { pieces := s.buffer.pieces.tail, landing := some { piece := p, position := 0 } } = _
  cases hq : s.buffer.pieces with
  | nil => rw [hq] at hp; cases hp
  | cons q r =>
    rw [hq] at hp
    cases hp
    simp [CompletionBuffer.occupied, hl, hq, Nat.add_comm]

/-- R52: the landing engine's taking of the next piece keeps both laws. -/
theorem Keeps.takeNextPiece {s : State} (hl : s.buffer.landing = none) : Keeps s s.takeNextPiece := by
  unfold State.takeNextPiece
  split
  · rename_i p hp
    exact Keeps.of_eq rfl rfl rfl rfl (occupied_landingBegun hp hl) rfl id
  · exact Keeps.refl _

/-- R36: the report of a landed piece keeps both laws. -/
theorem Keeps.landingReported (s : State) (p) : Keeps s (s.landingReported p) := by
  unfold State.landingReported
  dsimp only
  split
  · rename_i h
    have hf : (s.tagAt p.tag).state.inFlight = true := awaits_inFlight (Or.inr h.1)
    have h1 : Keeps s (s.setTag p.tag { s.tagAt p.tag with landed := (s.tagAt p.tag).landed + p.data.length }) :=
      Keeps.setSame (s := s) (t := p.tag) { s.tagAt p.tag with landed := (s.tagAt p.tag).landed + p.data.length } rfl
          (fun _ => ⟨rfl, rfl⟩) (fun h => Or.inl h) (le_refl _)
        (fun _ => ⟨rfl, rfl, rfl, rfl⟩) rfl rfl rfl rfl rfl rfl rfl
    have ht : (s.setTag p.tag { s.tagAt p.tag with landed := (s.tagAt p.tag).landed + p.data.length }).tagAt p.tag
        = { s.tagAt p.tag with landed := (s.tagAt p.tag).landed + p.data.length } := by
      unfold State.tagAt; exact (tagAt_set s p.tag p.tag _).trans (if_pos rfl)
    split
    · refine h1.trans (Keeps.endSegment _ _ ?_)
      rw [ht]; exact hf
    · exact h1
  · exact Keeps.refl _

/-- R36: the report of a landed piece leaves what is being landed. -/
theorem landing_landingReported (s : State) (p) : (s.landingReported p).buffer.landing = s.buffer.landing := by
  unfold State.landingReported
  dsimp only
  split
  · split
    · rename_i h _
      obtain ⟨d, hd, hh⟩ := endSegment_cases (s.setTag p.tag { s.tagAt p.tag with landed := (s.tagAt p.tag).landed +
          p.data.length }) p.tag .ok none
      have h0 : d.buffer.landing = s.buffer.landing := congrArg (fun v => v.buffer.landing) hd
      rcases hh with ⟨n, k, _, _, hh⟩ | ⟨_, hh⟩
      · rw [hh]; unfold State.reportEnd; rw [if_pos rfl]; exact h0
      · rw [hh]; exact h0
    · rfl
  · rfl

/-- R53, R54: a LANDING transfer's completion keeps both laws. -/
theorem Keeps.landed {s : State} {l : Landing} (n) (hl : s.buffer.landing = some l) : Keeps s (s.landed l n) := by
  unfold State.landed
  dsimp only
  split
  · unfold State.landingEnded
    have k1 : Keeps s (s.withBuffer { s.buffer with landing := none }) := by
      intro a
      refine ⟨a.of_eq (s := s) rfl rfl rfl rfl, fun b => b.mono (s := s) rfl (Nat.le_of_eq rfl) ?_ b.reading id id⟩
      simp [State.withBuffer, CompletionBuffer.occupied]
    have k2 := landing_landingReported (s.withBuffer { s.buffer with landing := none }) l.piece
    exact k1.trans ((Keeps.landingReported _ _).trans ((Keeps.takeNextPiece k2).trans (Keeps.settle _)))
  · exact Keeps.of_eq rfl rfl rfl rfl (by simp [CompletionBuffer.occupied, State.landAt, State.raise,
        State.withArbiter, State.withBuffer, hl]) rfl id

/-- R97: an entry with the frame and the state of another, in its own place and of its own owner. -/
def RequestEntry.refilled (x f : RequestEntry) : RequestEntry :=
  { f with slot := x.slot, owner := x.owner, withdrawn := x.withdrawn }

/-- R97: the copy's progress keeps both laws. -/
theorem Keeps.copyCompleted (s : State) (g) : Keeps s (s.copyCompleted g) := by
  unfold State.copyCompleted
  split
  · rename_i e he
    unfold State.copiedEntry at he
    obtain ⟨h1, h2⟩ := Option.filter_eq_some_iff.1 he
    have hw : e.withdrawn = false := by simpa using h2
    obtain ⟨n, _, hn⟩ := Option.bind_eq_some_iff.1 h1
    have hm : e ∈ s.sender.requests := List.mem_of_find?_eq_some hn
    split
    · exact Keeps.endEntry hm hw _
    · intro a
      have hup : ∀ f : RequestEntry, f.slot = e.slot → f.owner = e.owner → f.withdrawn = e.withdrawn → f.key = e.key →
          Keeps s (s.updateEntry e.slot (fun _ => f)) := by
        intro f f1 f2 f3 f4 a
        have heq : s.sender.requests.map (fun x => if x.slot = e.slot then f else x)
            = s.sender.requests.map (fun x => if x.slot = e.slot then x.refilled f else x) := by
          apply List.map_congr_left
          intro x hx
          split
          · rename_i hs
            have := a.apart.slot_inj hx hm hs
            subst this
            obtain ⟨_, _, _, _, _, _, _, _, _, _⟩ := f
            simp only at f1 f2 f3
            subst f1 f2 f3
            rfl
          · rfl
        refine Keeps.mapRequests (fun x => if x.slot = e.slot ∧ x.key = f.key then x.refilled f else x)
          ?_ rfl rfl rfl ?_ rfl rfl rfl a
        · intro x; split
          · rename_i h; exact ⟨rfl, rfl, rfl, h.2.symm⟩
          · exact ⟨rfl, rfl, rfl, rfl⟩
        · show s.sender.requests.map _ = _
          rw [heq]
          apply List.map_congr_left
          intro x hx
          by_cases hs : x.slot = e.slot
          · have := a.apart.slot_inj hx hm hs
            subst this
            rw [if_pos rfl, if_pos ⟨rfl, f4.symm⟩]
          · rw [if_neg hs, if_neg (fun h => hs h.1)]
      have hkey : (e.copied g.data).key = e.key := by
        unfold RequestEntry.copied RequestEntry.key FrameBody.withCopied
        dsimp only
        split
        · rename_i hb; rw [hb]; rfl
        · rfl
      unfold State.copyCarried
      dsimp only
      split
      · exact ((hup { e.copied g.data with state := .ready } rfl rfl rfl hkey).trans (Keeps.of_eq (s := s.updateEntry
            e.slot (fun _ => { e.copied g.data with state := .ready }))
          (t := (s.updateEntry e.slot (fun _ => { e.copied g.data with state := .ready })).noCopy) rfl rfl rfl rfl
              rfl rfl id)) a
      · refine ((hup (e.copied g.data) rfl rfl rfl hkey).trans ?_) a
        unfold State.raiseCopy; split
        · exact Keeps.of_eq rfl rfl rfl rfl rfl rfl id
        · exact Keeps.refl _
  · exact Keeps.refl _

/-- The completions a service appends leave both laws. -/
theorem Keeps.appendCompletion (s : State) (e b) : Keeps s (s.appendCompletion e b) := by
  unfold State.appendCompletion; split
  · exact Keeps.refl _
  · exact Keeps.of_eq rfl rfl rfl rfl rfl rfl id

/-- R71: the result of a SERVICE transfer keeps both laws. -/
theorem Keeps.serviceResult (s : State) (g) (act : State → InboundEntry → Service → State) (h : ∀ s e v, Keeps s (act
    s e v)) :
    Keeps s (s.serviceResult g act) := by
  have h0 : Keeps s s.storeIdle := Keeps.of_eq rfl rfl rfl rfl rfl rfl id
  unfold State.serviceResult; dsimp only
  (repeat' split)
  · exact h0
  · exact h0.trans ((h _ _ _).trans (Keeps.settle _))
  · exact h0

end Sys2Proof.Machine
end

