-- ==== Sys2Proof/Laws/Bits.lean ====
section
/-!
SUPPORT. Bits: byte lanes bit by bit, and fields of bit sequences.
-/
namespace Sys2Proof.Machine

/-- The lane mask, bit by bit. -/
theorem getLsbD_laneMask (e : ByteEnables) {i : Nat} (hi : i < 32) : (laneMask e).getLsbD i = e.getLsbD (i / 8) := by
  have he : ∀ (e : ByteEnables) (i : Fin 32), (laneMask e).getLsbD i.val = e.getLsbD (i.val / 8) := by decide
  exact he e ⟨i, hi⟩

/-- R186: a merged word takes the enabled bytes and keeps the others. -/
theorem getLsbD_mergeLanes (old new : Word) (e : ByteEnables) {i : Nat} (hi : i < 32) :
    (mergeLanes old new e).getLsbD i = if e.getLsbD (i / 8) then new.getLsbD i else old.getLsbD i := by
  simp only [mergeLanes, BitVec.getLsbD_or, BitVec.getLsbD_and, BitVec.getLsbD_not, getLsbD_laneMask e hi, hi,
    decide_true, Bool.true_and]
  cases e.getLsbD (i / 8) <;> simp

/-- R186: a write with every byte enable replaces the word. -/
theorem mergeLanes_all (old new : Word) : mergeLanes old new 0xF#4 = new := by
  apply BitVec.eq_of_getLsbD_eq
  intro i hi
  have hlane : ∀ i : Fin 32, (0xF#4).getLsbD (i.val / 8) = true := by decide
  rw [getLsbD_mergeLanes old new _ hi, hlane ⟨i, hi⟩, if_pos rfl]

/-- R186: a write with no byte enable leaves the word. -/
theorem mergeLanes_none (old new : Word) : mergeLanes old new 0#4 = old := by
  apply BitVec.eq_of_getLsbD_eq
  intro i hi
  rw [getLsbD_mergeLanes old new _ hi]
  simp

/-! ## Bit sequences -/

/-- A field has its width. -/
@[simp] theorem length_bitsOfNat (w n : Nat) : (bitsOfNat w n).length = w := by
  simp [bitsOfNat]

/-- A field of width 0 is empty. -/
theorem bitsOfNat_zero (n : Nat) : bitsOfNat 0 n = [] := rfl

/-- The bits of a number are those of its half and its last bit. -/
theorem bitsOfNat_succ (w n : Nat) : bitsOfNat (w + 1) n = bitsOfNat w (n / 2) ++ [n.testBit 0] := by
  unfold bitsOfNat
  rw [List.range_succ, List.map_append]
  congr 1
  · apply List.map_congr_left
    intro i hi
    have hi := List.mem_range.1 hi
    rw [Nat.testBit_div_two]
    congr 1
    omega
  · simp

/-- A field reads back as the number it was made from, cut to its width. -/
theorem natOfBits_bitsOfNat (w : Nat) : ∀ n, natOfBits (bitsOfNat w n) = n % 2 ^ w := by
  induction w with
  | zero => intro n; simp [bitsOfNat_zero, natOfBits, Nat.mod_one]
  | succ w ih =>
    intro n
    have hfold : natOfBits (bitsOfNat w (n / 2) ++ [n.testBit 0])
        = 2 * natOfBits (bitsOfNat w (n / 2)) + (n.testBit 0).toNat := by
      simp [natOfBits, List.foldl_append]
    rw [bitsOfNat_succ, hfold, ih, Nat.pow_succ, Nat.mul_comm (2 ^ w) 2, Nat.mod_mul]
    have hbit : (n.testBit 0).toNat = n % 2 := by
      rw [Nat.testBit_zero]
      rcases Nat.mod_two_eq_zero_or_one n with h | h <;> simp [h]
    omega

/-- A field at the front of a sequence. -/
theorem bitField_front {w n : Nat} (rest : List Bool) (h : n < 2 ^ w) : bitField (bitsOfNat w n ++ rest) 0 w = n := by
  unfold bitField
  rw [List.drop_zero, List.take_append_of_le_length (by simp), List.take_of_length_le (by simp), natOfBits_bitsOfNat,
    Nat.mod_eq_of_lt h]

/-- A field behind another. -/
theorem bitField_skip {pre rest : List Bool} {start w : Nat} (h : pre.length ≤ start) :
    bitField (pre ++ rest) start w = bitField rest (start - pre.length) w := by
  unfold bitField
  rw [List.drop_append, List.drop_eq_nil_of_le h, List.nil_append]

/-- The bits of bytes are eight for each. -/
@[simp] theorem length_bitsOfBytes (bytes : List Byte) : (bitsOfBytes bytes).length = 8 * bytes.length := by
  induction bytes with
  | nil => rfl
  | cons b rest ih =>
    have : bitsOfBytes (b :: rest) = bitsOfNat 8 b.toNat ++ bitsOfBytes rest := rfl
    rw [this, List.length_append, ih, length_bitsOfNat, List.length_cons]
    omega

/-- The bits of a 32-bit value. -/
@[simp] theorem length_bitsOfWord (w : Word) : (bitsOfWord w).length = 32 := by
  simp [bitsOfWord, bytesOfWord]

/-- Bytes behind another field. -/
theorem bytesAt_skip {pre rest : List Bool} {start : Nat} (count : Nat) (h : pre.length ≤ start) :
    bytesAt (pre ++ rest) start count = bytesAt rest (start - pre.length) count := by
  unfold bytesAt
  apply List.map_congr_left
  intro i _
  rw [bitField_skip (by omega)]
  congr 2
  omega

/-- Bytes at the front of a sequence read back. -/
theorem bytesAt_front (bytes : List Byte) : ∀ rest : List Bool,
    bytesAt (bitsOfBytes bytes ++ rest) 0 bytes.length = bytes := by
  induction bytes with
  | nil => intro rest; rfl
  | cons b tail ih =>
    intro rest
    have hb : bitsOfBytes (b :: tail) ++ rest = bitsOfNat 8 b.toNat ++ (bitsOfBytes tail ++ rest) := by
      rw [← List.append_assoc]
      rfl
    have hsucc : bytesAt (bitsOfNat 8 b.toNat ++ (bitsOfBytes tail ++ rest)) 0 (tail.length + 1)
        = b :: bytesAt (bitsOfBytes tail ++ rest) 0 tail.length := by
      unfold bytesAt
      rw [List.range_succ_eq_map, List.map_cons, List.map_map]
      refine congrArg₂ _ ?_ (List.map_congr_left fun i _ => ?_)
      · rw [Nat.mul_zero, Nat.add_zero, bitField_front _ b.isLt, BitVec.ofNat_toNat, BitVec.setWidth_eq]
      · show BitVec.ofNat 8 (bitField _ (0 + 8 * (i + 1)) 8) = BitVec.ofNat 8 (bitField _ (0 + 8 * i) 8)
        rw [bitField_skip (by rw [length_bitsOfNat]; omega), length_bitsOfNat]
        congr 2
    rw [hb, List.length_cons, hsucc, ih]

/-- The word of the bytes of a word. -/
theorem wordOfBytes_bytesOfWord (w : Word) : wordOfBytes (bytesOfWord w) = w := by
  apply BitVec.eq_of_getLsbD_eq
  intro i hi
  simp only [wordOfBytes, bytesOfWord, byteOf, List.foldr, BitVec.getLsbD_or, BitVec.getLsbD_shiftLeft,
    BitVec.getLsbD_setWidth, BitVec.getLsbD_extractLsb']
  rcases Nat.lt_or_ge i 8 with h | h
  · simp [h, hi]
  rcases Nat.lt_or_ge i 16 with h2 | h2
  · have e : 8 + (i - 8) = i := by omega
    simp [hi, Nat.not_lt.2 h, show i - 8 < 8 by omega, show i - 8 < 32 by omega, e]
  rcases Nat.lt_or_ge i 24 with h3 | h3
  · have e : 16 + (i - 8 - 8) = i := by omega
    simp [hi, Nat.not_lt.2 h, show ¬ i - 8 < 8 by omega, show i - 8 - 8 < 8 by omega, show i - 8 < 32 by omega,
      show i - 8 - 8 < 32 by omega, e]
  · have e : 24 + (i - 8 - 8 - 8) = i := by omega
    simp [hi, Nat.not_lt.2 h, show ¬ i - 8 < 8 by omega, show ¬ i - 8 - 8 < 8 by omega,
      show i - 8 - 8 - 8 < 8 by omega, show i - 8 < 32 by omega, show i - 8 - 8 < 32 by omega,
      show i - 8 - 8 - 8 < 32 by omega, e]

/-- A 32-bit value behind another field. -/
theorem wordAt_skip {pre rest : List Bool} {start : Nat} (h : pre.length ≤ start) :
    wordAt (pre ++ rest) start = wordAt rest (start - pre.length) := by
  unfold wordAt
  rw [bytesAt_skip 4 h]

/-- A 32-bit value at the front of a sequence reads back. -/
theorem wordAt_front (w : Word) (rest : List Bool) : wordAt (bitsOfWord w ++ rest) 0 = w := by
  have h := bytesAt_front (bytesOfWord w) rest
  have hlen : (bytesOfWord w).length = 4 := rfl
  rw [hlen] at h
  unfold wordAt bitsOfWord
  rw [h, wordOfBytes_bytesOfWord]

/-- Appending a bit to a number's bits. -/
theorem natOfBits_append_singleton (bits : List Bool) (b : Bool) : natOfBits (bits ++ [b]) = 2 * natOfBits bits + b.toNat := by
  simp [natOfBits]

/-- A bit sequence is the field of the number it spells. -/
theorem bitsOfNat_natOfBits (bits : List Bool) : bitsOfNat bits.length (natOfBits bits) = bits := by
  induction bits using List.reverseRecOn with
  | nil => rfl
  | append_singleton bits b ih =>
    have hhalf : (2 * natOfBits bits + b.toNat) / 2 = natOfBits bits := by
      cases b
      · simp
      · simp only [Bool.toNat_true]
        omega
    have hlow : (2 * natOfBits bits + b.toNat).testBit 0 = b := by
      rw [Nat.testBit_zero]
      cases b <;> simp [Nat.add_mod]
    rw [List.length_append, List.length_singleton, bitsOfNat_succ, natOfBits_append_singleton, hhalf, hlow, ih]

/-- A field is a number below two to its width. -/
theorem natOfBits_lt (bits : List Bool) : natOfBits bits < 2 ^ bits.length := by
  have h := natOfBits_bitsOfNat bits.length (natOfBits bits)
  rw [bitsOfNat_natOfBits] at h
  rw [h]
  exact Nat.mod_lt _ (Nat.two_pow_pos _)

/-- A field is below two to its width. -/
theorem bitField_lt (bits : List Bool) (start width : Nat) : bitField bits start width < 2 ^ width :=
  Nat.lt_of_lt_of_le (natOfBits_lt _) (Nat.pow_le_pow_right (by omega) (by simp [List.length_take]))

/-- A sequence from a position is the field there and the rest. -/
theorem drop_eq_bitField {bits : List Bool} {start width : Nat} (h : start + width ≤ bits.length) :
    bits.drop start = bitsOfNat width (bitField bits start width) ++ bits.drop (start + width) := by
  have hlen : ((bits.drop start).take width).length = width := by simp; omega
  have hfield := bitsOfNat_natOfBits ((bits.drop start).take width)
  rw [hlen] at hfield
  unfold bitField
  rw [hfield, ← List.drop_drop, List.take_append_drop]

/-- A sequence from a position is the bytes there and the rest. -/
theorem drop_eq_bytesAt {bits : List Bool} (count : Nat) : ∀ {start : Nat}, start + 8 * count ≤ bits.length →
    bits.drop start = bitsOfBytes (bytesAt bits start count) ++ bits.drop (start + 8 * count) := by
  induction count with
  | zero => intro start _; rfl
  | succ n ih =>
    intro start h
    have hhead : bytesAt bits start (n + 1) = BitVec.ofNat 8 (bitField bits start 8) :: bytesAt bits (start + 8) n := by
      unfold bytesAt
      rw [List.range_succ_eq_map, List.map_cons, List.map_map]
      refine congrArg₂ _ rfl (List.map_congr_left fun i _ => ?_)
      show BitVec.ofNat 8 (bitField bits (start + 8 * (i + 1)) 8) = BitVec.ofNat 8 (bitField bits (start + 8 + 8 * i) 8)
      congr 2
      omega
    have hcons : ∀ (b : Byte) rest, bitsOfBytes (b :: rest) = bitsOfNat 8 b.toNat ++ bitsOfBytes rest := fun _ _ => rfl
    have hbyte : (BitVec.ofNat 8 (bitField bits start 8)).toNat = bitField bits start 8 := by
      rw [BitVec.toNat_ofNat]
      exact Nat.mod_eq_of_lt (bitField_lt bits start 8)
    rw [hhead, hcons, hbyte, List.append_assoc, show start + 8 * (n + 1) = start + 8 + 8 * n by omega,
      ← ih (by omega), ← drop_eq_bitField (by omega)]

/-- The bytes of the word of four bytes. -/
theorem bytesOfWord_wordOfBytes (a b c d : Byte) : bytesOfWord (wordOfBytes [a, b, c, d]) = [a, b, c, d] := by
  have hbyte : ∀ (n : Nat) (v : Byte), (∀ i, i < 8 → (wordOfBytes [a, b, c, d]).getLsbD (8 * n + i) = v.getLsbD i) →
      byteOf (wordOfBytes [a, b, c, d]) n = v := by
    intro n v h
    apply BitVec.eq_of_getLsbD_eq
    intro i hi
    rw [byteOf, BitVec.getLsbD_extractLsb', decide_eq_true hi, Bool.true_and, h i hi]
  unfold bytesOfWord
  rw [hbyte 0 a, hbyte 1 b, hbyte 2 c, hbyte 3 d] <;>
  · intro i hi
    simp only [wordOfBytes, List.foldr, BitVec.getLsbD_or, BitVec.getLsbD_shiftLeft, BitVec.getLsbD_setWidth]
    interval_cases i <;> simp

/-- A sequence from a position is the 32-bit value there and the rest. -/
theorem drop_eq_wordAt {bits : List Bool} {start : Nat} (h : start + 32 ≤ bits.length) :
    bits.drop start = bitsOfWord (wordAt bits start) ++ bits.drop (start + 32) := by
  have hbytes : bytesOfWord (wordAt bits start) = bytesAt bits start 4 := bytesOfWord_wordOfBytes _ _ _ _
  rw [bitsOfWord, hbytes]
  exact drop_eq_bytesAt 4 h

end Sys2Proof.Machine
end

