-- ==== Sys2Proof/Laws/Bounds.lean ====
section
/-!
SUPPORT. Bounds: which operations leave every bounded queue no longer than it was, and what a kept take and a recognised
WR_REQ say about the room they need.
-/
namespace Sys2Proof.Machine

/-- From `s` to `t` no queue that has a bound grows, but for the request queue, which a segment asked for again may fill up
to its 16 entries; and inbound work kept as a take was kept before. -/
structure Shrinks (s t : State) : Prop where
  ctx : t.issue.contexts.length + t.issue.results.length ≤ s.issue.contexts.length + s.issue.results.length
  cmd : t.issue.commands.length ≤ s.issue.commands.length
  req : t.sender.requests.length ≤ max s.sender.requests.length Config.requestEntries
  inb : t.inbound.queue.length ≤ s.inbound.queue.length
  pool : (t.inbound.queue.map InboundEntry.poolBlocks).sum ≤ (s.inbound.queue.map InboundEntry.poolBlocks).sum
  ntc : t.notices.queue.length ≤ s.notices.queue.length
  recd : t.span.received = s.span.received ∨ t.span.received.bind Received.work = none

/-- Nothing done: no queue grows. -/
theorem Shrinks.refl (s : State) : Shrinks s s :=
  ⟨le_rfl, le_rfl, le_max_left _ _, le_rfl, le_rfl, le_rfl, Or.inl rfl⟩

/-- Two operations in turn. -/
theorem Shrinks.trans {a b c : State} (h : Shrinks a b) (k : Shrinks b c) : Shrinks a c :=
  ⟨k.ctx.trans h.ctx, k.cmd.trans h.cmd, k.req.trans (max_le h.req (le_max_right _ _)), k.inb.trans h.inb, k.pool.trans h.pool, k.ntc.trans h.ntc,
   by rcases k.recd with e | e
      · rw [e]; exact h.recd
      · exact Or.inr e⟩

/-- A fold of operations. -/
theorem Shrinks.foldl {α} (f : State → α → State) (h : ∀ s a, Shrinks s (f s a)) : ∀ (l : List α) (s : State),
    Shrinks s (l.foldl f s)
  | [], s => Shrinks.refl s
  | a :: l, s => (h s a).trans (Shrinks.foldl f h l (f s a))

/-- R66: the room test. -/
theorem hasRoom_iff {b : Inbound} {n : Nat} : b.hasRoom n = true ↔ b.queue.length < 16 ∧ n ≤ 64 - (b.queue.map
    InboundEntry.poolBlocks).sum := by
  unfold Inbound.hasRoom; rw [Bool.and_eq_true, decide_eq_true_eq, decide_eq_true_eq]; rfl

/-- R66: less queued leaves the room there was. -/
theorem hasRoom_mono {b b' : Inbound} (h1 : b'.queue.length ≤ b.queue.length) (h2 : (b'.queue.map
    InboundEntry.poolBlocks).sum ≤ (b.queue.map InboundEntry.poolBlocks).sum) (n : Nat) :
   b.hasRoom n = true → b'.hasRoom n = true := by
  rw [hasRoom_iff, hasRoom_iff]
  rintro ⟨a, c⟩
  constructor <;> omega

/-- R67: no take kept asks no room. -/
theorem takeHasRoom_of_none {s : State} (h : s.span.received.bind Received.work = none) : s.takeHasRoom = true := by
  simp [State.takeHasRoom, h]

/-! ## The operations -/

/-- Entries of the request queue left out: no queue grows. -/
theorem Shrinks.filterRequests (s : State) (f : RequestEntry → Bool) : Shrinks s (s.withRequests
    (s.sender.requests.filter f)) :=
  ⟨le_rfl, le_rfl, (List.length_filter_le _ _).trans (le_max_left _ _), le_rfl, le_rfl, le_rfl, Or.inl rfl⟩

/-- A change of one entry: no queue grows. -/
theorem Shrinks.updateEntry (s : State) (n f) : Shrinks s (s.updateEntry n f) :=
  ⟨le_rfl, le_rfl, by simp [State.updateEntry, State.withRequests, State.withSender], le_rfl, le_rfl, le_rfl, Or.inl
      rfl⟩

/-- A change of other fields only: no queue grows. -/
theorem Shrinks.of_eq {s t : State} (h1 : t.issue.contexts = s.issue.contexts) (h2 : t.issue.results =
    s.issue.results) (h3 : t.issue.commands = s.issue.commands)
  (h4 : t.sender.requests = s.sender.requests) (h5 : t.inbound.queue = s.inbound.queue) (h6 : t.notices.queue =
      s.notices.queue) (h7 : t.span.received = s.span.received) : Shrinks s t := by
  constructor <;> simp [h1, h2, h3, h4, h5, h6, h7]

/-- Stopping a copy: no queue grows. -/
theorem Shrinks.stopCopyOf (s : State) (n) : Shrinks s (s.stopCopyOf n) := by
  unfold State.stopCopyOf; split <;> exact Shrinks.of_eq rfl rfl rfl rfl rfl rfl rfl

/-- Removing an entry: no queue grows. -/
theorem Shrinks.removeEntry (s : State) (n) : Shrinks s (s.removeEntry n) := by
  unfold State.removeEntry; dsimp only
  split
  · exact (Shrinks.stopCopyOf s n).trans (Shrinks.updateEntry _ _ _)
  · exact (Shrinks.stopCopyOf s n).trans (Shrinks.filterRequests _ _)

/-- Removing a tag's entry: no queue grows. -/
theorem Shrinks.removeEntryOf (s : State) (t) : Shrinks s (s.removeEntryOf t) := by
  unfold State.removeEntryOf; split
  · exact Shrinks.removeEntry s _
  · exact Shrinks.refl s

/-- A change of a tag: no queue grows. -/
theorem Shrinks.setTag (s : State) (t r) : Shrinks s (s.setTag t r) := Shrinks.of_eq rfl rfl rfl rfl rfl rfl rfl

/-- Dropping pieces: no queue grows. -/
theorem Shrinks.dropPieces (s : State) (t r) : Shrinks s (s.dropPieces t r) := Shrinks.of_eq rfl rfl rfl rfl rfl rfl rfl

/-- A change of a context: no queue grows. -/
theorem Shrinks.updateContext (s : State) (n f) : Shrinks s (s.updateContext n f) :=
  ⟨by simp [State.updateContext, State.withIssue], le_rfl, le_max_left _ _, le_rfl, le_rfl, le_rfl, Or.inl rfl⟩

/-- The end of issuing: no queue grows. -/
theorem Shrinks.issuingEnds (s : State) (n) : Shrinks s (s.issuingEnds n) := by
  unfold State.issuingEnds; split <;> exact Shrinks.of_eq rfl rfl rfl rfl rfl rfl rfl

/-- Withdrawing a tag: no queue grows. -/
theorem Shrinks.withdrawTag (s : State) (t) : Shrinks s (s.withdrawTag t) := by
  unfold State.withdrawTag; dsimp only
  have := ((Shrinks.removeEntryOf s t).trans (Shrinks.dropPieces _ t (s.tagAt t).generation)).trans (Shrinks.setTag _
      t (s.tagAt t).freed)
  split
  · exact this.trans (Shrinks.updateContext _ _ _)
  · exact this

/-- Withdrawing the later segments: no queue grows. -/
theorem Shrinks.withdrawLater (s : State) (n k) : Shrinks s (s.withdrawLater n k) :=
  Shrinks.foldl _ (fun s t => by split; exact Shrinks.withdrawTag s t; exact Shrinks.refl s) _ _

/-- The failure of a segment: no queue grows. -/
theorem Shrinks.failSegment (s : State) (n k st) : Shrinks s (s.failSegment n k st) :=
  ((Shrinks.updateContext s n _).trans (Shrinks.issuingEnds _ n)).trans (Shrinks.withdrawLater _ n k)

/-- An end report: no queue grows. -/
theorem Shrinks.reportEnd (s : State) (n k st v) : Shrinks s (s.reportEnd n k st v) := by
  unfold State.reportEnd; dsimp only
  split
  · exact Shrinks.updateContext _ _ _
  · exact (Shrinks.updateContext _ _ _).trans (Shrinks.failSegment _ _ _ _)

/-- The end of a segment: no queue grows. -/
theorem Shrinks.endSegment (s : State) (t st v) : Shrinks s (s.endSegment t st v) := by
  unfold State.endSegment; dsimp only
  have h1 := Shrinks.removeEntryOf s t
  have h2 : Shrinks s (if st = .ok then s.removeEntryOf t else (s.removeEntryOf t).dropPieces t (s.tagAt
      t).generation) := by
    split
    · exact h1
    · exact h1.trans (Shrinks.dropPieces _ _ _)
  have h3 := h2.trans (Shrinks.setTag _ t (if st = .timeout then (s.tagAt t).turnedStale (State.timeout (if st = .ok
      then s.removeEntryOf t else (s.removeEntryOf t).dropPieces t (s.tagAt t).generation)) else (s.tagAt t).freed))
  split
  · exact h3.trans (Shrinks.reportEnd _ _ _ _ _)
  · exact h3

/-- The end of a notice: no queue grows. -/
theorem Shrinks.endNotice (s : State) (n c st) : Shrinks s (s.endNotice n c st) := (Shrinks.removeEntry s n).trans
    (Shrinks.reportEnd _ _ _ _ _)

/-- The end of an entry: no queue grows. -/
theorem Shrinks.endEntry (s : State) (e st) : Shrinks s (s.endEntry e st) := by
  unfold State.endEntry; split
  · exact Shrinks.endSegment _ _ _ _
  · exact Shrinks.endNotice _ _ _ _

/-- An incident: no queue grows. -/
theorem Shrinks.report (s : State) (i) : Shrinks s (s.report i) := Shrinks.of_eq rfl rfl rfl rfl rfl rfl rfl

/-- A new entry in a queue that has room: no queue passes its bound. -/
theorem Shrinks.appendEntry (s : State) (slot body o x) (h : s.sender.requests.length < Config.requestEntries) :
    Shrinks s (s.appendEntry slot body o x) := by
  refine ⟨le_rfl, le_rfl, ?_, le_rfl, le_rfl, le_rfl, Or.inl rfl⟩
  refine le_trans ?_ (le_max_right _ _)
  simp only [State.appendEntry, State.withRequests, State.withSender, List.length_append, List.length_singleton]
  omega

/-- A segment issued: no queue grows. -/
theorem Shrinks.segmentIssued (s : State) (c) : Shrinks s (s.segmentIssued c) := by
  have h : Shrinks s ((s.updateContext c.number Context.issued).withWaiting WaitingFor.nothing) :=
    (Shrinks.updateContext s _ _).trans (Shrinks.of_eq rfl rfl rfl rfl rfl rfl rfl)
  unfold State.segmentIssued; dsimp only
  split
  · exact h.trans (Shrinks.issuingEnds _ _)
  · exact h

/-- A grant where the request queue has room: no queue passes its bound. -/
theorem Shrinks.grant (s : State) (c) (h : s.sender.requests.length < Config.requestEntries) : Shrinks s (s.grant c) := by
  unfold State.grant
  split
  · exact Shrinks.refl s
  · split
    · split
      · exact ((Shrinks.setTag s _ _).trans (Shrinks.appendEntry _ _ _ _ _ h)).trans (Shrinks.segmentIssued _ _)
      · exact Shrinks.refl s
    · exact (Shrinks.appendEntry s _ _ _ _ h).trans (Shrinks.segmentIssued _ _)

/-- The issue of a segment: no queue passes its bound. -/
theorem Shrinks.issueSegment (s : State) (c) : Shrinks s (s.issueSegment c) := by
  unfold State.issueSegment
  split
  · exact Shrinks.failSegment _ _ _ _
  · split
    · have h : Shrinks s (if s.issue.isWaiting then s else s.report .segDelayed) := by
        split
        · exact Shrinks.refl s
        · exact Shrinks.report s _
      exact h.trans (Shrinks.of_eq rfl rfl rfl rfl rfl rfl rfl)
    · rename_i h
      apply Shrinks.grant
      by_contra hc
      exact h (by simp [State.refused, WaitingFor.any, not_lt.1 hc])

/-- The issue of the next segment: no queue passes its bound. -/
theorem Shrinks.issueNext (s : State) : Shrinks s s.issueNext := by
  unfold State.issueNext
  split
  · exact Shrinks.issueSegment _ _
  · exact Shrinks.refl s

/-- The waiting segment asked for again: no queue passes its bound. -/
theorem Shrinks.askAgain (s : State) : Shrinks s s.askAgain := by
  unfold State.askAgain
  split
  · exact Shrinks.issueNext _
  · exact Shrinks.refl s

/-- The results due: the places they take are those of their contexts. -/
theorem Shrinks.produceResults (s : State) : Shrinks s s.produceResults := by
  refine ⟨?_, le_rfl, le_max_left _ _, le_rfl, le_rfl, le_rfl, Or.inl rfl⟩
  simp only [State.produceResults, State.withIssue, List.length_append, List.length_map]
  have := List.length_eq_length_filter_add (l := s.issue.contexts) Context.isDone
  have h2 : (s.issue.contexts.filter (fun c => !c.isDone)).length = (s.issue.contexts.filter (fun x => decide ¬
      x.isDone = true)).length := by
    congr 1; congr 1; funext c; cases c.isDone <;> rfl
  omega

/-- The beginning of the head's service: no queue grows. -/
theorem Shrinks.turnService (s : State) : Shrinks s s.turnService := by
  unfold State.turnService
  rcases hq : s.inbound.queue with _ | ⟨e, rest⟩
  · exact Shrinks.refl s
  · dsimp only [List.head?_cons]
    split
    · refine ⟨le_rfl, le_rfl, le_max_left _ _, ?_, ?_, le_rfl, Or.inl rfl⟩
      · simp [State.serviceBegun, State.serveAt, State.raise, State.withArbiter, State.withInbound, hq]
      · simp [State.serviceBegun, State.serveAt, State.raise, State.withArbiter, State.withInbound, hq,
          InboundEntry.poolBlocks]
    · exact Shrinks.refl s

/-- The end of an event: no queue passes its bound. -/
theorem Shrinks.settle (s : State) : Shrinks s s.settle := by
  have h : ∀ u : State, Shrinks u u.refreshOffer := by
    intro u
    refine ⟨le_rfl, le_rfl, le_max_left _ _, le_rfl, le_rfl, le_rfl, Or.inl ?_⟩
    change (SpanInterface.follow _ _).received = _
    unfold SpanInterface.follow
    split <;> rfl
  exact ((((Shrinks.produceResults s).trans (Shrinks.askAgain _)).trans (Shrinks.produceResults _)).trans (h _)).trans
    (Shrinks.turnService _)

/-- The cleanup of the tags: no queue grows. -/
theorem Shrinks.cleanTags (s : State) (p) : Shrinks s (s.cleanTags p) :=
  Shrinks.foldl _ (fun s t => by
    unfold State.cleanTag
    split
    · split
      · exact Shrinks.endSegment _ _ _ _
      · split
        · exact Shrinks.setTag _ _ _
        · exact Shrinks.refl s
    · exact Shrinks.refl s) _ _

/-- R79: an entry that stays through a removal holds the same pool blocks. -/
theorem removed_pool {e e' : InboundEntry} (h : e.removed = some e') : e'.poolBlocks = e.poolBlocks := by
  unfold InboundEntry.removed at h
  split at h
  · cases h; rfl
  · split at h <;> cases h; rfl

/-- The cleanup of the inbound queue: no queue grows. -/
theorem Shrinks.cleanInbound (s : State) (p) : Shrinks s (s.cleanInbound p) := by
  refine ⟨le_rfl, le_rfl, le_max_left _ _, List.length_filterMap_le _ _, ?_, le_rfl, Or.inl rfl⟩
  show ((s.inbound.queue.filterMap _).map _).sum ≤ _
  induction s.inbound.queue with
  | nil => simp
  | cons e l ih =>
    rw [List.filterMap_cons]
    split
    · simp only [List.map_cons, List.sum_cons]; omega
    · rename_i e' he
      have : e'.poolBlocks = e.poolBlocks := by
        split at he
        · exact removed_pool he
        · cases he; rfl
      simp only [List.map_cons, List.sum_cons, this]; omega

/-- The cleanup of the response queue: no queue grows. -/
theorem Shrinks.cleanResponses (s : State) (p) : Shrinks s (s.cleanResponses p) := Shrinks.of_eq rfl rfl rfl rfl rfl
    rfl rfl

/-- The cleanup of the request queue: no queue grows. -/
theorem Shrinks.cleanRequests (s : State) (p) : Shrinks s (s.cleanRequests p) := Shrinks.filterRequests _ _

/-- A cleanup: no queue grows. -/
theorem Shrinks.cleanup (s : State) (p) : Shrinks s (s.cleanup p) := by
  unfold State.cleanup
  exact ((((Shrinks.cleanTags s p).trans (Shrinks.cleanRequests _ p)).trans (Shrinks.cleanResponses _ p)).trans
      (Shrinks.cleanInbound _ p)).trans (Shrinks.report _ _)

/-- The end of a wait for a peer: no queue grows. -/
theorem Shrinks.endWaitFor (s : State) (p) : Shrinks s (s.endWaitFor p) := by
  unfold State.endWaitFor; split
  · exact Shrinks.refl s
  · split
    · exact Shrinks.refl s
    · split
      · exact Shrinks.failSegment _ _ _ _
      · exact Shrinks.refl s

/-- A change of a peer record: no queue grows. -/
theorem Shrinks.setPeer (s : State) (n p) : Shrinks s (s.setPeer n p) := Shrinks.of_eq rfl rfl rfl rfl rfl rfl rfl

/-- Marking a peer ABSENT: no queue grows. -/
theorem Shrinks.markAbsent (s : State) (p) : Shrinks s (s.markAbsent p) := by
  unfold State.markAbsent
  apply Shrinks.trans _ (Shrinks.cleanup _ p)
  apply Shrinks.trans _ (Shrinks.endWaitFor _ p)
  apply Shrinks.setPeer

/-- A SILENT report: no queue grows. -/
theorem Shrinks.silentReport (s : State) (p) : Shrinks s (s.silentReport p) := by
  unfold State.silentReport; split; exact Shrinks.refl s; exact Shrinks.markAbsent s p

/-- A SILENT report of a frame: no queue grows. -/
theorem Shrinks.reportSilence (s : State) (p) : Shrinks s (s.reportSilence p) := by
  unfold State.reportSilence; split; exact Shrinks.silentReport _ _; exact Shrinks.refl s

/-- Entry to HALTED: no queue grows. -/
theorem Shrinks.enterHalted (s : State) (c) : Shrinks s (s.enterHalted c) := by
  have h1 : Shrinks s (s.recordHalt c) := by
    unfold State.recordHalt; dsimp only
    split <;> exact Shrinks.of_eq rfl rfl rfl rfl rfl rfl rfl
  have h2 : Shrinks (s.recordHalt c) (s.recordHalt c).haltSpan :=
    ⟨le_rfl, le_rfl, le_max_left _ _, le_rfl, le_rfl, le_rfl, Or.inr rfl⟩
  have h3 : ∀ u : State, Shrinks u u.haltCurrent := by
    intro u; unfold State.haltCurrent
    split
    · exact Shrinks.refl u
    · split
      · exact Shrinks.issuingEnds _ _
      · exact Shrinks.failSegment _ _ _ _
  have h4 : ∀ u : State, Shrinks u u.haltTags := fun u => Shrinks.foldl _ (fun s t => by
    unfold State.haltTag
    split
    · exact Shrinks.endSegment _ _ _ _
    · split
      · exact Shrinks.setTag _ _ _
      · exact Shrinks.refl s) _ _
  have h5 : ∀ u : State, Shrinks u u.haltNotices := fun u => Shrinks.foldl _ (fun s e => by
    unfold State.haltNotice
    (repeat' split)
    · exact Shrinks.refl s
    · exact Shrinks.endNotice _ _ _ _
    · exact Shrinks.refl s) _ _
  have h6 : ∀ (u : State) st, Shrinks u (u.endLeave st) := fun u st => ⟨by simp [State.endLeave, State.withIssue],
      le_rfl, le_max_left _ _, le_rfl, le_rfl, le_rfl, Or.inl rfl⟩
  have h7 : ∀ u : State, Shrinks u u.noCopy := fun u => Shrinks.of_eq rfl rfl rfl rfl rfl rfl rfl
  have h8 : ∀ u : State, Shrinks u u.haltQueues := fun u => ⟨le_rfl, le_rfl, Nat.zero_le _, Nat.zero_le _,
      Nat.zero_le _, le_rfl, Or.inl rfl⟩
  exact ((((((h1.trans h2).trans (h3 _)).trans (h4 _)).trans (h5 _)).trans (h6 _ _)).trans (h7 _)).trans (h8 _)

/-- A change of an owner's state: no queue grows. -/
theorem Shrinks.setOwnerState (s : State) (o x) : Shrinks s (s.setOwnerState o x) := by
  cases o <;> exact Shrinks.of_eq rfl rfl rfl rfl rfl rfl rfl

/-- The outcome of an entry: no queue grows. -/
theorem Shrinks.entryOutcome (s : State) (e a) : Shrinks s (s.entryOutcome e a) := by
  cases a <;> simp only [State.entryOutcome]
  · unfold State.entrySilent; split
    · exact (Shrinks.endSegment _ _ _ _).trans (Shrinks.reportSilence _ _)
    · exact Shrinks.endNotice _ _ _ _
  · unfold State.entryAccepted State.tagAccepted; split
    · split
      · exact Shrinks.endSegment _ _ _ _
      · exact (Shrinks.removeEntry _ _).trans (Shrinks.setTag _ _ _)
    · exact Shrinks.endNotice _ _ _ _
  · unfold State.entryRefused; split
    · exact Shrinks.endSegment _ _ _ _
    · exact Shrinks.endNotice _ _ _ _
  · exact ((Shrinks.updateEntry _ _ _).trans (Shrinks.setOwnerState _ _ _)).trans (Shrinks.report _ _)
  · unfold State.entryDamaged; split
    · exact (Shrinks.updateEntry _ _ _).trans (Shrinks.setOwnerState _ _ _)
    · exact Shrinks.endEntry _ _ _

/-- The outcome of a request: no queue grows. -/
theorem Shrinks.requestOutcome (s : State) (n a) : Shrinks s (s.requestOutcome n a) := by
  unfold State.requestOutcome; (repeat' split)
  · exact Shrinks.refl s
  · exact Shrinks.filterRequests _ _
  · exact Shrinks.entryOutcome _ _ _

/-- The outcome of a completion: no queue grows. -/
theorem Shrinks.responseOutcome (s : State) (a) : Shrinks s (s.responseOutcome a) := by
  have hd : Shrinks s s.dropResponse := Shrinks.of_eq rfl rfl rfl rfl rfl rfl rfl
  unfold State.responseOutcome State.responseDamaged; (repeat' split)
  · exact Shrinks.refl s
  · exact hd
  · exact hd.trans (Shrinks.report _ _)
  · exact hd.trans (Shrinks.reportSilence _ _)
  · exact Shrinks.refl s
  · exact Shrinks.of_eq rfl rfl rfl rfl rfl rfl rfl
  · exact hd.trans (Shrinks.report _ _)

/-- The end of a LEAVE: no queue grows. -/
theorem Shrinks.endLeave (u : State) (st) : Shrinks u (u.endLeave st) := ⟨by simp [State.endLeave, State.withIssue],
    le_rfl, le_max_left _ _, le_rfl, le_rfl, le_rfl, Or.inl rfl⟩

/-- A change of the station state: no queue grows. -/
theorem Shrinks.enter (s : State) (x) : Shrinks s (s.enter x) := Shrinks.of_eq rfl rfl rfl rfl rfl rfl rfl

/-- Emptying the control slot: no queue grows. -/
theorem Shrinks.emptyControl (s : State) : Shrinks s s.emptyControl := Shrinks.of_eq rfl rfl rfl rfl rfl rfl rfl

/-- A retransmission of the control frame: no queue grows. -/
theorem Shrinks.recountControl (s : State) (c) : Shrinks s (s.recountControl c) := Shrinks.of_eq rfl rfl rfl rfl rfl
    rfl rfl

/-- The success of a broadcast: no queue grows. -/
theorem Shrinks.controlDone (s : State) (k) : Shrinks s (s.controlDone k) := by
  cases k <;> simp only [State.controlDone]
  · exact Shrinks.of_eq rfl rfl rfl rfl rfl rfl rfl
  · have h0 : Shrinks s s.emptyControl := Shrinks.of_eq rfl rfl rfl rfl rfl rfl rfl
    have h1 : ∀ u : State, Shrinks u u.freeStale := fun u => Shrinks.foldl _ (fun s t => by
      unfold State.freeIfStale; split
      · exact Shrinks.setTag _ _ _
      · exact Shrinks.refl s) _ _
    unfold State.left
    apply Shrinks.trans _ (Shrinks.enter _ _)
    apply Shrinks.trans _ (Shrinks.endLeave _ _)
    apply Shrinks.trans _ (h1 _)
    exact h0

/-- A DAMAGED control frame: no queue grows. -/
theorem Shrinks.controlDamaged (s : State) (c) : Shrinks s (s.controlDamaged c) := by
  unfold State.controlDamaged; split
  · apply Shrinks.recountControl
  · apply Shrinks.enterHalted

/-- The outcome of the control frame: no queue grows. -/
theorem Shrinks.controlOutcome (s : State) (a) : Shrinks s (s.controlOutcome a) := by
  unfold State.controlOutcome; split
  · exact Shrinks.refl s
  · cases a <;> dsimp only
    · apply Shrinks.controlDone
    · apply Shrinks.controlDone
    · apply Shrinks.controlDone
    · exact Shrinks.refl s
    · apply Shrinks.controlDamaged

/-- A conflict on the control frame: no queue grows. -/
theorem Shrinks.controlConflict (s : State) : Shrinks s s.controlConflict := by
  unfold State.controlConflict; (repeat' split)
  · exact Shrinks.refl s
  · exact Shrinks.recountControl _ _
  · exact Shrinks.of_eq rfl rfl rfl rfl rfl rfl rfl

/-- The own frame's outcome: no queue grows. -/
theorem Shrinks.ownOutcome (s : State) (a) : Shrinks s (s.ownOutcome a) := by
  have h0 : Shrinks s s.endAttempt := Shrinks.of_eq rfl rfl rfl rfl rfl rfl rfl
  unfold State.ownOutcome; split
  · unfold State.outcomeAt; split
    · exact h0.trans (Shrinks.controlOutcome _ _)
    · exact h0.trans (Shrinks.responseOutcome _ _)
    · exact h0.trans (Shrinks.requestOutcome _ _ _)
  · exact h0

/-- The own frame's conflict: no queue grows. -/
theorem Shrinks.ownConflict (s : State) : Shrinks s (s.ownConflict) := by
  have h0 : Shrinks s s.endAttempt := Shrinks.of_eq rfl rfl rfl rfl rfl rfl rfl
  unfold State.ownConflict; split
  · unfold State.conflictAt; split
    · exact h0.trans (Shrinks.controlConflict _)
    · exact h0.trans (Shrinks.responseOutcome _ _)
    · exact h0.trans (Shrinks.requestOutcome _ _ _)
  · exact h0

/-- The count of an unexpected completion: no queue grows. -/
theorem Shrinks.countUnexpected (s : State) (f) : Shrinks s (s.countUnexpected f) := by
  unfold State.countUnexpected; split <;> exact Shrinks.of_eq rfl rfl rfl rfl rfl rfl rfl

/-- The count of an answer: no queue grows. -/
theorem Shrinks.countAnswer (s : State) (f d a) : Shrinks s (s.countAnswer f d a) := by
  unfold State.countAnswer State.countRequestAnswer; (repeat' split)
  all_goals first
    | exact Shrinks.refl s
    | exact Shrinks.report _ _
    | exact Shrinks.countUnexpected _ _

/-- A source observation: no queue grows. -/
theorem Shrinks.observe (s : State) (f) : Shrinks s (s.observe f) := by
  unfold State.observe; split
  · unfold State.observeOwn; split
    · exact Shrinks.enterHalted _ _
    · exact Shrinks.refl s
  · unfold State.observePeer State.observeJoin; dsimp only
    (repeat' split)
    · exact (Shrinks.setPeer _ _ _).trans (Shrinks.cleanup _ _)
    · exact Shrinks.setPeer _ _ _
    · exact Shrinks.markAbsent _ _
    · exact Shrinks.setPeer _ _ _

/-- A delayed give-up: no queue grows. -/
theorem Shrinks.completeGiveUp (s : State) : Shrinks s s.completeGiveUp := by
  unfold State.completeGiveUp; (repeat' split)
  · exact Shrinks.enterHalted _ _
  · exact Shrinks.refl s
  · exact Shrinks.refl s

/-- The damage count: no queue grows. -/
theorem Shrinks.countDamage (s : State) (a) : Shrinks s (s.countDamage a) := by
  unfold State.countDamage; split; exact Shrinks.report _ _; exact Shrinks.refl s

/-- A completion queued: no queue grows. -/
theorem Shrinks.appendCompletion (s : State) (e b) : Shrinks s (s.appendCompletion e b) := by
  unfold State.appendCompletion; split
  · exact Shrinks.refl s
  · exact Shrinks.of_eq rfl rfl rfl rfl rfl rfl rfl

/-- The end of a service: no queue grows. -/
theorem Shrinks.serviceEnded (s : State) : Shrinks s s.serviceEnded := by
  refine ⟨le_rfl, le_rfl, le_max_left _ _, ?_, ?_, le_rfl, Or.inl rfl⟩
  · simp [State.serviceEnded, State.withInbound]
  · show (s.inbound.queue.tail.map _).sum ≤ _
    cases s.inbound.queue with
    | nil => simp
    | cons a l => simp only [List.tail_cons, List.map_cons, List.sum_cons]; omega

/-- The failure of a service: no queue grows. -/
theorem Shrinks.serviceFailed (s : State) (e) : Shrinks s (s.serviceFailed e) := (Shrinks.appendCompletion s e
    _).trans (Shrinks.serviceEnded _)

/-- The next transfer of a service: no queue grows. -/
theorem Shrinks.serveAt (s : State) (e p l) : Shrinks s (s.serveAt e p l) := Shrinks.of_eq rfl rfl rfl rfl rfl rfl rfl

/-- The result of a service transfer: no queue grows. -/
theorem Shrinks.serviceResult (s : State) (g act) (h : ∀ s e v, Shrinks s (act s e v)) : Shrinks s (s.serviceResult g
    act) := by
  unfold State.serviceResult; dsimp only
  have h0 : Shrinks s s.storeIdle := Shrinks.of_eq rfl rfl rfl rfl rfl rfl rfl
  split
  · exact h0
  · split
    · exact (h0.trans (h _ _ _)).trans (Shrinks.settle _)
    · exact h0

/-- The next transfer of a copy: no queue grows. -/
theorem Shrinks.raiseCopy (s : State) (e) : Shrinks s (s.raiseCopy e) := by
  unfold State.raiseCopy; split
  · exact Shrinks.of_eq rfl rfl rfl rfl rfl rfl rfl
  · exact Shrinks.refl s

/-- The end of a copy: no queue grows. -/
theorem Shrinks.noCopy (s : State) : Shrinks s s.noCopy := Shrinks.of_eq rfl rfl rfl rfl rfl rfl rfl

/-- The result of a copy transfer: no queue grows. -/
theorem Shrinks.copyCompleted (s : State) (g) : Shrinks s (s.copyCompleted g) := by
  unfold State.copyCompleted; split
  · split
    · exact Shrinks.endEntry _ _ _
    · unfold State.copyCarried; dsimp only; split
      · exact (Shrinks.updateEntry _ _ _).trans (Shrinks.noCopy _)
      · exact (Shrinks.updateEntry _ _ _).trans (Shrinks.raiseCopy _ _)
  · exact Shrinks.refl s

/-- The next piece taken: no queue grows. -/
theorem Shrinks.takeNextPiece (s : State) : Shrinks s s.takeNextPiece := by
  unfold State.takeNextPiece; split
  · exact Shrinks.of_eq rfl rfl rfl rfl rfl rfl rfl
  · exact Shrinks.refl s

/-- The result of a landing transfer: no queue grows. -/
theorem Shrinks.landed (s : State) (l n) : Shrinks s (s.landed l n) := by
  unfold State.landed; dsimp only; split
  · unfold State.landingEnded
    refine Shrinks.trans ?_ (Shrinks.settle _)
    have h0 : Shrinks s (s.withBuffer { s.buffer with landing := none }) := Shrinks.of_eq rfl rfl rfl rfl rfl rfl rfl
    refine (h0.trans ?_).trans (Shrinks.takeNextPiece _)
    unfold State.landingReported; dsimp only; split
    · split
      · exact (Shrinks.setTag _ _ _).trans (Shrinks.endSegment _ _ _ _)
      · exact Shrinks.setTag _ _ _
    · exact Shrinks.refl _
  · exact Shrinks.of_eq rfl rfl rfl rfl rfl rfl rfl

/-- The advance of the time: no queue grows. -/
theorem Shrinks.advance (s : State) (d) : Shrinks s (s.advance d) := Shrinks.of_eq rfl rfl rfl rfl rfl rfl rfl

/-- The end of a transfer: no queue grows. -/
theorem Shrinks.storeIdle (s : State) : Shrinks s s.storeIdle := Shrinks.of_eq rfl rfl rfl rfl rfl rfl rfl

/-! ## Received WR_REQs -/

/-- R183: a recognised WR_REQ carries a payload its length field admits. -/
theorem payloadLengthOk_of_parseBody {bits : List Bool} {t tag g o n p} (h : parseBody bits = some (.wrReq t tag g o
    n p)) : payloadLengthOk n.toNat (8 * p.length) = true := by
  unfold parseBody parseControl parseResponse parseRdData parseRequest parseWrReq parseAtReq at h
  dsimp only at h
  (repeat' split at h) <;> (try cases h)
  rename_i hh
  simp only [bytesAt, List.length_map, List.length_range]
  obtain ⟨h1, h2⟩ := hh
  have h3 : (bits.length - 54) % 8 = 0 := by
    unfold payloadLengthOk at h2
    split at h2 <;> simp only [decide_eq_true_eq] at h2 <;> omega
  rwa [show 8 * ((bits.length - 54) / 8) = bits.length - 54 by omega]

/-- R183: a recognised WR_REQ carries a payload its length field admits. -/
theorem payloadLengthOk_of_judge {body : List Bool} {f : Frame} {t tag g o n p} (h : judge body = .recognised f) (hb
    : f.body = .wrReq t tag g o n p) : payloadLengthOk n.toNat (8 * p.length) = true := by
  unfold judge at h; dsimp only at h
  split at h
  · split at h
    · rename_i b hp
      cases h
      rw [show b = _ from hb] at hp
      exact payloadLengthOk_of_parseBody hp
    · cases h
  · cases h

end Sys2Proof.Machine
end

