-- ==== Sys2Proof/Laws/Completions.lean ====
section
/-!
SUPPORT. Completions: the parts of the events keep the response queue within its entries, with room for the
    completions of the
service in progress (R72, R104).
-/
namespace Sys2Proof.Machine

/-- What the response queue's law reads is the same in both states, the response queue no longer. -/
structure Fits (s t : State) : Prop where
  inbound : t.inbound = s.inbound
  responses : t.sender.responses.length ≤ s.sender.responses.length
  received : t.span.received = s.span.received
  arbiter : outsideIssue t.arbiter = outsideIssue s.arbiter

/-- A state reads as itself. -/
theorem Fits.refl (s : State) : Fits s s := ⟨rfl, le_refl _, rfl, rfl⟩

/-- Two changes that leave what the law reads leave it together. -/
theorem Fits.trans {s t u : State} (h : Fits s t) (k : Fits t u) : Fits s u :=
  ⟨k.inbound.trans h.inbound, k.responses.trans h.responses, k.received.trans h.received, k.arbiter.trans h.arbiter⟩

/-- Whether a SERVICE transfer is granted lies outside the request of ISSUE. -/
theorem serves_of_outside {a b : Arbiter} (h : outsideIssue a = outsideIssue b) (g : Granted) : a.Serves g ↔ b.Serves
    g := by
  have key : ∀ {a b : Arbiter}, outsideIssue a = outsideIssue b → a.Serves g → b.Serves g := by
    intro a b h hs
    obtain ⟨h1, h2, h3⟩ := hs
    have hg := congrArg (fun x => x.2.2.2.2) h
    simp only [outsideIssue, h1, Option.map_some] at hg
    rw [if_neg (by rw [h2]; simp)] at hg
    obtain ⟨g', hg', hf⟩ := Option.map_eq_some_iff.1 hg.symm
    split at hf
    · rename_i hi
      rw [← hf] at h2
      simp only at h2
      rw [hi] at h2; cases h2
    · rw [hf] at hg'
      exact ⟨hg', h2, h3⟩
  exact ⟨key h, key h.symm⟩

/-- The request of SERVICE lies outside the request of ISSUE. -/
theorem raisedService_of_outside {a b : Arbiter} (h : outsideIssue a = outsideIssue b) : a.raisedService =
    b.raisedService :=
  congrArg (fun x => x.2.2.2.1) h

/-- R72, R104: the response queue's law is kept where what it reads is the same. -/
theorem Fits.keeps {s t : State} (h : Fits s t) (k : s.CompletionsFit) : t.CompletionsFit := by
  refine ⟨?_, ?_, ?_, ?_, ?_⟩
  · rw [h.inbound]; have := k.room; have := h.responses; omega
  · rw [h.inbound]; exact k.reads
  · rw [h.received]; exact k.takes
  · rw [h.inbound, raisedService_of_outside h.arbiter]
    intro hi
    exact ⟨(k.idle hi).1, fun g hg => (k.idle hi).2 g ((serves_of_outside h.arbiter g).1 hg)⟩
  · rw [h.inbound, raisedService_of_outside h.arbiter]
    intro v hv
    obtain ⟨e, rest, h1, h2, h3, h4, h5⟩ := k.serving v hv
    exact ⟨e, rest, h1, h2, h3, fun tr htr => ⟨(h4 tr htr).1, fun g hg => (h4 tr htr).2 g ((serves_of_outside
        h.arbiter g).1 hg)⟩,
      fun g hg => h5 g ((serves_of_outside h.arbiter g).1 hg)⟩

/-- A change that removals can make leaves what the law reads. -/
theorem Fits.of_beyond {s t : State} (h : t.beyond = s.beyond) (k : outsideIssue t.arbiter = outsideIssue s.arbiter)
    : Fits s t :=
  ⟨congrArg Beyond.inbound h, (congrArg (fun b => b.responses.length) h).le, congrArg (fun b => b.span.received) h, k⟩

/-- The failure of a segment leaves what the response queue's law reads. -/
theorem Fits.failSegment (s : State) (n k st) : Fits s (s.failSegment n k st) := Fits.of_beyond (beyond_failSegment _
    _ _ _) (outsideIssue_failSegment _ _ _ _)

/-- The end of a segment leaves what the response queue's law reads. -/
theorem Fits.endSegment (s : State) (t st v) : Fits s (s.endSegment t st v) := Fits.of_beyond (beyond_endSegment _ _
    _ _) (outsideIssue_endSegment _ _ _ _)

/-- The end of a NOTICE leaves what the response queue's law reads. -/
theorem Fits.endNotice (s : State) (n c st) : Fits s (s.endNotice n c st) := Fits.of_beyond (beyond_endNotice _ _ _
    _) (outsideIssue_endNotice _ _ _ _)

/-- The end of an entry leaves what the response queue's law reads. -/
theorem Fits.endEntry (s : State) (e st) : Fits s (s.endEntry e st) := by
  unfold State.endEntry; split
  · exact Fits.endSegment _ _ _ _
  · exact Fits.endNotice _ _ _ _

/-- Removing an entry leaves what the response queue's law reads. -/
theorem Fits.removeEntry (s : State) (n) : Fits s (s.removeEntry n) := by
  have h := segmentView_removeEntry s n
  exact ⟨congrArg SegmentView.inbound h, (congrArg (fun b => b.responses.length) h).le, congrArg (fun b =>
      b.span.received) h, outsideIssue_removeEntry _ _⟩

/-- A fold of changes that leave what the law reads leaves it. -/
theorem Fits.fold {α : Type} (f : State → α → State) (h : ∀ s a, Fits s (f s a)) : ∀ (l : List α) (s : State), Fits s
    (l.foldl f s)
  | [], s => Fits.refl s
  | a :: l, s => (h s a).trans (Fits.fold f h l (f s a))

/-- A change outside inbound, responses, receive holding and arbiter leaves what the law reads. -/
theorem Fits.same {s t : State} (h1 : t.inbound = s.inbound) (h2 : t.sender.responses = s.sender.responses)
   (h3 : t.span.received = s.span.received) (h4 : t.arbiter = s.arbiter) : Fits s t := ⟨h1, by rw [h2], h3, by rw [h4]⟩

/-- The ask for the next segment leaves what the response queue's law reads. -/
theorem Fits.issueNext (s : State) : Fits s s.issueNext := by
  unfold State.issueNext State.issueSegment
  split
  · split
    · exact Fits.failSegment _ _ _ _
    · split
      · unfold State.delaySegment; split <;> exact Fits.same rfl rfl rfl rfl
      · unfold State.grant State.grantSegment State.grantNotice
        have hi : ∀ (u : State) c, Fits u (u.segmentIssued c) := by
          intro u c
          unfold State.segmentIssued State.issuingEnds; dsimp only
          (repeat' split) <;> exact Fits.same rfl rfl rfl rfl
        (repeat' split)
        · exact Fits.refl _
        · refine Fits.trans ?_ (hi _ _)
          exact Fits.same rfl rfl rfl rfl
        · exact Fits.refl _
        · refine Fits.trans ?_ (hi _ _)
          exact Fits.same rfl rfl rfl rfl
  · exact Fits.refl _

/-- What a change keeps: the law of the response queue. -/
def KeepsFit (s t : State) : Prop := s.CompletionsFit → t.CompletionsFit

/-- Two changes that keep the law keep it together. -/
theorem KeepsFit.trans {s t u : State} (h : KeepsFit s t) (k : KeepsFit t u) : KeepsFit s u := fun a => k (h a)

/-- A state keeps what it has. -/
theorem KeepsFit.refl (s : State) : KeepsFit s s := id

/-- A change that leaves what the law reads keeps the law. -/
theorem Fits.keepsFit {s t : State} (h : Fits s t) : KeepsFit s t := h.keeps

/-- R71, R72: the beginning of the head's service keeps the response queue's law. -/
theorem KeepsFit.turnService (s : State) : KeepsFit s s.turnService := by
  unfold State.turnService
  rcases hq : s.inbound.queue with _ | ⟨e, rest⟩
  · exact KeepsFit.refl s
  · dsimp only [List.head?_cons]
    split
    · rename_i hm
      simp only [State.serviceMayBegin, Bool.and_eq_true, Bool.not_eq_true', Sender.hasRoomFor, decide_eq_true_eq,
        Config.responseEntries] at hm
      obtain ⟨hb, hroom⟩ := hm
      intro k
      have hns : s.inbound.service = none := by
        by_contra hn
        obtain ⟨v, hv⟩ := Option.ne_none_iff_exists'.1 hn
        obtain ⟨e', r', h1, h2, _⟩ := k.serving v hv
        rw [hq] at h1
        cases h1
        rw [hb] at h2; cases h2
      obtain ⟨hi1, hi2⟩ := k.idle hns
      have hib : (s.serviceBegun e).inbound
          = { queue := { e with begun := true } :: rest, service := some { position := 0, piece := [] } } := by
        show ({ queue := { e with begun := true } :: s.inbound.queue.tail
                service := some { position := 0, piece := [] } } : Inbound) = _
        rw [hq]; rfl
      have hread : ∀ n, e.work = .read n → 1 ≤ n ∧ n ≤ 256 := k.reads e (by rw [hq]; simp)
      refine ⟨?_, ?_, k.takes, (by rw [hib]; rintro ⟨⟩), ?_⟩
      · rw [hib]
        show s.sender.responses.length + InboundEntry.owed { e with begun := true } 0 ≤ 16
        have := k.room
        unfold InboundWork.completions at hroom
        unfold InboundEntry.owed
        dsimp only
        cases hw : e.work with
        | read n =>
          rw [hw] at hroom
          have := hread n hw
          simp only [Config.pieceBytes] at hroom
          dsimp only
          split at hroom <;> omega
        | write p => dsimp only; omega
        | atomic o a b => rw [hw] at hroom; dsimp only at hroom ⊢; omega
      · rw [hib]
        intro x hx n hn
        rcases List.mem_cons.1 hx with rfl | hx
        · exact hread n hn
        · exact k.reads x (by rw [hq]; exact List.mem_cons_of_mem _ hx) n hn
      · rw [hib]
        intro v hv
        cases hv
        refine ⟨_, rest, rfl, rfl, fun n hn => (hread n hn).1, ?_, fun g hg => absurd hg (hi2 g)⟩
        intro tr htr
        have : (some (InboundEntry.transferAt e 0)) = some tr := htr
        exact ⟨(Option.some.inj this).symm, fun g hg => hi2 g hg⟩
    · exact KeepsFit.refl s

/-- What every event ends with keeps the response queue's law. -/
theorem KeepsFit.settle (s : State) : KeepsFit s s.settle := by
  unfold State.settle
  have h0 : ∀ u : State, Fits u u.produceResults := fun u => Fits.same rfl rfl rfl rfl
  have h1 : ∀ u : State, Fits u u.askAgain := by
    intro u; unfold State.askAgain; split
    · exact Fits.issueNext _
    · exact Fits.refl _
  have h2 : ∀ u : State, Fits u u.refreshOffer := by
    intro u
    refine ⟨rfl, le_refl _, ?_, rfl⟩
    show (u.span.follow u.sender.choice).received = _
    unfold SpanInterface.follow; split <;> rfl
  exact ((h0 _).trans ((h1 _).trans ((h0 _).trans (h2 _)))).keepsFit.trans (KeepsFit.turnService _)

/-- The inbound service's part of a cleanup keeps the response queue's law. -/
theorem KeepsFit.cleanInbound (s : State) (p) : KeepsFit s (s.cleanInbound p) := by
  intro k
  have hq : (s.cleanInbound p).inbound.queue = s.inbound.queue.filterMap (fun e => if e.source = p then e.removed
      else some e) := rfl
  have hwork : ∀ e e' : InboundEntry, (if e.source = p then e.removed else some e) = some e' → e'.work = e.work ∧
      e'.offset = e.offset ∧ e'.begun = e.begun := by
    intro e e' h
    split at h
    · unfold InboundEntry.removed at h
      split at h
      · cases h; exact ⟨rfl, rfl, rfl⟩
      · split at h <;> cases h
        exact ⟨rfl, rfl, rfl⟩
    · cases h; exact ⟨rfl, rfl, rfl⟩
  have hbeg : ∀ e : InboundEntry, e.begun = true → ∃ e', (if e.source = p then e.removed else some e) = some e' := by
    intro e h
    split
    · unfold InboundEntry.removed; rw [if_pos h]; exact ⟨_, rfl⟩
    · exact ⟨_, rfl⟩
  have hhead : ∀ v, s.inbound.service = some v → ∃ e rest e' rest', s.inbound.queue = e :: rest ∧ (s.cleanInbound
      p).inbound.queue = e' :: rest'
      ∧ e'.work = e.work ∧ e'.offset = e.offset ∧ e'.begun = e.begun := by
    intro v hv
    obtain ⟨e, rest, h1, h2, _⟩ := k.serving v hv
    obtain ⟨e', he'⟩ := hbeg e h2
    refine ⟨e, rest, e', rest.filterMap (fun e => if e.source = p then e.removed else some e), h1, ?_, hwork _ _ he'⟩
    rw [hq, h1, List.filterMap_cons, he']
  refine ⟨?_, ?_, k.takes, k.idle, ?_⟩
  · show s.sender.responses.length + _ ≤ 16
    have := k.room
    have hw : (s.cleanInbound p).inbound.owed = s.inbound.owed := by
      cases hv : s.inbound.service with
      | none =>
        have h1 : (s.cleanInbound p).inbound.service = none := hv
        unfold Inbound.owed; rw [h1, hv]
        (repeat' split) <;> simp_all
      | some v =>
        obtain ⟨e, rest, e', rest', h1, h2, h3, h4, h5⟩ := hhead v hv
        have hs : (s.cleanInbound p).inbound.service = some v := hv
        unfold Inbound.owed; rw [h1, h2, hv, hs]
        unfold InboundEntry.owed; dsimp only; rw [h3]
    omega
  · intro e he n hn
    rw [hq, List.mem_filterMap] at he
    obtain ⟨e0, he0, h⟩ := he
    rw [(hwork _ _ h).1] at hn
    exact k.reads e0 he0 n hn
  · intro v hv
    obtain ⟨e, rest, h1, h2, h3, h4, h5⟩ := k.serving v hv
    obtain ⟨e1, rest1, e', rest', g1, g2, g3, g4, g5⟩ := hhead v hv
    rw [h1] at g1
    obtain ⟨rfl, rfl⟩ : e = e1 ∧ rest = rest1 := by simpa using g1
    have ht : e'.transferAt v.position = e.transferAt v.position := by
      unfold InboundEntry.transferAt; rw [g3, g4]
    refine ⟨e', rest', g2, g5.trans h2, by rw [g3]; exact h3, ?_, ?_⟩
    · rw [ht]; exact h4
    · rw [ht]; exact h5

/-- A cleanup keeps the response queue's law. -/
theorem KeepsFit.cleanup (s : State) (p) : KeepsFit s (s.cleanup p) := by
  unfold State.cleanup
  have h1 : Fits s (s.cleanTags p) := by
    refine Fits.fold _ ?_ _ _
    intro s t
    unfold State.cleanTag
    (repeat' split)
    · exact Fits.endSegment _ _ _ _
    · exact Fits.same rfl rfl rfl rfl
    · exact Fits.refl _
    · exact Fits.refl _
  generalize s.cleanTags p = u at h1
  refine h1.keepsFit.trans (KeepsFit.trans (t := (u.cleanRequests p).cleanResponses p) (Fits.keepsFit ⟨rfl, ?_, rfl,
      rfl⟩) (KeepsFit.trans (KeepsFit.cleanInbound _ p) (Fits.keepsFit (Fits.same rfl rfl rfl rfl))))
  exact List.length_filter_le _ _

/-- A peer's absence keeps the response queue's law. -/
theorem KeepsFit.markAbsent (s : State) (p) : KeepsFit s (s.markAbsent p) := by
  unfold State.markAbsent
  refine KeepsFit.trans ?_ (KeepsFit.cleanup _ _)
  refine KeepsFit.trans (t := s.setPeer p { s.peerAt p with state := .absent }) (Fits.keepsFit (Fits.same rfl rfl rfl
      rfl)) (Fits.keepsFit ?_)
  unfold State.endWaitFor
  (repeat' split)
  · exact Fits.refl _
  · exact Fits.refl _
  · exact Fits.failSegment _ _ _ _
  · exact Fits.refl _

/-- A SILENT report keeps the response queue's law. -/
theorem KeepsFit.reportSilence (s : State) (p) : KeepsFit s (s.reportSilence p) := by
  unfold State.reportSilence State.silentReport
  (repeat' split)
  · exact KeepsFit.refl _
  · exact KeepsFit.markAbsent _ _
  · exact KeepsFit.refl _

/-- With no completion, no inbound work and no SERVICE transfer the law holds. -/
theorem completionsFit_cleared {s : State} (h1 : s.sender.responses = []) (h2 : s.inbound = Inbound.reset) (h3 :
    s.span.received = none)
    (h4 : s.arbiter.raisedService = none) (h5 : ∀ g, ¬ s.arbiter.Serves g) : s.CompletionsFit := by
  refine ⟨?_, ?_, ?_, ?_, ?_⟩
  · rw [h1, h2]; simp [Inbound.owed, Inbound.reset]
  · rw [h2]; intro e he; cases he
  · rw [h3]; intro _ _ _ _ _ h; cases h
  · intro _; exact ⟨h4, h5⟩
  · rw [h2]; intro v hv; cases hv

/-- R173: nothing is received any more after entry to HALTED. -/
theorem received_enterHalted (s : State) (c) : (s.enterHalted c).span.received = none := by
  unfold State.enterHalted State.haltWork
  have h1 : Fits (s.recordHalt c).haltSpan (s.recordHalt c).haltSpan.haltCurrent.haltTags.haltNotices := by
    generalize (s.recordHalt c).haltSpan = u
    have hie : ∀ n, Fits u (u.issuingEnds n) := by
      intro n; unfold State.issuingEnds; split
      · exact Fits.same rfl rfl rfl rfl
      · exact Fits.refl _
    have a1 : Fits u u.haltCurrent := by
      unfold State.haltCurrent
      (repeat' split)
      · exact Fits.refl _
      · exact hie _
      · exact Fits.failSegment _ _ _ _
    have a2 : ∀ u : State, Fits u u.haltTags := by
      intro u
      refine Fits.fold _ ?_ _ _
      intro s t
      unfold State.haltTag
      (repeat' split)
      · exact Fits.endSegment _ _ _ _
      · exact Fits.same rfl rfl rfl rfl
      · exact Fits.refl _
    have a3 : ∀ u : State, Fits u u.haltNotices := by
      intro u
      refine Fits.fold _ ?_ _ _
      intro s t
      unfold State.haltNotice
      (repeat' split)
      · exact Fits.refl _
      · exact Fits.endNotice _ _ _ _
      · exact Fits.refl _
    exact a1.trans ((a2 _).trans (a3 _))
  have h2 := h1.received
  generalize (s.recordHalt c).haltSpan.haltCurrent.haltTags.haltNotices = w at h2
  exact h2

/-- R80, R98, R118: the law holds after entry to HALTED. -/
theorem completionsFit_enterHalted (s : State) (c) : (s.enterHalted c).CompletionsFit := by
  refine completionsFit_cleared ?_ ?_ (received_enterHalted s c) ?_ ?_
  all_goals (unfold State.enterHalted; generalize ((s.recordHalt c).haltSpan.haltWork) = w)
  · rfl
  · rfl
  · rfl
  · rintro g ⟨h1, h2, h3⟩
    simp only [State.haltQueues, State.withSender_arbiter, State.withInbound_arbiter, State.withArbiter_arbiter,
        Arbiter.abandon] at h1
    obtain ⟨g', hg', hf⟩ := Option.map_eq_some_iff.1 h1
    split at hf
    · rw [← hf] at h3; cases h3
    · rename_i hn; rw [hf] at hn; exact hn h2

/-- The outcome of a completion keeps the response queue's law. -/
theorem KeepsFit.responseOutcome (s : State) (a) : KeepsFit s (s.responseOutcome a) := by
  unfold State.responseOutcome
  have hd : Fits s s.dropResponse := ⟨rfl, by show s.sender.responses.tail.length ≤ _; simp, rfl, rfl⟩
  split
  · exact KeepsFit.refl _
  · rename_i r hr
    split
    · exact hd.keepsFit
    · exact (hd.trans (Fits.same (t := s.dropResponse.report .completionRefused) rfl rfl rfl rfl)).keepsFit
    · exact hd.keepsFit.trans (KeepsFit.reportSilence _ _)
    · exact KeepsFit.refl _
    · unfold State.responseDamaged; split
      · refine Fits.keepsFit ⟨rfl, ?_, rfl, rfl⟩
        show (s.sender.responses.tail.length + 1) ≤ _
        cases hq : s.sender.responses with
        | nil => rw [hq] at hr; cases hr
        | cons a l => simp
      · exact (hd.trans (Fits.same (t := s.dropResponse.report .completionDropped) rfl rfl rfl rfl)).keepsFit

/-- The outcome of a request entry keeps the response queue's law. -/
theorem KeepsFit.requestOutcome (s : State) (n a) : KeepsFit s (s.requestOutcome n a) := by
  unfold State.requestOutcome
  (repeat' split)
  · exact KeepsFit.refl _
  · exact Fits.keepsFit (Fits.same rfl rfl rfl rfl)
  · rename_i e _ _
    have hs : ∀ (u : State) o x, Fits u (u.setOwnerState o x) := by
      intro u o x; unfold State.setOwnerState; split <;> exact Fits.same rfl rfl rfl rfl
    unfold State.entryOutcome
    split
    · unfold State.entryAccepted State.tagAccepted
      (repeat' split)
      · exact Fits.keepsFit (Fits.endSegment _ _ _ _)
      · exact Fits.keepsFit ((Fits.removeEntry _ _).trans (Fits.same rfl rfl rfl rfl))
      · exact Fits.keepsFit (Fits.endNotice _ _ _ _)
    · unfold State.entryRefused
      split
      · exact Fits.keepsFit (Fits.endSegment _ _ _ _)
      · exact Fits.keepsFit (Fits.endNotice _ _ _ _)
    · unfold State.entrySilent
      split
      · exact KeepsFit.trans (Fits.keepsFit (Fits.endSegment _ _ _ _)) (KeepsFit.reportSilence _ _)
      · exact Fits.keepsFit (Fits.endNotice _ _ _ _)
    · unfold State.entryBusy
      rename_i e _ _ _
      have h := (Fits.same (s := s) (t := s.updateEntry e.slot (fun x => x.afterBusy s.clock)) rfl rfl rfl rfl).trans
          (hs _ e.owner .held)
      generalize (s.updateEntry e.slot (fun x => x.afterBusy s.clock)).setOwnerState e.owner .held = u at h
      exact Fits.keepsFit (h.trans (Fits.same (s := u) rfl rfl rfl rfl))
    · unfold State.entryDamaged; split
      · refine Fits.keepsFit (Fits.trans ?_ (hs _ _ _))
        exact Fits.same rfl rfl rfl rfl
      · exact Fits.keepsFit (Fits.endEntry _ _ _)

/-- The outcome of the control frame keeps the response queue's law. -/
theorem KeepsFit.controlOutcome (s : State) (a) : KeepsFit s (s.controlOutcome a) := by
  have hd : ∀ k, KeepsFit s (s.controlDone k) := by
    intro k
    cases k
    · exact Fits.keepsFit (Fits.same rfl rfl rfl rfl)
    · show KeepsFit s s.left
      unfold State.left
      have h1 : Fits s s.emptyControl := Fits.same rfl rfl rfl rfl
      have h2 : Fits s.emptyControl s.emptyControl.freeStale := by
        refine Fits.fold _ ?_ _ _
        intro s t; unfold State.freeIfStale; split
        · exact Fits.same rfl rfl rfl rfl
        · exact Fits.refl _
      have h3 := h1.trans h2
      generalize s.emptyControl.freeStale = u at h3
      exact Fits.keepsFit (h3.trans (Fits.same rfl rfl rfl rfl))
  unfold State.controlOutcome
  (repeat' split)
  · exact KeepsFit.refl _
  · exact hd _
  · exact hd _
  · exact hd _
  · exact KeepsFit.refl _
  · unfold State.controlDamaged; split
    · exact Fits.keepsFit (Fits.same rfl rfl rfl rfl)
    · exact fun _ => completionsFit_enterHalted _ _

/-- The own frame's outcome keeps the response queue's law. -/
theorem KeepsFit.ownOutcome (s : State) (a) : KeepsFit s (s.ownOutcome a) := by
  have h0 : KeepsFit s s.endAttempt := Fits.keepsFit (Fits.same rfl rfl rfl rfl)
  unfold State.ownOutcome
  split
  · refine h0.trans ?_
    unfold State.outcomeAt; split
    · exact KeepsFit.controlOutcome _ _
    · exact KeepsFit.responseOutcome _ _
    · exact KeepsFit.requestOutcome _ _ _
  · exact h0

/-- The own frame's conflict keeps the response queue's law. -/
theorem KeepsFit.ownConflict (s : State) : KeepsFit s s.ownConflict := by
  have h0 : KeepsFit s s.endAttempt := Fits.keepsFit (Fits.same rfl rfl rfl rfl)
  unfold State.ownConflict
  split
  · refine h0.trans ?_
    unfold State.conflictAt; split
    · unfold State.controlConflict
      (repeat' split)
      · exact KeepsFit.refl _
      · exact Fits.keepsFit (Fits.same rfl rfl rfl rfl)
      · exact Fits.keepsFit (Fits.same rfl rfl rfl rfl)
    · exact KeepsFit.responseOutcome _ _
    · exact KeepsFit.requestOutcome _ _ _
  · exact h0

/-- A source observation keeps the response queue's law. -/
theorem KeepsFit.observe (s : State) (f) : KeepsFit s (s.observe f) := by
  unfold State.observe State.observeOwn State.observePeer
  (repeat' split)
  · exact fun _ => completionsFit_enterHalted _ _
  · exact KeepsFit.refl _
  · unfold State.observeJoin; dsimp only
    have h0 : ∀ p, KeepsFit s (s.setPeer f.source p) := fun p => Fits.keepsFit (Fits.same rfl rfl rfl rfl)
    split
    · exact (h0 _).trans (KeepsFit.cleanup _ _)
    · exact h0 _
  · exact KeepsFit.markAbsent _ _
  · exact Fits.keepsFit (Fits.same rfl rfl rfl rfl)

/-- The count of an unexpected completion leaves what the response queue's law reads. -/
theorem Fits.countUnexpected (s : State) (f) : Fits s (s.countUnexpected f) := by
  unfold State.countUnexpected; split
  · exact Fits.same rfl rfl rfl rfl
  · exact Fits.refl _

/-- A receiver's counts leaves what the response queue's law reads. -/
theorem Fits.countAnswer (s : State) (f d a) : Fits s (s.countAnswer f d a) := by
  unfold State.countAnswer State.countRequestAnswer
  (repeat' split) <;> first
    | exact Fits.refl _
    | exact Fits.countUnexpected _ _
    | exact Fits.same rfl rfl rfl rfl

/-- The commit of a request keeps the response queue's law. -/
theorem KeepsFit.commitRequest (s : State) (a b c d w) (hw : ∀ n, w = .read n → 1 ≤ n ∧ n ≤ 256) : KeepsFit s
    (s.commitRequest a b c d w) := by
  intro k
  obtain ⟨x, hq, hx⟩ : ∃ x : InboundEntry, (s.commitRequest a b c d w).inbound.queue = s.inbound.queue ++ [x] ∧
      x.work = w :=
    ⟨_, rfl, rfl⟩
  have hs : (s.commitRequest a b c d w).inbound.service = s.inbound.service := rfl
  refine ⟨?_, ?_, k.takes, k.idle, ?_⟩
  · have := k.room
    have : (s.commitRequest a b c d w).inbound.owed = s.inbound.owed := by
      unfold Inbound.owed
      rw [hs, hq]
      cases hv : s.inbound.service with
      | none => (repeat' split) <;> simp_all
      | some v =>
        obtain ⟨e, rest, h1, _⟩ := k.serving v hv
        rw [h1]; rfl
    show s.sender.responses.length + _ ≤ 16
    omega
  · intro e he n hn
    rw [hq, List.mem_append, List.mem_singleton] at he
    rcases he with he | rfl
    · exact k.reads e he n hn
    · exact hw n (hx.symm.trans hn)
  · intro v hv
    obtain ⟨e, rest, h1, h⟩ := k.serving v hv
    exact ⟨e, _, by rw [hq, h1]; rfl, h⟩

/-- The commit of a completion keeps the response queue's law. -/
theorem KeepsFit.commitCompletion (s : State) (f t) : KeepsFit s (s.commitCompletion f t) := by
  unfold State.commitCompletion
  split
  · unfold State.commitMatched
    split
    · exact Fits.keepsFit (Fits.same rfl rfl rfl rfl)
    · exact Fits.keepsFit (Fits.endSegment _ _ _ _)
    · exact Fits.keepsFit (Fits.endSegment _ _ _ _)
    · exact KeepsFit.refl _
  · unfold State.commitLate; dsimp only
    split <;> exact Fits.keepsFit (Fits.same rfl rfl rfl rfl)
  · exact Fits.keepsFit (Fits.countUnexpected _ _)

/-- A commit keeps the response queue's law. -/
theorem KeepsFit.commit (s : State) (f : Frame) (h : ∀ t tag g o n, f.body = .rdReq t tag g o n → 1 ≤ n.toNat ∧
    n.toNat ≤ 256) : KeepsFit s (s.commit f) := by
  unfold State.commit
  split
  · rename_i hb
    exact KeepsFit.commitRequest _ _ _ _ _ _ (fun n hn => by cases hn; exact h _ _ _ _ _ hb)
  · exact KeepsFit.commitRequest _ _ _ _ _ _ (fun n hn => by cases hn)
  · exact KeepsFit.commitRequest _ _ _ _ _ _ (fun n hn => by cases hn)
  · exact KeepsFit.commitCompletion _ _ _
  · exact KeepsFit.commitCompletion _ _ _
  · exact KeepsFit.commitCompletion _ _ _
  · exact Fits.keepsFit (Fits.same rfl rfl rfl rfl)
  · exact KeepsFit.refl _
  · exact KeepsFit.refl _

/-- The resolution of a received frame keeps the response queue's law. -/
theorem KeepsFit.resolveReceived (s : State) (r : Received) (a)
    (hr : ∀ t tag g o n, r.work = some (.rdReq t tag g o n) → 1 ≤ n.toNat ∧ n.toNat ≤ 256) :
    KeepsFit s (s.resolveReceived r a) := by
  unfold State.resolveReceived
  split
  · rename_i f hf
    unfold State.resolveFrame
    dsimp only
    refine (Fits.countAnswer s f r.drove a).keepsFit.trans ?_
    generalize s.countAnswer f r.drove a = v
    have h2 : KeepsFit v (if r.take = true ∧ a = .accept then v.commit f else v) := by
      split
      · rename_i ht
        refine KeepsFit.commit _ _ ?_
        intro t tag g o n hb
        exact hr t tag g o n (by simp [Received.work, ht.1, hf, hb])
      · exact KeepsFit.refl _
    generalize (if r.take = true ∧ a = .accept then v.commit f else v) = w at h2 ⊢
    refine h2.trans ?_
    split
    · exact KeepsFit.refl _
    · exact KeepsFit.observe _ _
  · exact KeepsFit.refl _

/-- The reports of a resolution keep the response queue's law, where the frame held meets it. -/
theorem KeepsFit.makeReports (s : State) (held : Option Received) (o)
    (hr : ∀ t tag g o n, held.bind Received.work = some (.rdReq t tag g o n) → 1 ≤ n.toNat ∧ n.toNat ≤ 256) :
    KeepsFit s (s.makeReports held o) := by
  unfold State.makeReports
  have k1 : ∀ a, KeepsFit s (s.countDamage a) := by
    intro a
    unfold State.countDamage; split
    · exact Fits.keepsFit (Fits.same rfl rfl rfl rfl)
    · exact KeepsFit.refl _
  have kw : ∀ w : State, KeepsFit w w.completeGiveUp := by
    intro w
    unfold State.completeGiveUp
    (repeat' split)
    · exact fun _ => completionsFit_enterHalted _ _
    · exact KeepsFit.refl _
    · exact KeepsFit.refl _
  refine KeepsFit.trans ?_ ((kw _).trans (KeepsFit.settle _))
  split
  · exact (k1 _).trans (KeepsFit.ownOutcome _ _)
  · split
    · exact (k1 _).trans (KeepsFit.resolveReceived _ _ _ (fun t tag g o n h => hr t tag g o n h))
    · exact k1 _

/-- R4: a frame whose bits arrive is no inbound work. -/
@[simp] theorem work_arriving (bits : List Bool) : (Received.arriving bits).work = none := rfl

/-- R4: a frame whose body begins is no inbound work. -/
@[simp] theorem work_begun (word : Option (BitVec 6)) : (word.map Received.begun).bind Received.work = none := by
  cases word <;> rfl

/-- R4: the own frame, whose body begins, is no inbound work. -/
theorem work_won (s : State) : s.won.span.received.bind Received.work = none := by
  show (s.offeredFrame.map _).bind Received.work = none
  cases s.offeredFrame <;> rfl

/-- A receive holding that keeps no inbound work keeps the response queue's law, where what else it reads is the same. -/
theorem KeepsFit.holding {s t : State} (h1 : t.inbound = s.inbound) (h2 : t.sender.responses = s.sender.responses)
    (h3 : t.span.received.bind Received.work = none) (h4 : t.arbiter = s.arbiter) : KeepsFit s t := by
  intro k
  exact ⟨by rw [h1, h2]; exact k.room, by rw [h1]; exact k.reads, by rw [h3]; rintro _ _ _ _ _ ⟨⟩,
    by rw [h1, h4]; exact k.idle, by rw [h1, h4]; exact k.serving⟩

/-- A change after which no SERVICE transfer is granted keeps the law. -/
theorem KeepsFit.notServing {s t : State} (h1 : t.inbound = s.inbound) (h2 : t.sender.responses = s.sender.responses)
    (h3 : t.span.received = s.span.received)
    (h4 : t.arbiter.raisedService = s.arbiter.raisedService) (h5 : ∀ g, ¬ t.arbiter.Serves g) : KeepsFit s t := by
  intro k
  refine ⟨by rw [h1, h2]; exact k.room, by rw [h1]; exact k.reads, by rw [h3]; exact k.takes, ?_, ?_⟩
  · rw [h1, h4]; exact fun h => ⟨(k.idle h).1, h5⟩
  · rw [h1, h4]
    intro v hv
    obtain ⟨e, rest, a1, a2, a3, a4, a5⟩ := k.serving v hv
    exact ⟨e, rest, a1, a2, a3, fun tr h => ⟨(a4 tr h).1, h5⟩, fun g hg => absurd hg (h5 g)⟩

/-- An idle store serves nobody. -/
theorem not_serves_idle (s : State) (g) : ¬ s.storeIdle.arbiter.Serves g := by rintro ⟨h, _⟩; cases h

/-- The end of a transfer keeps the response queue's law. -/
theorem KeepsFit.storeIdle (s : State) : KeepsFit s s.storeIdle := KeepsFit.notServing rfl rfl rfl rfl
    (not_serves_idle s)

/-- Another claimant's request keeps the response queue's law. -/
theorem KeepsFit.raiseOther (s : State) (c tr) (h : c ≠ .service) : KeepsFit s (s.raise c tr) := by
  have hr : (s.raise c tr).arbiter.raisedService = s.arbiter.raisedService ∧ (s.raise c tr).arbiter.granted =
      s.arbiter.granted := by
    cases c <;> first | exact absurd rfl h | exact ⟨rfl, rfl⟩
  have hs : ∀ g, (s.raise c tr).arbiter.Serves g ↔ s.arbiter.Serves g := by
    intro g; unfold Arbiter.Serves; rw [hr.2]
  intro k
  refine ⟨k.room, k.reads, k.takes, ?_, ?_⟩
  · rw [hr.1]; exact fun h => ⟨(k.idle h).1, fun g hg => (k.idle h).2 g ((hs g).1 hg)⟩
  · rw [hr.1]
    intro v hv
    obtain ⟨e, rest, a1, a2, a3, a4, a5⟩ := k.serving v hv
    exact ⟨e, rest, a1, a2, a3, fun tr h => ⟨(a4 tr h).1, fun g hg => (a4 tr h).2 g ((hs g).1 hg)⟩, fun g hg => a5 g
        ((hs g).1 hg)⟩

/-- A copy's request keeps the response queue's law. -/
theorem KeepsFit.raiseCopy (s : State) (e) : KeepsFit s (s.raiseCopy e) := by
  unfold State.raiseCopy; split
  · refine KeepsFit.trans ?_ (KeepsFit.raiseOther _ .issue _ (by simp))
    exact fun k => ⟨k.room, k.reads, k.takes, k.idle, k.serving⟩
  · exact KeepsFit.refl _

/-- A command with a condition keeps the law if its effect does. -/
theorem KeepsFit.when {s t : State} (b : Bool) (h : b = true → KeepsFit s t) : ∃ u, whenever b s t = .next u ∧
    KeepsFit s u := by
  cases b
  · exact ⟨s, rfl, KeepsFit.refl s⟩
  · exact ⟨t, rfl, h rfl⟩

/-- R71, R72: what the result of a SERVICE transfer meets. -/
theorem completionsFit_serving {s : State} {g : Granted} {e v} (k : s.CompletionsFit) (hg : s.arbiter.Serves g) (he :
    s.inbound.queue.head? = some e) (hv : s.inbound.service = some v) :
    ∃ rest, s.inbound.queue = e :: rest ∧ e.begun = true ∧ (∀ n, e.work = .read n → v.position < n ∧ n ≤ 256) ∧
        s.arbiter.raisedService = none
      ∧ g.transfer = e.transferAt v.position ∧ (∀ o n, g.transfer = .read o n → g.data.length = n)
      ∧ s.sender.responses.length + e.owed v.position ≤ 16 := by
  obtain ⟨e1, rest, h1, h2, h3, h4, h5⟩ := k.serving v hv
  rw [h1] at he
  cases he
  have hr : s.arbiter.raisedService = none := by
    by_contra hn
    obtain ⟨tr, htr⟩ := Option.ne_none_iff_exists'.1 hn
    exact (h4 tr htr).2 g hg
  have hroom := k.room
  unfold Inbound.owed at hroom
  rw [h1, hv] at hroom
  exact ⟨rest, h1, h2, fun n hn => ⟨h3 n hn, (k.reads e (by rw [h1]; simp) n hn).2⟩, hr, (h5 g hg).1, (h5 g hg).2,
      hroom⟩

/-- R71: the law holds once the service has ended and the head has left. -/
theorem completionsFit_ended {s u : State} {e rest} (k : s.CompletionsFit) (hq : s.inbound.queue = e :: rest) (h1 :
    u.inbound = { queue := rest, service := none })
    (h2 : u.sender.responses.length ≤ 16) (h3 : u.span.received = s.span.received) (h4 : u.arbiter.raisedService =
        none) (h5 : ∀ g, ¬ u.arbiter.Serves g) : u.CompletionsFit := by
  refine ⟨?_, ?_, by rw [h3]; exact k.takes, fun _ => ⟨h4, h5⟩, (by rw [h1]; rintro v ⟨⟩)⟩
  · rw [h1]
    have : Inbound.owed { queue := rest, service := none } = 0 := by unfold Inbound.owed; (repeat' split) <;> simp_all
    omega
  · rw [h1]
    intro x hx; exact k.reads x (by rw [hq]; exact List.mem_cons_of_mem _ hx)

/-- R71, R72: the law holds once the service stands at its next transfer. -/
theorem completionsFit_goesOn {s u : State} {e rest} {p : Nat} {piece} (k : s.CompletionsFit) (hq : s.inbound.queue =
    e :: rest) (hb : e.begun = true) (h1 : u.inbound = { queue := e :: rest, service := some { position := p, piece
    := piece } })
    (h2 : u.sender.responses.length + e.owed p ≤ 16) (h3 : u.span.received = s.span.received) (h4 :
        u.arbiter.raisedService = some (e.transferAt p)) (h5 : ∀ g, ¬ u.arbiter.Serves g)
    (h6 : ∀ n, e.work = .read n → p < n) : u.CompletionsFit := by
  refine ⟨?_, ?_, by rw [h3]; exact k.takes, (by rw [h1]; rintro ⟨⟩), ?_⟩
  · rw [h1]; exact h2
  · rw [h1]
    intro x hx; exact k.reads x (by rw [hq]; exact hx)
  · rw [h1]
    intro v hv
    cases hv
    exact ⟨e, rest, rfl, hb, h6, fun tr htr => by rw [h4] at htr; cases htr; exact ⟨rfl, h5⟩, fun g hg => absurd hg
        (h5 g)⟩

/-- R78: a service appends at most one completion at a time. -/
theorem length_appendCompletion (s : State) (e b) : (s.appendCompletion e b).sender.responses.length ≤
    s.sender.responses.length + 1 := by
  unfold State.appendCompletion; split
  · exact Nat.le_succ _
  · simp [State.withSender]

/-- A completion appended leaves inbound, span and arbiter. -/
theorem rest_appendCompletion (s : State) (e b) : (s.appendCompletion e b).inbound = s.inbound ∧ (s.appendCompletion
    e b).span = s.span ∧ (s.appendCompletion e b).arbiter = s.arbiter := by
  unfold State.appendCompletion; split <;> exact ⟨rfl, rfl, rfl⟩

/-- R71, R92: the result of a SERVICE transfer keeps the law, if the service's own progress does. -/
theorem KeepsFit.serviceResult {s : State} {g : Granted} (act : State → InboundEntry → Service → State) (hg :
    g.discarded = false → s.arbiter.Serves g)
   (h : ∀ e v rest, s.CompletionsFit → s.inbound.queue = e :: rest → s.inbound.service = some v → s.arbiter.Serves g
       → (act s.storeIdle e v).CompletionsFit) : KeepsFit s (s.serviceResult g act) := by
  intro k
  unfold State.serviceResult
  dsimp only
  split
  · exact KeepsFit.storeIdle s k
  · rename_i hd
    split
    · rename_i e v he hv
      have hs := hg (by simpa using hd)
      obtain ⟨rest, h1, _⟩ := completionsFit_serving k hs he hv
      exact KeepsFit.settle _ (h e v rest k h1 hv hs)
    · exact KeepsFit.storeIdle s k

/-- A result not discarded is that of a transfer that serves. -/
theorem grantedTo_serves {s : State} {g : Granted} (h : s.grantedTo .service = some g) : g.discarded = false →
    s.arbiter.Serves g := by
  intro hd
  unfold State.grantedTo at h
  obtain ⟨h1, h2⟩ := Option.filter_eq_some_iff.1 h
  rw [Bool.and_eq_true, decide_eq_true_eq] at h2
  exact ⟨h1, h2.2, hd⟩

/-- R72: a READ that has not ended owes a completion. -/
theorem owed_pos {e : InboundEntry} {p n : Nat} (h : e.work = .read n) (hp : p < n) : 1 ≤ e.owed p := by
  unfold InboundEntry.owed; rw [h]; dsimp only; omega

/-- R65: a READ request that is taken has a length of 1 to 256. -/
theorem takesFrom_bounds {s : State} {f : Frame} (h : s.takesFrom f = true) {t tag g o n} (hb : f.body = .rdReq t tag
    g o n) : 1 ≤ n.toNat ∧ n.toNat ≤ 256 := by
  unfold State.takesFrom at h
  rw [Bool.and_eq_true, decide_eq_true_eq] at h
  have h1 := h.1
  unfold State.answerTo at h1
  rw [hb] at h1
  dsimp only at h1
  split at h1
  · unfold State.answerRequest at h1
    split at h1
    · unfold State.decideRequest threeTests rangeMalformed at h1
      dsimp only at h1
      split at h1
      · cases h1
      · rename_i hm
        simp only [Bool.or_eq_true, decide_eq_true_eq, not_or] at hm
        omega
    · cases h1
    · cases h1
  · cases h1

/-- R148: a take keeps the law. -/
theorem KeepsFit.take (s : State) (kinds) (run : State → CommandRecord → State) (h : ∀ t c, Fits t (run t c)) : ∃ u,
    takeCommand kinds run s = .next u ∧ KeepsFit s u := by
  unfold takeCommand
  split
  · refine ⟨_, rfl, KeepsFit.trans (Fits.keepsFit ?_) (KeepsFit.settle _)⟩
    unfold State.take
    have h0 : Fits s s.dequeue := Fits.same rfl rfl rfl rfl
    (repeat' split)
    · exact Fits.same rfl rfl rfl rfl
    · exact h0.trans (h _ _)
    · exact Fits.same rfl rfl rfl rfl
  · exact ⟨s, rfl, KeepsFit.refl s⟩

/-- The report of a landed piece leaves what the response queue's law reads. -/
theorem Fits.landingReported (s : State) (p) : Fits s (s.landingReported p) := by
  unfold State.landingReported; dsimp only
  (repeat' split)
  · refine Fits.trans ?_ (Fits.endSegment _ _ _ _)
    exact Fits.same rfl rfl rfl rfl
  · exact Fits.same rfl rfl rfl rfl
  · exact Fits.refl _

end Sys2Proof.Machine
end

