-- ==== Sys2Proof/Laws/Resolutions.lean ====
section
/-!
SUPPORT. Resolutions: what a RESOLUTION does to the own frame, and to a frame received (R10).
-/
namespace Sys2Proof.Machine

/-- The state in which the outcome of the own frame is dealt with: the attempt has ended, and damage is counted. -/
def State.attemptEnded (s : State) (time : Micros) (a : Answer) : State :=
  { s with
    clock := max s.clock time
    incidents := if a = .damaged then s.incidents.counted 2 else s.incidents
    span := { s.span with phase := .idle, offer := none, offerState := .none, received := none } }

/-- R10: the resolution of the own frame is the outcome at its holding place. -/
theorem resolution_own {s u : State} {p : Place} {a : Answer} {time : Micros} (h : s.OwnFrame p)
    (hu : (s.attemptEnded time a).outcomeAt p a = u) (hg : u.life.giveUp = none) :
    exec (.resolution a time) s = .next u.settle := by
  obtain ⟨h1, h2, h3, h4, h5, h7⟩ := h
  have hd : s.resolutionIsDue = true := by simp [State.resolutionIsDue, State.awake, h1, h3]
  simp only [exec, execResolution, whenever, hd, if_true]
  congr 1
  unfold State.resolved
  rw [if_neg (by simp [State.advance, State.withClock, h3]), if_pos (by simpa [State.advance, State.withClock] using
      h2)]
  unfold State.makeReports
  have hb : ((s.advance time).turnIdle.countDamage a).ownOutcome a = u := by
    have e : ((s.advance time).turnIdle.countDamage a).endAttempt = s.attemptEnded time a := by
      unfold State.countDamage State.attemptEnded
      by_cases e : a = .damaged
      · simp only [e, if_true]; rfl
      · simp only [e, if_false]; rfl
    have e2 : ((s.advance time).turnIdle.countDamage a).span.offer = some p := by
      unfold State.countDamage
      split <;> exact h5
    simp only [State.ownOutcome, e2, e, hu]
  have hs : (s.advance time).turnIdle.span.offerState.sends = true := by
    show s.span.offerState.sends = true
    rw [h4]; rfl
  simp only [hs, if_true, hb, State.completeGiveUp, hg]

/-- The own frame is off the span where the offer is not fixed. -/
theorem sends_of_offSpan {o : OfferState} (h : o.isFixed = false) : o.sends = false := by
  cases o <;> simp_all [OfferState.isFixed, OfferState.sends]

/-- The state in which a received frame resolves. -/
def State.receiveEnded (s : State) (time : Micros) : State :=
  { s with clock := max s.clock time, span := { s.span with phase := .idle, received := none } }

/-- R10: a received frame that does not resolve DAMAGED is resolved with the answer formed of the others' and this station's. -/
theorem resolution_received {s : State} {r : Received} (h1 : s.life.rstN = false) (h2 : s.life.station.onSpan = true)
    (h3 : s.span.phase = .answer) (h4 : s.OffSpan) (h6 : s.span.received = some r) (others : Answer) (time : Micros)
    (hnd : r.drove.combine others ≠ .damaged) :
    exec (.resolution others time) s = .next ((match r.frame with
      | some f => (s.receiveEnded time).resolveFrame f r.drove (r.drove.combine others) r.take
      | none => s.receiveEnded time).completeGiveUp.settle) := by
  have hd : s.resolutionIsDue = true := by simp [State.resolutionIsDue, State.awake, h1, h3]
  simp only [exec, execResolution, whenever, hd, if_true]
  congr 1
  unfold State.resolved
  rw [if_neg (by simp [State.advance, State.withClock, h3]), if_pos (by simpa [State.advance, State.withClock] using
      h2)]
  unfold State.makeReports
  have hc : (s.advance time).turnIdle.countDamage (r.drove.combine others) = (s.advance time).turnIdle := by
    simp [State.countDamage, hnd]
  have hs : (s.advance time).turnIdle.span.offerState.sends = false := sends_of_offSpan h4
  have hrc : (s.advance time).span.received = some r := h6
  simp only [hc, hs, hrc, Bool.false_eq_true, if_false, State.resolveReceived]
  rfl

/-- R5, R10: a received frame that resolves DAMAGED counts DAMAGE_SEEN; what else it counts is `resolveFrame`'s. -/
theorem resolution_damaged {s : State} {r : Received} (h1 : s.life.rstN = false) (h2 : s.life.station.onSpan = true)
    (h3 : s.span.phase = .answer) (h4 : s.OffSpan) (h6 : s.span.received = some r) (others : Answer) (time : Micros)
    (hdm : r.drove.combine others = .damaged) :
    exec (.resolution others time) s = .next ((match r.frame with
      | some f => ((s.receiveEnded time).withIncidents (s.incidents.counted 2)).resolveFrame f r.drove .damaged r.take
      | none => (s.receiveEnded time).withIncidents (s.incidents.counted 2)).completeGiveUp.settle) := by
  have hd : s.resolutionIsDue = true := by simp [State.resolutionIsDue, State.awake, h1, h3]
  simp only [exec, execResolution, whenever, hd, if_true]
  congr 1
  unfold State.resolved
  rw [if_neg (by simp [State.advance, State.withClock, h3]), if_pos (by simpa [State.advance, State.withClock] using
      h2)]
  unfold State.makeReports
  have hc : (s.advance time).turnIdle.countDamage .damaged = (s.advance time).turnIdle.report .damageSeen := by
    simp [State.countDamage]
  have hs : (s.advance time).turnIdle.span.offerState.sends = false := sends_of_offSpan h4
  have hrc : (s.advance time).span.received = some r := h6
  simp only [hdm, hc, hs, hrc, Bool.false_eq_true, if_false, State.resolveReceived]
  rfl

/-- R8: DAMAGED is the most dominant answer. -/
theorem combine_damaged {a b : Answer} : a.combine b = .damaged ↔ b = .damaged ∨ a = .damaged := by
  cases a <;> cases b <;> decide

/-- R121, R132: the observation of a frame that is no JOIN and no LEAVE. -/
theorem observe_other {u : State} {f : Frame} (hj : f.body ≠ .join) (hl : f.body ≠ .leave) :
    u.observe f = u.withPeers (u.peersSeeing f.source) := by
  unfold State.observe State.peersSeeing
  split
  · unfold State.observeOwn
    cases h : f.body <;> simp_all
    all_goals rfl
  · unfold State.observePeer
    cases h : f.body <;> simp_all [State.observeOther, State.setPeer, State.peerAt]

/-- R121: no peer becomes ABSENT by the observation of a frame that is no LEAVE. -/
theorem absent_of_peersSeeing (s : State) (p n : Station) :
    ((s.withPeers (s.peersSeeing p)).peerAt n).state = .absent → (s.peerAt n).state = .absent := by
  show ((s.peersSeeing p)[n.val]).state = .absent → _
  unfold State.peersSeeing
  split
  · exact id
  · rw [Vector.getElem_set]
    split
    · intro h; cases h
    · exact id

/-- R123, R124: a peer that becomes ABSENT leaves the span and the life cycle. -/
theorem span_markAbsent (s : State) (p : Station) : (s.markAbsent p).span = s.span := by
  have e0 : ∀ {u v : State}, u.beyond = v.beyond → u.span = v.span := fun h => congrArg Beyond.span h
  have e1 : ∀ u : State, (u.cleanup p).span = (u.cleanTags p).span := by
    intro u
    unfold State.cleanup
    generalize u.cleanTags p = w
    simp [State.cleanInbound, State.cleanResponses, State.cleanRequests, State.withRequests, State.report]
  have e2 : ∀ u : State, (u.cleanTags p).span = u.span := by
    intro u
    rw [cleanTags_eq]
    exact e0 (beyond_endTags _ _ _ _)
  unfold State.markAbsent
  rw [e1, e2]
  unfold State.endWaitFor
  (repeat' split)
  · simp [State.setPeer]
  · simp [State.setPeer]
  · rw [e0 (beyond_failSegment _ _ _ _)]; simp [State.setPeer]
  · simp [State.setPeer]

/-- R20: a state other than FREE for the owner's tag, which is not FREE, leaves the lowest FREE tag. -/
theorem lowestFreeTag_setOwnerState (s : State) (o : Owner) (x : TagState) (hx : x ≠ .free)
    (h : ∀ t, o = .tag t → (s.tagAt t).state ≠ .free) : (s.setOwnerState o x).lowestFreeTag = s.lowestFreeTag := by
  cases o with
  | context n => rfl
  | tag t =>
    apply lowestFreeTag_congr
    intro y
    have hy : (s.setTagState t x).tagAt y = if y = t then { s.tagAt t with state := x } else s.tagAt y := tagAt_set s
        t y _
    show ((s.setTagState t x).tagAt y).state = _ ↔ _
    rw [hy]
    split
    · rename_i e
      subst e
      exact ⟨fun e => absurd e hx, fun e => absurd e (h y rfl)⟩
    · exact Iff.rfl

/-- R44: a tag's state alone leaves the blocks that can be reserved. -/
theorem availableBlocks_setOwnerState (s : State) (o : Owner) (x : TagState) :
    (s.setOwnerState o x).availableBlocks = s.availableBlocks := by
  cases o with
  | context n => rfl
  | tag t =>
    have h := reservedBlocks_set (s := s) (u := s.setTagState t x) (t := t) { s.tagAt t with state := x } rfl
    dsimp only at h
    have h' : (s.setTagState t x).reservedBlocks = s.reservedBlocks := by omega
    show (s.setTagState t x).availableBlocks = _
    unfold State.availableBlocks
    rw [h']; rfl

/-- R107: the tag of an entry that is not withdrawn is not FREE. -/
theorem State.Accounted.owner_not_free {s : State} (a : s.Accounted) {e : RequestEntry} {slot : Fin 16}
    (he : s.sender.entryAt slot = some e) (hw : e.withdrawn = false) : ∀ t, e.owner = .tag t → (s.tagAt t).state ≠
        .free := by
  intro t ho hf
  have h := a.ofTags e (List.mem_of_find?_eq_some he) hw t ho
  rw [hf] at h; cases h

end Sys2Proof.Machine
end

