-- ==== Sys2Proof/Laws/Store.lean ====
section
/-!
SUPPORT. Store: every memory operation keeps the canonical form, and what a byte reads as after a write.
-/
namespace Sys2Proof.Machine

/-! ## Rising lists -/

/-- A list that rises from a higher bound rises from a lower one. -/
theorem risingFrom_of_le {low low' : Nat} {l : List Nat} (h : risingFrom low l = true) (hle : low' ≤ low) :
    risingFrom low' l = true := by
  cases l with
  | nil => rfl
  | cons a rest =>
    simp only [risingFrom, Bool.and_eq_true, decide_eq_true_eq] at h ⊢
    exact ⟨by omega, h.2⟩

/-- Every member of a rising list is at or above its bound. -/
theorem le_of_mem_risingFrom {l : List Nat} : ∀ {low a : Nat}, risingFrom low l = true → a ∈ l → low ≤ a := by
  induction l with
  | nil => intro low a _ h; simp at h
  | cons b rest ih =>
    intro low a h hm
    simp only [risingFrom, Bool.and_eq_true, decide_eq_true_eq] at h
    rcases List.mem_cons.1 hm with rfl | hm
    · exact h.1
    · have := ih h.2 hm
      omega

/-- Putting an offset into a rising list keeps it rising. -/
theorem risingFrom_insertOffset {l : List Nat} : ∀ {low o : Nat}, risingFrom low l = true → low ≤ o →
    risingFrom low (insertOffset l o) = true := by
  induction l with
  | nil => intro low o _ h; simpa [insertOffset, risingFrom] using h
  | cons a rest ih =>
    intro low o h ho
    simp only [risingFrom, Bool.and_eq_true, decide_eq_true_eq] at h
    unfold insertOffset
    split
    · simp only [risingFrom, Bool.and_eq_true, decide_eq_true_eq]
      exact ⟨ho, by omega, h.2⟩
    · split
      · simp only [risingFrom, Bool.and_eq_true, decide_eq_true_eq]
        exact h
      · simp only [risingFrom, Bool.and_eq_true, decide_eq_true_eq]
        exact ⟨h.1, ih h.2 (by omega)⟩

/-- What stands in a list after an offset is put into it. -/
theorem mem_insertOffset {l : List Nat} {o x : Nat} : x ∈ insertOffset l o ↔ x = o ∨ x ∈ l := by
  induction l with
  | nil => simp [insertOffset]
  | cons a rest ih =>
    unfold insertOffset
    split
    · simp
    · split
      · rename_i h
        subst h
        simp
      · simp only [List.mem_cons, ih]
        tauto

/-- Taking members out of a rising list keeps it rising. -/
theorem risingFrom_filter {l : List Nat} (p : Nat → Bool) : ∀ {low : Nat}, risingFrom low l = true →
    risingFrom low (l.filter p) = true := by
  induction l with
  | nil => intro low _; rfl
  | cons a rest ih =>
    intro low h
    simp only [risingFrom, Bool.and_eq_true, decide_eq_true_eq] at h
    rw [List.filter_cons]
    split
    · simp only [risingFrom, Bool.and_eq_true, decide_eq_true_eq]
      exact ⟨h.1, ih h.2⟩
    · exact risingFrom_of_le (ih h.2) (by omega)

/-! ## Cells -/

/-- Writing a cell keeps the offsets rising. -/
theorem risingFrom_writeCell {l : List Host.Cell} {v : Byte} : ∀ {low o : Nat},
    risingFrom low (l.map Prod.fst) = true → low ≤ o → risingFrom low ((writeCell l o v).map Prod.fst) = true := by
  induction l with
  | nil =>
    intro low o _ h
    unfold writeCell
    split
    · rfl
    · simpa [risingFrom] using h
  | cons c rest ih =>
    obtain ⟨a, w⟩ := c
    intro low o h ho
    have h0 := h
    simp only [List.map_cons, risingFrom, Bool.and_eq_true, decide_eq_true_eq] at h
    unfold writeCell
    split
    · split
      · exact h0
      · simp only [List.map_cons, risingFrom, Bool.and_eq_true, decide_eq_true_eq]
        exact ⟨ho, by omega, h.2⟩
    · split
      · rename_i hoa
        subst hoa
        split
        · exact risingFrom_of_le h.2 (by omega)
        · simp only [List.map_cons, risingFrom, Bool.and_eq_true, decide_eq_true_eq]
          exact h
      · simp only [List.map_cons, risingFrom, Bool.and_eq_true, decide_eq_true_eq]
        exact ⟨h.1, ih h.2 (by omega)⟩

/-- Every cell after a write is an old one or the one written. -/
theorem mem_writeCell {l : List Host.Cell} {o : Nat} {v : Byte} {c : Host.Cell} (h : c ∈ writeCell l o v) :
    c ∈ l ∨ (c = (o, v) ∧ v ≠ 0) := by
  induction l with
  | nil =>
    unfold writeCell at h
    split at h
    · simp at h
    · exact Or.inr ⟨by simpa using h, by assumption⟩
  | cons b rest ih =>
    obtain ⟨a, w⟩ := b
    unfold writeCell at h
    split at h
    · split at h
      · exact Or.inl h
      · rcases List.mem_cons.1 h with rfl | h
        · exact Or.inr ⟨rfl, by assumption⟩
        · exact Or.inl h
    · split at h
      · split at h
        · exact Or.inl (List.mem_cons_of_mem _ h)
        · rcases List.mem_cons.1 h with rfl | h
          · exact Or.inr ⟨rfl, by assumption⟩
          · exact Or.inl (List.mem_cons_of_mem _ h)
      · rcases List.mem_cons.1 h with rfl | h
        · exact Or.inl List.mem_cons_self
        · rcases ih h with h | h
          · exact Or.inl (List.mem_cons_of_mem _ h)
          · exact Or.inr h

/-- An offset below every listed one reads 00h. -/
theorem readCells_of_lt {l : List Host.Cell} : ∀ {low o : Nat}, risingFrom low (l.map Prod.fst) = true → o < low →
    readCells l o = 0 := by
  induction l with
  | nil => intro low o _ _; rfl
  | cons c rest ih =>
    obtain ⟨a, w⟩ := c
    intro low o h ho
    simp only [List.map_cons, risingFrom, Bool.and_eq_true, decide_eq_true_eq] at h
    have hne : a ≠ o := by omega
    simp only [readCells, hne, if_false]
    exact ih h.2 (by omega)

/-- A written cell reads as written, and every other as before. -/
theorem readCells_writeCell {l : List Host.Cell} {v : Byte} : ∀ {low o : Nat} (a : Nat),
    risingFrom low (l.map Prod.fst) = true → readCells (writeCell l o v) a = if a = o then v else readCells l a := by
  induction l with
  | nil =>
    intro low o a _
    unfold writeCell
    split
    · rename_i hv
      subst hv
      simp [readCells]
    · by_cases h : o = a
      · simp [readCells, h]
      · simp [readCells, h, Ne.symm h]
  | cons c rest ih =>
    obtain ⟨b, w⟩ := c
    intro low o a h
    simp only [List.map_cons, risingFrom, Bool.and_eq_true, decide_eq_true_eq] at h
    unfold writeCell
    split
    · rename_i hob
      have hzero : readCells ((b, w) :: rest) o = 0 := by
        have hne : b ≠ o := by omega
        simp only [readCells, hne, if_false]
        exact readCells_of_lt h.2 (by omega)
      split
      · rename_i hv
        subst hv
        by_cases hao : a = o
        · subst hao; simp [hzero]
        · simp [hao]
      · by_cases hao : a = o
        · subst hao; simp [readCells]
        · have hoa : ¬ o = a := fun h => hao h.symm
          simp [readCells, hao, hoa]
    · split
      · rename_i hob
        subst hob
        split
        · rename_i hv
          subst hv
          by_cases hao : a = o
          · subst hao
            simp only [if_true]
            exact readCells_of_lt h.2 (by omega)
          · have hoa : ¬ o = a := fun h => hao h.symm
            simp [readCells, hao, hoa]
        · by_cases hao : a = o
          · subst hao; simp [readCells]
          · have hoa : ¬ o = a := fun h => hao h.symm
            simp [readCells, hao, hoa]
      · rename_i hlt hne
        by_cases hba : b = a
        · subst hba
          have : ¬ b = o := fun h => hne h.symm
          simp [readCells, this]
        · simp only [readCells, hba, if_false]
          exact ih a h.2

/-! ## The store -/

/-- The canonical form, clause by clause. -/
theorem Memory.wf_iff (st : Store) : Memory.wf st = true ↔
    risingFrom 0 (st.bytes.map Prod.fst) = true
      ∧ (∀ c ∈ st.bytes, c.1 < Config.storeBytes ∧ c.2 ≠ 0)
      ∧ risingFrom 0 st.lost = true ∧ (∀ o ∈ st.lost, o < Config.storeBytes) := by
  simp only [Memory.wf, Bool.and_eq_true, List.all_eq_true, decide_eq_true_eq, and_assoc]

/-- The initialized store has the form. -/
theorem Memory.wf_zeroed : Memory.wf Store.zeroed = true := by
  decide

/-- The store of the reset state has the form. -/
theorem Memory.wf_reset : Memory.wf State.reset.store = true :=
  Memory.wf_zeroed

/-- A write of one byte keeps the form. -/
theorem Memory.wf_writeByte {st : Store} (h : Memory.wf st = true) (o : Nat) (v : Byte) :
    Memory.wf (st.writeByte o v) = true := by
  unfold Store.writeByte
  split
  · rename_i ho
    rw [Memory.wf_iff] at h ⊢
    obtain ⟨h1, h2, h3, h4⟩ := h
    refine ⟨risingFrom_writeCell h1 (Nat.zero_le _), ?_, risingFrom_filter _ h3, ?_⟩
    · intro c hc
      rcases mem_writeCell hc with hc | ⟨rfl, hv⟩
      · exact h2 c hc
      · exact ⟨ho, hv⟩
    · intro x hx
      exact h4 x (List.mem_of_mem_filter hx)
  · exact h

/-- A loss of one byte keeps the form. -/
theorem Memory.wf_loseByte {st : Store} (h : Memory.wf st = true) (o : Nat) (v : Byte) :
    Memory.wf (st.loseByte o v) = true := by
  unfold Store.loseByte
  split
  · rename_i ho
    rw [Memory.wf_iff] at h ⊢
    obtain ⟨h1, h2, h3, h4⟩ := h
    refine ⟨risingFrom_writeCell h1 (Nat.zero_le _), ?_, risingFrom_insertOffset h3 (Nat.zero_le _), ?_⟩
    · intro c hc
      rcases mem_writeCell hc with hc | ⟨rfl, hv⟩
      · exact h2 c hc
      · exact ⟨ho, hv⟩
    · intro x hx
      rcases mem_insertOffset.1 hx with rfl | hx
      · exact ho
      · exact h4 x hx
  · exact h

/-- A write of several bytes keeps the form. -/
theorem Memory.wf_writeCells (cells : List Host.Cell) : ∀ {st : Store}, Memory.wf st = true →
    Memory.wf (st.writeCells cells) = true := by
  induction cells with
  | nil => intro st h; exact h
  | cons c rest ih => intro st h; exact ih (Memory.wf_writeByte h c.1 c.2)

/-- A transfer's effect keeps the form. -/
theorem Memory.wf_effect {st : Store} (h : Memory.wf st = true) (tr : Transfer) :
    Memory.wf (tr.effect st) = true := by
  cases tr with
  | read offset count => exact h
  | write cells => exact Memory.wf_writeCells cells h
  | atomic offset op a b =>
    simp only [Transfer.effect]
    split
    · exact h
    · split
      · exact Memory.wf_writeCells _ h
      · exact h

/-- A written byte reads as written, and every other byte as before. -/
theorem Store.byte_writeByte {st : Store} (h : Memory.wf st = true) {o : Nat} (ho : o < Config.storeBytes) (v : Byte)
    (a : Nat) : (st.writeByte o v).byte a = if a = o then v else st.byte a := by
  rw [Memory.wf_iff] at h
  simp only [Store.writeByte, ho, if_true, Store.byte]
  exact readCells_writeCell a h.1

/-- A written byte is GOOD, and the integrity of every other byte stays. -/
theorem Store.isLost_writeByte (st : Store) {o : Nat} (ho : o < Config.storeBytes) (v : Byte) (a : Nat) :
    (st.writeByte o v).isLost a = (decide (a ≠ o) && st.isLost a) := by
  simp only [Store.writeByte, ho, if_true, Store.isLost]
  by_cases h : a = o
  · subst h
    simp
  · rw [Bool.eq_iff_iff]
    simp [h, List.mem_filter]

/-- A byte that a list of cells does not name reads as before. -/
theorem Store.byte_writeCells_of_not_mem (cells : List Host.Cell) : ∀ {st : Store}, Memory.wf st = true →
    ∀ a, a ∉ cells.map Prod.fst → (st.writeCells cells).byte a = st.byte a := by
  induction cells with
  | nil => intro st _ a _; rfl
  | cons c rest ih =>
    intro st h a ha
    simp only [List.map_cons, List.mem_cons, not_or] at ha
    have hstep : (st.writeCells (c :: rest)).byte a = (st.writeByte c.1 c.2).byte a :=
      ih (Memory.wf_writeByte h c.1 c.2) a ha.2
    rw [hstep]
    by_cases hc : c.1 < Config.storeBytes
    · rw [Store.byte_writeByte h hc, if_neg ha.1]
    · simp [Store.writeByte, hc]

/-- The offsets that laid-out bytes take. -/
theorem map_fst_cellsAt (data : List Byte) : ∀ offset : Nat,
    (cellsAt offset data).map Prod.fst = (List.range data.length).map (fun i => offset + i) := by
  induction data with
  | nil => intro offset; rfl
  | cons b rest ih =>
    intro offset
    rw [cellsAt, List.map_cons, ih, List.length_cons, List.range_succ_eq_map, List.map_cons, List.map_map]
    refine congrArg₂ _ rfl (List.map_congr_left fun i _ => ?_)
    simp only [Function.comp]
    omega

/-- Laid-out bytes are as many as the data. -/
theorem length_cellsAt (data : List Byte) : ∀ offset : Nat, (cellsAt offset data).length = data.length := by
  induction data with
  | nil => intro offset; rfl
  | cons b rest ih => intro offset; simp [cellsAt, ih]

/-- An offset outside the laid-out range is named by no cell. -/
theorem not_mem_cellsAt {offset a : Nat} {data : List Byte} (h : a < offset ∨ offset + data.length ≤ a) :
    a ∉ (cellsAt offset data).map Prod.fst := by
  rw [map_fst_cellsAt]
  simp only [List.mem_map, List.mem_range, not_exists, not_and]
  intro i hi
  omega

end Sys2Proof.Machine
end

