-- ==== Sys2Proof/Laws/Takes.lean ====
section
/-!
SUPPORT. Takes: when a command is taken, what its check passes, and what a segment's claim finds (R148, R150, R154).
-/
namespace Sys2Proof.Machine

/-- R148: the head that can be taken is taken by the row that names its kind. -/
theorem taken_of_taking {s : State} {c : CommandRecord} {rest : List CommandRecord} (h : s.Taking c rest)
    (ht : s.life.station.takes = true) (kinds : BitVec 4 → Bool) (hk : kinds c.kind = true) : s.taken kinds = some c
        := by
  have hm : s.mayTake c = true := by
    obtain ⟨h1, h2, h3, h4, h5, h6⟩ := h
    simp only [State.mayTake, State.awake, h1, h3, ht, State.earlierWorkDone, Config.resultPlaces]
    by_cases k4 : c.kind = 4 <;> by_cases k5 : c.kind = 5 <;> simp_all
  simp [State.taken, h.commands, hm, hk]

/-- R150: the check, as the model makes it, and as the statements give it. -/
theorem bad_eq_false_iff {c : CommandRecord} {own : Station} : c.bad own = false ↔ c.Passes own := by
  unfold CommandRecord.bad CommandRecord.Passes CommandRecord.badTransfer CommandRecord.badAtomic
  have ht : (c.targetStation = own) ↔ c.target.toNat = own.val := by
    rw [Fin.ext_iff]; rfl
  have hop : (atomicOpOfCode c.operation.toNat).isNone = true ↔ ¬ c.operation.toNat < 3 := by
    have := c.operation.isLt
    generalize c.operation.toNat = n at *
    match n with
    | 0 => simp [atomicOpOfCode]
    | 1 => simp [atomicOpOfCode]
    | 2 => simp [atomicOpOfCode]
    | 3 => simp [atomicOpOfCode]
    | n + 4 => omega
  have k0 : c.kind = 0 ↔ c.kind.toNat = 0 := by rw [← BitVec.toNat_inj]; rfl
  have k1 : c.kind = 1 ↔ c.kind.toNat = 1 := by rw [← BitVec.toNat_inj]; rfl
  have k2 : c.kind = 2 ↔ c.kind.toNat = 2 := by rw [← BitVec.toNat_inj]; rfl
  by_cases h01 : c.kind = 0 ∨ c.kind = 1
  · have h2 : ¬ c.kind = 2 := by rw [k2]; rcases h01 with h | h <;> simp [h]
    have h5 : c.kind.toNat ≤ 5 := by rcases h01 with h | h <;> simp [h]
    rw [if_pos h01]
    simp only [Bool.or_eq_false_iff, decide_eq_false_iff_not, ht, Config.commandBytes, Config.storeBytes, h01, h2, h5,
      true_and, false_implies, and_true, forall_const]
    omega
  · by_cases h2 : c.kind = 2
    · have h5 : c.kind.toNat ≤ 5 := by simp [h2]
      rw [if_neg h01, if_pos h2]
      simp only [Bool.or_eq_false_iff, decide_eq_false_iff_not, ht, h01, h5, true_and, false_implies]
      rw [← Bool.not_eq_true (Option.isNone _), hop]
      constructor
      · rintro ⟨⟨h1, h3⟩, h4⟩
        intro _
        exact ⟨h1, by omega, by omega⟩
      · intro h
        have h := h h2
        exact ⟨⟨h.1, by omega⟩, by omega⟩
    · rw [if_neg h01, if_neg h2]
      simp only [decide_eq_false_iff_not, h01, h2, false_implies, and_true]
      omega

/-- The first of the numbers below `k` that a test accepts. -/
theorem find_finRange {k : Nat} (p : Fin k → Bool) (n : Fin k) (h : p n = true) (hm : ∀ m, m < n → p m = false) :
    (List.finRange k).find? p = some n := by
  rw [List.find?_eq_some_iff_getElem]
  refine ⟨h, n.val, by simp, by simp, ?_⟩
  intro j hj
  have := hm ⟨j, by omega⟩ (by simpa [Fin.lt_def] using hj)
  simpa using this

/-- R148: the FREE context with the lowest number. -/
theorem freeContext_of_lowest {e : IssueEngine} {n : ContextNumber} (h : e.LowestFree n) : e.freeContext = n := by
  have hf : (List.finRange 32).find? (fun n => (e.context n).isNone) = some n := by
    apply find_finRange
    · simp only [IssueEngine.context, Option.isNone_iff_eq_none, List.find?_eq_none, beq_iff_eq]
      exact h.1
    · intro m hm
      obtain ⟨x, hx, hxe⟩ := h.2 m hm
      rw [← Bool.not_eq_true, Option.isNone_iff_eq_none, IssueEngine.context, List.find?_eq_none]
      intro hall
      exact hall x hx (by rw [hxe]; simp)
  unfold IssueEngine.freeContext
  rw [hf]; rfl

/-- R107: the lowest-numbered free storage place. -/
theorem freeSlot_of_lowest {d : Sender} {slot : Fin 16} (h : d.LowestFreeSlot slot) : d.freeSlot = some slot := by
  apply find_finRange
  · simp only [Sender.entryAt, Option.isNone_iff_eq_none, List.find?_eq_none, beq_iff_eq]
    exact h.1
  · intro m hm
    obtain ⟨x, hx, hxe⟩ := h.2 m hm
    rw [← Bool.not_eq_true, Option.isNone_iff_eq_none, Sender.entryAt, List.find?_eq_none]
    intro hall
    exact hall x hx (by rw [hxe]; simp)

/-- R23: the FREE tag with the lowest number. -/
theorem lowestFreeTag_of_lowest {s : State} {t : Tag} (h : s.LowestFreeTag t) : s.lowestFreeTag = some t := by
  apply find_finRange
  · simpa using h.1
  · intro m hm
    simpa using h.2 m hm

/-- R155: the tag is refused when no tag is FREE. -/
theorem lowestFreeTag_isNone_iff {s : State} : s.lowestFreeTag.isNone = true ↔ ∀ t, (s.tagAt t).state ≠ .free := by
  rw [Option.isNone_iff_eq_none, State.lowestFreeTag, List.find?_eq_none]
  simp [allTags]

/-- R147: the commands with a target are those of kinds 0 to 2. -/
theorem hasTarget_iff {c : CommandRecord} : c.hasTarget = true ↔ c.kind.toNat < 3 := by
  have k0 : c.kind = 0 ↔ c.kind.toNat = 0 := by rw [← BitVec.toNat_inj]; rfl
  have k1 : c.kind = 1 ↔ c.kind.toNat = 1 := by rw [← BitVec.toNat_inj]; rfl
  have k2 : c.kind = 2 ↔ c.kind.toNat = 2 := by rw [← BitVec.toNat_inj]; rfl
  simp only [CommandRecord.hasTarget, Bool.or_eq_true, decide_eq_true_eq, k0, k1, k2]
  omega

/-- R45: blocks are refused when they would pass the commitment limit. -/
theorem availableBlocks_lt_iff {s : State} {b : Nat} : s.availableBlocks < b ↔
    0 < b ∧ s.inForce.commitmentLimit.toNat < s.reservedBlocks + s.buffer.occupied + b := by
  unfold State.availableBlocks
  omega

/-- R154: what the issue of a granted segment leaves. -/
theorem segmentIssued_eq {s : State} {c : Context} {tags : Vector TagRecord 32} {q : List RequestEntry} :
    State.segmentIssued (State.withRequests (s.withTags tags) q) c = { s with
      tags := tags
      sender := { s.sender with requests := q }
      issue := { s.issue with
        contexts := s.issue.contexts.map (fun x => if x.number = c.number then { x with
          next := x.next + 1
          outstanding := x.outstanding + 1
          issuingFinished := x.issuingFinished || decide (x.next + 1 = x.total)
          phase := if x.next + 1 = x.total then .outstanding else x.phase } else x)
        current := if c.next + 1 = c.total ∧ s.issue.current = some c.number then none else s.issue.current
        waitingFor := { tag := false, blocks := false, entry := false } } } := by
  unfold State.segmentIssued State.issuingEnds
  have hi : ∀ x : Context, x.issued = { x with
      next := x.next + 1
      outstanding := x.outstanding + 1
      issuingFinished := x.issuingFinished || decide (x.next + 1 = x.total)
      phase := if x.next + 1 = x.total then .outstanding else x.phase } := by
    intro x
    simp only [Context.issued, decide_eq_true_eq]
  simp only [State.updateContext, State.withWaiting, State.withIssue, State.withRequests, State.withSender,
      State.withTags,
    hi, WaitingFor.nothing]
  by_cases h1 : c.next + 1 = c.total <;> by_cases h2 : s.issue.current = some c.number <;> simp [h1, h2]

end Sys2Proof.Machine
end

