-- ==== Sys2Proof/Laws/Words.lean ====
section
/-!
SUPPORT. Words: a word of the control window is the sum of its fields, each at its place (R185).
-/
namespace Sys2Proof.Machine

/-- The place of a word's lowest field. -/
def lowestPlace : List (Nat × Nat) → Nat
  | [] => 32
  | (_, p) :: _ => p

/-- The fields of a word lie in rising order, each below the place of the next. -/
def fieldsApart : List (Nat × Nat) → Prop
  | [] => True
  | (v, p) :: rest => v * 2 ^ p < 2 ^ lowestPlace rest ∧ p ≤ lowestPlace rest ∧ lowestPlace rest ≤ 32 ∧ fieldsApart rest

/-- A word is the sum of its fields, each at its place, and no bit below its lowest field is set. -/
theorem toNat_packFields_dvd (fields : List (Nat × Nat)) (h : fieldsApart fields) :
    (packFields fields).toNat = (fields.map (fun f => 2 ^ f.2 * f.1)).sum
      ∧ 2 ^ lowestPlace fields ∣ (packFields fields).toNat := by
  induction fields with
  | nil => exact ⟨rfl, by simp [packFields]⟩
  | cons f rest ih =>
    obtain ⟨v, p⟩ := f
    obtain ⟨h1, hp, h2, h3⟩ := h
    obtain ⟨i1, i2⟩ := ih h3
    have hlt : v * 2 ^ p < 2 ^ 32 := lt_of_lt_of_le h1 (Nat.pow_le_pow_right (by decide) h2)
    have hv : v < 2 ^ 32 := lt_of_le_of_lt (Nat.le_mul_of_pos_right v (by positivity)) hlt
    have hs : (packFields ((v, p) :: rest)).toNat = 2 ^ p * v + (packFields rest).toNat := by
      show ((BitVec.ofNat 32 v <<< p) ||| packFields rest).toNat = _
      rw [BitVec.toNat_or, BitVec.toNat_shiftLeft, BitVec.toNat_ofNat, Nat.mod_eq_of_lt hv, Nat.shiftLeft_eq,
        Nat.mod_eq_of_lt hlt, Nat.mul_comm (2 ^ p)]
      obtain ⟨m, hm⟩ := i2
      rw [hm, Nat.or_comm, ← Nat.two_pow_add_eq_or_of_lt h1, Nat.add_comm]
    refine ⟨by rw [hs, i1]; simp, ?_⟩
    rw [hs]
    exact Nat.dvd_add (Nat.dvd_mul_right _ _) (dvd_trans (Nat.pow_dvd_pow 2 hp) i2)

/-- A word is the sum of its fields, each at its place. -/
theorem toNat_packFields (fields : List (Nat × Nat)) (h : fieldsApart fields) :
    (packFields fields).toNat = (fields.map (fun f => 2 ^ f.2 * f.1)).sum :=
  (toNat_packFields_dvd fields h).1

/-- A flag in a word is 0 or 1. -/
theorem flagValue_le (b : Bool) : flagValue b ≤ 1 := by cases b <;> decide

/-- R70: the free blocks of the payload pool do not pass 64. -/
theorem poolFree_le (b : Inbound) : b.poolFree ≤ 64 := Nat.sub_le _ _

end Sys2Proof.Machine
end

