-- ==== Sys2Proof/Certificates/Slice0/Obligations.lean ====
section
/-!
DEFINITION. Obligations: the statements for the provers, each with the rules it comes from. Statements over model choices
name the log entry.
-/

open Sys2Proof Sys2Proof.Machine

/-! ## Steps and the queue -/

/-- A step takes the command at the front of the queue and is its meaning on the state with the queue's rest (log 1). -/
def Obligations.StepRunsTheFrontCommand : Prop :=
  ∀ (c : Instr) (rest : List Instr) (s : State),
    step { s with pending := c :: rest } = exec c { s with pending := rest }

/-- No command faults or is refused, in any state, and none touches the waiting commands. Both rest on the model's choices: a
command given while its condition does not hold changes nothing (log 2), and commands wait in one queue, which only a step
touches (log 1). -/
def Obligations.EveryCommandAnswersANextState : Prop :=
  ∀ (c : Instr) (s : State), ∃ t, exec c s = .next t ∧ t.pending = s.pending

/-! ## Resets and the life cycle (chapter 10) -/

/-- R86, R174, R187: power-on reset puts every unit at its reset value, samples the straps and enters INIT; the end of the
initialization leaves every byte 00h and GOOD, the station in CONFIG, and a held store access raised. The queue, the time
and the not yet initialized store are the model's own (logs 1, 4, 12); so is that a power-on reset while RST_N is asserted takes
effect all the same and leaves RST_N released (log 10). -/
def Obligations.PowerOnResetAndInitialization : Prop :=
  (∀ (straps : Station) (s : State),
    exec (.powerOnReset straps) s = .next { State.reset with
      pending := s.pending
      clock := s.clock
      store := s.store
      life := { State.reset.life with number := straps }
      peers := resetPeers straps })
  ∧ (∀ s : State, s.life.rstN = false → s.life.station = .init →
    exec .storeInitEnd s = .next { s with
      store := Store.zeroed
      life := { s.life with station := .config }
      arbiter := match s.port.held with
        | some h => { s.arbiter with raisedLocal := some h.transfer }
        | none => s.arbiter })
  ∧ (∀ o : Nat, Store.zeroed.byte o = 0 ∧ Store.zeroed.isLost o = false)

/-- R175, R187: RST_N and soft reset put every unit at its reset value but keep the store; RST_N samples the straps at its
release, soft reset keeps the number; an RST_N in INIT goes back to INIT, a soft reset in INIT is ignored, and a soft reset
with no byte enable is ignored (R186). What stands while RST_N is asserted is log 10: no command but a power-on reset, the
release and a byte's loss then changes anything. -/
def Obligations.PinResetAndSoftReset : Prop :=
  (∀ s : State, s.life.rstN = false →
    exec .rstNAssert s = .next { State.reset with
      pending := s.pending
      clock := s.clock
      store := s.store
      life := { State.reset.life with
        station := if s.life.station = .init then .init else .config
        number := s.life.number
        rstN := true }
      peers := resetPeers s.life.number })
  ∧ (∀ (straps : Station) (s : State), s.life.rstN = true →
    exec (.rstNRelease straps) s = .next { s with
      life := { s.life with rstN := false, number := straps }
      peers := resetPeers straps })
  ∧ (∀ (e : ByteEnables) (s : State), s.PortReady → e ≠ 0 → s.life.station ≠ .init →
    exec (.softReset e) s = .next { State.reset with
      pending := s.pending
      clock := s.clock
      store := s.store
      life := { State.reset.life with station := .config, number := s.life.number }
      peers := resetPeers s.life.number
      port := Port.done none false })
  ∧ (∀ (e : ByteEnables) (s : State), s.PortReady → (e = 0 ∨ s.life.station = .init) →
    exec (.softReset e) s = .next { s with port := Port.done none false })
  ∧ (∀ (c : Instr) (s : State), s.life.rstN = true → (∀ straps, c ≠ .powerOnReset straps) →
    (∀ straps, c ≠ .rstNRelease straps) → (∀ o v, c ≠ .storeByteLoss o v) → exec c s = .next s)

/-- R167, R168: a START of a valid record in CONFIG copies it into force, and a START in DETACHED keeps the record in force;
either puts every peer record but SELF at UNKNOWN, places the JOIN with count 0 in the control slot, offers it, and passes
to JOINING. -/
def Obligations.StartJoins : Prop :=
  (∀ (e : ByteEnables) (s : State), s.PortReady → e ≠ 0 → s.OffSpan → s.life.station = .config →
    s.written.NumbersValid → (∀ n : Fin 8, s.written.regions[n.val].enabled = true → s.written.regions[n.val].IsValid) →
    exec (.start e) s = .next { s with
      inForce := s.written
      life := { s.life with station := .joining, startStatus := .started }
      peers := resetPeers s.life.number
      sender := { s.sender with control := some { kind := .join, retransmissions := 0 } }
      span := { s.span with offer := some .control, offerState := .offered }
      port := Port.done none false })
  ∧ (∀ (e : ByteEnables) (s : State), s.PortReady → e ≠ 0 → s.OffSpan → s.life.station = .detached →
    exec (.start e) s = .next { s with
      life := { s.life with station := .joining, startStatus := .started }
      peers := resetPeers s.life.number
      sender := { s.sender with control := some { kind := .join, retransmissions := 0 } }
      span := { s.span with offer := some .control, offerState := .offered }
      port := Port.done none false })

/-- R61, R167, R168, R186: a START in CONFIG that meets an invalid item records the first one in the order of R167 and changes
nothing else; a START in any other state but DETACHED, or with no byte enable, changes nothing. -/
def Obligations.StartIsTurnedAway : Prop :=
  ∀ (e : ByteEnables) (s : State), s.PortReady →
    let w := s.written
    let invalid := fun item => exec (.start e) s = .next { s with
      life := { s.life with startStatus := .invalid item }
      port := Port.done none false }
    (e ≠ 0 → s.life.station = .config →
      ((w.commitmentLimit.toNat < 8 ∨ 96 < w.commitmentLimit.toNat) → invalid .commitmentLimit)
      ∧ ((8 ≤ w.commitmentLimit.toNat ∧ w.commitmentLimit.toNat ≤ 96) →
        (w.completionTimeout.toNat < 1 ∨ 64 < w.completionTimeout.toNat) → invalid .completionTimeout)
      ∧ ((8 ≤ w.commitmentLimit.toNat ∧ w.commitmentLimit.toNat ≤ 96) →
        (1 ≤ w.completionTimeout.toNat ∧ w.completionTimeout.toNat ≤ 64) →
        (w.retryLimit.toNat < 1 ∨ 15 < w.retryLimit.toNat) → invalid .retryLimit)
      ∧ (w.NumbersValid → ∀ n : Fin 8, w.regions[n.val].enabled = true → ¬ w.regions[n.val].IsValid →
        (∀ m : Fin 8, m < n → w.regions[m.val].enabled = true → w.regions[m.val].IsValid) → invalid (.region n)))
    ∧ ((e = 0 ∨ (s.life.station ≠ .config ∧ s.life.station ≠ .detached)) →
      exec (.start e) s = .next { s with port := Port.done none false })

/-- R103, R171: in LEAVING, with the inbound queue and the response queue empty and no take of an inbound request held, the
LEAVE is placed in the control slot with count 0 and offered. -/
def Obligations.DrainDonePlacesLeave : Prop :=
  ∀ s : State, s.life.rstN = false → s.OffSpan → s.life.station = .leaving → s.sender.control = none →
    s.inbound.queue = [] → s.sender.responses = [] →
    (∀ r f, s.span.received = some r → r.frame = some f → r.take = true →
      ¬ (f.body.frameClass = .request ∧ f.body.target ≠ none)) →
    exec .drainDone s = .next { s with
      sender := { s.sender with control := some { kind := .leave, retransmissions := 0 } }
      span := { s.span with offer := some .control, offerState := .offered } }

/-! ## The control window (chapters 9 to 12) -/

/-- R166, R180, R185, R186: in CONFIG a configuration write gives the written copy the enabled bytes of the word and nothing
else; in any other state it is ignored and sets CONFIG_LOCKED; with no byte enable it is ignored everywhere (log 14). A write
of the interrupt enables changes the enabled bytes of both copies in every station state, and sets no flag. Each word gives
and reads the fields of R185 at their places, and every other bit reads 0. -/
def Obligations.ConfigurationWrites : Prop :=
  (∀ (w : ConfigWord) (d : Word) (e : ByteEnables) (s : State), s.PortReady → e ≠ 0 → s.life.station = .config →
    exec (.configWrite w d e) s = .next { s with
      written := s.written.set w (mergeLanes (s.written.read w) d e)
      port := Port.done none false })
  ∧ (∀ (w : ConfigWord) (d : Word) (e : ByteEnables) (s : State), s.PortReady → e ≠ 0 → s.life.station ≠ .config →
    exec (.configWrite w d e) s = .next { s with
      incidents := { s.incidents with flags := s.incidents.flags ||| 0x4000#16 }
      port := Port.done none false })
  ∧ (∀ (w : ConfigWord) (d : Word) (s : State), s.PortReady →
    exec (.configWrite w d 0) s = .next { s with port := Port.done none false })
  ∧ (∀ (old new : Word) (e : ByteEnables) (i : Fin 32), (mergeLanes old new e).getLsbD i.val =
    if e.getLsbD (i.val / 8) then new.getLsbD i.val else old.getLsbD i.val)
  ∧ (∀ (c : ConfigRecord) (d : Word) (n : Fin 8),
    c.set .config0 d = { c with
      commitmentLimit := d.extractLsb' 0 8
      completionTimeout := d.extractLsb' 8 8
      retryLimit := d.extractLsb' 16 8 }
    ∧ c.set .acceptMask d = { c with acceptMask := d.extractLsb' 0 16 }
    ∧ c.set (.regionA n) d = { c with regions := c.regions.set n.val { c.regions[n.val] with
        base := d.extractLsb' 0 16
        peerSet := d.extractLsb' 16 16 } n.isLt }
    ∧ c.set (.regionB n) d = { c with regions := c.regions.set n.val { c.regions[n.val] with
        length := d.extractLsb' 0 17
        enabled := d.getLsbD 24
        grantsRead := d.getLsbD 25
        grantsWrite := d.getLsbD 26
        grantsAtomic := d.getLsbD 27 } n.isLt })
  ∧ (∀ (c : ConfigRecord) (n : Fin 8),
    let r := c.regions[n.val]
    (c.read .config0).toNat =
      c.commitmentLimit.toNat + 2 ^ 8 * c.completionTimeout.toNat + 2 ^ 16 * c.retryLimit.toNat
    ∧ (c.read .acceptMask).toNat = c.acceptMask.toNat
    ∧ (c.read (.regionA n)).toNat = r.base.toNat + 2 ^ 16 * r.peerSet.toNat
    ∧ (c.read (.regionB n)).toNat = r.length.toNat + 2 ^ 24 * r.enabled.toNat + 2 ^ 25 * r.grantsRead.toNat
      + 2 ^ 26 * r.grantsWrite.toNat + 2 ^ 27 * r.grantsAtomic.toNat)
  ∧ (∀ (d : Word) (e : ByteEnables) (s : State), s.PortReady →
    ∃ x : BitVec 18, exec (.interruptEnablesWrite d e) s = .next { s with
        written := { s.written with enables := x }
        inForce := { s.inForce with enables := x }
        port := Port.done none false }
      ∧ ∀ i : Fin 18, x.getLsbD i.val =
        if e.getLsbD (i.val / 8) then d.getLsbD i.val else s.written.enables.getLsbD i.val)

/-- R185: after every reset the configuration words read 00070860h, 0000FFFFh and 0, every region word 0, every staging
word 0; the station state word of the reset state reads 0 (INIT, NONE, NONE), with the strapped number 0 (log 11). The reset
state meets every law that the steps are stated to keep. -/
def Obligations.ResetStateReadsAndIsLawful : Prop :=
  State.reset.readControl (.config .config0) = 0x00070860#32
  ∧ State.reset.readControl (.config .acceptMask) = 0x0000FFFF#32
  ∧ State.reset.readControl .interruptEnables = 0
  ∧ (∀ n : Fin 8, State.reset.readControl (.config (.regionA n)) = 0 ∧ State.reset.readControl (.config (.regionB n)) = 0)
  ∧ (∀ n : Fin 7, State.reset.readControl (.staging n) = 0)
  ∧ State.reset.readControl .stationState = 0
  ∧ (∀ k : Fin 13, State.reset.readControl (.counter k) = 0)
  ∧ State.reset.readControl .flags = 0 ∧ State.reset.readControl .lastUnexpected = 0
  ∧ State.reset.readControl .bufferStatus = 0x60000000#32
  ∧ State.reset.readControl .inboundStatus = 0x00004000#32
  ∧ State.reset.readControl .senderStatus = 0 ∧ State.reset.readControl .issueStatus = 0
  ∧ Memory.wf State.reset.store = true ∧ State.reset.selfKept = true ∧ State.reset.settled = true
  ∧ State.reset.placesKept = true ∧ State.reset.queuesKept = true ∧ State.reset.inboundKept = true
  ∧ State.reset.Accounted ∧ State.reset.BlocksKept ∧ State.reset.CompletionsFit

/-- R146, R176, R186: a POST copies the staging record to the tail of a command queue that holds fewer than 16, and otherwise
counts COMMAND_OVERFLOW; with no byte enable it does nothing. The staging record stays. -/
def Obligations.PostQueuesOrOverflows : Prop :=
  ∀ (e : ByteEnables) (s : State), s.PortReady →
    (e ≠ 0 → s.issue.commands.length < 16 →
      exec (.post e) s = .next { s with
        issue := { s.issue with commands := s.issue.commands ++ [s.issue.staging] }
        port := Port.done none false })
    ∧ (e ≠ 0 → 16 ≤ s.issue.commands.length →
      exec (.post e) s = .next { s with
        incidents := { s.incidents with
          counters := s.incidents.counters.set 8 (growCounter s.incidents.counters[8])
          flags := s.incidents.flags ||| 0x0100#16 }
        port := Port.done none false })
    ∧ (e = 0 → exec (.post e) s = .next { s with port := Port.done none false })

/-- R140, R162, R185: a pop moves the head into the latch and returns its word: of a result the id in 7:0, the kind in 11:8 and
the status in 19:16, of a notice the source in 3:0, and 0 in every other bit; a pop of an empty queue puts the empty entry into the
latch and returns 80000000h. -/
def Obligations.PopsReturnTheHead : Prop :=
  (∀ s : State, s.PortReady →
    ∃ w, exec .resultPop s = .next { s with
        issue := { s.issue with results := s.issue.results.tail, latch := s.issue.results.head? }
        port := Port.done (some w) false }
      ∧ (s.issue.results = [] → w = 0x80000000#32)
      ∧ (∀ r rest, s.issue.results = r :: rest →
        w.toNat = r.id.toNat + 2 ^ 8 * r.kind.toNat + 2 ^ 16 * r.status.code))
  ∧ (∀ s : State, s.PortReady →
    ∃ w, exec .noticePop s = .next { s with
        notices := { queue := s.notices.queue.tail, latch := s.notices.queue.head? }
        port := Port.done (some w) false }
      ∧ (s.notices.queue = [] → w = 0x80000000#32)
      ∧ (∀ n rest, s.notices.queue = n :: rest → w = BitVec.ofNat 32 n.source.val))

/-- R179, R186: a clear zeroes the named counters, clears the named flags and empties the record if it is named; a position in
a lane that is not enabled names nothing, and what is not named stays. -/
def Obligations.ClearUnderTheMask : Prop :=
  ∀ (m : Word) (e : ByteEnables) (s : State), s.PortReady →
    let named := fun i : Nat => m.getLsbD i && e.getLsbD (i / 8)
    ∃ u : Incidents, exec (.clear m e) s = .next { s with incidents := u, port := Port.done none false }
      ∧ (∀ k : Fin 13, u.counters[k.val] = if named k.val then 0 else s.incidents.counters[k.val])
      ∧ (∀ i : Fin 16, u.flags.getLsbD i.val = (s.incidents.flags.getLsbD i.val && !named i.val))
      ∧ u.lastUnexpected = if named 16 then none else s.incidents.lastUnexpected

/-- R146, R186: an access to an offset that names no word reads 0 or is ignored, with the error indication; a write of a staging
word changes its enabled bytes; a write of a read-only word is ignored; a read returns the word and changes nothing. That the
row REGISTER_WRITE carries the reads is log 8. R185: a staging word gives and reads the fields of the staging record at their
places, and every other bit reads 0; each word of the map has its port offset; and an offset names no word if it lies in the
control window, 10000h to 1FFFFh, and outside the ranges of the map. The port's address carries bits 16:2, so the low two bits of
an offset do not count (12.3). -/
def Obligations.OtherControlAccesses : Prop :=
  (∀ (o : BitVec 17) (s : State), s.PortReady → isUnmapped o = true →
    exec (.unmappedAccess o .read) s = .next { s with port := Port.done (some 0) true }
    ∧ ∀ d e, exec (.unmappedAccess o (.write d e)) s = .next { s with port := Port.done none true })
  ∧ (∀ (n : Fin 7) (d : Word) (e : ByteEnables) (s : State), s.PortReady →
    exec (.registerWrite (.staging n) (.write d e)) s = .next { s with
      issue := { s.issue with staging := s.issue.staging.set n (mergeLanes (s.issue.staging.read n) d e) }
      port := Port.done none false })
  ∧ (∀ (w : ControlWord) (d : Word) (e : ByteEnables) (s : State), s.PortReady → w.writeHasOwnRow = false →
    (∀ n, w ≠ .staging n) →
    exec (.registerWrite w (.write d e)) s = .next { s with port := Port.done none false })
  ∧ (∀ (w : ControlWord) (s : State), s.PortReady → w.readHasOwnRow = false →
    exec (.registerWrite w .read) s = .next { s with port := Port.done (some (s.readControl w)) false })
  ∧ (∀ (c : CommandRecord) (d : Word),
    c.set 0 d = { c with
      id := d.extractLsb' 0 8
      kind := d.extractLsb' 8 4
      target := d.extractLsb' 12 4
      operation := d.extractLsb' 16 2 }
    ∧ c.set 1 d = { c with remoteOffset := d.extractLsb' 0 16, length := d.extractLsb' 16 16 }
    ∧ c.set 2 d = { c with localOffset := d.extractLsb' 0 16 }
    ∧ c.set 3 d = { c with a := d } ∧ c.set 4 d = { c with b := d }
    ∧ c.set 5 d = { c with noticeLow := d } ∧ c.set 6 d = { c with noticeHigh := d }
    ∧ (c.read 0).toNat = c.id.toNat + 2 ^ 8 * c.kind.toNat + 2 ^ 12 * c.target.toNat + 2 ^ 16 * c.operation.toNat
    ∧ (c.read 1).toNat = c.remoteOffset.toNat + 2 ^ 16 * c.length.toNat
    ∧ (c.read 2).toNat = c.localOffset.toNat
    ∧ c.read 3 = c.a ∧ c.read 4 = c.b ∧ c.read 5 = c.noticeLow ∧ c.read 6 = c.noticeHigh)
  ∧ (∀ o : BitVec 17,
    let a := o.toNat / 4 * 4
    isUnmapped o = true ↔
      0x1000C ≤ a ∧ a < 0x10010 ∨ 0x1001C ≤ a ∧ a < 0x10020 ∨ 0x10060 ≤ a ∧ a < 0x10080 ∨ 0x100AC ≤ a ∧ a < 0x100B0
      ∨ 0x100BC ≤ a ∧ a < 0x100C0 ∨ 0x100D4 ≤ a ∧ a < 0x10100 ∨ 0x10140 ≤ a ∧ a < 0x10200 ∨ 0x10234 ≤ a ∧ a < 0x10240
      ∨ 0x1024C ≤ a)
  ∧ (∀ o : BitVec 17, 0x10000 ≤ o.toNat →
    (isUnmapped o = true ↔ ∀ w : ControlWord, w.portOffset ≠ o.toNat / 4 * 4))
  ∧ (∀ w : ControlWord, w.portOffset = match w with
    | .stationState => 0x10000 | .start => 0x10004 | .softReset => 0x10008
    | .config .config0 => 0x10010 | .config .acceptMask => 0x10014 | .interruptEnables => 0x10018
    | .config (.regionA n) => 0x10020 + 8 * n.val | .config (.regionB n) => 0x10024 + 8 * n.val
    | .staging n => 0x10080 + 4 * n.val | .post => 0x1009C
    | .resultPop => 0x100A0 | .resultData n => 0x100A4 + 4 * n.val
    | .noticePop => 0x100B0 | .noticeData n => 0x100B4 + 4 * n.val
    | .bufferStatus => 0x100C0 | .inboundStatus => 0x100C4 | .senderStatus => 0x100C8 | .noticeCount => 0x100CC
    | .issueStatus => 0x100D0 | .peerStatus n => 0x10100 + 4 * n.val | .counter k => 0x10200 + 4 * k.val
    | .flags => 0x10240 | .lastUnexpected => 0x10244 | .clearMask => 0x10248)

/-- R59, R83, R119, R134, R164, R165, R178, R185: what the words of the control window read: the fields of R185 at their
places, every other bit 0, in every state whose counts keep the bounds of the rules. The service engine reads WAITING while the
head's service has not begun: in a settled state, a READ or an ATOMIC that lacks room (R71). TAKE_WAIT of the issue engine is
read as log 3 says. -/
def Obligations.ControlWordsRead : Prop :=
  (∀ s : State,
    let l := s.life
    (s.readControl .stationState).toNat = l.station.code + 2 ^ 4 * l.haltCause.code + 2 ^ 8 * l.startStatus.code
      + 2 ^ 12 * l.startStatus.itemCode + 2 ^ 16 * l.startStatus.regionCode + 2 ^ 24 * l.number.val)
  ∧ (∀ s : State, s.reservedBlocks ≤ 96 → s.buffer.occupied ≤ 96 → s.buffer.pieces.length ≤ 96 →
    s.inForce.commitmentLimit.toNat ≤ 96 →
    (s.readControl .bufferStatus).toNat = s.reservedBlocks + 2 ^ 8 * s.buffer.occupied + 2 ^ 16 * s.buffer.pieces.length
      + 2 ^ 23 * (if s.buffer.landing = none then 0 else 1) + 2 ^ 24 * s.inForce.commitmentLimit.toNat)
  ∧ (∀ s : State, s.inbound.queue.length ≤ 16 →
    (s.readControl .inboundStatus).toNat = s.inbound.queue.length + 2 ^ 8 * s.inbound.poolFree
      + (match s.inbound.queue with
        | [] => 0
        | e :: _ => 2 ^ 16 * (if e.begun = true then 2 else 1) + 2 ^ 20 * e.source.val))
  ∧ (∀ s : State, s.sender.responses.length ≤ 16 → s.sender.requests.length ≤ 16 →
    (s.readControl .senderStatus).toNat = (match s.sender.control.map ControlFrame.kind with
        | none => 0
        | some .join => 1
        | some .leave => 2)
      + 2 ^ 4 * s.sender.responses.length + 2 ^ 12 * s.sender.requests.length
      + 2 ^ 20 * (s.sender.requests.filter (fun e => decide (e.state = .held))).length
      + 2 ^ 28 * (match s.span.offer with
        | none => 0
        | some .control => 1
        | some .response => 2
        | some (.request _) => 3))
  ∧ (∀ s : State, s.notices.queue.length ≤ 16 → (s.readControl .noticeCount).toNat = s.notices.queue.length)
  ∧ (∀ s : State, s.issue.commands.length ≤ 16 → s.issue.contexts.length + s.issue.results.length ≤ 32 →
    let w := s.issue.waitingFor
    (s.readControl .issueStatus).toNat = s.issue.commands.length + 2 ^ 8 * s.issue.contexts.length
      + 2 ^ 16 * s.issue.results.length
      + 2 ^ 24 * (if s.issue.current = none then (if s.issue.commands = [] then 0 else 1)
        else if w.tag = true ∨ w.blocks = true ∨ w.entry = true then 3 else 2)
      + 2 ^ 28 * w.tag.toNat + 2 ^ 29 * w.blocks.toNat + 2 ^ 30 * w.entry.toNat)
  ∧ (∀ (n : Station) (s : State), s.peers[n.val].joinCount ≤ 255 →
    (s.readControl (.peerStatus n)).toNat = s.peers[n.val].state.code + 2 ^ 8 * s.peers[n.val].joinCount)
  ∧ (∀ (k : Fin 13) (s : State), (s.readControl (.counter k)).toNat = s.incidents.counters[k.val].toNat
    ∧ (s.readControl .flags).toNat = s.incidents.flags.toNat)
  ∧ (∀ s : State, (s.readControl .lastUnexpected).toNat = (match s.incidents.lastUnexpected with
    | none => 0
    | some x => x.source.val + 2 ^ 4 * x.tag.val + 2 ^ 9 * x.generation.val + 2 ^ 12 * (match x.kind with
        | .rdData => 0
        | .atData => 1
        | .fail => 2) + 2 ^ 31))
  ∧ (∀ s : State, (s.issue.latch = none → s.readControl (.resultData 0) = 0 ∧ s.readControl (.resultData 1) = 0)
    ∧ (∀ r, s.issue.latch = some r → s.readControl (.resultData 0) = BitVec.ofNat 32 r.bytesDone
      ∧ s.readControl (.resultData 1) = r.value))
  ∧ (∀ s : State, (s.notices.latch = none → s.readControl (.noticeData 0) = 0 ∧ s.readControl (.noticeData 1) = 0)
    ∧ (∀ n, s.notices.latch = some n → s.readControl (.noticeData 0) = wordOfBytes (n.data.take 4)
      ∧ s.readControl (.noticeData 1) = wordOfBytes ((n.data.drop 4).take 4)))
  ∧ (∀ s : State, (∀ w, s.readControl (.config w) = s.written.read w)
    ∧ (∀ n, s.readControl (.staging n) = s.issue.staging.read n)
    ∧ (s.readControl .interruptEnables).toNat = s.written.enables.toNat
    ∧ s.readControl .start = 0 ∧ s.readControl .softReset = 0 ∧ s.readControl .post = 0 ∧ s.readControl .clearMask = 0)
  ∧ [StationState.init, .config, .joining, .running, .leaving, .detached, .halted].map StationState.code =
    [0, 1, 2, 3, 4, 5, 6]
  ∧ [HaltCause.none, .joinRetry, .leaveRetry, .duplicate].map HaltCause.code = [0, 1, 2, 3]
  ∧ (∀ item, StartStatus.none.code = 0 ∧ StartStatus.started.code = 1 ∧ (StartStatus.invalid item).code = 2)
  ∧ [StartStatus.invalid .commitmentLimit, .invalid .completionTimeout, .invalid .retryLimit, .none, .started].map
    (fun x => (x.itemCode, x.regionCode)) = [(0, 0), (1, 0), (2, 0), (0, 0), (0, 0)]
  ∧ (∀ n, (StartStatus.invalid (.region n)).itemCode = 3 ∧ (StartStatus.invalid (.region n)).regionCode = n.val)
  ∧ [PeerState.unknown, .present, .absent, .self].map PeerState.code = [0, 1, 2, 3]
  ∧ [Status.ok, .refused, .noStation, .peerLost, .timeout, .targetBusy, .spanFault, .storeError, .badCommand, .notRunning,
    .halted].map Status.code = [0, 1, 2, 3, 4, 5, 6, 7, 8, 9, 10]

/-- R176: a report sets the incident's flag and no other, and grows its counter, if it has one, by 1 up to 65535, and no other;
R177: an unexpected completion fills an empty record and leaves a valid one. -/
def Obligations.IncidentReports : Prop :=
  (∀ (u : Incidents) (i : Incident),
    (∀ k : Fin 16, (u.report i).flags.getLsbD k.val = (u.flags.getLsbD k.val || decide (k.val = i.position)))
    ∧ (∀ k : Fin 13, ((u.report i).counters[k.val]).toNat =
      if k.val = i.position then min (u.counters[k.val].toNat + 1) 65535 else u.counters[k.val].toNat)
    ∧ (u.report i).lastUnexpected = u.lastUnexpected)
  ∧ (∀ (u : Incidents) (x : Unexpected),
    (u.reportUnexpected x).lastUnexpected = (if u.lastUnexpected = none then some x else u.lastUnexpected)
    ∧ (u.reportUnexpected x).flags = (u.report .unexpectedCompletion).flags
    ∧ (u.reportUnexpected x).counters = (u.report .unexpectedCompletion).counters)

/-- R181: INTL is asserted exactly while an enabled queue is not empty or an enabled sticky flag is set; after every reset it is
deasserted; while RST_N is asserted every command leaves it deasserted. -/
def Obligations.InterruptLevel : Prop :=
  (∀ s : State, s.intl = true ↔
    (s.issue.results ≠ [] ∧ s.inForce.enables.getLsbD 16 = true)
    ∨ (s.notices.queue ≠ [] ∧ s.inForce.enables.getLsbD 17 = true)
    ∨ ∃ i : Fin 16, s.incidents.flags.getLsbD i.val = true ∧ s.inForce.enables.getLsbD i.val = true)
  ∧ (∀ (s : State) (station : StationState) (own : Station), (s.resetUnits station own).intl = false)
  ∧ (∀ (s t : State), s.life.rstN = false → exec .rstNAssert s = .next t → t.intl = false)
  ∧ (∀ (c : Instr) (s t : State), s.life.rstN = true → s.intl = false → exec c s = .next t → t.intl = false)

/-! ## The export store (chapter 5) -/

/-- R84, R85: a GOOD byte becomes LOST and holds the value it comes to hold, and no other byte and no unit changes. Every byte
and its integrity stay as they are at every command but a grant, a byte's loss and the end of the initialization. That they
stay at POWER_ON_RESET too, until the initialization ends, is the model's choice (log 12). -/
def Obligations.BytesChangeByThreeCommands : Prop :=
  (∀ (o : Offset) (v : Byte) (s : State), Memory.wf s.store = true → s.store.isLost o.toNat = false →
    ∃ st, exec (.storeByteLoss o v) s = .next { s with store := st }
      ∧ (∀ a, st.byte a = if a = o.toNat then v else s.store.byte a)
      ∧ (∀ a, st.isLost a = (decide (a = o.toNat) || s.store.isLost a)))
  ∧ (∀ (c : Instr) (s t : State), exec c s = .next t → c ≠ .storeGrant → c ≠ .storeInitEnd →
    (∀ o v, c ≠ .storeByteLoss o v) → t.store = s.store)

/-- R86, R95, R96: a local access is held and raises its LOCAL transfer, except that in INIT the transfer is not yet requested;
the transfer's completion completes the access: a read with the word as read and the error indication of its verdict, a write
with the indication clear. -/
def Obligations.LocalAccesses : Prop :=
  (∀ (o : Offset) (s : State), s.PortReady → o.toNat % 4 = 0 →
    exec (.localRead o) s = .next { s with
      port := { held := some (.read o.toNat), completed := none }
      arbiter := if s.life.station = .init then s.arbiter
        else { s.arbiter with raisedLocal := some (.read o.toNat 4) } })
  ∧ (∀ (o : Offset) (d : Word) (e : ByteEnables) (s : State), s.PortReady → o.toNat % 4 = 0 →
    exec (.localWrite o d e) s = .next { s with
      port := { held := some (.write o.toNat d e), completed := none }
      arbiter := if s.life.station = .init then s.arbiter
        else { s.arbiter with raisedLocal := some (.write (laneCells o.toNat d e)) } })
  ∧ (∀ (o n : Nat) (d : Word) (e : ByteEnables) (v : Byte), (o + n, v) ∈ laneCells o d e ↔
    n < 4 ∧ e.getLsbD n = true ∧ v = d.extractLsb' (8 * n) 8)
  ∧ (∀ (g : Granted) (s : State), s.life.rstN = false → s.arbiter.granted = some g → g.claimant = .localPort →
    (∀ o, s.port.held = some (.read o) →
      exec .localTransferComplete s = .next { s with
        arbiter := { s.arbiter with granted := none }
        port := Port.done (some (wordOfBytes g.data)) g.parityError })
    ∧ (∀ o d e, s.port.held = some (.write o d e) →
      exec .localTransferComplete s = .next { s with
        arbiter := { s.arbiter with granted := none }
        port := Port.done none false }))

/-- R87, R89, R90, R94: with the store idle, the arbiter grants the first raised request from the grant pointer round the
rotation; the transfer takes effect, the request leaves the raised set, the pointer moves past the claimant served, and a
parity error counts STORE_PARITY once. -/
def Obligations.GrantsFollowTheRotation : Prop :=
  ∀ (s : State) (before after : List Claimant) (c : Claimant) (tr : Transfer),
    s.life.rstN = false → s.life.station ≠ .init → s.arbiter.granted = none →
    s.arbiter.pointer.rotation = before ++ c :: after → (∀ x ∈ before, s.arbiter.raised x = none) →
    s.arbiter.raised c = some tr →
    exec .storeGrant s = .next { s with
      store := tr.effect s.store
      arbiter := { s.arbiter.setRaised c none with
        pointer := c.following
        granted := some {
          claimant := c
          transfer := tr
          data := tr.data s.store
          parityError := tr.parityError s.store
          discarded := false } }
      incidents := if tr.parityError s.store then { s.incidents with
          counters := s.incidents.counters.set 7 (growCounter s.incidents.counters[7])
          flags := s.incidents.flags ||| 0x0080#16 }
        else s.incidents }

/-- R84, R87, R94, R95: what a transfer returns and does: a READ returns the bytes of its range and changes none; a WRITE of
bytes laid from an offset gives those bytes their values and leaves them GOOD, and touches no other; a LOCAL write does so for
the bytes of its word whose lanes are enabled, and leaves the others of the word, value and integrity; a checked read errs when and
only when a byte it reads is LOST. R76, R77, R93: an ATOMIC on a word whose bytes are all GOOD leaves old + A modulo 2^32, A,
or B where old equals A, each byte GOOD, returns old with a clean verdict, and writes no byte beside it; a COMPARE_SWAP that
finds another value writes nothing; on a word with a LOST byte it writes nothing and errs. -/
def Obligations.TransfersReadWriteAndExchange : Prop :=
  (∀ (st : Store) (o n : Nat),
    (Transfer.read o n).effect st = st
    ∧ (Transfer.read o n).data st = (List.range n).map (fun i => st.byte (o + i))
    ∧ ((Transfer.read o n).parityError st = true ↔ ∃ i, i < n ∧ st.isLost (o + i) = true))
  ∧ (∀ (st : Store) (o : Nat) (data : List Byte), Memory.wf st = true → o + data.length ≤ 65536 →
    ((Transfer.write (cellsAt o data)).effect st).readRange o data.length = data
    ∧ (∀ i, i < data.length → ((Transfer.write (cellsAt o data)).effect st).isLost (o + i) = false)
    ∧ (∀ a, (a < o ∨ o + data.length ≤ a) →
      ((Transfer.write (cellsAt o data)).effect st).byte a = st.byte a
      ∧ ((Transfer.write (cellsAt o data)).effect st).isLost a = st.isLost a))
  ∧ (∀ (st : Store) (o : Nat) (d : Word) (e : ByteEnables), Memory.wf st = true → o + 4 ≤ 65536 →
    let after := (Transfer.write (laneCells o d e)).effect st
    (∀ n, n < 4 → after.byte (o + n) = (if e.getLsbD n then d.extractLsb' (8 * n) 8 else st.byte (o + n))
      ∧ after.isLost (o + n) = (!e.getLsbD n && st.isLost (o + n)))
    ∧ ∀ a, (a < o ∨ o + 4 ≤ a) → after.byte a = st.byte a ∧ after.isLost a = st.isLost a)
  ∧ (∀ (st : Store) (o : Nat) (op : AtomicOp) (a b : Word), Memory.wf st = true → o + 4 ≤ 65536 →
    let after := (Transfer.atomic o op a b).effect st
    let old := wordOfBytes (st.readRange o 4)
    (Transfer.atomic o op a b).data st = st.readRange o 4
    ∧ ((Transfer.atomic o op a b).parityError st = true ↔ ∃ i, i < 4 ∧ st.isLost (o + i) = true)
    ∧ (st.rangeLost o 4 = true → after = st)
    ∧ (op = .compareSwap → old ≠ a → after = st)
    ∧ (st.rangeLost o 4 = false → (∀ i, i < 4 → after.isLost (o + i) = false) ∧
      wordOfBytes (after.readRange o 4) = (match op with
        | .fetchAdd => old + a
        | .swap => a
        | .compareSwap => if old = a then b else old)
      ∧ ∀ x, (x < o ∨ o + 4 ≤ x) → after.byte x = st.byte x ∧ after.isLost x = st.isLost x))

/-! ## Frames on the span (chapter 1) -/

/-- R2, R3, R4, R101, R116: a contention begins at the idle and fixes an offer; the offered frame with the lowest priority word
wins; a loser returns to the frame the choice names, and a withdrawn entry leaves. From the start of the body the receive holding
holds the frame on the span, the own one too, with its priority word as the first bits, unjudged and unanswered; that the other
bits come with the answer field is log 26. The contention in progress at a reset comes out without this station. The operand is
log 5, and so is that the contention which R2 and R102 begin at once begins at a command; a word equal to the own one belongs to a
station with the same number, and both win (R18). That the first idle after a reset may be observed by a contention that begins
is log 7, and so is what the outcome of the contention in progress at the reset shows. -/
def Obligations.ContentionsComeOut : Prop :=
  let begun := fun word : Nat => ({ bits := bitsOfNat 6 word, frame := none, drove := .silent, take := false } : Received)
  (∀ s : State, s.life.rstN = false → (s.span.phase = .unsynced ∨ s.span.phase = .idle) →
    exec (.contention .begins) s = .next { s with span := { s.span with
      phase := .contention
      offerState := if s.span.offerState = .offered then .contending else s.span.offerState } })
  ∧ (∀ (f : Frame) (lowest : Option (BitVec 6)) (s : State), s.life.rstN = false → s.span.phase = .contention →
    s.span.offerState = .contending → s.offeredFrame = some f →
    let word := f.body.frameClass.value * 16 + f.source.val
    (∀ p, lowest = some p → word ≤ p.toNat) →
    exec (.contention (.settles lowest)) s = .next { s with span := { s.span with
      phase := .body
      offerState := .sending
      received := some (begun word) } })
  ∧ (∀ (f : Frame) (p : BitVec 6) (s : State), s.life.rstN = false → s.span.phase = .contention →
    s.span.offerState = .contending → s.offeredFrame = some f →
    p.toNat < f.body.frameClass.value * 16 + f.source.val →
    exec (.contention (.settles (some p))) s = .next (State.settle { s with
      sender := { s.sender with requests := s.sender.requests.filter (fun e => !e.withdrawn) }
      span := { s.span with phase := .body, offerState := .offered, received := some (begun p.toNat) } }))
  ∧ (∀ (s : State), s.life.rstN = false → s.span.phase = .contention → s.span.offerState ≠ .contending →
    (∀ p, exec (.contention (.settles (some p))) s = .next { s with span := { s.span with
      phase := .body
      received := some (begun p.toNat) } })
    ∧ exec (.contention (.settles none)) s = .next { s with span := { s.span with phase := .idle, received := none } })
  ∧ (∀ (lowest : Option (BitVec 6)) (s : State), s.life.rstN = false → s.span.phase = .idle →
    exec (.contention (.settles lowest)) s = exec (.contention (.settles lowest)) { s with span := { s.span with
      phase := .contention
      offerState := if s.span.offerState = .offered then .contending else s.span.offerState } })
  ∧ (∀ (lowest : Option (BitVec 6)) (s : State), s.life.rstN = false → s.span.phase = .unsynced →
    exec (.contention (.settles lowest)) s = .next { s with span := { s.span with
      phase := if lowest.isSome then .unsynced else .idle } })

/-- R4, R5, R6, R7, R9: at the answer field the receive holding holds the whole body (log 26). The station does not check its
own frame and drives nothing into its answer field; of a peer's frame, on the span, it keeps the frame recognised, its answer
and its take, and off the span none of the three. A failed check draws DAMAGED, an unrecognisable frame naming this station or
ALL draws REFUSE in RUNNING and LEAVING, and neither leaves a take. An answer field given while the span reads idle or in a
contention is log 6; what JOINING makes of a frame answered before it is log 23. R8, R184: the answer the medium forms of two
answers is the more dominant: its code is dominant in each position in which either code is, and answers that differ have codes
that differ. -/
def Obligations.AnswerFields : Prop :=
  (∀ (body : List Bool) (s : State), s.life.rstN = false → s.span.phase ≠ .unsynced → s.span.phase ≠ .answer →
    (s.span.offerState = .sending →
      exec (.answerField body) s = .next { s with span := { s.span with
        phase := .answer
        offerState := .answer
        received := some { bits := body, frame := none, drove := .silent, take := false } } })
    ∧ (s.OffSpan → s.life.station.onSpan = true →
      exec (.answerField body) s = .next { s with span := { s.span with
        phase := .answer
        received := some (s.receive body (judge body)) } })
    ∧ (s.OffSpan → s.life.station.onSpan = false →
      exec (.answerField body) s = .next { s with span := { s.span with
        phase := .answer
        received := some { bits := body, frame := none, drove := .silent, take := false } } }))
  ∧ (∀ (body : List Bool) (s : State),
    (body.length < 47 ∨ body.drop (body.length - 32) ≠ bitsOfNat 32 (crc (body.take (body.length - 32))).toNat) →
    s.receive body (judge body) = { bits := body, frame := none, drove := .damaged, take := false })
  ∧ (∀ (target : Nat) (body : List Bool) (s : State), s.receive body (.unrecognisable target) = {
    bits := body
    frame := none
    drove := if (target = s.life.number.val ∨ target = 31) ∧ (s.life.station = .running ∨ s.life.station = .leaving)
      then .refuse else .silent
    take := false })
  ∧ (∀ a b : Answer, (a.combine b).code = a.code &&& b.code)
  ∧ (∀ a b : Answer, a.code = b.code → a = b)
  ∧ Answer.silent.code = 0b1111#4 ∧ Answer.accept.code = 0b0111#4 ∧ Answer.refuse.code = 0b0011#4
  ∧ Answer.busy.code = 0b0001#4 ∧ Answer.damaged.code = 0b0000#4

/-- R62, R64, R65, R66: in RUNNING the answer to a request addressed to this station is that of the first of the four tests
that applies; the request is kept as a provisional take with ACCEPT alone; the decision changes nothing else. That the answer
field is taken while the span reads idle too, and in a contention in which this station does not contend, is the model's choice
(log 6). -/
def Obligations.RequestsAreDecidedByFourTests : Prop :=
  ∀ (f : Frame) (right : Right) (offset size : Nat) (body : List Bool) (s : State), s.life.rstN = false →
    s.span.phase ≠ .unsynced → s.span.phase ≠ .answer → s.OffSpan → s.life.station = .running → judge body = .recognised f →
    f.body.target = some s.life.number → FrameBody.access f.body = some (right, offset, size) →
    let answer := fun a => exec (.answerField body) s = .next { s with span := { s.span with
      phase := .answer
      received := some { bits := body, frame := some f, drove := a, take := decide (a = .accept) } } }
    let malformed := FrameBody.Malformed s.life.number f.source f.body
    let admitted := s.inForce.Admits right f.source offset size
    (malformed → answer .refuse)
    ∧ (¬ malformed → ¬ admitted → answer .refuse)
    ∧ (¬ malformed → admitted → ¬ s.RoomFor f.body → answer .busy)
    ∧ (¬ malformed → admitted → s.RoomFor f.body → answer .accept)

/-- R29: in RUNNING and LEAVING a completion addressed to this station is answered ACCEPT as a match or as late, with a take,
and REFUSE as unexpected, from the record of the tag it names. -/
def Obligations.CompletionsAreMatched : Prop :=
  ∀ (f : Frame) (tag : Tag) (g : Generation) (kind : CompletionKind) (body : List Bool) (s : State),
    (s.life.station = .running ∨ s.life.station = .leaving) → f.body.target = some s.life.number →
    FrameBody.completion f.body = some (tag, g, kind) →
    let r := s.tagAt tag
    let named := r.target = some f.source ∧ r.generation = g
    (named → (r.state = .stale ∨ r.Expects f.body) →
      s.receive body (.recognised f) = { bits := body, frame := some f, drove := .accept, take := true })
    ∧ (¬ (named ∧ (r.state = .stale ∨ r.Expects f.body)) →
      s.receive body (.recognised f) = { bits := body, frame := some f, drove := .refuse, take := false })

/-- R7, R63, R136: the other answers: JOIN and LEAVE draw ACCEPT in RUNNING and LEAVING with an empty take; a NOTICE draws BUSY
or ACCEPT in RUNNING by the accept mask and the queue; LEAVING refuses every request; a frame to another station draws
nothing; JOINING answers nothing. -/
def Obligations.OtherFramesAreAnswered : Prop :=
  (∀ (f : Frame) (body : List Bool) (s : State), (f.body = .join ∨ f.body = .leave) → s.receive body (.recognised f) = {
    bits := body
    frame := some f
    drove := if s.life.station = .running ∨ s.life.station = .leaving then .accept else .silent
    take := false })
  ∧ (∀ (source : Station) (data : List Byte) (body : List Bool) (s : State), s.life.station = .running →
    let admitted := s.inForce.acceptMask.getLsbD source.val = true ∧ source ≠ s.life.number
    let f : Frame := { source := source, body := .notice data }
    (admitted → 16 ≤ s.notices.queue.length →
      s.receive body (.recognised f) = { bits := body, frame := some f, drove := .busy, take := false })
    ∧ (admitted → s.notices.queue.length < 16 →
      s.receive body (.recognised f) = { bits := body, frame := some f, drove := .accept, take := true })
    ∧ (¬ admitted → s.receive body (.recognised f) = { bits := body, frame := some f, drove := .accept, take := false }))
  ∧ (∀ (f : Frame) (body : List Bool) (s : State), s.life.station = .leaving → f.body.target = some s.life.number →
    f.body.frameClass = .request →
    s.receive body (.recognised f) = { bits := body, frame := some f, drove := .refuse, take := false })
  ∧ (∀ (f : Frame) (t : Station) (body : List Bool) (s : State), f.body.target = some t → t ≠ s.life.number →
    s.receive body (.recognised f) = { bits := body, frame := some f, drove := .silent, take := false })
  ∧ (∀ (f : Frame) (body : List Bool) (s : State), s.life.station ≠ .running → s.life.station ≠ .leaving →
    s.receive body (.recognised f) = { bits := body, frame := some f, drove := .silent, take := false })
  ∧ (∀ (source : Station) (data : List Byte) (body : List Bool) (s : State), s.life.station = .leaving →
    s.receive body (.recognised { source := source, body := .notice data }) =
      { bits := body, frame := some { source := source, body := .notice data }, drove := .silent, take := false })

/-! ## What the end of an event, the end of a segment, a cleanup and an entry to HALTED do -/

/-- R71, R101, R155, R159, R160: what settling does, with which every event that touches a unit behind the port ends (that every
step keeps its outcome is stated below): the contexts whose issuing has finished with no segment outstanding become FREE and
their results join the result queue in the order the commands were taken; in RUNNING a waiting engine asks again for its
segment; a result that this makes due is produced too; then the offer, if it is not fixed, is the frame the choice names; and
the service of a head not begun begins, if the response queue has room. That the segment is asked for again at the end of every
event, be it one that returned no resource, is the model's form of R155 (log 21); that a wait ends before the segment is asked
for, and a removal comes before a service begins, are its choices (logs 24 and 25). R101, R109: the choice is the control slot if
it is occupied, otherwise the response queue if it holds an entry, otherwise the oldest eligible request entry, otherwise
nothing; an entry is eligible if it is READY, or HELD with its backoff expiry reached, not withdrawn, and no older entry in the
list has its target, whatever that entry's state. R11, R101, R103, R108: the frame offered is the control slot's, the head of
the response queue, or the frame that the entry of the named storage place (log 18) holds. -/
def Obligations.SettlingProducesAsksAndOffers : Prop :=
  (∀ s : State,
    let due := fun c : Context => c.issuingFinished && decide (c.outstanding = 0)
    let produced := fun u : State => { u with issue := { u.issue with
      contexts := u.issue.contexts.filter (fun c => !due c)
      results := u.issue.results ++ (u.issue.contexts.filter due).map Context.result } }
    let waits := s.issue.waitingFor.tag = true ∨ s.issue.waitingFor.blocks = true ∨ s.issue.waitingFor.entry = true
    let asked := if s.life.station = .running ∧ waits then
        match s.issue.current.bind (produced s).issue.context with
        | some c => (produced s).issueSegment c
        | none => produced s
      else produced s
    s.settle = State.headServed { produced asked with
      span := if s.span.offerState.isFixed then s.span else s.span.offering (produced asked).sender.choice })
  ∧ (∀ d : Sender,
    let eligible := fun (older : List RequestEntry) (e : RequestEntry) =>
      (e.state = .ready ∨ e.state = .held ∧ e.backoffReached = true) ∧ e.withdrawn = false
        ∧ ∀ x ∈ older, x.frame.body.target ≠ e.frame.body.target
    (∀ c, d.control = some c → d.choice = some .control)
    ∧ (d.control = none → d.responses ≠ [] → d.choice = some .response)
    ∧ (d.control = none → d.responses = [] →
      (∀ older e newer, d.requests = older ++ e :: newer → eligible older e →
        (∀ before x after, older = before ++ x :: after → ¬ eligible before x) → d.choice = some (.request e.slot))
      ∧ ((∀ older e newer, d.requests = older ++ e :: newer → ¬ eligible older e) → d.choice = none)))
  ∧ (∀ s : State,
    (s.span.offer = none → s.offeredFrame = none)
    ∧ (∀ c, s.span.offer = some .control → s.sender.control = some c →
      s.offeredFrame = some { source := s.life.number, body := match c.kind with
        | .join => .join
        | .leave => .leave })
    ∧ (∀ x rest, s.span.offer = some .response → s.sender.responses = x :: rest → s.offeredFrame = some x.frame)
    ∧ (∀ older e newer, s.span.offer = some (.request e.slot) → s.sender.requests = older ++ e :: newer →
      (∀ x ∈ older, x.slot ≠ e.slot) → s.offeredFrame = some e.frame))

/-- R159: the fields of a result. -/
def Obligations.ResultsSayHowTheCommandEnded : Prop :=
  ∀ c : Context, c.result.id = c.command.id ∧ c.result.kind = c.command.kind
    ∧ (c.firstFailure = none → c.result.status = .ok
      ∧ ((c.command.kind = 0 ∨ c.command.kind = 1) → c.result.bytesDone = c.command.length.toNat)
      ∧ (c.command.kind = 2 → c.result.bytesDone = 4 ∧ ∀ w, c.atomicValue = some w → c.result.value = w)
      ∧ (c.command.kind = 3 → c.result.bytesDone = 8)
      ∧ (4 ≤ c.command.kind.toNat → c.result.bytesDone = 0)
      ∧ (c.atomicValue = none → c.result.value = 0))
    ∧ (∀ k st, c.firstFailure = some (k, st) → c.result.status = st ∧ c.result.value = 0
      ∧ ((c.command.kind = 0 ∨ c.command.kind = 1) → c.result.bytesDone = 256 * k)
      ∧ (2 ≤ c.command.kind.toNat → c.result.bytesDone = 0))

/-- R22, R28, R40, R41, R97, R114, R116, R144, R157, R158: the end of a segment of a command. Its tag becomes STALE for TIMEOUT
and FREE with the next generation otherwise; its pieces not begun go unless it ends OK; its context counts it; a failure
finishes issuing and ends a wait, is recorded if it is the lowest, and withdraws the later segments still waiting to go. Its
entry and the entries withdrawn leave the request queue, or are marked withdrawn where their frame is fixed on the span, and
a copy of one of them stops. The end of a NOTICE's entry does the same to its entry and its context. Nothing else changes. -/
def Obligations.SegmentsEnd : Prop :=
  (∀ (s : State) (t : Tag) (st : Status) (v : Option Word) (n : ContextNumber) (k : Nat),
    (s.tagAt t).context = some n → (s.tagAt t).segment = some k →
    let r := s.tagAt t
    let u := s.endSegment t st v
    let withdrawn := fun x : Tag => decide (st ≠ .ok) && decide (x ≠ t) && (s.tagAt x).isLaterOf n k
    let stopped := st ≠ .ok ∧ s.issue.current = some n
    let removed := s.withoutEntries (fun e => e.liveFor (fun x => decide (x = t) || withdrawn x))
    (st ≠ .timeout → u.tagAt t = TagRecord.freeOf (r.generation + 1))
    ∧ (st = .timeout → u.tagAt t = { r with
        state := .stale
        reserved := 0
        context := none
        segment := none
        deadline := r.deadline.map (fun d => d + s.inForce.completionTimeout.toNat * 1000) })
    ∧ (∀ x, x ≠ t → u.tagAt x = if withdrawn x then TagRecord.freeOf ((s.tagAt x).generation + 1) else s.tagAt x)
    ∧ u.buffer = { s.buffer with pieces := s.buffer.pieces.filter (fun p =>
        !((decide (st ≠ .ok) && decide (p.tag = t) && decide (p.generation = r.generation))
          || (withdrawn p.tag && decide (p.generation = (s.tagAt p.tag).generation)))) }
    ∧ (EntriesApart s.sender.requests → u.sender = { s.sender with requests := removed.sender.requests }
      ∧ u.arbiter = removed.arbiter ∧ u.issue.copying = removed.issue.copying)
    ∧ u.issue = { s.issue with
        contexts := s.issue.contexts.map (fun c => if c.number = n then { c with
          outstanding := c.outstanding - 1 - (allTags.filter withdrawn).length
          atomicValue := if v = none then c.atomicValue else v
          firstFailure := if st = .ok then c.firstFailure else lowestFailure st c.firstFailure k
          issuingFinished := c.issuingFinished || decide (st ≠ .ok)
          phase := if st = .ok then c.phase else .outstanding } else c)
        current := if stopped then none else s.issue.current
        waitingFor := if stopped then WaitingFor.nothing else s.issue.waitingFor
        copying := u.issue.copying }
    ∧ u.sender.control = s.sender.control ∧ u.sender.responses = s.sender.responses
    ∧ u.life = s.life ∧ u.span = s.span ∧ u.inbound = s.inbound ∧ u.peers = s.peers ∧ u.notices = s.notices
    ∧ u.incidents = s.incidents ∧ u.store = s.store ∧ u.clock = s.clock ∧ u.pending = s.pending ∧ u.port = s.port
    ∧ u.written = s.written ∧ u.inForce = s.inForce)
  ∧ (∀ (s : State) (e : RequestEntry) (n : ContextNumber) (st : Status), e ∈ s.sender.requests →
    (∀ x, (s.tagAt x).context ≠ some n) →
    let removed := s.withoutEntries (fun x => decide (x.slot = e.slot))
    let stopped := st ≠ .ok ∧ s.issue.current = some n
    s.endNotice e.slot n st = { removed with issue := { removed.issue with
      contexts := s.issue.contexts.map (fun c => if c.number = n then { c with
        outstanding := c.outstanding - 1
        firstFailure := if st = .ok then c.firstFailure else lowestFailure st c.firstFailure 0
        issuingFinished := c.issuingFinished || decide (st ≠ .ok)
        phase := if st = .ok then c.phase else .outstanding } else c)
      current := if stopped then none else s.issue.current
      waitingFor := if stopped then WaitingFor.nothing else s.issue.waitingFor } })

/-- R42, R50, R79, R97, R106, R114, R115, R125, R126, R127: cleanup for a peer frees every tag that names it and leaves the
tags of other commands; no request to it, and no completion to it, stays in the sender; its reads and atomics not begun leave
the inbound queue, its writes stay, and its service in progress is orphaned; PEER_LOSS grows once. While every segment is
counted: each segment in flight to it ends PEER_LOST at its context, with the later segments of its command withdrawn; the
pieces of the tags freed leave the list; a copy of an entry that leaves stops; the request entries with another key, and those
with key ALL, stay. Nothing else changes. -/
def Obligations.CleanupEndsAPeersWork : Prop :=
  ∀ (s : State) (peer : Station),
    let u := s.cleanup peer
    let ended := fun x : Tag => (s.tagAt x).state.inFlight && decide ((s.tagAt x).target = some peer)
    let later := fun x : Tag => allTags.any (fun t => ended t && (match (s.tagAt t).context, (s.tagAt t).segment with
      | some n, some k => (s.tagAt x).isLaterOf n k
      | _, _ => false))
    let gone := fun x : Tag => ended x || later x
    let removed := s.withoutEntries (fun e => e.liveFor gone)
    let failed := fun n : ContextNumber => (allTags.filter (fun x => ended x
      && decide ((s.tagAt x).context = some n))).filterMap (fun x => (s.tagAt x).segment)
    (∀ t, (s.tagAt t).target = some peer → (s.tagAt t).state ≠ .free →
      u.tagAt t = TagRecord.freeOf ((s.tagAt t).generation + 1))
    ∧ (∀ t, (s.tagAt t).state = .free → u.tagAt t = s.tagAt t)
    ∧ (∀ t, (s.tagAt t).target ≠ some peer →
      (∀ x, (s.tagAt x).target = some peer → (s.tagAt x).context = none ∨ (s.tagAt x).context ≠ (s.tagAt t).context) →
      u.tagAt t = s.tagAt t)
    ∧ (∀ e ∈ u.sender.requests, e.frame.body.target ≠ some peer)
    ∧ u.sender.responses = s.sender.responses.filter (fun e => e.frame.body.target != some peer)
    ∧ u.sender.control = s.sender.control
    ∧ u.inbound = { s.inbound with queue := s.inbound.queue.filterMap (fun e =>
        if e.source ≠ peer then some e
        else if e.begun then some { e with orphaned := true }
        else match e.work with
          | .write _ => some e
          | _ => none) }
    ∧ u.incidents = s.incidents.counted 12
    ∧ u.life = s.life ∧ u.span = s.span ∧ u.peers = s.peers ∧ u.notices = s.notices ∧ u.store = s.store
    ∧ u.pending = s.pending ∧ u.clock = s.clock ∧ u.port = s.port ∧ u.written = s.written ∧ u.inForce = s.inForce
    ∧ (s.Accounted →
      (∀ x, u.tagAt x = if gone x || (decide ((s.tagAt x).state = .stale) && decide ((s.tagAt x).target = some peer))
        then TagRecord.freeOf ((s.tagAt x).generation + 1) else s.tagAt x)
      ∧ u.buffer = { s.buffer with pieces := s.buffer.pieces.filter (fun p =>
          !(gone p.tag && decide (p.generation = (s.tagAt p.tag).generation))) }
      ∧ u.sender.requests = removed.sender.requests.filter (fun e => e.frame.body.target != some peer)
      ∧ u.arbiter = removed.arbiter
      ∧ u.issue = { s.issue with
          contexts := s.issue.contexts.map (fun c => { c with
            outstanding := c.outstanding
              - (allTags.filter (fun x => gone x && decide ((s.tagAt x).context = some c.number))).length
            firstFailure := (failed c.number).foldl (lowestFailure .peerLost) c.firstFailure
            issuingFinished := c.issuingFinished || decide (failed c.number ≠ [])
            phase := if failed c.number = [] then c.phase else .outstanding })
          current := s.issue.current.filter (fun n => decide (failed n = []))
          waitingFor := if s.issue.current.any (fun n => decide (failed n ≠ [])) then WaitingFor.nothing
            else s.issue.waitingFor
          copying := removed.issue.copying })

/-- R19, R43, R80, R98, R118, R163, R173: entry to HALTED records the cause and sets the flags, withdraws the offer, frees every
tag, empties the sender and the inbound queue, withdraws the SERVICE and ISSUE requests, discards what was granted to them,
and leaves no current command and no copy. The peers, the notices, the counters, the posted commands, the store and the
configuration are kept. While every segment is counted: the pieces not begun of the tags that end leave the list; every
context in use has finished its issuing with no segment outstanding, its first failure that of the lowest index among those
recorded and those in progress, which end HALTED, and a LEAVE's context ends HALTED (R50, R152, R163); so each produces its
result, in the order the commands were taken. That the next segment of a current command that does not wait ends HALTED too is
the model's inference (log 15); R163 says it of a waiting engine. -/
def Obligations.HaltEndsAllWork : Prop :=
  ∀ (s : State) (cause : HaltCause),
    let u := s.enterHalted cause
    let ofTags := fun n : ContextNumber => (allTags.filter (fun x => (s.tagAt x).state.inFlight
      && decide ((s.tagAt x).context = some n))).filterMap (fun x => (s.tagAt x).segment)
    let ofNotices := fun n : ContextNumber => (s.sender.requests.filter (fun e => !e.withdrawn
      && decide (e.owner = .context n))).map (fun _ => 0)
    let failed := fun c : Context => (if s.issue.current = some c.number then [c.next] else [])
      ++ ofTags c.number ++ ofNotices c.number
    u.life = { s.life with station := .halted, haltCause := cause, giveUp := none }
    ∧ u.span = { s.span with offer := none, offerState := .none, received := none }
    ∧ (∀ t, (s.tagAt t).state ≠ .free → u.tagAt t = TagRecord.freeOf ((s.tagAt t).generation + 1))
    ∧ (∀ t, (s.tagAt t).state = .free → u.tagAt t = s.tagAt t)
    ∧ u.sender = { control := none, responses := [], requests := [] } ∧ u.inbound = { queue := [], service := none }
    ∧ u.arbiter = { s.arbiter with
        raisedService := none
        raisedIssue := none
        granted := s.arbiter.granted.map (fun g =>
          if g.claimant = .service ∨ g.claimant = .issue then { g with discarded := true } else g) }
    ∧ u.issue.current = none ∧ u.issue.copying = none ∧ u.issue.commands = s.issue.commands
    ∧ u.issue.results = s.issue.results
    ∧ u.incidents = { s.incidents with
        flags := s.incidents.flags ||| (if cause = .duplicate then 0xA000#16 else 0x8000#16) }
    ∧ u.peers = s.peers ∧ u.notices = s.notices ∧ u.store = s.store ∧ u.inForce = s.inForce ∧ u.written = s.written
    ∧ u.pending = s.pending ∧ u.clock = s.clock
    ∧ u.port = s.port ∧ u.issue.staging = s.issue.staging ∧ u.issue.latch = s.issue.latch
    ∧ u.issue.waitingFor = (if s.issue.current = none then s.issue.waitingFor else WaitingFor.nothing)
    ∧ (s.Accounted →
      u.buffer = { s.buffer with pieces := s.buffer.pieces.filter (fun p =>
          !((s.tagAt p.tag).state.inFlight && decide (p.generation = (s.tagAt p.tag).generation))) }
      ∧ u.issue.contexts = s.issue.contexts.map (fun c => { c with
          outstanding := 0
          issuingFinished := true
          phase := if c.phase = .leave ∨ failed c = [] then c.phase else .outstanding
          firstFailure := if c.phase = .leave then some (0, .halted)
            else (failed c).foldl (lowestFailure .halted) c.firstFailure })
      ∧ u.settle.issue.contexts = []
      ∧ u.settle.issue.results = s.issue.results ++ u.issue.contexts.map Context.result)

/-! ## The outcome of the station's own frames (chapters 1, 2 and 6) -/

/-- R4, R24, R37, R110: a resolved ACCEPT to a READ or ATOMIC request: the entry leaves, the tag becomes SENT, and its completion
timer runs from the resolution, which empties the receive holding. The operand time is log 4. -/
def Obligations.AcceptedRequestsAreSent : Prop :=
  ∀ (slot : Fin 16) (e : RequestEntry) (t : Tag) (time : Micros) (s : State), s.OwnFrame (.request slot) →
    s.sender.entryAt slot = some e → e.withdrawn = false → e.owner = .tag t →
    (s.tagAt t).kind ≠ some .write → s.issue.copying ≠ some slot →
    let now := max s.clock time
    exec (.resolution .accept time) s = .next (State.settle { s with
      clock := now
      tags := s.tags.set t.val { s.tagAt t with
        state := .sent
        deadline := some (now + s.inForce.completionTimeout.toNat * 1000) } t.isLt
      sender := { s.sender with requests := s.sender.requests.filter (fun x => x.slot != slot) }
      span := { s.span with phase := .idle, offer := none, offerState := .none, received := none } })

/-- R14, R16, R24, R27, R110, R124, R144: the outcomes that end a request or a notice: a WRITE accepted ends OK, REFUSE ends
the segment REFUSED, SILENT ends it NO_STATION and then marks its target ABSENT with a cleanup; ACCEPT, REFUSE and SILENT to
a NOTICE end it OK. What the end of a segment, a cleanup and the end of an event do is stated above. -/
def Obligations.OutcomesEndRequests : Prop :=
  ∀ (slot : Fin 16) (e : RequestEntry) (time : Micros) (s : State), s.OwnFrame (.request slot) →
    s.sender.entryAt slot = some e → e.withdrawn = false →
    let u : State := { s with
      clock := max s.clock time
      span := { s.span with phase := .idle, offer := none, offerState := .none, received := none } }
    (∀ t, e.owner = .tag t →
      ((s.tagAt t).kind = some .write →
        exec (.resolution .accept time) s = .next (u.endSegment t .ok none).settle)
      ∧ exec (.resolution .refuse time) s = .next (u.endSegment t .refused none).settle
      ∧ (∀ p, e.frame.body.target = some p → p ≠ s.life.number →
        exec (.resolution .silent time) s = .next ((u.endSegment t .noStation none).markAbsent p).settle))
    ∧ (∀ n, e.owner = .context n → ∀ a, (a = .accept ∨ a = .refuse ∨ a = .silent) →
      exec (.resolution a time) s = .next (u.endNotice e.slot n .ok).settle)

/-- R25, R107, R111: when a request-queue entry that is not withdrawn draws BUSY it stays at its place and is HELD, its BUSY
count grows by 1 (saturating), its hold start is the first BUSY's resolution, its backoff runs 25 µs × min(count, 16) from
this resolution, its tag is HELD, and BUSY_RECEIVED grows by 1. The times are reckoned from the operand time, which is log 4. -/
def Obligations.BusyHoldsAnEntry : Prop :=
  ∀ (slot : Fin 16) (e : RequestEntry) (time : Micros) (s : State), s.OwnFrame (.request slot) →
    s.settled = true → s.Accounted → s.sender.entryAt slot = some e → e.withdrawn = false →
    let now := max s.clock time
    let busy := fun x : RequestEntry => { x with
      state := .held
      busyCount := min (x.busyCount + 1) 255
      holdStart := match x.holdStart with
        | some first => some first
        | none => some now
      backoffExpiry := some (now + 25 * min (min (x.busyCount + 1) 255) 16)
      backoffReached := false }
    let d := { s.sender with requests := s.sender.requests.map (fun x => if x.slot = slot then busy x else x) }
    exec (.resolution .busy time) s = .next { s with
      clock := now
      tags := match e.owner with
        | .tag t => s.tags.set t.val { s.tagAt t with state := .held } t.isLt
        | .context _ => s.tags
      incidents := s.incidents.counted 1
      sender := d
      span := { s.span with phase := .idle, received := none }.offering d.choice }

/-- R17, R26, R113: DAMAGED to a request-queue entry counts DAMAGE_SEEN; within the retry limit the entry stays READY with its
count grown, its hold start and BUSY count kept, and its tag QUEUED; beyond it the entry ends SPAN_FAULT. -/
def Obligations.DamagedRequestsAreSentAgain : Prop :=
  ∀ (slot : Fin 16) (e : RequestEntry) (time : Micros) (s : State), s.OwnFrame (.request slot) →
    s.sender.entryAt slot = some e → e.withdrawn = false →
    let now := max s.clock time
    let again := fun x : RequestEntry => { x with
      state := .ready
      retransmissions := x.retransmissions + 1
      backoffExpiry := none
      backoffReached := false }
    let d := { s.sender with requests := s.sender.requests.map (fun x => if x.slot = slot then again x else x) }
    let u : State := { s with
      clock := now
      incidents := s.incidents.counted 2
      span := { s.span with phase := .idle, offer := none, offerState := .none, received := none } }
    (s.settled = true → s.Accounted → e.retransmissions + 1 ≤ s.inForce.retryLimit.toNat →
      exec (.resolution .damaged time) s = .next { s with
        clock := now
        tags := match e.owner with
          | .tag t => s.tags.set t.val { s.tagAt t with state := .queued } t.isLt
          | .context _ => s.tags
        incidents := s.incidents.counted 2
        sender := d
        span := { s.span with phase := .idle, received := none }.offering d.choice })
    ∧ (s.inForce.retryLimit.toNat < e.retransmissions + 1 →
      (∀ t, e.owner = .tag t →
        exec (.resolution .damaged time) s = .next (u.endSegment t .spanFault none).settle)
      ∧ (∀ n, e.owner = .context n →
        exec (.resolution .damaged time) s = .next (u.endNotice e.slot n .spanFault).settle))

/-- R116: at the end of its attempt a withdrawn entry leaves the list, and its outcome is ignored; a resolved DAMAGED is still
counted as DAMAGE_SEEN. -/
def Obligations.WithdrawnEntriesIgnoreTheirOutcome : Prop :=
  ∀ (slot : Fin 16) (e : RequestEntry) (a : Answer) (time : Micros) (s : State), s.OwnFrame (.request slot) →
    s.sender.entryAt slot = some e → e.withdrawn = true →
    exec (.resolution a time) s = .next (State.settle { s with
      clock := max s.clock time
      incidents := if a = .damaged then s.incidents.counted 2 else s.incidents
      sender := { s.sender with requests := s.sender.requests.filter (fun x => !x.withdrawn) }
      span := { s.span with phase := .idle, offer := none, offerState := .none, received := none } })

/-- R15, R105, R124: the outcome of the head completion: ACCEPT and REFUSE take it out, REFUSE counting COMPLETION_REFUSED;
SILENT takes it out and marks the requester ABSENT with a cleanup; DAMAGED keeps it at the head with its count grown, or
beyond the retry limit drops it and counts COMPLETION_DROPPED. R71, R72: at the event that frees its place, the service of a
head that waited for room begins, if there is room for it now. -/
def Obligations.CompletionOutcomes : Prop :=
  ∀ (e : ResponseEntry) (rest : List ResponseEntry) (time : Micros) (s : State), s.OwnFrame .response →
    s.sender.responses = e :: rest →
    let now := max s.clock time
    let after : List ResponseEntry → Incidents → State := fun q u => { s with
      clock := now
      incidents := u
      sender := { s.sender with responses := q }
      span := { s.span with phase := .idle, received := none }.offering { s.sender with responses := q }.choice }
    (s.settled = true → exec (.resolution .accept time) s = .next (after rest s.incidents).headServed)
    ∧ (s.settled = true → exec (.resolution .refuse time) s = .next (after rest (s.incidents.counted 5)).headServed)
    ∧ (s.settled = true → e.retransmissions + 1 ≤ s.inForce.retryLimit.toNat →
      exec (.resolution .damaged time) s =
        .next (after ({ e with retransmissions := e.retransmissions + 1 } :: rest) (s.incidents.counted 2)))
    ∧ (s.settled = true → s.inForce.retryLimit.toNat < e.retransmissions + 1 →
      exec (.resolution .damaged time) s = .next (after rest ((s.incidents.counted 2).counted 6)).headServed)
    ∧ (∀ p, e.frame.body.target = some p → p ≠ s.life.number →
      exec (.resolution .silent time) s = .next (State.markAbsent { s with
        clock := now
        sender := { s.sender with responses := rest }
        span := { s.span with phase := .idle, offer := none, offerState := .none, received := none } } p).settle)

/-- R16, R43, R103, R152, R169, R172: the own JOIN succeeds at a resolved ACCEPT, REFUSE or SILENT and the station is RUNNING;
so does the own LEAVE, which frees every STALE tag, ends the LEAVE command OK and leaves the station DETACHED; DAMAGED within
the retry limit keeps the frame with its count grown, and beyond it the station enters HALTED with the cause of the kind. -/
def Obligations.JoinAndLeaveOutcomes : Prop :=
  ∀ (c : ControlFrame) (time : Micros) (s : State), s.OwnFrame .control → s.sender.control = some c →
    let now := max s.clock time
    let d := { s.sender with control := none }
    let u : State := { s with
      clock := now
      incidents := s.incidents.counted 2
      span := { s.span with phase := .idle, offer := none, offerState := .none, received := none } }
    (∀ a, (a = .accept ∨ a = .refuse ∨ a = .silent) → c.kind = .join →
      exec (.resolution a time) s = .next (State.settle { s with
        clock := now
        life := { s.life with station := .running }
        sender := d
        span := { s.span with phase := .idle, offer := none, offerState := .none, received := none } }))
    ∧ (∀ a, (a = .accept ∨ a = .refuse ∨ a = .silent) → c.kind = .leave →
      exec (.resolution a time) s = .next (State.settle { s with
        clock := now
        life := { s.life with station := .detached }
        tags := s.tags.map (fun r => if r.state = .stale then TagRecord.freeOf (r.generation + 1) else r)
        issue := { s.issue with contexts := s.issue.contexts.map (fun x =>
          if x.phase = .leave then { x with issuingFinished := true, firstFailure := none } else x) }
        sender := d
        span := { s.span with phase := .idle, offer := none, offerState := .none, received := none } }))
    ∧ (s.settled = true → c.retransmissions + 1 ≤ s.inForce.retryLimit.toNat →
      exec (.resolution .damaged time) s = .next { s with
        clock := now
        incidents := s.incidents.counted 2
        sender := { s.sender with control := some { c with retransmissions := c.retransmissions + 1 } }
        span := { s.span with phase := .idle, offer := some .control, offerState := .offered, received := none } })
    ∧ (s.inForce.retryLimit.toNat < c.retransmissions + 1 →
      exec (.resolution .damaged time) s =
        .next (u.enterHalted (if c.kind = .join then .joinRetry else .leaveRetry)).settle)

/-- R17, R18, R105, R113, R116, R173: a transmit conflict counts DAMAGE_SEEN, gives the frame back as after a DAMAGED and
leaves the station a receiver of the frame that remains: within the retry limit the frame is offered again with its count
grown; beyond it a request or a notice ends SPAN_FAULT and a completion is dropped and counted, and the service of a head that
waited for its place begins (R71); a withdrawn entry leaves. A
give-up of JOIN or LEAVE waits for the resolution of that frame (log 16) and halts the station there, with the cause of the
own frame, or DUPLICATE where the frame is a JOIN with the own number. -/
def Obligations.TransmitConflicts : Prop :=
  (∀ s : State, s.life.rstN = false → s.span.offerState = .sending →
    let u : State := { s with
      incidents := s.incidents.counted 2
      span := { s.span with offer := none, offerState := .none } }
    (∀ slot e, s.span.offer = some (.request slot) → s.sender.entryAt slot = some e →
      (s.settled = true → s.Accounted → e.withdrawn = false → e.retransmissions + 1 ≤ s.inForce.retryLimit.toNat →
        let d := { s.sender with requests := s.sender.requests.map (fun x => if x.slot = slot then { x with
          state := .ready
          retransmissions := x.retransmissions + 1
          backoffExpiry := none
          backoffReached := false } else x) }
        exec .transmitConflict s = .next { s with
          tags := match e.owner with
            | .tag t => s.tags.set t.val { s.tagAt t with state := .queued } t.isLt
            | .context _ => s.tags
          incidents := s.incidents.counted 2
          sender := d
          span := s.span.offering d.choice })
      ∧ (e.withdrawn = false → s.inForce.retryLimit.toNat < e.retransmissions + 1 →
        (∀ t, e.owner = .tag t → exec .transmitConflict s = .next (u.endSegment t .spanFault none).settle)
        ∧ (∀ n, e.owner = .context n → exec .transmitConflict s = .next (u.endNotice e.slot n .spanFault).settle))
      ∧ (e.withdrawn = true → exec .transmitConflict s = .next (State.settle { u with
        sender := { s.sender with requests := s.sender.requests.filter (fun x => !x.withdrawn) } })))
    ∧ (∀ e rest, s.settled = true → s.span.offer = some .response → s.sender.responses = e :: rest →
      let after : List ResponseEntry → Incidents → State := fun q x => { s with
        incidents := x
        sender := { s.sender with responses := q }
        span := s.span.offering { s.sender with responses := q }.choice }
      (e.retransmissions + 1 ≤ s.inForce.retryLimit.toNat → exec .transmitConflict s =
        .next (after ({ e with retransmissions := e.retransmissions + 1 } :: rest) (s.incidents.counted 2)))
      ∧ (s.inForce.retryLimit.toNat < e.retransmissions + 1 →
        exec .transmitConflict s = .next (after rest ((s.incidents.counted 2).counted 6)).headServed))
    ∧ (∀ c, s.settled = true → s.span.offer = some .control → s.sender.control = some c →
      let cause := if c.kind = .join then HaltCause.joinRetry else .leaveRetry
      let within := c.retransmissions + 1 ≤ s.inForce.retryLimit.toNat
      exec .transmitConflict s = .next { s with
        life := { s.life with giveUp := if within then s.life.giveUp else some cause }
        incidents := s.incidents.counted 2
        sender := { s.sender with control := some { c with retransmissions := c.retransmissions + 1 } }
        span := { s.span with offer := some .control, offerState := .offered } }))
  ∧ (∀ (r : Received) (cause : HaltCause) (others : Answer) (time : Micros) (s : State), s.life.rstN = false →
    s.life.station.onSpan = true → s.span.phase = .answer → s.OffSpan → s.span.received = some r →
    s.life.giveUp = some cause →
    let u : State := { s with
      clock := max s.clock time
      span := { s.span with phase := .idle, received := none } }
    let damaged := others = .damaged ∨ r.drove = .damaged
    let own := fun b : FrameBody => r.frame = some { source := s.life.number, body := b }
    (damaged → (r.frame = none ∨ own .join ∨ own .leave) → exec (.resolution others time) s =
      .next (State.enterHalted { u with incidents := s.incidents.counted 2 } cause).settle)
    ∧ (¬ damaged → (r.frame = none ∨ own .leave) → exec (.resolution others time) s = .next (u.enterHalted cause).settle)
    ∧ (¬ damaged → own .join → exec (.resolution others time) s = .next (u.enterHalted .duplicate).settle))

/-! ## The resolution of a received frame (chapters 1, 2, 4, 7 and 8) -/

/-- R9, R10, R67, R71, R121, R132, R137: a request or a notice that this station answered ACCEPT and kept joins the tail of its
queue at a resolved ACCEPT, and its source is PRESENT, unless it is the own number, whose record stays; the service of a request
that joined an empty queue begins at once, if the response queue has room for it; nothing else changes. -/
def Obligations.RequestsAndNoticesCommit : Prop :=
  ∀ (f : Frame) (others : Answer) (time : Micros) (bits : List Bool) (s : State),
    s.Receiving { bits := bits, frame := some f, drove := .accept, take := true } → s.settled = true →
    (others = .silent ∨ others = .accept) →
    let u : State := { s with
      clock := max s.clock time
      span := { s.span with phase := .idle, received := none }
      peers := s.peersSeeing f.source }
    let joins := fun (tag : Tag) (g : Generation) (offset : Offset) (w : InboundWork) =>
      exec (.resolution others time) s = .next (State.headServed { u with inbound := { s.inbound with
        queue := s.inbound.queue ++ [{
          source := f.source
          tag := tag
          generation := g
          offset := offset.toNat
          work := w
          begun := false
          orphaned := false }] } })
    (∀ t tag g o n, f.body = .rdReq t tag g o n → joins tag g o (.read n.toNat))
    ∧ (∀ t tag g o n payload, f.body = .wrReq t tag g o n payload → joins tag g o (.write payload))
    ∧ (∀ t tag g o op a b, f.body = .atReq t tag g o op a b → joins tag g o (.atomic op a b))
    ∧ (∀ data, f.body = .notice data → exec (.resolution others time) s = .next { u with
        notices := { s.notices with queue := s.notices.queue ++ [{ source := f.source, data := data }] } })

/-- R30, R31, R32, R33, R34, R47, R121, R177: a completion of a peer that this station answered ACCEPT is matched again at a
resolved ACCEPT: a matched RD_DATA moves its blocks from reserved to occupied as a piece, a matched AT_DATA ends its segment OK
with the old value, a matched FAIL ends it STORE_ERROR; a completion to a STALE tag is counted and its last frees the tag; one
that no longer matches is counted as unexpected. Its source is PRESENT, unless it is the own number, whose record stays
(R132). -/
def Obligations.CompletionsCommit : Prop :=
  ∀ (f : Frame) (tag : Tag) (g : Generation) (kind : CompletionKind) (others : Answer) (time : Micros)
    (bits : List Bool) (s : State),
    s.Receiving { bits := bits, frame := some f, drove := .accept, take := true } → (others = .silent ∨ others = .accept) →
    FrameBody.completion f.body = some (tag, g, kind) →
    let r := s.tagAt tag
    let named := r.target = some f.source ∧ r.generation = g
    let u : State := { s with
      clock := max s.clock time
      span := { s.span with phase := .idle, received := none }
      peers := s.peersSeeing f.source }
    (∀ t second last data, f.body = .rdData t tag g second last data → named → r.state ≠ .stale → r.Expects f.body →
      exec (.resolution others time) s = .next (State.settle { u with
        tags := s.tags.set tag.val { r with
          state := .partialRead
          received := r.received + data.length
          reserved := r.reserved - (data.length + 31) / 32 } tag.isLt
        buffer := { s.buffer with pieces := s.buffer.pieces ++ [{
          tag := tag
          generation := g
          destination := r.localOffset.getD 0 + pieceOffset second
          data := data }] } }))
    ∧ (∀ t old, f.body = .atData t tag g old → named → r.state ≠ .stale → r.Expects f.body →
      exec (.resolution others time) s = .next (u.endSegment tag .ok (some old)).settle)
    ∧ (∀ t, f.body = .fail t tag g → named → r.state ≠ .stale → r.Expects f.body →
      exec (.resolution others time) s = .next (u.endSegment tag .storeError none).settle)
    ∧ (named → r.state = .stale →
      exec (.resolution others time) s = .next (State.settle { u with
        incidents := s.incidents.counted 3
        tags := match f.body with
          | .rdData _ _ _ _ false _ => s.tags
          | _ => s.tags.set tag.val (TagRecord.freeOf (r.generation + 1)) tag.isLt }))
    ∧ (¬ (named ∧ (r.state = .stale ∨ r.Expects f.body)) →
      exec (.resolution others time) s = .next (State.settle { u with
        incidents := s.incidents.reportUnexpected { source := f.source, tag := tag, generation := g, kind := kind } }))

/-- R5, R9, R10, R139: at a resolved DAMAGED nothing is taken and no source is observed: DAMAGE_SEEN is counted, and
NOTICE_BUSY_GIVEN if this station drove BUSY to a NOTICE. -/
def Obligations.DamagedFramesAreNotTaken : Prop :=
  ∀ (r : Received) (others : Answer) (time : Micros) (s : State), s.Receiving r → s.settled = true →
    (others = .damaged ∨ r.drove = .damaged) →
    let after := fun u : Incidents => exec (.resolution others time) s = .next { s with
      clock := max s.clock time
      span := { s.span with phase := .idle, received := none }
      incidents := u }
    ((∀ source data, r.frame = some { source := source, body := .notice data } → r.drove ≠ .busy) →
      after (s.incidents.counted 2))
    ∧ (∀ source data, r.frame = some { source := source, body := .notice data } → r.drove = .busy →
      after ((s.incidents.counted 2).counted 11))

/-- R29, R68, R121, R139, R177: a resolved answer that is this station's own BUSY or REFUSE is counted: INBOUND_BUSY_GIVEN or
INBOUND_REFUSED_GIVEN for a request, NOTICE_BUSY_GIVEN for a notice, UNEXPECTED_COMPLETION with its record for a completion.
The source is PRESENT, unless it is the own number, whose record stays (R132); and nothing is taken. -/
def Obligations.GivenAnswersAreCounted : Prop :=
  ∀ (f : Frame) (a others : Answer) (time : Micros) (bits : List Bool) (s : State),
    s.Receiving { bits := bits, frame := some f, drove := a, take := false } → s.settled = true →
    (a = .busy ∨ a = .refuse) → (others = .silent ∨ others = .accept ∨ others = a) →
    let after := fun u : Incidents => exec (.resolution others time) s = .next { s with
      clock := max s.clock time
      span := { s.span with phase := .idle, received := none }
      incidents := u
      peers := s.peersSeeing f.source }
    (f.body.frameClass = .request → f.body.target ≠ none → a = .busy → after (s.incidents.counted 9))
    ∧ (f.body.frameClass = .request → f.body.target ≠ none → a = .refuse → after (s.incidents.counted 10))
    ∧ (∀ data, f.body = .notice data → a = .busy → after (s.incidents.counted 11))
    ∧ (∀ tag g kind, FrameBody.completion f.body = some (tag, g, kind) → a = .refuse →
      after (s.incidents.reportUnexpected { source := f.source, tag := tag, generation := g, kind := kind }))

/-- R1, R2, R4, R6, R9, R10, R68, R121, R132: resolutions at which nothing is committed and nothing is counted. A frame other
than JOIN and LEAVE that was answered with nothing, or with ACCEPT on an empty take, or with a take that does not resolve
ACCEPT, or with a REFUSE that resolves BUSY: its take is discarded and its source is PRESENT, unless it is the own number,
whose record stays. An unrecognisable frame that does not resolve DAMAGED: no source is observed. A resolution observed off
the span, or of a frame in progress when the station came out of a reset (log 7), only turns the span idle and empties the
receive holding. -/
def Obligations.ResolutionsThatCommitNothing : Prop :=
  (∀ (f : Frame) (a others : Answer) (take : Bool) (time : Micros) (bits : List Bool) (s : State),
    s.Receiving { bits := bits, frame := some f, drove := a, take := take } → s.settled = true →
    f.body ≠ .join → f.body ≠ .leave →
    (((a = .silent ∨ a = .accept) ∧ others ≠ .damaged) ∨ (a = .refuse ∧ others = .busy)) →
    (take = true → a.combine others ≠ .accept) →
    exec (.resolution others time) s = .next { s with
      clock := max s.clock time
      span := { s.span with phase := .idle, received := none }
      peers := s.peersSeeing f.source })
  ∧ (∀ (r : Received) (others : Answer) (time : Micros) (s : State), s.Receiving r → s.settled = true → r.frame = none →
    r.drove ≠ .damaged → others ≠ .damaged →
    exec (.resolution others time) s = .next { s with
      clock := max s.clock time
      span := { s.span with phase := .idle, received := none } })
  ∧ (∀ (others : Answer) (time : Micros) (s : State), s.life.rstN = false →
    (s.span.phase = .unsynced →
      exec (.resolution others time) s = .next { s with
        clock := max s.clock time
        span := { s.span with phase := .idle, received := none } })
    ∧ (s.span.phase = .answer → s.life.station.onSpan = false →
      exec (.resolution others time) s = .next { s with
        clock := max s.clock time
        span := { s.span with phase := .idle, received := none } }))

/-- R120, R121, R122, R123, R131, R132, R173: the observation of a JOIN makes its source PRESENT and grows its join count up to
255, with a cleanup if it was PRESENT; that of a LEAVE marks its source ABSENT, with a cleanup; a JOIN bearing the own number
halts the station with cause DUPLICATE; a LEAVE bearing it changes nothing. -/
def Obligations.JoinsAndLeavesOfPeersAreObserved : Prop :=
  ∀ (f : Frame) (drove others : Answer) (time : Micros) (bits : List Bool) (s : State),
    s.Receiving { bits := bits, frame := some f, drove := drove, take := false } → s.settled = true →
    (drove = .silent ∨ drove = .accept) → others ≠ .damaged →
    let p := f.source
    let u : State := { s with clock := max s.clock time, span := { s.span with phase := .idle, received := none } }
    let joined : State := { u with peers := s.peers.set p.val {
      state := .present
      joinCount := min (s.peers[p.val].joinCount + 1) 255 } p.isLt }
    (f.body = .join → p ≠ s.life.number → s.peers[p.val].state ≠ .present →
      exec (.resolution others time) s = .next joined)
    ∧ (f.body = .join → p ≠ s.life.number → s.peers[p.val].state = .present →
      exec (.resolution others time) s = .next (joined.cleanup p).settle)
    ∧ (f.body = .leave → p ≠ s.life.number → exec (.resolution others time) s = .next (u.markAbsent p).settle)
    ∧ (f.body = .join → p = s.life.number →
      exec (.resolution others time) s = .next (u.enterHalted .duplicate).settle)
    ∧ (f.body = .leave → p = s.life.number → exec (.resolution others time) s = .next u)

/-! ## Timers (chapters 2 and 6) -/

/-- R37, R38: the completion timer's expiry ends the segment TIMEOUT, and the stale timer's frees the tag with the next
generation and reports nothing; each falls at its deadline, and a timer that does not run does not expire. R112: at a held
entry's backoff expiry, an entry held for more than the completion timeout ends TARGET_BUSY, and any other stays HELD and may
be offered again. That an expiry falls at its deadline is log 4. -/
def Obligations.TimersExpire : Prop :=
  (∀ (t : Tag) (d : Micros) (s : State), s.life.rstN = false →
    ((s.tagAt t).state = .sent ∨ (s.tagAt t).state = .partialRead) → (s.tagAt t).deadline = some d →
    exec (.completionTimerExpiry t) s = .next (State.endSegment { s with clock := max s.clock d } t .timeout none).settle)
  ∧ (∀ (t : Tag) (d : Micros) (s : State), s.life.rstN = false →
    (s.tagAt t).state = .stale → (s.tagAt t).deadline = some d →
    exec (.staleTimerExpiry t) s = .next (State.settle { s with
      clock := max s.clock d
      tags := s.tags.set t.val (TagRecord.freeOf ((s.tagAt t).generation + 1)) t.isLt }))
  ∧ (∀ (t : Tag) (s : State), (s.tagAt t).state ≠ .sent → (s.tagAt t).state ≠ .partialRead →
    exec (.completionTimerExpiry t) s = .next s)
  ∧ (∀ (t : Tag) (s : State), (s.tagAt t).state ≠ .stale → exec (.staleTimerExpiry t) s = .next s)
  ∧ (∀ (place : Fin 16) (e : RequestEntry) (start expiry : Micros) (s : State), s.life.rstN = false →
      s.sender.requests[place.val]? = some e → e.state = .held → e.withdrawn = false → e.backoffReached = false →
      e.holdStart = some start → e.backoffExpiry = some expiry →
      let now := max s.clock expiry
      let d := { s.sender with requests := s.sender.requests.map (fun x =>
        if x.slot = e.slot then { x with backoffReached := true } else x) }
      (expiry ≤ start + s.inForce.completionTimeout.toNat * 1000 → s.settled = true →
        exec (.backoffExpiry place) s = .next { s with
          clock := now
          sender := d
          span := if s.span.offerState.isFixed then s.span else s.span.offering d.choice })
      ∧ (start + s.inForce.completionTimeout.toNat * 1000 < expiry →
        (∀ t, e.owner = .tag t →
          exec (.backoffExpiry place) s = .next (State.endSegment { s with clock := now } t .targetBusy none).settle)
        ∧ (∀ n, e.owner = .context n →
          exec (.backoffExpiry place) s = .next (State.endNotice { s with clock := now } e.slot n .targetBusy).settle)))

/-! ## Local commands and their segments (chapter 9) -/

/-- R148, R150, R153, R157: the take in RUNNING of a command that passes the check: the head leaves the queue and the lowest FREE
context enters use for it. A READ or a WRITE becomes current; an ATOMIC or a NOTICE becomes current and asks for its one segment
in the same step; a LEAVE does not become current and moves the station to LEAVING. Which row issues a segment is log 21; that
the context of a LEAVE holds a segments total of 1 is log 22. -/
def Obligations.CommandsAreTaken : Prop :=
  ∀ (c : CommandRecord) (rest : List CommandRecord) (n : ContextNumber) (s : State), s.Taking c rest → s.settled = true →
    s.life.station = .running → c.Passes s.life.number → s.issue.LowestFree n →
    let context := fun (phase : ContextPhase) (total : Nat) => ({
      number := n
      phase := phase
      command := c
      total := total
      next := 0
      outstanding := 0
      issuingFinished := false
      firstFailure := none
      atomicValue := none } : Context)
    let opened := fun x : Context => { s.issue with commands := rest, contexts := s.issue.contexts ++ [x] }
    let current := fun total : Nat => { s with issue := { opened (context .issuing total) with
      current := some n
      waitingFor := WaitingFor.nothing } }
    (c.kind = 0 → exec .readCommand s = .next (current ((c.length.toNat + 255) / 256)))
    ∧ (c.kind = 1 → exec .writeCommand s = .next (current ((c.length.toNat + 255) / 256)))
    ∧ (c.kind = 2 → exec .atomicCommand s = .next ((current 1).issueSegment (context .issuing 1)).settle)
    ∧ (c.kind = 3 → exec .noticeCommand s = .next ((current 1).issueSegment (context .issuing 1)).settle)
    ∧ (c.kind = 5 → exec .leaveCommand s = .next { s with
      life := { s.life with station := .leaving }
      issue := opened (context .leave 1) })

/-- R151: a FENCE at the head is taken when no context is in use: in RUNNING it ends OK, in LEAVING, DETACHED and HALTED it ends
NOT_RUNNING; its result, with bytes done 0 and value 0, joins the result queue after every earlier one, its context is FREE
again, and nothing holds back the commands behind it. While a context is in use it is not taken. -/
def Obligations.FencesEndOk : Prop :=
  (∀ (c : CommandRecord) (rest : List CommandRecord) (s : State), s.Taking c rest → s.settled = true → c.kind = 4 →
    let ended := fun st : Status => exec .fenceCommand s = .next { s with issue := { s.issue with
      commands := rest
      contexts := []
      current := none
      results := s.issue.results ++ [{
        id := c.id
        kind := c.kind
        status := st
        bytesDone := 0
        value := 0 }] } }
    (s.life.station = .running → ended .ok)
    ∧ ((s.life.station = .leaving ∨ s.life.station = .detached ∨ s.life.station = .halted) → ended .notRunning))
  ∧ (∀ (c : CommandRecord) (s : State), s.issue.commands.head? = some c → c.kind = 4 → s.issue.contexts ≠ [] →
    exec .fenceCommand s = .next s)

/-- R149, R150, R159: a command that fails the check in RUNNING ends BAD_COMMAND at the take, and any command taken in LEAVING,
DETACHED or HALTED ends NOT_RUNNING, with bytes done 0 and value 0 and its id and kind code echoed; nothing else changes. -/
def Obligations.TakesThatEndAtOnce : Prop :=
  ∀ (c : CommandRecord) (rest : List CommandRecord) (s : State), s.Taking c rest → s.settled = true →
    let ended := fun st : Status => exec c.takeRow s = .next { s with issue := { s.issue with
      commands := rest
      results := s.issue.results ++ [{
        id := c.id
        kind := c.kind
        status := st
        bytesDone := 0
        value := 0 }] } }
    (s.life.station = .running → ¬ c.Passes s.life.number → ended .badCommand)
    ∧ ((s.life.station = .leaving ∨ s.life.station = .detached ∨ s.life.station = .halted) → ended .notRunning)

/-- R23, R46, R107, R143, R153, R154: a segment whose resources are all available is granted them at one event: the lowest FREE
tag is QUEUED with the segment's fields and its blocks, the entry joins the tail of the request queue, READY or, for a WRITE,
FILLING, the context counts it, and after the last segment there is no current command. The storage place is log 18. -/
def Obligations.SegmentsAreIssued : Prop :=
  (∀ (n : ContextNumber) (c : Context) (s : State), s.life.rstN = false → s.issue.current = some n →
    s.issue.context n = some c → exec .segmentIssue s = .next (s.issueSegment c).settle)
  ∧ (∀ (c : Context) (slot : Fin 16) (s : State), s.sender.requests.length < 16 → s.sender.LowestFreeSlot slot →
    let p := c.command
    let after := fun (tags : Vector TagRecord 32) (body : FrameBody) (owner : Owner) (x : EntryState) =>
      s.issueSegment c = { s with
        tags := tags
        sender := { s.sender with requests := s.sender.requests ++ [{
          slot := slot
          frame := { source := s.life.number, body := body }
          owner := owner
          state := x
          retransmissions := 0
          busyCount := 0
          holdStart := none
          backoffExpiry := none
          backoffReached := false
          withdrawn := false }] }
        issue := { s.issue with
          contexts := s.issue.contexts.map (fun x => if x.number = c.number then { x with
            next := x.next + 1
            outstanding := x.outstanding + 1
            issuingFinished := x.issuingFinished || decide (x.next + 1 = x.total)
            phase := if x.next + 1 = x.total then .outstanding else x.phase } else x)
          current := if c.next + 1 = c.total ∧ s.issue.current = some c.number then none else s.issue.current
          waitingFor := { tag := false, blocks := false, entry := false } } }
    (p.kind = 3 → after s.tags (.notice (bytesOfWord p.noticeLow ++ bytesOfWord p.noticeHigh)) (.context c.number) .ready)
    ∧ (∀ t : Tag, s.LowestFreeTag t → p.kind.toNat < 3 → (s.peerAt p.target.toFin).state ≠ .absent →
      let g := (s.tagAt t).generation
      let remote := BitVec.ofNat 16 (p.remoteOffset.toNat + 256 * c.next)
      let here := p.localOffset.toNat + 256 * c.next
      let n := min 256 (p.length.toNat - 256 * c.next)
      let room := fun blocks : Nat => s.reservedBlocks + s.buffer.occupied + blocks ≤ s.inForce.commitmentLimit.toNat
      let tagged := fun (kind : SegmentKind) (length : Nat) (localOffset : Option Nat) (blocks : Nat) =>
        s.tags.set t.val {
          state := .queued
          generation := g
          kind := some kind
          target := some p.target.toFin
          length := length
          localOffset := localOffset
          reserved := blocks
          received := 0
          landed := 0
          context := some c.number
          segment := some c.next
          deadline := none } t.isLt
      (p.kind = 0 → room ((n + 31) / 32) → after (tagged .read n (some here) ((n + 31) / 32))
        (.rdReq p.target.toFin t g remote (BitVec.ofNat 16 n)) (.tag t) .ready)
      ∧ (p.kind = 1 → after (tagged .write n none 0)
        (.wrReq p.target.toFin t g remote (BitVec.ofNat 16 n) []) (.tag t) (.filling here n))
      ∧ (∀ op : AtomicOp, p.operation.toNat = op.code → p.kind = 2 → room 1 → after (tagged .atomic 4 none 1)
        (.atReq p.target.toFin t g remote op p.a (if op = .compareSwap then p.b else 0)) (.tag t) .ready)))

/-- R120, R124, R129, R154, R155, R157, R158: a segment whose target is ABSENT ends NO_STATION without a claim and finishes its
command's issuing; a segment refused a resource is granted none, waiting for records what was missing, and SEG_DELAYED grows
once for the episode. A peer marked ABSENT keeps its join count; a segment that waits to be sent to it ends NO_STATION without
a claim; then the cleanup follows. -/
def Obligations.SegmentsWaitOrEnd : Prop :=
  (∀ (c : Context) (s : State), c.command.kind.toNat < 3 → (s.peerAt c.command.target.toFin).state = .absent →
    (∀ t, (s.tagAt t).isLaterOf c.number c.next = false) →
    s.issueSegment c = { s with issue := { s.issue with
      contexts := s.issue.contexts.map (fun x => if x.number = c.number then { x with
        firstFailure := some (match x.firstFailure with
          | some (j, old) => if c.next < j then (c.next, .noStation) else (j, old)
          | none => (c.next, .noStation))
        issuingFinished := true
        phase := .outstanding } else x)
      current := if s.issue.current = some c.number then none else s.issue.current
      waitingFor := if s.issue.current = some c.number then { tag := false, blocks := false, entry := false }
        else s.issue.waitingFor } })
  ∧ (∀ (c : Context) (w : WaitingFor) (s : State),
    let p := c.command
    let needed := if p.kind = 0 then (min 256 (p.length.toNat - 256 * c.next) + 31) / 32 else if p.kind = 2 then 1 else 0
    (p.kind.toNat < 3 → (s.peerAt p.target.toFin).state ≠ .absent) →
    (w.tag = true ↔ p.kind.toNat < 3 ∧ ∀ t, (s.tagAt t).state ≠ .free) →
    (w.blocks = true ↔
      0 < needed ∧ s.inForce.commitmentLimit.toNat < s.reservedBlocks + s.buffer.occupied + needed) →
    (w.entry = true ↔ 16 ≤ s.sender.requests.length) →
    (w.tag = true ∨ w.blocks = true ∨ w.entry = true) →
    s.issueSegment c = { s with
      issue := { s.issue with waitingFor := w }
      incidents := if s.issue.waitingFor.tag = true ∨ s.issue.waitingFor.blocks = true ∨ s.issue.waitingFor.entry = true
        then s.incidents else s.incidents.counted 0 })
  ∧ (∀ (s : State) (p : Station),
    let marked : State := { s with peers := s.peers.set p.val { s.peers[p.val] with state := .absent } p.isLt }
    let waiting := s.issue.waitingFor.tag = true ∨ s.issue.waitingFor.blocks = true ∨ s.issue.waitingFor.entry = true
    (∀ n c, s.issue.current = some n → s.issue.context n = some c → waiting → c.command.kind.toNat < 3 →
      c.command.target.toNat = p.val → s.markAbsent p = (marked.failSegment n c.next .noStation).cleanup p)
    ∧ (∀ n c, s.issue.current = some n → s.issue.context n = some c →
      (¬ waiting ∨ 3 ≤ c.command.kind.toNat ∨ c.command.target.toNat ≠ p.val) → s.markAbsent p = marked.cleanup p)
    ∧ (s.issue.current = none → s.markAbsent p = marked.cleanup p))

/-! ## The copy, the service of peers and the landing (chapters 3 to 5) -/

/-- R92, R97, R156: the copy of the first FILLING entry raises a READ up to the next block boundary; a clean transfer adds its
bytes to the payload and the next follows, or the entry is READY and no copy is under way; a parity error ends the segment
STORE_ERROR; a discarded result reaches nothing, and the copy of a withdrawn entry has stopped (R116). -/
def Obligations.CopiesRun : Prop :=
  (∀ (e : RequestEntry) (older newer : List RequestEntry) (source length : Nat) (s : State), s.life.rstN = false →
    s.issue.copying = none → s.arbiter.Unused .issue → s.sender.requests = older ++ e :: newer →
    (∀ x ∈ older, ∀ a b, x.state ≠ .filling a b) → e.state = .filling source length →
    let copied := (FrameBody.payload e.frame.body).length
    exec .copyBegin s = .next { s with
      issue := { s.issue with copying := some e.slot }
      arbiter := { s.arbiter with
        raisedIssue := some (.read (source + copied) (blockPart (source + copied) (length - copied))) } })
  ∧ (∀ (g : Granted) (e : RequestEntry) (source length : Nat) (target : Station) (tag : Tag) (gen : Generation)
      (remote : Offset) (field : BitVec 16) (payload : List Byte) (s : State),
    s.life.rstN = false → s.arbiter.granted = some g → g.claimant = .issue → g.discarded = false →
    s.issue.copying = some e.slot → s.sender.entryAt e.slot = some e → e.withdrawn = false → e.state = .filling source length →
    e.frame.body = .wrReq target tag gen remote field payload →
    let copied := payload ++ g.data
    let filled := fun x : EntryState => { e with
      frame := { e.frame with body := .wrReq target tag gen remote field copied }
      state := x }
    let replaced := fun x : EntryState => { s.sender with
      requests := s.sender.requests.map (fun y => if y.slot = e.slot then filled x else y) }
    (∀ t, g.parityError = true → e.owner = .tag t → exec .copyTransferComplete s = .next
      (State.endSegment { s with arbiter := { s.arbiter with granted := none } } t .storeError none).settle)
    ∧ (g.parityError = false → copied.length < length → exec .copyTransferComplete s = .next (State.settle { s with
      sender := replaced (.filling source length)
      arbiter := { s.arbiter with
        granted := none
        raisedIssue := some (.read (source + copied.length)
          (blockPart (source + copied.length) (length - copied.length))) } }))
    ∧ (g.parityError = false → length ≤ copied.length → exec .copyTransferComplete s = .next (State.settle { s with
      sender := replaced .ready
      issue := { s.issue with copying := none }
      arbiter := { s.arbiter with granted := none } })))
  ∧ (∀ (g : Granted) (s : State), s.life.rstN = false → s.arbiter.granted = some g → g.claimant = .issue →
    g.discarded = true →
    exec .copyTransferComplete s = .next { s with arbiter := { s.arbiter with granted := none } })

/-- R71, R72, R73, R74, R76: the service of the head begins when the response queue has a free entry for each completion it can
need, a WRITE's without condition, and raises its first transfer; an ATOMIC raises its one. Every event ends so, and the row
SERVICE_BEGIN is that move by itself (log 3). The service of a WRITE raises a WRITE for each stretch up to the next block
boundary and ends with the last, at which the head leaves the queue, and the service of the next begins, if it has room. -/
def Obligations.ServicesBeginAndWritesAreServed : Prop :=
  (∀ (e : InboundEntry) (rest : List InboundEntry) (s : State), s.inbound.queue = e :: rest → e.begun = false →
    let begins := fun tr : Transfer => let t : State := { s with
        inbound := { queue := { e with begun := true } :: rest, service := some { position := 0, piece := [] } }
        arbiter := { s.arbiter with raisedService := some tr } }
      s.headServed = t ∧ (s.life.rstN = false → exec .serviceBegin s = .next t)
    (∀ n, e.work = .read n → s.sender.responses.length + (if n ≤ 128 then 1 else 2) ≤ 16 →
      begins (.read e.offset (blockPart e.offset (min n 128))))
    ∧ (∀ payload, e.work = .write payload → begins (blockWrite e.offset 0 payload))
    ∧ (∀ op a b, e.work = .atomic op a b → s.sender.responses.length < 16 → begins (.atomic e.offset op a b)))
  ∧ (∀ s : State, s.life.rstN = false →
    (s.inbound.queue = [] ∨ (∃ e rest, s.inbound.queue = e :: rest ∧ (e.begun = true
      ∨ (∃ n, e.work = .read n ∧ 16 < s.sender.responses.length + (if n ≤ 128 then 1 else 2))
      ∨ (∃ op a b, e.work = .atomic op a b ∧ 16 ≤ s.sender.responses.length)))) →
    s.headServed = s ∧ exec .serviceBegin s = .next s)
  ∧ (∀ (g : Granted) (cells : List Host.Cell) (e : InboundEntry) (rest : List InboundEntry) (payload : List Byte)
      (v : Service) (s : State),
    s.settled = true → s.life.rstN = false → s.arbiter.granted = some g → g.claimant = .service → g.discarded = false →
    g.transfer = .write cells → s.inbound.queue = e :: rest → e.work = .write payload → s.inbound.service = some v →
    let position := v.position + cells.length
    (position < payload.length → exec .serviceWriteTransferComplete s = .next { s with
      inbound := { s.inbound with service := some { position := position, piece := [] } }
      arbiter := { s.arbiter with
        granted := none
        raisedService := some (blockWrite e.offset position payload) } })
    ∧ (payload.length ≤ position → exec .serviceWriteTransferComplete s = .next (State.headServed { s with
      inbound := { queue := rest, service := none }
      arbiter := { s.arbiter with granted := none } })))
  ∧ (∀ (g : Granted) (s : State), s.life.rstN = false → s.arbiter.granted = some g → g.claimant = .service →
    g.discarded = true →
    let dropped : Next := .next { s with arbiter := { s.arbiter with granted := none } }
    (∀ cells, g.transfer = .write cells → exec .serviceWriteTransferComplete s = dropped)
    ∧ (∀ o n, g.transfer = .read o n → exec .serviceReadTransferComplete s = dropped)
    ∧ (∀ o op a b, g.transfer = .atomic o op a b → exec .atomicTransferComplete s = dropped))

/-- R13, R74, R75, R76, R77, R78, R79: the service of a READ fills a piece of up to 128 bytes by READs up to the next block
boundary; a full piece joins the response queue as an RD_DATA, the last with its last flag, at which the service ends; a
parity error ends the service with one FAIL. The service of an ATOMIC ends with an AT_DATA of the old value, or with a FAIL.
The completions of an orphaned service are discarded. -/
def Obligations.ReadsAndAtomicsAreServed : Prop :=
  ∀ (g : Granted) (e : InboundEntry) (rest : List InboundEntry) (v : Service) (s : State),
    s.life.rstN = false → s.arbiter.granted = some g → g.claimant = .service → g.discarded = false →
    s.inbound.queue = e :: rest →
    s.inbound.service = some v →
    let idle := { s.arbiter with granted := none }
    let joined := fun body : FrameBody => { s.sender with responses := s.sender.responses ++
      (if e.orphaned then [] else [{ frame := { source := s.life.number, body := body }, retransmissions := 0 }]) }
    let ended := fun body : FrameBody => (Host.Outcome.next (State.settle { s with
      inbound := { queue := rest, service := none }
      sender := joined body
      arbiter := idle }) : Next)
    (∀ n o count, e.work = .read n → g.transfer = .read o count →
      let position := v.position + g.data.length
      let piece := v.piece ++ g.data
      let next := some (Transfer.read (e.offset + position)
        (blockPart (e.offset + position) (min (n - position) (128 - position % 128))))
      let data := fun last : Bool =>
        FrameBody.rdData e.source e.tag e.generation (decide (128 ≤ position - piece.length)) last piece
      (g.parityError = true → exec .serviceReadTransferComplete s = ended (.fail e.source e.tag e.generation))
      ∧ (g.parityError = false → position < n → position % 128 ≠ 0 →
        exec .serviceReadTransferComplete s = .next (State.settle { s with
          inbound := { s.inbound with service := some { position := position, piece := piece } }
          arbiter := { idle with raisedService := next } }))
      ∧ (g.parityError = false → position < n → position % 128 = 0 →
        exec .serviceReadTransferComplete s = .next (State.settle { s with
          inbound := { s.inbound with service := some { position := position, piece := [] } }
          sender := joined (data false)
          arbiter := { idle with raisedService := next } }))
      ∧ (g.parityError = false → n ≤ position → exec .serviceReadTransferComplete s = ended (data true)))
    ∧ (∀ o op a b, g.transfer = .atomic o op a b →
      (g.parityError = true → exec .atomicTransferComplete s = ended (.fail e.source e.tag e.generation))
      ∧ (g.parityError = false → exec .atomicTransferComplete s =
        ended (.atData e.source e.tag e.generation (wordOfBytes g.data))))

/-- R36, R52, R53, R54: an idle landing engine takes the head piece and raises a WRITE of its bytes up to the next block
boundary; a completed transfer is followed by the next until the piece is landed, at which its blocks are freed, its report
grows landed of a PARTIAL tag of its generation, whose segment ends OK when landed reaches length, and the engine takes the
head of the list if the list is not empty. That an idle engine takes a piece just committed at a command of its own is
log 3. -/
def Obligations.LandingsRun : Prop :=
  (∀ (p : Piece) (rest : List Piece) (s : State), s.life.rstN = false → s.buffer.pieces = p :: rest →
    s.buffer.landing = none → s.arbiter.Unused .landing →
    exec .landingBegin s = .next { s with
      buffer := { pieces := rest, landing := some { piece := p, position := 0 } }
      arbiter := { s.arbiter with raisedLanding := some (blockWrite p.destination 0 p.data) } })
  ∧ (∀ (g : Granted) (cells : List Host.Cell) (l : Landing) (s : State), s.life.rstN = false →
    s.arbiter.granted = some g → g.claimant = .landing → g.transfer = .write cells → s.buffer.landing = some l →
    let p := l.piece
    let r := s.tagAt p.tag
    let position := l.position + cells.length
    let mine := r.state = .partialRead ∧ r.generation = p.generation
    let idle := { s.arbiter with granted := none }
    let counted := s.tags.set p.tag.val { r with landed := r.landed + p.data.length } p.tag.isLt
    let next : State → Next := fun u => .next (State.settle (match s.buffer.pieces with
      | [] => u
      | q :: rest => { u with
        buffer := { pieces := rest, landing := some { piece := q, position := 0 } }
        arbiter := { u.arbiter with raisedLanding := some (blockWrite q.destination 0 q.data) } }))
    let landed : State := { s with buffer := { s.buffer with landing := none }, arbiter := idle }
    (position < p.data.length → exec .landingTransferComplete s = .next { s with
      buffer := { s.buffer with landing := some { piece := p, position := position } }
      arbiter := { idle with raisedLanding := some (blockWrite p.destination position p.data) } })
    ∧ (p.data.length ≤ position → ¬ mine → exec .landingTransferComplete s = next landed)
    ∧ (p.data.length ≤ position → mine → r.landed + p.data.length ≠ r.length →
      exec .landingTransferComplete s = next { landed with tags := counted })
    ∧ (p.data.length ≤ position → mine → r.landed + p.data.length = r.length →
      exec .landingTransferComplete s = next (State.endSegment { landed with tags := counted } p.tag .ok none)))

/-! ## What every step keeps, and the frames on the medium -/

/-- Every step keeps the canonical form of the store (log 12), the SELF record (R120), and the laws every event ends with
(R71, R101, R155, R159): the offer agrees with the choice, no result is due, a waiting engine waits for what is missing, and
the service of the head has begun, or the head is a READ or an ATOMIC for which the response queue lacks room. -/
def Obligations.EveryStepKeepsStoreSelfAndOffer : Prop :=
  ∀ s t : State, step s = .next t →
    (Memory.wf s.store = true → Memory.wf t.store = true)
    ∧ (s.selfKept = true → t.selfKept = true)
    ∧ (s.settled = true → t.settled = true)

/-- R69, R70, R107, R135, R145, R148: every step keeps the bounds: contexts in use plus results waiting at most 32; command
queue, request queue, inbound queue and notice queue at most 16; pool blocks given out at most 64, a kept take among them. -/
def Obligations.EveryStepKeepsTheBounds : Prop :=
  ∀ s t : State, step s = .next t →
    (s.placesKept = true → t.placesKept = true)
    ∧ (s.queuesKept = true → t.queuesKept = true)
    ∧ (s.inboundKept = true → t.inboundKept = true)

/-- R107, R116, R157, R158: every step keeps the accounts: each context in use counts the segments of its command that are in
progress, each once; an entry not withdrawn belongs to one tag that waits to go, or to a context in use; and a context whose
issuing has not finished is the current command's, or a LEAVE's. -/
def Obligations.EveryStepKeepsTheAccounts : Prop :=
  ∀ s t : State, step s = .next t → s.Accounted → t.Accounted

/-- R44, R45, R46, R47: every step keeps the reserved and occupied blocks within the commitment limit in force, and the limit
within 96, while the accounts are kept. -/
def Obligations.EveryStepKeepsTheCommitment : Prop :=
  ∀ s t : State, step s = .next t → s.Accounted → s.BlocksKept → t.BlocksKept

/-- R72, R104: every step keeps the response queue within its 16 entries, with room for the completions of the service in
progress. -/
def Obligations.EveryStepKeepsTheResponseQueue : Prop :=
  ∀ s t : State, step s = .next t → s.CompletionsFit → t.CompletionsFit

/-- R5, R6, R182, R183: a body is recognised exactly when it is the bits of a frame whose fields fit, with every field of that
frame; a body whose check holds and that is the bits of no such frame is not recognisable, with the target field it bears; a body
whose check does not hold, or that is shorter than the head plus 32 bits, is damaged. The fields fit if a NOTICE has 8 bytes, a
WR_REQ the payload bytes its length field names when that is 1 to 256 and otherwise 0 to 256 of them, an RD_DATA 1 to 128 data
bytes, with the last flag set if it is the second piece; every other field has its width from its type. The bits of a frame are
class, source, kind code, target (1Fh for ALL), the fields of its kind, and the check. -/
def Obligations.FramesAreReadAsSent : Prop :=
  (∀ f : Frame, FrameBody.fieldsFit f.body = true → judge f.bodyBits = .recognised f)
  ∧ (∀ (body : List Bool) (f : Frame), judge body = .recognised f → FrameBody.fieldsFit f.body = true ∧ body = f.bodyBits)
  ∧ (∀ body : List Bool,
    let content := body.take (body.length - 32)
    let checkHolds := 47 ≤ body.length ∧ body.drop (body.length - 32) = bitsOfNat 32 (crc content).toNat
    (checkHolds → (∀ f : Frame, FrameBody.fieldsFit f.body = true → body ≠ f.bodyBits) →
      judge body = .unrecognisable (natOfBits ((body.drop 10).take 5)))
    ∧ (¬ checkHolds → judge body = .damaged))
  ∧ (∀ b : FrameBody, FrameBody.fieldsFit b = true ↔ match b with
    | .notice data => data.length = 8
    | .wrReq _ _ _ _ length payload =>
      if 1 ≤ length.toNat ∧ length.toNat ≤ 256 then payload.length = length.toNat else payload.length ≤ 256
    | .rdData _ _ _ second last data => 1 ≤ data.length ∧ data.length ≤ 128 ∧ (second = true → last = true)
    | _ => True)
  ∧ (∀ f : Frame,
    let head := fun cls kind target => bitsOfNat 2 cls ++ bitsOfNat 4 f.source.val ++ bitsOfNat 4 kind ++ bitsOfNat 5 target
    let tagged := fun (tag : Tag) (g : Generation) => bitsOfNat 5 tag.val ++ bitsOfNat 2 g.val
    let content := match f.body with
      | .join => head 0 0 31
      | .leave => head 0 1 31
      | .rdData t tag g second last data => head 1 0 t.val ++ tagged tag g ++ [second, last] ++ bitsOfNat 8 data.length
        ++ bitsOfBytes data
      | .atData t tag g old => head 1 1 t.val ++ tagged tag g ++ bitsOfWord old
      | .fail t tag g => head 1 2 t.val ++ tagged tag g ++ bitsOfNat 8 1
      | .rdReq t tag g offset length => head 2 0 t.val ++ tagged tag g ++ bitsOfNat 16 offset.toNat ++ bitsOfNat 16 length.toNat
      | .wrReq t tag g offset length payload => head 2 1 t.val ++ tagged tag g ++ bitsOfNat 16 offset.toNat
        ++ bitsOfNat 16 length.toNat ++ bitsOfBytes payload
      | .atReq t tag g offset op a b => head 2 2 t.val ++ tagged tag g ++ bitsOfNat 16 offset.toNat
        ++ bitsOfNat 2 (match op with
          | .fetchAdd => 0
          | .swap => 1
          | .compareSwap => 2) ++ bitsOfWord a ++ bitsOfWord b
      | .notice data => head 2 3 31 ++ bitsOfBytes data
    f.bodyBits = content ++ bitsOfNat 32 (crc content).toNat)
end

