-- ==== Sys2Proof/WellFormed.lean ====
section
/-!
DEFINITION. WellFormed: what the operand types of a command do not already say.
-/
namespace Sys2Proof

/-- The operands are ones the command can carry: store offsets name a word, an unmapped access names no word,
a REGISTER_WRITE names a word without a row of its own, a priority word has a class of R3. -/
def Instr.WellFormed : Instr → Bool
  | .powerOnReset _ => true
  | .storeInitEnd => true
  | .rstNAssert => true
  | .rstNRelease _ => true
  | .softReset _ => true
  | .storeByteLoss _ _ => true
  | .start _ => true
  | .configWrite _ _ _ => true
  | .interruptEnablesWrite _ _ => true
  | .post _ => true
  | .resultPop => true
  | .noticePop => true
  | .clear _ _ => true
  | .unmappedAccess o _ => decide (o.toNat % 4 = 0) && isUnmapped o
  | .registerWrite w a => !w.hasOwnRow a
  | .localRead o => decide (o.toNat % 4 = 0)
  | .localWrite o _ _ => decide (o.toNat % 4 = 0)
  | .localTransferComplete => true
  | .storeGrant => true
  | .contention .begins => true
  | .contention (.settles none) => true
  | .contention (.settles (some p)) => decide (p.toNat < 48)
  | .transmitConflict => true
  | .answerField _ => true
  | .resolution _ _ => true
  | .completionTimerExpiry _ => true
  | .staleTimerExpiry _ => true
  | .backoffExpiry _ => true
  | .readCommand => true
  | .writeCommand => true
  | .atomicCommand => true
  | .noticeCommand => true
  | .fenceCommand => true
  | .leaveCommand => true
  | .segmentIssue => true
  | .copyBegin => true
  | .copyTransferComplete => true
  | .serviceBegin => true
  | .serviceWriteTransferComplete => true
  | .serviceReadTransferComplete => true
  | .atomicTransferComplete => true
  | .landingBegin => true
  | .landingTransferComplete => true
  | .drainDone => true
  | .commandOfNoKind => true

end Sys2Proof
end

