-- ==== Sys2Proof/Tests/Slice0.lean ====
section
/-!
SUPPORT. Slice0: tests of the model: ill-formed terms, frames written out bit by bit, one step each on small states, and for
every statement with hypotheses a witness that meets them.
-/
namespace Sys2Proof.Tests

open Sys2Proof Machine

-- The tests are checked one after the other, so that the many kernel evaluations do not wait on each other all at once.
set_option Elab.async false

/-! ## Small states -/

/-- Station 3 in a station state, the span idle. -/
def inState (x : StationState) : State :=
  { State.reset with
    life := LifeCycle.resetTo x 3
    peers := resetPeers 3
    span := { SpanInterface.reset with phase := .idle } }

/-- Station 3 in RUNNING. -/
def run : State := inState .running

/-- The state after a command, if there is one. -/
def next? (o : Next) : Option State :=
  match o with
  | .next t => some t
  | _ => none

/-- A region over the whole store that grants every right to every peer. -/
def openRegion : Region where
  enabled := true
  base := 0
  length := 65536
  grantsRead := true
  grantsWrite := true
  grantsAtomic := true
  peerSet := 0xFFFF

/-- A record with region 7 open. -/
def openConfig : ConfigRecord :=
  { ConfigRecord.reset with regions := ConfigRecord.reset.regions.set 7 openRegion }

/-- RUNNING with region 7 open. -/
def opened : State := { run with inForce := openConfig }

/-- A READ of 600 bytes of station 5. -/
def readRecord : CommandRecord :=
  { CommandRecord.reset with id := 9, target := 5, remoteOffset := 0x1000, length := 600, localOffset := 0x20 }

/-- The record with another kind. -/
def kindOf (k : BitVec 4) : CommandRecord :=
  { readRecord with kind := k, length := if k = 2 then 4 else 600 }

/-- A state whose command queue holds one record. -/
def posted (x : StationState) (c : CommandRecord) : State :=
  { inState x with issue := { IssueEngine.reset with commands := [c] } }

/-- A context for a command in the ISSUING phase. -/
def ctx (c : CommandRecord) (total : Nat) : Context where
  number := 0
  phase := .issuing
  command := c
  total := total
  next := 0
  outstanding := 0
  issuingFinished := false
  firstFailure := none
  atomicValue := none

/-- A state whose current command is the record. -/
def issuing (c : CommandRecord) (total : Nat) : State :=
  { run with issue := { IssueEngine.reset with contexts := [ctx c total], current := some 0 } }

/-- A request-queue entry in place 0 for tag 4 and station 5. -/
def entry (x : EntryState) : RequestEntry where
  slot := 0
  frame := { source := 3, body := .rdReq 5 4 0 0x1000 64 }
  owner := .tag 4
  state := x
  retransmissions := 0
  busyCount := 0
  holdStart := none
  backoffExpiry := none
  backoffReached := false
  withdrawn := false

/-- The record of tag 4: a READ of 64 bytes of station 5 in a tag state. -/
def readTag (x : TagState) : TagRecord where
  state := x
  generation := 0
  kind := some .read
  target := some 5
  length := 64
  localOffset := some 0x20
  reserved := 2
  received := 0
  landed := 0
  context := some 0
  segment := some 0
  deadline := some 8000

/-- A state whose tag 4 holds a record. -/
def tagged (r : TagRecord) : State :=
  { run with
    tags := resetTags.set 4 r
    issue := { IssueEngine.reset with
      contexts := [{ ctx readRecord 3 with next := 1, outstanding := 1 }]
      current := some 0 } }

/-- The answer field of the own frame of a place is under way. -/
def sending (p : Place) (d : Sender) : State :=
  { tagged (readTag .queued) with
    sender := d
    span := { phase := .answer, offer := some p, offerState := .answer, received := some (Received.begun 35) } }

/-- A sender with one request entry. -/
def oneEntry (e : RequestEntry) : Sender := { Sender.reset with requests := [e] }

/-- A received frame waits for its resolution. -/
def receiving (s : State) (r : Received) : State :=
  { s with span := { s.span with phase := .answer, received := some r } }

/-- A frame of station 5 that was answered. -/
def answered (body : FrameBody) (drove : Answer) (take : Bool) : Received :=
  { bits := [], frame := some { source := 5, body := body }, drove := drove, take := take }

/-- A granted transfer of a claimant. -/
def grantOf (c : Claimant) (tr : Transfer) (data : List Byte) : Granted where
  claimant := c
  transfer := tr
  data := data
  parityError := false
  discarded := false

/-- The store is busy with a transfer. -/
def busyWith (s : State) (g : Granted) : State :=
  { s with arbiter := { s.arbiter with granted := some g } }

/-- An inbound entry of station 5. -/
def inboundOf (w : InboundWork) (begun : Bool) : InboundEntry where
  source := 5
  tag := 7
  generation := 1
  offset := 0x1010
  work := w
  begun := begun
  orphaned := false

/-- A state that serves an inbound entry at a position. -/
def serving (w : InboundWork) (position : Nat) : State :=
  { run with inbound := { queue := [inboundOf w true], service := some { position := position, piece := [] } } }

/-- The JOIN of station 3 is in contention. -/
def contending : State :=
  { inState .joining with
    sender := { Sender.reset with control := some { kind := .join, retransmissions := 0 } }
    span := { phase := .contention, offer := some .control, offerState := .contending, received := none } }

/-- A piece of tag 4 that lands at 20h. -/
def pieceOf4 : Piece := { tag := 4, generation := 0, destination := 0x20, data := List.replicate 64 1 }

/-- A NOTICE entry of context 0 in place 0. -/
def noticeEntry (n : Nat) : RequestEntry :=
  { entry .ready with
    frame := { source := 3, body := .notice (List.replicate 8 1) }
    owner := .context 0
    retransmissions := n }

/-- The context of a NOTICE whose entry waits to go. -/
def noticeCtx : Context :=
  { ctx (kindOf 3) 1 with phase := .outstanding, next := 1, outstanding := 1, issuingFinished := true }

/-- The answer field of an own NOTICE is under way. -/
def sendingNotice (n : Nat) : State :=
  { run with
    issue := { IssueEngine.reset with contexts := [noticeCtx] }
    sender := oneEntry (noticeEntry n)
    span := { phase := .answer, offer := some (.request 0), offerState := .answer, received := some (Received.begun 35) } }

/-- The body of the own frame is under way. -/
def inBody (s : State) : State :=
  { s with span := { s.span with phase := .body, offerState := .sending } }

/-- The current command waits for what is missing. -/
def waiting (c : CommandRecord) (w : WaitingFor) : State :=
  { issuing c 3 with issue := { (issuing c 3).issue with waitingFor := w } }

/-- The answer field of the first of `n` own completions is under way. -/
def sendingCompletions (n : Nat) : State :=
  { run with
    sender := { Sender.reset with responses := List.replicate n {
      frame := { source := 3, body := .fail 5 0 0 }, retransmissions := 0 } }
    span := { phase := .answer, offer := some .response, offerState := .answer, received := some (Received.begun 35) } }

/-! ## Ill-formed commands -/

theorem test_illFormed_unmapped_mapped : Instr.WellFormed (.unmappedAccess 0x10000#17 .read) = false := by decide +kernel
theorem test_illFormed_unmapped_unaligned : Instr.WellFormed (.unmappedAccess 0x10251#17 .read) = false := by decide +kernel
theorem test_illFormed_unmapped_store : Instr.WellFormed (.unmappedAccess 0x0FFFC#17 .read) = false := by decide +kernel
theorem test_wellFormed_unmapped : Instr.WellFormed (.unmappedAccess 0x10250#17 .read) = true := by decide +kernel
theorem test_illFormed_registerWrite : Instr.WellFormed (.registerWrite .start (.write 0 15)) = false
    ∧ Instr.WellFormed (.registerWrite .resultPop .read) = false := by decide
theorem test_illFormed_localRead : Instr.WellFormed (.localRead 2) = false := by decide
theorem test_illFormed_localWrite : Instr.WellFormed (.localWrite 0xFFFF 0 15) = false := by decide
theorem test_illFormed_contention : Instr.WellFormed (.contention (.settles (some 48))) = false
    ∧ Instr.WellFormed (.contention (.settles (some 47))) = true := by decide

/-! ## Frames written out from R182 and R183 -/

/-- The JOIN of station 5: class 00, source 0101, kind 0000, target 11111, check 59F7E5DAh. -/
def joinBits : List Bool :=
  [false, false, false, true, false, true, false, false, false, false, true, true, true, true, true]
    ++ bitsOfNat 32 0x59F7E5DA

theorem test_join_is_recognised : judge joinBits = .recognised { source := 5, body := .join } := by decide +kernel
theorem test_join_is_sent_so : ({ source := 5, body := .join } : Frame).bodyBits = joinBits := by decide +kernel
theorem test_wrong_check_is_damage : judge (joinBits.set 2 true) = .damaged := by decide +kernel
theorem test_short_body_is_damage : judge (joinBits.drop 1) = .damaged := by decide +kernel

/-- The RD_REQ of station 5 to station 3, tag 7, generation 2, offset 1230h, length 64. -/
def readBits : List Bool :=
  bitsOfNat 15 0b100101000000011 ++ (bitsOfNat 7 0b0011110 ++ (bitsOfNat 32 0x12300040 ++ bitsOfNat 32 0x6C34CC3B))

theorem test_rdReq_is_recognised :
    judge readBits = .recognised { source := 5, body := .rdReq 3 7 2 0x1230 64 } := by decide +kernel

/-- The AT_DATA of station 9 to station 3, tag 31, generation 1, old value 01020304h, least significant byte first. -/
def oldBits : List Bool :=
  bitsOfNat 15 0b011001000100011 ++ (bitsOfNat 7 0b1111101 ++ (bitsOfNat 32 0x04030201 ++ bitsOfNat 32 0x77C63DC3))

theorem test_atData_is_recognised :
    judge oldBits = .recognised { source := 9, body := .atData 3 31 1 0x01020304 } := by decide +kernel

/-- The RD_DATA of station 9 to station 3, tag 0, generation 0, second half, last, one byte 5Ah. -/
def dataBits : List Bool :=
  bitsOfNat 15 0b011001000000011 ++ (bitsOfNat 7 0 ++ ([true, true] ++ (bitsOfNat 16 0x015A ++ bitsOfNat 32 0x76681EFC)))

theorem test_rdData_is_recognised :
    judge dataBits = .recognised { source := 9, body := .rdData 3 0 0 true true [0x5A] } := by decide +kernel
theorem test_class_three_is_not : parseBody (bitsOfNat 15 0b110101000011111) = none := by decide +kernel
theorem test_priority_words : (priorityWord .control 15).toNat = 15 ∧ (priorityWord .response 0).toNat = 16
    ∧ (priorityWord .request 15).toNat = 47 := by decide

/-! ## One step each -/

theorem test_step_idles_on_an_empty_queue : step run = .next run := rfl
theorem test_step_takes_the_front : (next? (step { run with pending := [.post 1, .post 1] })).map State.pending = some [.post 1] := by
  decide +kernel
theorem test_reset_words : (inState .config).readControl .stationState = 0x03000001#32
    ∧ run.readControl (.peerStatus 3) = 3 ∧ run.readControl .bufferStatus = 0x60000000#32 := by decide +kernel
theorem test_start_joins : (next? (exec (.start 1) (inState .config))).map (fun t => (t.life.station, t.offeredFrame))
    = some (.joining, some { source := 3, body := .join }) := by decide +kernel
theorem test_start_stops_at_region_7 :
    (next? (exec (.start 1) { inState .config with written := { openConfig with
      regions := openConfig.regions.set 7 { openRegion with base := 0x20 } } })).map (fun t => t.life.startStatus)
      = some (.invalid (.region 7)) := by decide +kernel
theorem test_body_fills_the_holding :
    let body := (next? (exec (.contention (.settles (some 2))) contending)).map (fun t => t.span)
    body.map SpanInterface.received = some (some (Received.arriving [false, false, false, false, true, false]))
    ∧ body.map SpanInterface.phase = some .body
    ∧ (next? (exec (.answerField readBits) (inState .config))).map (fun t => t.span.received)
      = some (some (Received.arriving readBits))
    ∧ (next? (exec (.resolution .silent 0) { inState .config with span := { run.span with
      phase := .answer
      received := some (Received.arriving readBits) } })).map (fun t => t.span.received) = some none := by decide +kernel
theorem test_local_read_after_write :
    ((next? (exec (.localWrite 0x20 0x11223344 0b0101) run)).bind fun a =>
      (next? (exec .storeGrant a)).map fun b => b.store.readRange 0x20 4) = some [0x44, 0, 0x22, 0] := by decide +kernel
theorem test_byte_loss_errs :
    (next? (exec (.storeByteLoss 0x21 7) run)).map (fun t => (Transfer.read 0x20 4).parityError t.store) = some true := by
  decide +kernel
theorem test_fetchAdd : ((Transfer.atomic 4 .fetchAdd 0xFFFFFFFF 0).effect (Store.zeroed.writeCells (cellsAt 4 [2]))).readRange 4 4
    = [1, 0, 0, 0] := by decide +kernel
theorem test_request_is_accepted : (opened.receive readBits (judge readBits)).drove = .accept := by decide +kernel
theorem test_request_without_region_is_refused : (run.receive readBits (judge readBits)).drove = .refuse := by decide +kernel
theorem test_read_segments : readRecord.segments = 3 ∧ readRecord.segmentLength 2 = 88
    ∧ readRecord.segmentRemote 2 = 0x1200 := by decide
theorem test_segment_claims : (next? (exec .segmentIssue (issuing readRecord 3))).map (fun t =>
    ((t.tagAt 0).state, t.reservedBlocks, t.sender.requests.length, t.issue.contexts.map Context.next))
    = some (.queued, 8, 1, [1]) := by decide +kernel
theorem test_write_is_served_in_three :
    writeChunk 0x1010 0 (List.replicate 64 1) = .write (cellsAt 0x1010 (List.replicate 16 1))
    ∧ writeChunk 0x1010 16 (List.replicate 64 1) = .write (cellsAt 0x1020 (List.replicate 32 1))
    ∧ writeChunk 0x1010 48 (List.replicate 64 1) = .write (cellsAt 0x1040 (List.replicate 16 1)) := by decide +kernel
theorem test_read_piece_ends_at_128 : (inboundOf (.read 200) true).transferAt 112 = .read 0x1080 16
    ∧ (inboundOf (.read 200) true).transferAt 128 = .read 0x1090 16 := by decide +kernel
theorem test_commit_begins_the_service :
    (next? (exec (.resolution .silent 0) (receiving run (answered (.wrReq 3 7 1 0x1010 2 [1, 2]) .accept true)))).map (fun t =>
      (t.inbound.engineState, t.inbound.service, t.arbiter.raisedService)) = some (.serving, some { position := 0, piece := [] },
        some (.write [(0x1010, 1), (0x1011, 2)])) := by decide +kernel
theorem test_read_waits_for_two_entries :
    (let s := { sendingCompletions 15 with inbound := { queue := [inboundOf (.read 200) false], service := none } }
     s.settled = true ∧ s.inbound.engineState = .waiting
      ∧ (next? (exec (.resolution .accept 0) s)).map (fun t =>
        (t.inbound.engineState, t.sender.responses.length, t.arbiter.raisedService)) = some (.serving, 14,
          some (.read 0x1010 16))) := by decide +kernel
theorem test_next_service_begins_as_one_ends :
    (let g := grantOf .service (.write (cellsAt 0x1010 (List.replicate 16 1))) []
     (next? (exec .serviceWriteTransferComplete { busyWith run g with inbound := {
       queue := [inboundOf (.write (List.replicate 16 1)) true, inboundOf (.atomic .swap 0 0) false]
       service := some { position := 0, piece := [] } } })).map (fun t =>
         (t.inbound.queue, t.inbound.service, t.arbiter.raisedService)) = some ([inboundOf (.atomic .swap 0 0) true],
           some { position := 0, piece := [] }, some (.atomic 0x1010 .swap 0 0))) := by decide +kernel
theorem test_busy_backs_off : (next? (exec (.resolution .busy 1000) (sending (.request 0) (oneEntry (entry .ready))))).map (fun t =>
    (t.sender.requests.map RequestEntry.backoffExpiry, (t.tagAt 4).state)) = some ([some 1025], .held) := by decide +kernel
theorem test_silence_marks_absent :
    (next? (exec (.resolution .silent 1000) (sending (.request 0) (oneEntry (entry .ready))))).map (fun t =>
      ((t.peerAt 5).state, t.issue.contexts, (t.tagAt 4).generation)) = some (.absent,
        [{ ctx readRecord 3 with
          phase := .outstanding
          next := 1
          issuingFinished := true
          firstFailure := some (0, .noStation) }].filter (fun c => !c.isDone), 1) := by decide +kernel
theorem test_timeout_turns_stale : (next? (exec (.completionTimerExpiry 4) (tagged (readTag .sent)))).map (fun t =>
    ((t.tagAt 4).state, (t.tagAt 4).deadline, t.issue.results.map Result.status)) = some (.stale, some 16000, [.timeout]) := by
  decide +kernel
theorem test_settles_while_unsynced :
    (let s := { contending with span := { contending.span with phase := .unsynced, offerState := .offered } }
     (next? (exec (.contention (.settles (some 40))) s)).map (fun t => (t.span.phase, t.span.offerState)) = some (.unsynced, .offered)
      ∧ (next? (exec (.contention (.settles none)) s)).map (fun t => (t.span.phase, t.span.offerState)) = some (.idle, .offered)) := by
  decide +kernel
theorem test_landing_goes_on :
    (let g := grantOf .landing (.write (cellsAt 0x40 (List.replicate 32 1))) []
     let p : Piece := { tag := 5, generation := 0, destination := 0x90, data := List.replicate 40 2 }
     (next? (exec .landingTransferComplete { busyWith run g with
       buffer := { pieces := [p], landing := some { piece := pieceOf4, position := 32 } } })).map (fun t =>
         (t.buffer, t.arbiter.raisedLanding)) = some ({ pieces := [], landing := some { piece := p, position := 0 } },
           some (.write (cellsAt 0x90 (List.replicate 16 2))))) := by
  decide +kernel
theorem test_returned_tag_is_asked_for_again :
    (let s := { waiting readRecord { tag := true, blocks := false, entry := false } with
       tags := (Vector.replicate 32 { readTag .sent with reserved := 0, kind := some .write }).set 4 (readTag .stale) }
     (next? (exec (.staleTimerExpiry 4) s)).map (fun t => ((t.tagAt 4).state, t.issue.isWaiting, t.issue.contexts.map Context.next))
      = some (.queued, false, [1])) := by
  decide +kernel
theorem test_give_up_waits_for_the_frame :
    (next? (exec (.resolution .silent 0) { receiving run { bits := [], frame := none, drove := .silent, take := false } with
      life := { run.life with giveUp := some .joinRetry } })).map (fun t => (t.life.station, t.life.haltCause))
      = some (.halted, .joinRetry) := by decide +kernel
theorem test_duplicate_join_halts :
    (next? (exec (.resolution .silent 0) (receiving run {
      bits := []
      frame := some { source := 3, body := .join }
      drove := .silent
      take := false }))).map (fun t => (t.life.station, t.life.haltCause, t.incidents.flags))
      = some (.halted, .duplicate, 0xA000) := by decide +kernel

/-! ## Witnesses: states and operands that meet the hypotheses of each statement -/

theorem test_witness_PowerOnResetAndInitialization :
    State.reset.life.rstN = false ∧ State.reset.life.station = .init := by decide
theorem test_witness_PinResetAndSoftReset :
    State.reset.life.rstN = false ∧ run.life.rstN = false ∧ run.assertReset.life.rstN = true
      ∧ (run.PortReady ∧ (8#4 : ByteEnables) ≠ 0 ∧ run.life.station ≠ .init)
      ∧ (State.reset.PortReady ∧ State.reset.life.station = .init)
      ∧ ((∀ x, Instr.post 1 ≠ .powerOnReset x) ∧ (∀ x, Instr.post 1 ≠ .rstNRelease x) ∧ ∀ o v, Instr.post 1 ≠ .storeByteLoss o v) := by
  refine ⟨by decide, by decide, by decide +kernel, ⟨⟨rfl, rfl⟩, by decide, by decide⟩, ⟨⟨rfl, rfl⟩, rfl⟩, ?_, ?_, ?_⟩
  · intro x h; cases h
  · intro x h; cases h
  · intro o v h; cases h
theorem test_witness_StartJoins :
    (let s := { inState .config with written := openConfig }
     s.PortReady ∧ s.OffSpan ∧ s.life.station = .config ∧ s.written.NumbersValid
      ∧ ∀ n : Fin 8, s.written.regions[n.val].enabled = true → s.written.regions[n.val].IsValid)
    ∧ (inState .detached).PortReady ∧ (inState .detached).OffSpan ∧ (inState .detached).life.station = .detached := by
  refine ⟨⟨⟨rfl, rfl⟩, rfl, rfl, ?_, ?_⟩, ⟨rfl, rfl⟩, rfl, rfl⟩
  · unfold ConfigRecord.NumbersValid; decide
  · unfold Region.IsValid; decide +kernel

/-- CONFIG with three numbers written. -/
def numbers (limit timeout retries : BitVec 8) : State :=
  { inState .config with written := { ConfigRecord.reset with
    commitmentLimit := limit
    completionTimeout := timeout
    retryLimit := retries } }

theorem test_witness_StartIsTurnedAway :
    ((numbers 7 1 1).written.commitmentLimit.toNat < 8 ∧ 96 < (numbers 97 1 1).written.commitmentLimit.toNat)
    ∧ (let w := (numbers 8 0 1).written
       8 ≤ w.commitmentLimit.toNat ∧ w.commitmentLimit.toNat ≤ 96 ∧ w.completionTimeout.toNat < 1)
    ∧ 64 < (numbers 96 65 1).written.completionTimeout.toNat
    ∧ (let w := (numbers 96 64 16).written
       w.commitmentLimit.toNat ≤ 96 ∧ 1 ≤ w.completionTimeout.toNat ∧ w.completionTimeout.toNat ≤ 64 ∧ 15 < w.retryLimit.toNat)
    ∧ (let w := { openConfig with regions := openConfig.regions.set 7 { openRegion with base := 0x20 } }
       w.NumbersValid ∧ w.regions[7].enabled = true ∧ ¬ w.regions[7].IsValid
        ∧ ∀ m : Fin 8, m < 7 → w.regions[m.val].enabled = true → w.regions[m.val].IsValid)
    ∧ run.PortReady ∧ run.life.station ≠ .config ∧ run.life.station ≠ .detached := by
  refine ⟨by decide, by decide, by decide, by decide, ?_, ⟨rfl, rfl⟩, by decide, by decide⟩
  unfold ConfigRecord.NumbersValid Region.IsValid; decide +kernel
theorem test_witness_DrainDonePlacesLeave :
    let s := receiving (inState .leaving) (answered (.notice (List.replicate 8 0)) .silent true)
    s.life.rstN = false ∧ s.OffSpan ∧ s.life.station = .leaving ∧ s.sender.control = none ∧ s.inbound.queue = []
      ∧ s.sender.responses = []
      ∧ (∀ r f, s.span.received = some r → r.frame = some f → r.take = true →
        ¬ (f.body.frameClass = .request ∧ f.body.target ≠ none)) := by
  refine ⟨rfl, rfl, rfl, rfl, rfl, rfl, ?_⟩
  rintro r f h hf _
  cases h
  cases hf
  decide
theorem test_witness_port_commands :
    run.PortReady ∧ (inState .config).PortReady ∧ (1#4 : ByteEnables) ≠ 0 ∧ (inState .config).life.station = .config
      ∧ run.life.station ≠ .config := by
  refine ⟨⟨rfl, rfl⟩, ⟨rfl, rfl⟩, by decide, by decide, by decide⟩
theorem test_witness_PostQueuesOrOverflows :
    (let s := { run with issue := { IssueEngine.reset with commands := List.replicate 15 readRecord } }
     s.PortReady ∧ s.issue.commands.length < 16)
    ∧ (let s := { run with issue := { IssueEngine.reset with commands := List.replicate 16 readRecord } }
       s.PortReady ∧ 16 ≤ s.issue.commands.length) := by
  refine ⟨⟨⟨rfl, rfl⟩, by decide⟩, ⟨rfl, rfl⟩, by decide⟩
theorem test_witness_PopsReturnTheHead :
    ({ run with issue := { IssueEngine.reset with results := [(ctx readRecord 3).result] } } : State).PortReady
    ∧ ({ run with notices := { NoticeUnit.reset with queue := [{ source := 15, data := [] }] } } : State).PortReady :=
  ⟨⟨rfl, rfl⟩, rfl, rfl⟩
theorem test_witness_OtherControlAccesses :
    run.PortReady
      ∧ ([0x1000C, 0x1000F, 0x1001C, 0x10060, 0x1007C, 0x100AC, 0x100BC, 0x100D4, 0x100FC, 0x10140, 0x101FC, 0x10234, 0x1023C,
        0x1024C, 0x1FFFC].all isUnmapped) = true
      ∧ ([0x00000, 0x0FFFF, 0x10000, 0x10008, 0x1000B, 0x10010, 0x10018, 0x10020, 0x1005C, 0x10080, 0x100A8, 0x100B0, 0x100B8,
        0x100C0, 0x100D0, 0x10100, 0x1013C, 0x10200, 0x10230, 0x10240, 0x10248].any isUnmapped) = false
      ∧ ControlWord.writeHasOwnRow .flags = false ∧ (∀ n, ControlWord.flags ≠ .staging n)
      ∧ ControlWord.readHasOwnRow .start = false := by
  refine ⟨⟨rfl, rfl⟩, by decide +kernel, by decide +kernel, rfl, ?_, rfl⟩
  intro n h
  cases h
theorem test_witness_ControlWordsRead :
    (let s := { run with
       tags := resetTags.set 0 { readTag .sent with reserved := 94 }
       buffer := { pieces := [pieceOf4], landing := none }
       inForce := { ConfigRecord.reset with commitmentLimit := 96 } }
     s.reservedBlocks ≤ 96 ∧ s.buffer.occupied ≤ 96 ∧ s.buffer.pieces.length ≤ 96 ∧ s.inForce.commitmentLimit.toNat ≤ 96)
    ∧ (List.replicate 16 (inboundOf (.read 1) false)).length ≤ 16
    ∧ ((oneEntry (entry .held)).responses.length ≤ 16 ∧ (oneEntry (entry .held)).requests.length ≤ 16)
    ∧ run.notices.queue.length ≤ 16
    ∧ (let e := { IssueEngine.reset with
        commands := List.replicate 16 readRecord
        results := List.replicate 32 (ctx readRecord 3).result }
       e.commands.length ≤ 16 ∧ e.contexts.length + e.results.length ≤ 32)
    ∧ ((resetPeers 3).set 5 { state := .present, joinCount := 255 })[5].joinCount ≤ 255
    ∧ ({ IssueEngine.reset with latch := some (ctx readRecord 3).result } : IssueEngine).latch = some (ctx readRecord 3).result
    ∧ run.issue.latch = none ∧ run.notices.latch = none := by
  decide +kernel
theorem test_witness_InterruptLevel :
    (run.life.rstN = false ∧ exec .rstNAssert run = .next run.assertReset)
    ∧ (run.assertReset.life.rstN = true ∧ run.assertReset.intl = false
      ∧ exec (.post 1) run.assertReset = .next run.assertReset) := by
  refine ⟨⟨rfl, rfl⟩, rfl, by decide +kernel, rfl⟩
theorem test_witness_BytesChangeByThreeCommands :
    (Memory.wf run.store = true ∧ run.store.isLost (0xFFFF#16).toNat = false)
      ∧ exec .resultPop run = .next (run.resultPopped.completeAccess (some emptyMark) false)
      ∧ (Instr.resultPop ≠ .storeGrant ∧ Instr.resultPop ≠ .storeInitEnd) ∧ ∀ o v, Instr.resultPop ≠ .storeByteLoss o v := by
  refine ⟨by decide, rfl, by decide, ?_⟩
  intro o v h
  cases h
theorem test_witness_LocalAccesses :
    run.PortReady ∧ (inState .init).PortReady ∧ (0xFFFC#16).toNat % 4 = 0
    ∧ (let g := grantOf .localPort (.read 0xFFFC 4) [1, 2, 3, 4]
       let s := { busyWith run g with port := { held := some (.read 0xFFFC), completed := none } }
       s.arbiter.granted = some g ∧ g.claimant = .localPort ∧ s.port.held = some (.read 0xFFFC))
    ∧ (let g := grantOf .localPort (.write []) []
       let s := { busyWith run g with port := { held := some (.write 0 0 0), completed := none } }
       s.arbiter.granted = some g ∧ g.claimant = .localPort ∧ s.port.held = some (.write 0 0 0)) := by
  refine ⟨⟨rfl, rfl⟩, ⟨rfl, rfl⟩, by decide, ⟨rfl, rfl, rfl⟩, rfl, rfl, rfl⟩
theorem test_witness_GrantsFollowTheRotation :
    let s := { run with arbiter := { Arbiter.reset with pointer := .landing, raisedService := some (.read 0 32) } }
    s.life.rstN = false ∧ s.life.station ≠ .init ∧ s.arbiter.granted = none
      ∧ s.arbiter.pointer.rotation = [.landing, .issue, .localPort] ++ Claimant.service :: []
      ∧ (∀ x ∈ [Claimant.landing, .issue, .localPort], s.arbiter.raised x = none)
      ∧ s.arbiter.raised .service = some (.read 0 32) := by
  decide
theorem test_witness_TransfersReadWriteAndExchange :
    Memory.wf Store.zeroed = true ∧ 65504 + (List.replicate 32 (1 : Byte)).length ≤ 65536 ∧ 65532 + 4 ≤ 65536
      ∧ Store.zeroed.rangeLost 65532 4 = false ∧ (Store.zeroed.loseByte 65535 0).rangeLost 65532 4 = true := by
  decide


theorem test_witness_ContentionsComeOut :
    (run.life.rstN = false ∧ run.span.phase = .idle ∧ State.reset.span.phase = .unsynced)
    ∧ (contending.life.rstN = false ∧ contending.span.phase = .contention ∧ contending.span.offerState = .contending
      ∧ contending.offeredFrame = some { source := 3, body := .join })
    ∧ (0 * 16 + 3 ≤ (3#6).toNat ∧ (2#6).toNat < 0 * 16 + 3)
    ∧ ({ run with span := { run.span with phase := .contention } } : State).span.offerState ≠ .contending := by decide
theorem test_witness_AnswerFields :
    (let s := { contending with span := { contending.span with phase := .body, offerState := .sending } }
     s.life.rstN = false ∧ s.span.phase ≠ .unsynced ∧ s.span.phase ≠ .answer ∧ s.span.offerState = .sending)
    ∧ (run.OffSpan ∧ run.life.station.onSpan = true)
    ∧ ((inState .config).OffSpan ∧ (inState .config).life.station.onSpan = false)
    ∧ (List.replicate 46 true).length < 47
    ∧ (joinBits.set 2 true).drop ((joinBits.set 2 true).length - 32)
      ≠ bitsOfNat 32 (crc ((joinBits.set 2 true).take ((joinBits.set 2 true).length - 32))).toNat := by
  refine ⟨by decide, ⟨rfl, rfl⟩, ⟨rfl, rfl⟩, by decide, by decide +kernel⟩

/-- The RD_REQ of station 5 to station 3 at an offset, of a length. -/
def request (offset : Offset) (length : BitVec 16) : Frame :=
  { source := 5, body := .rdReq 3 7 1 offset length }

theorem test_witness_RequestsAreDecidedByFourTests :
    (opened.life.rstN = false ∧ opened.span.phase ≠ .unsynced ∧ opened.span.phase ≠ .answer ∧ opened.OffSpan
      ∧ judge readBits = .recognised { source := 5, body := .rdReq 3 7 2 0x1230 64 })
      ∧ opened.life.station = .running ∧ (request 0xFF00 256).body.target = some opened.life.number
      ∧ FrameBody.access (request 0xFF00 256).body = some (.read, 0xFF00, 256)
      ∧ FrameBody.Malformed 3 5 (request 0xFF01 256).body ∧ ¬ FrameBody.Malformed 3 5 (request 0xFF00 256).body
      ∧ ¬ run.inForce.Admits .read 5 0xFF00 256 ∧ opened.inForce.Admits .read 5 0xFF00 256
      ∧ opened.RoomFor (request 0xFF00 256).body
      ∧ ¬ ({ opened with inbound := { queue := List.replicate 16 (inboundOf (.read 1) false), service := none } } : State).RoomFor
        (request 0xFF00 256).body := by
  refine ⟨⟨rfl, by decide, by decide, rfl, by decide +kernel⟩, rfl, rfl, rfl, Or.inr (Or.inr (Or.inr (by decide))),
    ?_, ?_, ?_, ⟨by decide, trivial⟩, ?_⟩
  · rintro (h | h | h | h)
    · exact absurd h (by decide)
    · exact absurd h (by decide)
    · exact absurd h (by decide)
    · exact absurd h (by decide)
  · have hall : ∀ n : Fin 8, run.inForce.regions[n.val].enabled = false := by decide +kernel
    rintro ⟨n, hn, _⟩
    rw [hall n] at hn
    cases hn
  · exact ⟨7, by decide +kernel⟩
  · exact fun h => absurd h.1 (by decide)
theorem test_witness_CompletionsAreMatched :
    (run.life.station = .running ∧ (FrameBody.rdData 3 4 0 false true (List.replicate 64 0)).target = some run.life.number)
    ∧ FrameBody.completion (.rdData 3 4 0 false true (List.replicate 64 0)) = some (4, 0, .rdData)
    ∧ (let r := (tagged (readTag .sent)).tagAt 4
       r.target = some 5 ∧ r.generation = 0 ∧ r.Expects (.rdData 3 4 0 false true (List.replicate 64 0))
        ∧ ¬ r.Expects (.rdData 3 4 0 false true (List.replicate 63 0)))
    ∧ ((tagged (readTag .stale)).tagAt 4).state = .stale := by
  unfold TagRecord.Expects
  decide +kernel
theorem test_witness_OtherFramesAreAnswered :
    run.life.station = .running ∧ (run.inForce.acceptMask.getLsbD 5 = true ∧ (5 : Station) ≠ run.life.number)
      ∧ run.notices.queue.length < 16
      ∧ (let n : NoticeUnit := { NoticeUnit.reset with queue := List.replicate 16 { source := 5, data := [] } }
         16 ≤ ({ run with notices := n } : State).notices.queue.length)
      ∧ ¬ (run.inForce.acceptMask.getLsbD 3 = true ∧ (3 : Station) ≠ run.life.number)
      ∧ (inState .leaving).life.station = .leaving
      ∧ ((request 0 4).body.target = some 3 ∧ (request 0 4).body.frameClass = .request)
      ∧ (FrameBody.rdReq 15 0 0 0 4).target = some 15 ∧ (15 : Station) ≠ run.life.number
      ∧ (inState .joining).life.station ≠ .running ∧ (inState .joining).life.station ≠ .leaving := by
  decide
theorem test_witness_ResultsSayHowTheCommandEnded :
    (ctx (kindOf 2) 1).firstFailure = none ∧ (kindOf 2).kind = 2 ∧ (kindOf 3).kind = 3 ∧ 4 ≤ (kindOf 5).kind.toNat
      ∧ ({ ctx readRecord 3 with firstFailure := some (2, .refused) } : Context).firstFailure = some (2, .refused) := by
  decide
theorem test_witness_SegmentsEnd :
    (((tagged (readTag .sent)).tagAt 4).context = some 0 ∧ ((tagged (readTag .sent)).tagAt 4).segment = some 0
      ∧ EntriesApart (oneEntry (entry .ready)).requests)
    ∧ (noticeEntry 0 ∈ (sendingNotice 0).sender.requests ∧ ∀ x, ((sendingNotice 0).tagAt x).context ≠ some 0) := by
  unfold EntriesApart
  decide +kernel

/-- A tag's segment is counted by its context. -/
theorem accounted_tagged : (tagged (readTag .sent)).Accounted where
  numbers := by decide +kernel
  counted := by decide +kernel
  named := by decide +kernel
  apart := by unfold EntriesApart; decide +kernel
  ofTags := by decide +kernel
  ofNotices := by decide +kernel
  finishing := by decide +kernel
  leaving := by decide +kernel
theorem test_witness_CleanupEndsAPeersWork :
    ((tagged (readTag .sent)).tagAt 4).target = some 5 ∧ ((tagged (readTag .sent)).tagAt 4).state ≠ .free
      ∧ ((tagged (readTag .sent)).tagAt 0).state = .free ∧ ((tagged (readTag .sent)).tagAt 0).target ≠ some 5
      ∧ (∀ x : Tag, ((tagged (readTag .sent)).tagAt x).target = some 6 → ((tagged (readTag .sent)).tagAt x).context = none)
      ∧ (tagged (readTag .sent)).Accounted :=
  ⟨by decide +kernel, by decide +kernel, by decide +kernel, by decide +kernel, by decide +kernel, accounted_tagged⟩
theorem test_witness_HaltEndsAllWork :
    ((tagged (readTag .sent)).tagAt 4).state ≠ .free ∧ ((tagged (readTag .sent)).tagAt 0).state = .free
      ∧ (tagged (readTag .sent)).Accounted :=
  ⟨by decide +kernel, by decide +kernel, accounted_tagged⟩

/-- The entry's answer field is under way. -/
def sendingEntry (e : RequestEntry) : State := sending (.request 0) (oneEntry e)

theorem ownFrame_sending (p : Place) (d : Sender) : (sending p d).OwnFrame p :=
  ⟨rfl, rfl, rfl, rfl, rfl, rfl⟩

/-- The answer field of the own LEAVE or JOIN is under way. -/
def sendingControl (c : ControlFrame) : State :=
  { sending .control { Sender.reset with control := some c } with life := (inState .joining).life }

/-- An entry sent again often enough to stand at the limit. -/
def lastEntry : RequestEntry := { entry .ready with retransmissions := 6 }

/-- The entry's tag waits to go, and its context counts it. -/
theorem accounted_sending : (sendingEntry lastEntry).Accounted where
  numbers := by decide +kernel
  counted := by decide +kernel
  named := by decide +kernel
  apart := by unfold EntriesApart; decide +kernel
  ofTags := by decide +kernel
  ofNotices := by decide +kernel
  finishing := by decide +kernel
  leaving := by decide +kernel
theorem accounted_notice : (sendingNotice 6).Accounted where
  numbers := by decide +kernel
  counted := by decide +kernel
  named := by decide +kernel
  apart := by unfold EntriesApart; decide +kernel
  ofTags := by decide +kernel
  ofNotices := by decide +kernel
  finishing := by decide +kernel
  leaving := by decide +kernel
theorem test_witness_own_requests :
    let s := sendingEntry lastEntry
    s.OwnFrame (.request 0) ∧ s.settled = true ∧ s.Accounted ∧ s.sender.entryAt 0 = some lastEntry ∧ lastEntry.withdrawn = false
      ∧ lastEntry.owner = .tag 4 ∧ (s.tagAt 4).kind ≠ some .write ∧ s.issue.copying ≠ some 0
      ∧ lastEntry.retransmissions + 1 ≤ s.inForce.retryLimit.toNat
      ∧ lastEntry.frame.body.target = some 5 ∧ (5 : Station) ≠ s.life.number :=
  ⟨ownFrame_sending _ _, by decide +kernel, accounted_sending, by decide +kernel⟩
theorem test_witness_own_writes :
    let s := { sendingEntry lastEntry with tags := resetTags.set 4 { readTag .queued with kind := some .write } }
    s.OwnFrame (.request 0) ∧ s.sender.entryAt 0 = some lastEntry ∧ lastEntry.withdrawn = false ∧ lastEntry.owner = .tag 4
      ∧ (s.tagAt 4).kind = some .write :=
  ⟨⟨rfl, rfl, rfl, rfl, rfl, rfl⟩, by decide +kernel⟩
theorem test_witness_own_notices :
    let s := sendingNotice 6
    s.OwnFrame (.request 0) ∧ s.settled = true ∧ s.Accounted ∧ s.sender.entryAt 0 = some (noticeEntry 6)
      ∧ (noticeEntry 6).withdrawn = false ∧ (noticeEntry 6).owner = .context 0
      ∧ (noticeEntry 6).retransmissions + 1 ≤ s.inForce.retryLimit.toNat :=
  ⟨⟨rfl, rfl, rfl, rfl, rfl, rfl⟩, by decide +kernel, accounted_notice, by decide +kernel⟩
theorem test_witness_requests_beyond_the_limit :
    (let s := sendingEntry { entry .ready with retransmissions := 7 }
     s.OwnFrame (.request 0) ∧ s.sender.entryAt 0 = some { entry .ready with retransmissions := 7 }
      ∧ s.inForce.retryLimit.toNat < 7 + 1)
    ∧ (let s := sendingNotice 7
       s.OwnFrame (.request 0) ∧ s.sender.entryAt 0 = some (noticeEntry 7) ∧ s.inForce.retryLimit.toNat < 7 + 1) :=
  ⟨⟨ownFrame_sending _ _, by decide +kernel⟩, ⟨rfl, rfl, rfl, rfl, rfl, rfl⟩, by decide +kernel⟩
theorem test_witness_WithdrawnEntriesIgnoreTheirOutcome :
    (sendingEntry { entry .ready with withdrawn := true }).OwnFrame (.request 0)
      ∧ (sendingEntry { entry .ready with withdrawn := true }).sender.entryAt 0 = some { entry .ready with withdrawn := true } :=
  ⟨ownFrame_sending _ _, by decide +kernel⟩

/-- A completion entry to station 5. -/
def failEntry (n : Nat) : ResponseEntry := { frame := { source := 3, body := .fail 5 0 0 }, retransmissions := n }

/-- A completion sent so often is at the head. -/
def sendingFail (n : Nat) : State := sending .response { Sender.reset with responses := [failEntry n, failEntry 0] }

theorem test_witness_CompletionOutcomes :
    (let s := sendingFail 6
     s.OwnFrame .response ∧ s.sender.responses = failEntry 6 :: [failEntry 0] ∧ s.settled = true
      ∧ (failEntry 6).retransmissions + 1 ≤ s.inForce.retryLimit.toNat
      ∧ (failEntry 6).frame.body.target = some 5 ∧ (5 : Station) ≠ s.life.number)
    ∧ (let s := sendingFail 7
       s.OwnFrame .response ∧ s.sender.responses = failEntry 7 :: [failEntry 0] ∧ s.settled = true
        ∧ s.inForce.retryLimit.toNat < (failEntry 7).retransmissions + 1) :=
  ⟨⟨ownFrame_sending _ _, by decide +kernel⟩, ownFrame_sending _ _, by decide +kernel⟩
theorem test_witness_JoinAndLeaveOutcomes :
    (sendingControl { kind := .join, retransmissions := 6 }).OwnFrame .control
      ∧ (sendingControl { kind := .leave, retransmissions := 7 }).OwnFrame .control
      ∧ (sendingControl { kind := .join, retransmissions := 6 }).settled = true
      ∧ 6 + 1 ≤ run.inForce.retryLimit.toNat ∧ run.inForce.retryLimit.toNat < 7 + 1 :=
  ⟨⟨rfl, rfl, rfl, rfl, rfl, rfl⟩, ⟨rfl, rfl, rfl, rfl, rfl, rfl⟩, by decide +kernel⟩
theorem test_witness_TransmitConflicts_requests :
    (let s := inBody (sendingEntry lastEntry)
     s.life.rstN = false ∧ s.span.offerState = .sending ∧ s.settled = true ∧ s.Accounted ∧ s.span.offer = some (.request 0)
      ∧ s.sender.entryAt 0 = some lastEntry ∧ lastEntry.retransmissions + 1 ≤ s.inForce.retryLimit.toNat)
    ∧ (let s := inBody (sendingNotice 7)
       s.life.rstN = false ∧ s.span.offer = some (.request 0) ∧ s.sender.entryAt 0 = some (noticeEntry 7)
        ∧ s.inForce.retryLimit.toNat < 7 + 1)
    ∧ (let s := inBody (sendingEntry { entry .ready with withdrawn := true })
       s.span.offer = some (.request 0) ∧ s.sender.entryAt 0 = some { entry .ready with withdrawn := true }) :=
  ⟨⟨by decide +kernel, by decide +kernel, by decide +kernel,
    State.Accounted.of_eq (s := sendingEntry lastEntry) rfl rfl rfl rfl accounted_sending, by decide +kernel⟩,
    by decide +kernel, by decide +kernel⟩
theorem test_witness_TransmitConflicts_completions_and_control :
    (let s := inBody (sendingFail 6)
     s.settled = true ∧ s.span.offer = some .response ∧ s.sender.responses = failEntry 6 :: [failEntry 0]
      ∧ (failEntry 6).retransmissions + 1 ≤ s.inForce.retryLimit.toNat)
    ∧ (let s := inBody (sendingFail 7)
       s.settled = true ∧ s.sender.responses = failEntry 7 :: [failEntry 0] ∧ s.inForce.retryLimit.toNat < 7 + 1)
    ∧ (let s := inBody (sendingControl { kind := .join, retransmissions := 7 })
       s.settled = true ∧ s.span.offer = some .control ∧ s.sender.control = some { kind := .join, retransmissions := 7 }) := by
  decide +kernel

/-- A station that gave up its JOIN or LEAVE follows the frame that remains. -/
def givingUp (frame : Option Frame) (drove : Answer) : State :=
  { receiving run { bits := [], frame := frame, drove := drove, take := false } with
    life := { run.life with giveUp := some .leaveRetry } }

theorem test_witness_give_ups :
    (∀ f d, (givingUp f d).life.rstN = false ∧ (givingUp f d).life.station.onSpan = true ∧ (givingUp f d).span.phase = .answer
      ∧ (givingUp f d).OffSpan ∧ (givingUp f d).span.received = some { bits := [], frame := f, drove := d, take := false }
      ∧ (givingUp f d).life.giveUp = some .leaveRetry ∧ (givingUp f d).life.number = 3)
    ∧ ¬ (Answer.silent = .damaged ∨ Answer.accept = .damaged) :=
  ⟨fun _ _ => ⟨rfl, rfl, rfl, rfl, rfl, rfl, rfl⟩, by decide⟩

theorem receiving_run (r : Received) : (receiving run r).Receiving r := ⟨rfl, rfl, rfl, rfl, rfl, rfl⟩

theorem test_witness_received_frames :
    (∀ r, (receiving run r).Receiving r) ∧ (∀ r, (receiving run r).settled = true)
      ∧ (5 : Station) ≠ run.life.number ∧ (Answer.silent = .silent ∨ Answer.silent = .accept) :=
  ⟨receiving_run, fun _ => rfl, by decide, Or.inl rfl⟩
theorem test_witness_ResolutionsThatCommitNothing :
    (∀ r, (receiving run r).Receiving r ∧ (receiving run r).settled = true)
      ∧ (Answer.accept.combine .busy ≠ .accept ∧ Answer.accept.combine .refuse ≠ .accept ∧ Answer.silent ≠ .damaged)
      ∧ (State.reset.life.rstN = false ∧ State.reset.span.phase = .unsynced)
      ∧ (let s := { inState .config with span := { (inState .config).span with phase := .answer } }
         s.life.rstN = false ∧ s.span.phase = .answer ∧ s.life.station.onSpan = false) :=
  ⟨fun r => ⟨receiving_run r, rfl⟩, by decide, by decide, by decide⟩
theorem test_witness_JoinsAndLeavesOfPeersAreObserved :
    (let s := receiving run (answered .join .accept false)
     s.settled = true ∧ s.peers[5].state ≠ .present ∧ (5 : Station) ≠ s.life.number ∧ (3 : Station) = s.life.number)
    ∧ (let seen := { run with peers := (resetPeers 3).set 5 { state := .present, joinCount := 255 } }
       let s := receiving seen (answered .join .accept false)
       s.settled = true ∧ s.peers[5].state = .present) := by decide +kernel
theorem test_witness_CompletionsCommit :
    (let s := receiving (tagged (readTag .sent)) (answered (.rdData 3 4 0 false true (List.replicate 64 0)) .accept true)
     (s.tagAt 4).target = some 5 ∧ (s.tagAt 4).generation = 0 ∧ (s.tagAt 4).state ≠ .stale
      ∧ (s.tagAt 4).Expects (.rdData 3 4 0 false true (List.replicate 64 0)) ∧ (s.tagAt 4).Expects (.fail 3 4 0))
    ∧ ({ readTag .sent with kind := some .atomic } : TagRecord).Expects (.atData 3 4 0 0)
    ∧ ((tagged (readTag .stale)).tagAt 4).state = .stale
    ∧ ¬ ((run.tagAt 4).target = some 5 ∧ (run.tagAt 4).generation = 0) := by
  unfold TagRecord.Expects
  decide +kernel

/-- An entry held since time 1, whose backoff ends at a time. -/
def heldEntry (expiry : Micros) : RequestEntry :=
  { entry .held with holdStart := some 1, backoffExpiry := some expiry, busyCount := 1 }

theorem test_witness_TimersExpire :
    (((tagged (readTag .sent)).tagAt 4).state = .sent ∧ ((tagged (readTag .sent)).tagAt 4).deadline = some 8000)
    ∧ (((tagged (readTag .stale)).tagAt 4).state = .stale ∧ ((tagged (readTag .stale)).tagAt 4).deadline = some 8000)
    ∧ ((run.tagAt 4).state ≠ .sent ∧ (run.tagAt 4).state ≠ .partialRead ∧ (run.tagAt 4).state ≠ .stale)
    ∧ (let s := { tagged (readTag .held) with sender := oneEntry (heldEntry 8001) }
       s.life.rstN = false ∧ s.sender.requests[0]? = some (heldEntry 8001) ∧ s.settled = true
        ∧ 8001 ≤ 1 + s.inForce.completionTimeout.toNat * 1000 ∧ 1 + s.inForce.completionTimeout.toNat * 1000 < 8002)
    ∧ (let e := { noticeEntry 0 with
        state := .held
        holdStart := some 1
        backoffExpiry := some 8002 }
       let s := { sendingNotice 0 with sender := oneEntry e }
       s.sender.requests[0]? = some e ∧ e.owner = .context 0) := by
  decide +kernel

theorem taking_posted (x : StationState) (c : CommandRecord) : (posted x c).Taking c [] :=
  ⟨rfl, rfl, rfl, show 0 + 0 < 32 by decide, fun _ => rfl, fun _ => rfl⟩

theorem test_witness_CommandsAreTaken :
    (∀ k, (posted .running (kindOf k)).Taking (kindOf k) []) ∧ (∀ k, (posted .running (kindOf k)).settled = true)
      ∧ (∀ k : Fin 6, (kindOf (BitVec.ofFin ⟨k.val, by omega⟩)).Passes 3) ∧ (posted .running readRecord).issue.LowestFree 0 := by
  refine ⟨fun _ => taking_posted _ _, fun _ => rfl, ?_, ?_, ?_⟩
  · unfold CommandRecord.Passes
    decide
  · intro x h
    cases h
  · intro m h
    exact absurd h (Nat.not_lt_zero m.val)
theorem test_witness_FencesEndOk :
    (kindOf 4).kind = 4 ∧ (posted .halted (kindOf 4)).life.station = .halted
      ∧ ({ (issuing readRecord 3).issue with commands := [kindOf 4] } : IssueEngine).contexts ≠ [] := by
  decide
theorem test_witness_TakesThatEndAtOnce :
    ¬ ({ readRecord with length := 0 } : CommandRecord).Passes 3 ∧ ¬ ({ readRecord with length := 4097 } : CommandRecord).Passes 3
      ∧ ¬ readRecord.Passes 5 ∧ ¬ (kindOf 6).Passes 3 ∧ ¬ ({ kindOf 2 with remoteOffset := 2 } : CommandRecord).Passes 3
      ∧ ({ readRecord with length := 4096, remoteOffset := 0xF000 } : CommandRecord).Passes 3 :=
  ⟨fun h => absurd (h.2.1 (by decide)).2.1 (by decide), fun h => absurd (h.2.1 (by decide)).2.2.1 (by decide),
    fun h => absurd (h.2.1 (by decide)).1 (by decide), fun h => absurd h.1 (by decide),
    fun h => absurd (h.2.2 (by decide)).2.1 (by decide), by decide, by decide, by decide⟩
theorem test_witness_SegmentsAreIssued :
    (issuing readRecord 3).issue.current = some 0 ∧ (issuing readRecord 3).issue.context 0 = some (ctx readRecord 3)
      ∧ (issuing readRecord 3).sender.LowestFreeSlot 0 ∧ (issuing readRecord 3).LowestFreeTag 0
      ∧ ((issuing readRecord 3).peerAt readRecord.target.toFin).state ≠ .absent
      ∧ (issuing readRecord 3).reservedBlocks + (issuing readRecord 3).buffer.occupied + (min 256 600 + 31) / 32 ≤ 96
      ∧ (kindOf 2).operation.toNat = AtomicOp.fetchAdd.code := by
  unfold Sender.LowestFreeSlot State.LowestFreeTag
  decide +kernel
theorem test_witness_SegmentsWaitOrEnd :
    (let s := { issuing readRecord 3 with peers := (resetPeers 3).set 5 { state := .absent, joinCount := 0 } }
     readRecord.kind.toNat < 3 ∧ (s.peerAt readRecord.target.toFin).state = .absent ∧ ∀ t, (s.tagAt t).isLaterOf 0 0 = false)
    ∧ (let s := { issuing readRecord 3 with
         inForce := { ConfigRecord.reset with commitmentLimit := 8 }
         tags := resetTags.set 0 (readTag .sent) }
       (s.inForce.commitmentLimit.toNat < s.reservedBlocks + s.buffer.occupied + 8) ∧ ¬ (∀ t, (s.tagAt t).state ≠ .free)
        ∧ ¬ 16 ≤ s.sender.requests.length)
    ∧ (let s := waiting readRecord { tag := true, blocks := false, entry := false }
       s.issue.current = some 0 ∧ s.issue.context 0 = some (ctx readRecord 3) ∧ s.issue.waitingFor.tag = true
        ∧ readRecord.kind.toNat < 3 ∧ readRecord.target.toNat = (5 : Station).val ∧ readRecord.target.toNat ≠ (6 : Station).val)
    ∧ run.issue.current = none := by
  decide +kernel
theorem test_witness_CopiesRun :
    (let s := { run with sender := oneEntry (entry (.filling 0x20 64)) }
     s.issue.copying = none ∧ s.arbiter.Unused .issue ∧ s.sender.requests = [] ++ entry (.filling 0x20 64) :: [])
    ∧ (let e := { entry (.filling 0x20 64) with frame := { source := 3, body := .wrReq 5 4 0 0 64 (List.replicate 32 1) } }
       let g := grantOf .issue (.read 0x40 32) (List.replicate 32 2)
       let s := { busyWith run g with sender := oneEntry e, issue := { IssueEngine.reset with copying := some 0 } }
       s.arbiter.granted = some g ∧ s.issue.copying = some e.slot ∧ s.sender.entryAt e.slot = some e ∧ e.withdrawn = false
        ∧ 64 ≤ (List.replicate 32 (1 : Byte) ++ g.data).length ∧ (List.replicate 31 (1 : Byte) ++ g.data).length < 64) := by
  unfold Arbiter.Unused
  refine ⟨⟨rfl, ⟨rfl, fun g h => by cases h⟩, rfl⟩, by decide⟩
theorem test_witness_discarded_results (c : Claimant) (tr : Transfer) :
    let g := { grantOf c tr [] with discarded := true }
    (busyWith run g).life.rstN = false ∧ (busyWith run g).arbiter.granted = some g ∧ g.claimant = c ∧ g.transfer = tr
      ∧ g.discarded = true :=
  ⟨rfl, rfl, rfl, rfl, rfl⟩
theorem test_witness_ServicesBeginAndWritesAreServed :
    (let s := { run with inbound := { queue := [inboundOf (.read 256) false], service := none } }
     s.life.rstN = false ∧ s.inbound.queue = inboundOf (.read 256) false :: [] ∧ s.sender.responses.length + 2 ≤ 16)
    ∧ (let s := { sendingCompletions 15 with inbound := { queue := [inboundOf (.read 129) false], service := none } }
       s.life.rstN = false ∧ s.inbound.queue = inboundOf (.read 129) false :: [] ∧ 16 < s.sender.responses.length + 2)
    ∧ (16 ≤ (sendingCompletions 16).sender.responses.length ∧ run.inbound.queue = [])
    ∧ (let g := grantOf .service (.write (cellsAt 0x1010 (List.replicate 16 1))) []
       let s := busyWith (serving (.write (List.replicate 64 1)) 0) g
       s.settled = true ∧ s.arbiter.granted = some g ∧ 0 + (cellsAt 0x1010 (List.replicate 16 (1 : Byte))).length < 64
        ∧ 64 ≤ 48 + (cellsAt 0x1040 (List.replicate 16 (1 : Byte))).length) := by
  decide +kernel
theorem test_witness_ReadsAndAtomicsAreServed :
    (let g := grantOf .service (.read 0x1010 16) (List.replicate 16 1)
     let s := busyWith (serving (.read 200) 112) g
     s.arbiter.granted = some g ∧ s.inbound.queue = inboundOf (.read 200) true :: []
      ∧ s.inbound.service = some { position := 112, piece := [] } ∧ 112 + g.data.length < 200 ∧ (112 + g.data.length) % 128 = 0
      ∧ 200 ≤ 184 + g.data.length ∧ (0 + g.data.length) % 128 ≠ 0)
    ∧ (grantOf .service (.atomic 0x1010 .swap 0 0) [0, 0, 0, 0]).transfer = .atomic 0x1010 .swap 0 0 := by decide

theorem test_witness_LandingsRun :
    (let s := { run with buffer := { pieces := [pieceOf4], landing := none } }
     s.buffer.pieces = pieceOf4 :: [] ∧ s.arbiter.Unused .landing)
    ∧ (let g := grantOf .landing (.write (cellsAt 0x40 (List.replicate 32 1))) []
       let s := { busyWith (tagged { readTag .partialRead with received := 64 }) g with
         buffer := { pieces := [], landing := some { piece := pieceOf4, position := 32 } } }
       s.arbiter.granted = some g ∧ 64 ≤ 32 + (cellsAt 0x40 (List.replicate 32 (1 : Byte))).length
        ∧ (s.tagAt 4).state = .partialRead ∧ (s.tagAt 4).generation = pieceOf4.generation
        ∧ (s.tagAt 4).landed + pieceOf4.data.length = (s.tagAt 4).length
        ∧ ¬ ((run.tagAt 4).state = .partialRead)) := by
  unfold Arbiter.Unused
  refine ⟨⟨rfl, rfl, fun g h => by cases h⟩, by decide +kernel⟩
theorem test_witness_every_step :
    ∃ t, step { opened with pending := [.drainDone] } = .next t ∧ Memory.wf opened.store = true ∧ opened.selfKept = true
      ∧ opened.settled = true ∧ opened.placesKept = true ∧ opened.queuesKept = true ∧ opened.inboundKept = true :=
  ⟨_, rfl, by decide +kernel⟩

/-- A READ in flight holds the blocks of what it has not received, and no service is in progress. -/
theorem blocksKept_tagged : (tagged (readTag .sent)).BlocksKept where
  limit := by decide
  committed := by decide +kernel
  reading := by decide +kernel
  quiet := by decide
theorem completionsFit_tagged : (tagged (readTag .sent)).CompletionsFit where
  room := by decide
  reads := fun e he => absurd he (by simp [tagged, run, inState, State.reset, Inbound.reset])
  takes := fun _ _ _ _ _ h => by cases h
  idle := fun _ => ⟨rfl, fun g h => by cases h.1⟩
  serving := fun v h => by cases h
theorem test_witness_every_step_keeps_accounts :
    (∃ t, step { tagged (readTag .sent) with pending := [.completionTimerExpiry 4] } = .next t)
      ∧ (tagged (readTag .sent)).Accounted ∧ (tagged (readTag .sent)).BlocksKept ∧ (tagged (readTag .sent)).CompletionsFit :=
  ⟨⟨_, rfl⟩, accounted_tagged, blocksKept_tagged, completionsFit_tagged⟩
theorem test_witness_FramesAreReadAsSent :
    FrameBody.fieldsFit (.notice (List.replicate 8 0)) = true ∧ FrameBody.fieldsFit (.rdData 0 0 0 true true (List.replicate 128 0)) = true
      ∧ FrameBody.fieldsFit (.wrReq 0 0 0 0 256 (List.replicate 256 0)) = true ∧ FrameBody.fieldsFit (.wrReq 0 0 0 0 0 []) = true
      ∧ judge joinBits = .recognised { source := 5, body := .join } := by
  decide +kernel

/-- A body whose check holds: the content and its check. -/
def checked (content : List Bool) : List Bool :=
  content ++ bitsOfNat 32 (crc content).toNat
/-- The head of a frame of station 5. -/
def headOf (cls kind target : Nat) : List Bool :=
  bitsOfNat 2 cls ++ bitsOfNat 4 5 ++ bitsOfNat 4 kind ++ bitsOfNat 5 target

theorem test_witness_unrecognisable :
    let body := checked (headOf 3 0 31)
    (47 ≤ body.length ∧ body.drop (body.length - 32) = bitsOfNat 32 (crc (body.take (body.length - 32))).toNat)
      ∧ (∀ f : Frame, body ≠ f.bodyBits) ∧ judge body = .unrecognisable 31 := by
  refine ⟨by decide +kernel, fun f h => ?_, by decide +kernel⟩
  have hclass : f.bodyBits.take 2 = bitsOfNat 2 f.body.frameClass.value := rfl
  rw [← h] at hclass
  revert hclass
  cases f.body.frameClass <;> decide +kernel
theorem test_bodies_that_are_no_frame :
    ([ (headOf 0 2 31, 31), (headOf 1 3 2, 2), (headOf 2 4 2, 2), (headOf 0 0 15, 15), (headOf 0 0 31 ++ [false], 31),
       (headOf 2 0 16 ++ List.replicate 39 false, 16), (headOf 2 0 31 ++ List.replicate 39 false, 31),
       (headOf 2 0 2 ++ List.replicate 40 false, 2), (headOf 2 3 2 ++ List.replicate 64 false, 2),
       (headOf 2 2 2 ++ List.replicate 23 false ++ [true, true] ++ List.replicate 64 false, 2),
       (headOf 2 1 2 ++ List.replicate 23 false ++ bitsOfNat 16 2 ++ List.replicate 8 false, 2),
       (headOf 1 0 2 ++ List.replicate 17 false, 2),
       (headOf 1 0 2 ++ List.replicate 7 false ++ [true, false] ++ bitsOfNat 8 1 ++ List.replicate 8 false, 2),
       (headOf 1 2 2 ++ List.replicate 15 false, 2) ].all
      (fun x => decide (judge (checked x.1) = .unrecognisable x.2))) = true
    ∧ parseBody (headOf 1 0 2 ++ List.replicate 9 false ++ bitsOfNat 8 129 ++ List.replicate (8 * 129) false) = none
    ∧ judge [] = .damaged ∧ judge (joinBits.take 46) = .damaged ∧ judge (false :: joinBits) = .damaged := by
  decide +kernel

/-- An entry in a storage place with another target. -/
def entryFor (slot : Fin 16) (target : Station) (x : EntryState) : RequestEntry :=
  { entry x with slot := slot, frame := { source := 3, body := .rdReq target 4 0 0x1000 64 } }
theorem test_witness_choice :
    let eligible := fun (older : List RequestEntry) (e : RequestEntry) =>
      (e.state = .ready ∨ e.state = .held ∧ e.backoffReached = true) ∧ e.withdrawn = false
        ∧ ∀ x ∈ older, x.frame.body.target ≠ e.frame.body.target
    let held := { entryFor 2 6 .held with backoffReached := true }
    let older := [entryFor 0 5 (.filling 0 64), entryFor 1 5 .ready]
    let d := { Sender.reset with requests := older ++ held :: [entryFor 3 7 .ready] }
    (d.control = none ∧ d.responses = [] ∧ eligible older held
      ∧ ∀ before x after, older = before ++ x :: after → ¬ eligible before x)
    ∧ d.choice = some (.request 2)
    ∧ (∀ before e newer, older = before ++ e :: newer → ¬ eligible before e)
    ∧ ({ d with requests := older } : Sender).choice = none
    ∧ ({ d with requests := [entryFor 0 5 .held, { entryFor 1 6 .ready with withdrawn := true }] } : Sender).choice = none := by
  have hnone : ∀ before x after, [entryFor 0 5 (.filling 0 64), entryFor 1 5 .ready] = before ++ x :: after →
      ¬ ((x.state = .ready ∨ x.state = .held ∧ x.backoffReached = true) ∧ x.withdrawn = false
        ∧ ∀ y ∈ before, y.frame.body.target ≠ x.frame.body.target) := by
    intro before x after h
    match before with
    | [] => cases h; decide
    | [_] => cases h; decide
    | [_, _] => cases h
    | _ :: _ :: _ :: _ => cases h
  exact ⟨⟨rfl, rfl, by decide, hnone⟩, rfl, hnone, rfl, rfl⟩

end Sys2Proof.Tests
end

section
/-!
PROOFS. Fences: what a take leaves where the command is settled at it, and the take of a FENCE (R148, R149, R151).
-/
namespace Sys2Proof.Machine

/-! ## Takes (R148 to R150) -/

/-- R148: a head that can be taken, of a kind the row names, is taken. -/
theorem takeCommand_of_taking {s : State} {c : CommandRecord} {rest : List CommandRecord} (h : s.Taking c rest)
    (ht : s.life.station.takes = true) {kinds : BitVec 4 → Bool} (hk : kinds c.kind = true)
    (run : State → CommandRecord → State) : takeCommand kinds run s = .next (s.take c run).settle := by
  rw [takeCommand, taken_of_taking h ht kinds hk]

/-- R148: a head that cannot be taken stays, and nothing happens (log 2). -/
theorem takeCommand_of_not_mayTake {s : State} {c : CommandRecord} (h : s.issue.commands.head? = some c)
    (hm : s.mayTake c = false) (kinds : BitVec 4 → Bool) (run : State → CommandRecord → State) :
    takeCommand kinds run s = .next s := by
  have hn : s.taken kinds = none := by simp [State.taken, h, hm]
  rw [takeCommand, hn]

/-- R150: in RUNNING a command that passes the check has its kind's own effect. -/
theorem take_of_passes {s : State} {c : CommandRecord} (hr : s.life.station = .running)
    (hp : c.Passes s.life.number) (run : State → CommandRecord → State) : s.take c run = run s.dequeue c := by
  rw [State.take, if_pos hr, bad_eq_false_iff.2 hp, if_neg Bool.false_ne_true]

/-- R149: outside RUNNING a command is settled NOT_RUNNING at its take. -/
theorem take_of_not_running {s : State} (hr : s.life.station ≠ .running) (c : CommandRecord)
    (run : State → CommandRecord → State) : s.take c run = s.dequeue.settleAtTake c .notRunning := by
  rw [State.take, if_neg hr]

/-- Whether a state is settled is no matter of the commands and results that wait in the queues. -/
theorem settled_settleAtTake_dequeue (s : State) (c : CommandRecord) (st : Status) :
    (s.dequeue.settleAtTake c st).settled = s.settled := rfl

/-- R149 to R151: from a settled state, a command settled at its take leaves the head of the command queue gone and its
result behind every earlier one, and nothing else follows at this event. -/
theorem settle_settleAtTake {s : State} {c : CommandRecord} {rest : List CommandRecord}
    (hc : s.issue.commands = c :: rest) (hs : s.settled = true) (st : Status) :
    (s.dequeue.settleAtTake c st).settle = { s with issue := { s.issue with
      commands := rest
      results := s.issue.results ++ [{
        id := c.id
        kind := c.kind
        status := st
        bytesDone := 0
        value := 0 }] } } := by
  rw [settle_of_settled ((settled_settleAtTake_dequeue s c st).trans hs)]
  simp only [State.settleAtTake, State.dequeue, State.withIssue, hc, List.tail_cons]

/-! ## The FENCE (R151) -/

/-- R150: the check asks nothing of a FENCE. -/
theorem passes_of_fence {c : CommandRecord} (hk : c.kind = 4) (own : Station) : c.Passes own := by
  simp [CommandRecord.Passes, hk]

/-- R148: a FENCE is not taken while a context is in use. -/
theorem mayTake_fence_of_contexts {s : State} {c : CommandRecord} (hk : c.kind = 4) (hx : s.issue.contexts ≠ []) :
    s.mayTake c = false := by
  have hw : s.earlierWorkDone c = false := by simp [State.earlierWorkDone, hk, hx]
  rw [State.mayTake, hw, Bool.and_false]

/-- R148, R151: a FENCE at the head that can be taken is taken. -/
theorem exec_fenceCommand_of_taking {s : State} {c : CommandRecord} {rest : List CommandRecord} (h : s.Taking c rest)
    (hk : c.kind = 4) (ht : s.life.station.takes = true) :
    exec .fenceCommand s = .next (s.take c (fun t c => t.settleAtTake c .ok)).settle :=
  takeCommand_of_taking h ht (decide_eq_true hk) _

/-- R148, R151: while a context is in use the FENCE waits, and nothing happens. -/
theorem exec_fenceCommand_of_contexts {s : State} {c : CommandRecord} (h : s.issue.commands.head? = some c)
    (hk : c.kind = 4) (hx : s.issue.contexts ≠ []) : exec .fenceCommand s = .next s :=
  takeCommand_of_not_mayTake h (mayTake_fence_of_contexts hk hx) _ _

/-- R148: the states beside RUNNING in which a command is taken. -/
theorem takes_of_not_running {x : StationState} (h : x = .leaving ∨ x = .detached ∨ x = .halted) :
    x.takes = true ∧ x ≠ .running := by
  rcases h with rfl | rfl | rfl <;> decide

/-- Settles O47: the FENCE is settled at its take, OK or NOT_RUNNING by the station's state; no context is in use before the
take, so none is after it. -/
theorem fencesEndOk : Obligations.FencesEndOk := by
  unfold Obligations.FencesEndOk
  refine ⟨fun c rest s h hs hk => ?_, fun c s h hk hx => exec_fenceCommand_of_contexts h hk hx⟩
  have hx : s.issue.contexts = [] := h.earlierEnded (.inl hk)
  have hsettle := settle_settleAtTake h.commands hs
  simp only [hx, h.noCurrent] at hsettle
  constructor
  · intro hr
    have ht : s.life.station.takes = true := by rw [hr]; rfl
    rw [exec_fenceCommand_of_taking h hk ht, take_of_passes hr (passes_of_fence hk _), hsettle]
  · intro hst
    obtain ⟨ht, hr⟩ := takes_of_not_running hst
    rw [exec_fenceCommand_of_taking h hk ht, take_of_not_running hr, hsettle]

end Sys2Proof.Machine
end

section
/-!
PROOFS. The clear of the incident unit (R179, R186).
-/
namespace Sys2Proof.Machine

/-! ## Accesses that the port takes at once -/

/-- R175, R185: a port that is ready is free. -/
theorem portFree_of_portReady {s : State} (h : s.PortReady) : s.portFree = true := by
  obtain ⟨hrst, hheld⟩ := h
  simp [State.portFree, State.awake, hrst, hheld]

/-- R186: a mask under the byte enables, bit by bit: a lane that is not enabled counts as 0. -/
theorem getLsbD_and_laneMask (m : Word) (e : ByteEnables) {i : Nat} (hi : i < 32) :
    (m &&& laneMask e).getLsbD i = (m.getLsbD i && e.getLsbD (i / 8)) := by
  rw [BitVec.getLsbD_and, getLsbD_laneMask e hi]

/-! ## The incident unit after a clear (R179) -/

/-- R179: a clear zeroes the counters that the mask names and keeps the others. -/
theorem getElem_counters_clear (u : Incidents) (mask : Word) {k : Nat} (hk : k < 13) :
    (u.clear mask).counters[k] = if mask.getLsbD k then 0 else u.counters[k] := by
  rw [Incidents.clear, Vector.getElem_mapFinIdx]

/-- R179: a clear clears the flags that the mask names and keeps the others. -/
theorem getLsbD_flags_clear (u : Incidents) (mask : Word) {i : Nat} (hi : i < 16) :
    (u.clear mask).flags.getLsbD i = (u.flags.getLsbD i && !mask.getLsbD i) := by
  simp [Incidents.clear, hi]

/-- R177, R179: a clear empties the record exactly if the mask names it. -/
theorem lastUnexpected_clear (u : Incidents) (mask : Word) :
    (u.clear mask).lastUnexpected = if mask.getLsbD 16 then none else u.lastUnexpected := rfl

/-- R179: CLEAR reaches the incident unit and completes the access; no other unit changes. -/
theorem exec_clear {s : State} (h : s.PortReady) (m : Word) (e : ByteEnables) :
    exec (.clear m e) s = .next { s with
      incidents := s.incidents.clear (m &&& laneMask e)
      port := Port.done none false } := by
  rw [exec, execClear, portFree_of_portReady h]
  rfl

/-- Settles O12: the clear runs under the mask cut to the enabled lanes, which names a position exactly if both the mask and
its lane's enable do. -/
theorem clearUnderTheMask : Obligations.ClearUnderTheMask := by
  unfold Obligations.ClearUnderTheMask
  intro m e s h named
  have hnamed : ∀ {i : Nat}, i < 32 → (m &&& laneMask e).getLsbD i = named i := getLsbD_and_laneMask m e
  refine ⟨_, exec_clear h m e, fun k => ?_, fun i => ?_, ?_⟩
  · rw [getElem_counters_clear _ _ k.isLt, hnamed (by omega)]
  · rw [getLsbD_flags_clear _ _ i.isLt, hnamed (by omega)]
  · rw [lastUnexpected_clear, hnamed (by decide)]

end Sys2Proof.Machine
end

section
/-!
PROOFS. What happens while RST_N is asserted, and the interrupt level (R175, R181).
-/
namespace Sys2Proof.Machine

/-! ## While RST_N is asserted no unit works (R175)

Each gate of a command is closed while RST_N is asserted, so a command behind a gate changes nothing. -/

/-- An event whose condition does not hold does not take place (log 2). -/
@[simp] theorem whenever_false (s t : State) : whenever false s t = .next s := rfl

/-- R175: while RST_N is asserted the units do not work. -/
theorem awake_of_rstN {s : State} (h : s.life.rstN = true) : s.awake = false := by
  rw [State.awake, h]; rfl

/-- R175: while RST_N is asserted the port takes no access. -/
theorem portFree_of_rstN {s : State} (h : s.life.rstN = true) : s.portFree = false := by
  rw [State.portFree, awake_of_rstN h, Bool.false_and]

/-- R175: while RST_N is asserted no granted transfer completes. -/
theorem grantedTo_of_rstN {s : State} (h : s.life.rstN = true) (c : Claimant) : s.grantedTo c = none := by
  simp [State.grantedTo, awake_of_rstN h]

/-- R175: while RST_N is asserted the store grants nothing. -/
theorem storeCanGrant_of_rstN {s : State} (h : s.life.rstN = true) : s.storeCanGrant = false := by
  simp [State.storeCanGrant, awake_of_rstN h]

/-- R175: while RST_N is asserted no copy begins. -/
theorem copyIsIdle_of_rstN {s : State} (h : s.life.rstN = true) : s.copyIsIdle = false := by
  simp [State.copyIsIdle, awake_of_rstN h]

/-- R175: while RST_N is asserted no landing begins. -/
theorem landingIsIdle_of_rstN {s : State} (h : s.life.rstN = true) : s.landingIsIdle = false := by
  simp [State.landingIsIdle, awake_of_rstN h]

/-- R175: while RST_N is asserted no answer field is observed. -/
theorem answerIsDue_of_rstN {s : State} (h : s.life.rstN = true) : s.answerIsDue = false := by
  simp [State.answerIsDue, awake_of_rstN h]

/-- R175: while RST_N is asserted no resolution is observed. -/
theorem resolutionIsDue_of_rstN {s : State} (h : s.life.rstN = true) : s.resolutionIsDue = false := by
  simp [State.resolutionIsDue, awake_of_rstN h]

/-- R175: while RST_N is asserted no command is taken. -/
theorem takeCommand_of_rstN {s : State} (h : s.life.rstN = true) (kinds : BitVec 4 → Bool)
    (run : State → CommandRecord → State) : takeCommand kinds run s = .next s := by
  cases hc : s.issue.commands.head? with
  | none => simp [takeCommand, State.taken, hc]
  | some c =>
    exact takeCommand_of_not_mayTake hc (by simp [State.mayTake, awake_of_rstN h]) kinds run

/-- R175, log 10: while RST_N is asserted every command but a power-on reset, the release and a byte's loss changes
nothing. -/
theorem exec_of_rstN {c : Instr} {s : State} (h : s.life.rstN = true) (hpower : ∀ straps, c ≠ .powerOnReset straps)
    (hrelease : ∀ straps, c ≠ .rstNRelease straps) (hloss : ∀ o v, c ≠ .storeByteLoss o v) : exec c s = .next s := by
  have hawake := awake_of_rstN h
  have hport := portFree_of_rstN h
  have hgranted := grantedTo_of_rstN h
  cases c with
  | powerOnReset straps => exact absurd rfl (hpower straps)
  | rstNRelease straps => exact absurd rfl (hrelease straps)
  | storeByteLoss o v => exact absurd rfl (hloss o v)
  -- behind the gate of the units
  | storeInitEnd | rstNAssert | contention | transmitConflict | segmentIssue | serviceBegin | drainDone =>
    simp [exec, execStoreInitEnd, execRstNAssert, execContention, execTransmitConflict, execSegmentIssue,
      execServiceBegin, execDrainDone, hawake]
  | answerField | resolution =>
    simp [exec, execAnswerField, execResolution, answerIsDue_of_rstN h, resolutionIsDue_of_rstN h]
  -- behind the gate of the port
  | softReset | start | configWrite | interruptEnablesWrite | post | resultPop | noticePop | clear | unmappedAccess
  | registerWrite | localRead | localWrite =>
    simp [exec, execSoftReset, execStart, execConfigWrite, execInterruptEnablesWrite, execPost, execResultPop,
      execNoticePop, execClear, execUnmappedAccess, execRegisterWrite, execLocalRead, execLocalWrite, hport]
  -- behind the completion of a granted transfer
  | localTransferComplete | copyTransferComplete | serviceWriteTransferComplete | serviceReadTransferComplete
  | atomicTransferComplete | landingTransferComplete =>
    simp [exec, execLocalTransferComplete, execCopyTransferComplete, execServiceWriteTransferComplete,
      execServiceReadTransferComplete, execAtomicTransferComplete, execLandingTransferComplete, hgranted]
  -- behind a request, a timer, an entry or a piece, and then a gate: nothing happens with it or without
  | storeGrant | completionTimerExpiry | staleTimerExpiry | backoffExpiry | copyBegin | landingBegin =>
    simp only [exec, execStoreGrant, execCompletionTimerExpiry, execStaleTimerExpiry, execBackoffExpiry, execCopyBegin,
      execLandingBegin, hawake, storeCanGrant_of_rstN h, copyIsIdle_of_rstN h, landingIsIdle_of_rstN h, whenever_false]
    (repeat' split) <;> rfl
  -- behind the take of the head of the command queue
  | readCommand | writeCommand | atomicCommand | noticeCommand | fenceCommand | leaveCommand | commandOfNoKind =>
    exact takeCommand_of_rstN h _ _

/-! ## The interrupt level (R181) -/

/-- Two words share a set position exactly if their conjunction is not 0. -/
theorem and_ne_zero_iff {w : Nat} (x y : BitVec w) :
    x &&& y ≠ 0 ↔ ∃ i : Fin w, x.getLsbD i.val = true ∧ y.getLsbD i.val = true := by
  rw [Ne, BitVec.eq_of_getLsbD_eq_iff]
  simp only [BitVec.getLsbD_and, BitVec.ofNat_eq_ofNat, BitVec.getLsbD_zero, not_forall, Bool.not_eq_false,
    Bool.and_eq_true, Fin.exists_iff, exists_prop]

/-- R185: the enable of a flag stands at the flag's position in the enables word. -/
theorem getLsbD_flagEnables (enables : BitVec 18) (i : Fin 16) :
    (enables.setWidth 16).getLsbD i.val = enables.getLsbD i.val := by
  simp

/-- R181: the conditions of the interrupt level. -/
theorem intl_iff (s : State) : s.intl = true ↔
    (s.issue.results ≠ [] ∧ s.inForce.enables.getLsbD 16 = true)
    ∨ (s.notices.queue ≠ [] ∧ s.inForce.enables.getLsbD 17 = true)
    ∨ ∃ i : Fin 16, s.incidents.flags.getLsbD i.val = true ∧ s.inForce.enables.getLsbD i.val = true := by
  have hflags := and_ne_zero_iff s.incidents.flags (s.inForce.enables.setWidth 16)
  simp only [getLsbD_flagEnables] at hflags
  rw [← hflags]
  simp [State.intl, or_assoc]

/-- R181: after a reset every queue is empty, every flag clear and every enable 0. -/
theorem intl_resetUnits (s : State) (station : StationState) (own : Station) : (s.resetUnits station own).intl = false := by
  have hreset : (s.resetUnits station own).intl = State.reset.intl := rfl
  rw [hreset]
  decide

/-- R181: INTL does not follow the life cycle. -/
theorem intl_withLife (s : State) (x : LifeCycle) : (s.withLife x).intl = s.intl := rfl

/-- R175, R181: INTL is deasserted once RST_N is asserted. -/
theorem intl_assertReset (s : State) : s.assertReset.intl = false := by
  rw [State.assertReset, intl_withLife, intl_resetUnits]

/-- R175, R187: the release of RST_N samples the straps and leaves INTL as it is. -/
theorem intl_releaseReset (s : State) (straps : Station) : (s.releaseReset straps).intl = s.intl := rfl

/-- R84, R181: INTL does not follow the store. -/
theorem intl_withStore (s : State) (st : Store) : (s.withStore st).intl = s.intl := rfl

/-- Log 2: a command with a condition has its effect or none. -/
theorem whenever_next {b : Bool} {s t u : State} (h : whenever b s t = .next u) : u = t ∨ u = s := by
  cases b with
  | true => exact .inl (Host.Outcome.next.inj h).symm
  | false => exact .inr (Host.Outcome.next.inj h).symm

/-- R175: RST_N is asserted where it was not. -/
theorem exec_rstNAssert {s : State} (h : s.life.rstN = false) : exec .rstNAssert s = .next s.assertReset := by
  simp [exec, execRstNAssert, whenever, State.awake, h]

/-- R181: while RST_N is asserted no command asserts INTL: three commands still act, and none of them reaches what INTL
follows but by a reset. -/
theorem intl_exec_of_rstN {c : Instr} {s t : State} (h : s.life.rstN = true) (hi : s.intl = false)
    (he : exec c s = .next t) : t.intl = false := by
  cases c with
  | powerOnReset straps =>
    obtain rfl := Host.Outcome.next.inj he
    exact intl_resetUnits s .init straps
  | rstNRelease straps =>
    obtain rfl | rfl := whenever_next he
    · rw [intl_releaseReset, hi]
    · exact hi
  | storeByteLoss o v =>
    obtain rfl | rfl := whenever_next he
    · rw [intl_withStore, hi]
    · exact hi
  | _ =>
    rw [exec_of_rstN h (by simp) (by simp) (by simp)] at he
    rwa [← Host.Outcome.next.inj he]

/-- Settles O16: the level as its three conditions, and the resets by the values they leave; the last clause turns on what a
command can still do while RST_N is asserted. -/
theorem interruptLevel : Obligations.InterruptLevel := by
  unfold Obligations.InterruptLevel
  refine ⟨intl_iff, intl_resetUnits, fun s t h he => ?_, fun c s t h hi he => intl_exec_of_rstN h hi he⟩
  rw [exec_rstNAssert h] at he
  rw [← Host.Outcome.next.inj he]
  exact intl_assertReset s

end Sys2Proof.Machine
end

section
/-!
PROOFS. Events: what a command can do, said once. Every command answers one of the events below, and what every event keeps,
every step keeps (log 1).
-/
namespace Sys2Proof.Machine

/-! ## Steps (log 1) -/

/-- Settles O1. -/
theorem stepRunsTheFrontCommand : Obligations.StepRunsTheFrontCommand := by
  unfold Obligations.StepRunsTheFrontCommand
  intro c rest s
  rfl

/-- Log 1: what every command keeps whatever commands wait, every step keeps. -/
theorem step_preserves {p : State → Prop} (hpending : ∀ s rest, p s → p (s.withPending rest))
    (hexec : ∀ c s, ∃ u, exec c s = .next u ∧ (p s → p u)) {s t : State} (h : step s = .next t) (hs : p s) : p t := by
  rw [step] at h
  cases hq : s.pending with
  | nil =>
    rw [hq] at h
    rwa [← Host.Outcome.next.inj h]
  | cons c rest =>
    rw [hq] at h
    obtain ⟨u, hu, keep⟩ := hexec c (s.withPending rest)
    rw [← Host.Outcome.next.inj (hu.symm.trans h)]
    exact keep (hpending s rest hs)

/-! ## The events -/

/-- The effects of the takes, by kind (R150 to R153). -/
inductive TakeEffect : (State → CommandRecord → State) → Prop
  | settles (st : Status) : TakeEffect (fun t c => t.settleAtTake c st)
  | becomesCurrent : TakeEffect State.makeCurrent
  | asksAtOnce : TakeEffect (fun t c => (t.makeCurrent c).issueNext)
  | leaves : TakeEffect State.beginLeave

/-- The events of the units behind the port that reach neither the command queue nor the store nor the station number. -/
inductive State.UnitEvent (s : State) : State → Prop
  | contends (r : ContentionReport) : s.UnitEvent (s.contend r)
  | conflicts : s.UnitEvent s.conflict
  | sendsBody (body : List Bool) : s.UnitEvent (s.sentBody body)
  | answers (body : List Bool) : s.UnitEvent (s.answered body)
  | resolves (others : Answer) (time : Micros) : s.UnitEvent ((s.advance time).resolved others)
  | completionExpires {t : Tag} {d : Micros} (h : (s.tagAt t).completionDeadline = some d) :
      s.UnitEvent (s.completionExpired t d)
  | staleExpires {t : Tag} {d : Micros} (h : (s.tagAt t).staleDeadline = some d) : s.UnitEvent (s.staleExpired t d)
  | backoffExpires {e : RequestEntry} {x : Micros} (he : e ∈ s.sender.requests) (h : e.runningBackoff = some x) :
      s.UnitEvent (s.backoffExpired e x)
  | issues : s.UnitEvent s.issueNext.settle
  | copyBegins (e : RequestEntry) : s.UnitEvent (s.raiseCopy e)
  | copyCompletes (g : Granted) : s.UnitEvent (s.storeIdle.copyCompleted g).settle
  | resultDropped : s.UnitEvent s.storeIdle
  | serviceBegins : s.UnitEvent s.turnService
  | writeServed {g : Granted} {cells : List Host.Cell} (hg : s.grantedTo .service = some g)
      (ht : g.transfer = .write cells) : s.UnitEvent (s.serviceResult g (fun t e v => t.writeServed e v cells.length))
  | readServed {g : Granted} {o n : Nat} (hg : s.grantedTo .service = some g) (ht : g.transfer = .read o n) :
      s.UnitEvent (s.serviceResult g (fun t e v => t.readServed e v g))
  | atomicServed {g : Granted} {o : Nat} {op : AtomicOp} {a b : Word} (hg : s.grantedTo .service = some g)
      (ht : g.transfer = .atomic o op a b) : s.UnitEvent (s.serviceResult g (fun t e _ => t.atomicServed e g))
  | landingBegins {p : Piece} (hp : s.buffer.pieces.head? = some p) (hl : s.buffer.landing = none) :
      s.UnitEvent (s.landingBegun p)
  | lands {l : Landing} (hl : s.buffer.landing = some l) (count : Nat) : s.UnitEvent (s.storeIdle.landed l count)
  | drains : s.UnitEvent s.placeLeave

/-- What a command can do to a state: nothing (log 2), a reset, a port access, a grant, a take, or an event of the units. -/
inductive State.Event (s : State) : Instr → State → Prop
  | stays (c : Instr) : s.Event c s
  | powerOn (c : Instr) (straps : Station) : s.Event c (s.resetUnits .init straps)
  | initEnds (h : s.life.station = .init) : s.Event .storeInitEnd s.initEnds
  | resetAsserted (c : Instr) : s.Event c s.assertReset
  | resetReleased (c : Instr) (straps : Station) : s.Event c (s.releaseReset straps)
  | softReset (c : Instr) : s.Event c ((s.resetUnits .config s.life.number).completeAccess none false)
  | byteLost (o : Offset) (v : Byte) : s.Event (.storeByteLoss o v) (s.withStore (s.store.loseByte o.toNat v))
  | accessed (c : Instr) (data : Option Word) (error : Bool) : s.Event c (s.completeAccess data error)
  | started (c : Instr) : s.Event c (s.startEffect.completeAccess none false)
  | configWritten (c : Instr) (w : ConfigWord) (d : Word) (e : ByteEnables) :
      s.Event c ((s.configWritten w d e).completeAccess none false)
  | enablesWritten (c : Instr) (d : Word) (e : ByteEnables) :
      s.Event c ((s.enablesWritten d e).completeAccess none false)
  | posted (c : Instr) : s.Event c (s.posted.completeAccess none false)
  | resultPopped (c : Instr) (data : Option Word) : s.Event c (s.resultPopped.completeAccess data false)
  | noticePopped (c : Instr) (data : Option Word) : s.Event c (s.noticePopped.completeAccess data false)
  | cleared (c : Instr) (mask : Word) :
      s.Event c ((s.withIncidents (s.incidents.clear mask)).completeAccess none false)
  | stagingWritten (c : Instr) (w : ControlWord) (d : Word) (e : ByteEnables) (data : Option Word) :
      s.Event c ((s.registerWritten w d e).completeAccess data false)
  | held (c : Instr) (h : HeldAccess) : s.Event c (s.holdAccess h)
  | localCompleted (c : Instr) {g : Granted} (h : s.grantedTo .localPort = some g) : s.Event c (s.localCompleted g)
  | grants {c : Claimant} {tr : Transfer} (hr : s.arbiter.raised c = some tr) (h : s.arbiter.granted = none) :
      s.Event .storeGrant (s.granting c tr)
  | takes (c : Instr) {kinds : BitVec 4 → Bool} {run : State → CommandRecord → State} (hrun : TakeEffect run) {t : State}
      (h : takeCommand kinds run s = .next t) : s.Event c t
  | ofUnits (c : Instr) {t : State} (h : s.UnitEvent t) : s.Event c t

/-- Log 2: a conditional event takes place or nothing happens. -/
theorem State.Event.when {s t : State} {c : Instr} (b : Bool) (h : b = true → s.Event c t) :
    ∃ u, whenever b s t = .next u ∧ s.Event c u := by
  cases b with
  | true => exact ⟨t, rfl, h rfl⟩
  | false => exact ⟨s, rfl, .stays c⟩

theorem State.UnitEvent.when {s t : State} {c : Instr} (b : Bool) (h : s.UnitEvent t) :
    ∃ u, whenever b s t = .next u ∧ s.Event c u :=
  State.Event.when b (fun _ => .ofUnits c h)

/-- R148: a take has its kind's effect or does not happen. -/
theorem State.Event.ofTake {s : State} (c : Instr) {kinds : BitVec 4 → Bool} {run : State → CommandRecord → State}
    (hrun : TakeEffect run) : ∃ u, takeCommand kinds run s = .next u ∧ s.Event c u := by
  have hnext : ∃ u, takeCommand kinds run s = .next u := by
    unfold takeCommand
    split <;> exact ⟨_, rfl⟩
  obtain ⟨u, hu⟩ := hnext
  exact ⟨u, hu, .takes c hrun hu⟩

/-- Every command answers a next state, by one of the events. -/
theorem exec_event (c : Instr) (s : State) : ∃ u, exec c s = .next u ∧ s.Event c u := by
  have stays : ∃ u, (.next s : Next) = .next u ∧ s.Event c u := ⟨s, rfl, .stays c⟩
  cases c with
  | powerOnReset straps => exact ⟨_, rfl, .powerOn _ straps⟩
  | storeInitEnd => exact State.Event.when _ (fun h => .initEnds (of_decide_eq_true (Bool.and_eq_true _ _ ▸ h).2))
  | rstNAssert => exact State.Event.when _ (fun _ => .resetAsserted _)
  | rstNRelease straps => exact State.Event.when _ (fun _ => .resetReleased _ straps)
  | softReset e =>
    refine State.Event.when _ (fun _ => ?_)
    split
    · exact .accessed _ none false
    · exact .softReset _
  | storeByteLoss o v => exact State.Event.when _ (fun _ => .byteLost o v)
  | start e =>
    refine State.Event.when _ (fun _ => ?_)
    split
    · exact .accessed _ none false
    · exact .started _
  | configWrite w d e => exact State.Event.when _ (fun _ => .configWritten _ w d e)
  | interruptEnablesWrite d e => exact State.Event.when _ (fun _ => .enablesWritten _ d e)
  | post e =>
    refine State.Event.when _ (fun _ => ?_)
    split
    · exact .accessed _ none false
    · exact .posted _
  | resultPop => exact State.Event.when _ (fun _ => .resultPopped _ _)
  | noticePop => exact State.Event.when _ (fun _ => .noticePopped _ _)
  | clear m e => exact State.Event.when _ (fun _ => .cleared _ _)
  | unmappedAccess o a => exact State.Event.when _ (fun _ => .accessed _ _ _)
  | registerWrite w a =>
    refine State.Event.when _ (fun _ => ?_)
    cases a with
    | read => exact .accessed _ _ _
    | write d e => exact .stagingWritten _ w d e _
  | localRead o => exact State.Event.when _ (fun _ => .held _ _)
  | localWrite o d e => exact State.Event.when _ (fun _ => .held _ _)
  | localTransferComplete =>
    simp only [exec, execLocalTransferComplete]
    split
    · exact ⟨_, rfl, .localCompleted _ ‹_›⟩
    · exact stays
  | storeGrant =>
    simp only [exec, execStoreGrant]
    split
    · exact stays
    · split
      · exact stays
      next hr =>
        refine State.Event.when _ (fun h => .grants hr ?_)
        simp only [State.storeCanGrant, Bool.and_eq_true, Option.isNone_iff_eq_none] at h
        exact h.1.2
  | contention r => exact State.UnitEvent.when _ (.contends r)
  | transmitConflict => exact State.UnitEvent.when _ .conflicts
  | answerField body =>
    refine State.UnitEvent.when _ ?_
    split
    · exact .sendsBody body
    · exact .answers body
  | resolution a t => exact State.UnitEvent.when _ (.resolves a t)
  | completionTimerExpiry t =>
    simp only [exec, execCompletionTimerExpiry]
    split
    · exact State.UnitEvent.when _ (.completionExpires ‹_›)
    · exact stays
  | staleTimerExpiry t =>
    simp only [exec, execStaleTimerExpiry]
    split
    · exact State.UnitEvent.when _ (.staleExpires ‹_›)
    · exact stays
  | backoffExpiry n =>
    simp only [exec, execBackoffExpiry]
    split
    · exact stays
    next he =>
      split
      · exact State.UnitEvent.when _ (.backoffExpires (List.mem_of_getElem? he) ‹_›)
      · exact stays
  | readCommand | writeCommand => exact State.Event.ofTake _ .becomesCurrent
  | atomicCommand | noticeCommand => exact State.Event.ofTake _ .asksAtOnce
  | fenceCommand | commandOfNoKind => exact State.Event.ofTake _ (.settles _)
  | leaveCommand => exact State.Event.ofTake _ .leaves
  | segmentIssue => exact State.UnitEvent.when _ .issues
  | copyBegin =>
    simp only [exec, execCopyBegin]
    split
    · exact State.UnitEvent.when _ (.copyBegins _)
    · exact stays
  | copyTransferComplete =>
    simp only [exec, execCopyTransferComplete]
    split
    · refine ⟨_, rfl, .ofUnits _ ?_⟩
      split
      · exact .resultDropped
      · exact .copyCompletes _
    · exact stays
  | serviceBegin => exact State.UnitEvent.when _ .serviceBegins
  | serviceWriteTransferComplete =>
    simp only [exec, execServiceWriteTransferComplete]
    split
    · exact stays
    · split
      · exact ⟨_, rfl, .ofUnits _ (.writeServed ‹_› ‹_›)⟩
      · exact stays
  | serviceReadTransferComplete =>
    simp only [exec, execServiceReadTransferComplete]
    split
    · exact stays
    · split
      · exact ⟨_, rfl, .ofUnits _ (.readServed ‹_› ‹_›)⟩
      · exact stays
  | atomicTransferComplete =>
    simp only [exec, execAtomicTransferComplete]
    split
    · exact stays
    · split
      · exact ⟨_, rfl, .ofUnits _ (.atomicServed ‹_› ‹_›)⟩
      · exact stays
  | landingBegin =>
    simp only [exec, execLandingBegin]
    split
    next hp =>
      refine State.Event.when _ (fun h => .ofUnits _ (.landingBegins hp ?_))
      simp only [State.landingIsIdle, Bool.and_eq_true, Option.isNone_iff_eq_none] at h
      exact h.1.2
    next => exact stays
  | landingTransferComplete =>
    simp only [exec, execLandingTransferComplete]
    split
    · exact stays
    · split
      next hl => exact ⟨_, rfl, .ofUnits _ (.lands hl _)⟩
      next => exact ⟨_, rfl, .ofUnits _ .resultDropped⟩
  | drainDone => exact State.UnitEvent.when _ .drains

/-- What every event keeps, every step keeps. -/
theorem step_preserves_of_events {p : State → Prop} (hpending : ∀ s rest, p s → p (s.withPending rest))
    (hevent : ∀ {s t : State} {c : Instr}, s.Event c t → p s → p t) {s t : State} (h : step s = .next t) (hs : p s) :
    p t := by
  refine step_preserves hpending (fun c s => ?_) h hs
  obtain ⟨u, hu, hev⟩ := exec_event c s
  exact ⟨u, hu, hevent hev⟩

end Sys2Proof.Machine
end

section
/-!
PROOFS. Kept accounts: every step keeps the accounts of commands (R157) and the commitment law (R45).
-/
namespace Sys2Proof.Machine

/-! ## The events of the units -/

theorem Keeps.storeIdle (s : State) : Keeps s s.storeIdle := .of_eq rfl rfl rfl rfl rfl rfl id

theorem Keeps.advance (s : State) (time : Micros) : Keeps s (s.advance time) := .of_eq rfl rfl rfl rfl rfl rfl id

theorem Keeps.withSpan (s : State) (u : SpanInterface) : Keeps s (s.withSpan u) := .of_eq rfl rfl rfl rfl rfl rfl id

theorem Keeps.serveAt (s : State) (e : InboundEntry) (n : Nat) (piece : List Byte) : Keeps s (s.serveAt e n piece) :=
  .of_eq rfl rfl rfl rfl rfl rfl id

theorem Keeps.serviceEnded (s : State) : Keeps s s.serviceEnded := .of_eq rfl rfl rfl rfl rfl rfl id

theorem Keeps.serviceFailed (s : State) (e : InboundEntry) : Keeps s (s.serviceFailed e) :=
  (Keeps.appendCompletion s e _).trans (.serviceEnded _)

theorem Keeps.writeServed (s : State) (e : InboundEntry) (v : Service) (n : Nat) : Keeps s (s.writeServed e v n) := by
  simp only [State.writeServed]
  split
  · exact .serviceEnded s
  · exact .serveAt s _ _ _

theorem Keeps.readServed (s : State) (e : InboundEntry) (v : Service) (g : Granted) : Keeps s (s.readServed e v g) := by
  simp only [State.readServed]
  split
  · exact .serviceFailed s e
  · split
    · split
      · exact (Keeps.appendCompletion s e _).trans (.serviceEnded _)
      · exact (Keeps.appendCompletion s e _).trans (.serveAt _ _ _ _)
    · exact .serveAt s _ _ _

theorem Keeps.atomicServed (s : State) (e : InboundEntry) (g : Granted) : Keeps s (s.atomicServed e g) := by
  unfold State.atomicServed
  split
  · exact .serviceFailed s e
  · exact (Keeps.appendCompletion s e _).trans (.serviceEnded _)

theorem Keeps.raiseCopy (s : State) (e : RequestEntry) : Keeps s (s.raiseCopy e) := by
  unfold State.raiseCopy
  split
  · exact .of_eq rfl rfl rfl rfl rfl rfl id
  · exact .refl s

theorem Keeps.settleContention (s : State) (lowest : Option (BitVec 6)) : Keeps s (s.settleContention lowest) := by
  unfold State.settleContention
  split
  · split
    · split
      · exact .withSpan s _
      · exact ((Keeps.withSpan s _).trans (.dropWithdrawn _)).trans (.settle _)
    · exact .withSpan s _
  · exact .refl s

theorem Keeps.contend (s : State) (report : ContentionReport) : Keeps s (s.contend report) := by
  cases report with
  | begins => exact .withSpan s _
  | settles lowest =>
    simp only [State.contend, State.settleUnsynced]
    split
    · split
      · exact .refl s
      · exact .withSpan s _
    · exact (Keeps.withSpan s _).trans (.settleContention _ _)

theorem Keeps.conflict (s : State) : Keeps s s.conflict :=
  ((Keeps.of_eq rfl rfl rfl rfl rfl rfl id : Keeps s (s.report .damageSeen)).trans (.ownConflict _)).trans (.settle _)

theorem Keeps.resolved (s : State) (others : Answer) : Keeps s (s.resolved others) := by
  unfold State.resolved
  split
  · exact .withSpan s _
  · split
    · exact (Keeps.withSpan s _).trans (.makeReports _ _ _ ‹_›)
    · exact .withSpan s _

/-- R37: a completion timer that runs is that of a segment in flight. -/
theorem inFlight_of_completionDeadline {r : TagRecord} {d : Micros} (h : r.completionDeadline = some d) :
    r.state.inFlight = true := by
  unfold TagRecord.completionDeadline at h
  split at h
  · exact awaits_inFlight (awaits_iff ‹_›)
  · cases h

/-- R38: a stale timer that runs is that of a STALE tag. -/
theorem stale_of_staleDeadline {r : TagRecord} {d : Micros} (h : r.staleDeadline = some d) : r.state = .stale := by
  unfold TagRecord.staleDeadline at h
  split at h
  · assumption
  · cases h

theorem Keeps.completionExpired {s : State} {t : Tag} {d : Micros} (h : (s.tagAt t).completionDeadline = some d) :
    Keeps s (s.completionExpired t d) :=
  ((Keeps.advance s d).trans (Keeps.endSegment .timeout none (inFlight_of_completionDeadline h))).trans (.settle _)

theorem Keeps.staleExpired {s : State} {t : Tag} {d : Micros} (h : (s.tagAt t).staleDeadline = some d) :
    Keeps s (s.staleExpired t d) :=
  ((Keeps.advance s d).trans (Keeps.freeStaleTag (s := s.advance d) (stale_of_staleDeadline h))).trans (.settle _)

/-- R112: a backoff that runs is that of an entry not withdrawn. -/
theorem not_withdrawn_of_runningBackoff {e : RequestEntry} {x : Micros} (h : e.runningBackoff = some x) :
    e.withdrawn = false := by
  unfold RequestEntry.runningBackoff at h
  split at h
  next hrun => exact hrun.2.2
  next => cases h

theorem Keeps.updateEntryBackoff (s : State) (slot : Fin 16) :
    Keeps s (s.updateEntry slot (fun x => { x with backoffReached := true })) :=
  .mapRequests (fun e => if e.slot = slot then { e with backoffReached := true } else e)
    (fun e => by split <;> exact ⟨rfl, rfl, rfl, rfl⟩) rfl rfl rfl rfl rfl rfl rfl

theorem Keeps.backoffExpired {s : State} {e : RequestEntry} {x : Micros} (he : e ∈ s.sender.requests)
    (h : e.runningBackoff = some x) : Keeps s (s.backoffExpired e x) := by
  simp only [State.backoffExpired]
  refine ((Keeps.advance s x).trans ?_).trans (.settle _)
  split
  · exact .endEntry (s := s.advance x) he (not_withdrawn_of_runningBackoff h) _
  · exact .updateEntryBackoff _ _

/-- R44, R157: the events of the units keep the accounts and the commitment law. -/
theorem Keeps.ofUnits {s t : State} (h : s.UnitEvent t) : Keeps s t := by
  cases h with
  | contends r => exact .contend s r
  | conflicts => exact .conflict s
  | sendsBody body => exact .withSpan s _
  | answers body => exact .withSpan s _
  | resolves others time => exact (Keeps.advance s time).trans (.resolved _ others)
  | completionExpires hd => exact .completionExpired hd
  | staleExpires hd => exact .staleExpired hd
  | backoffExpires he hx => exact .backoffExpired he hx
  | issues => exact (Keeps.issueNext s).trans (.settle _)
  | copyBegins e => exact .raiseCopy s e
  | copyCompletes g => exact ((Keeps.storeIdle s).trans (.copyCompleted _ g)).trans (.settle _)
  | resultDropped => exact .storeIdle s
  | serviceBegins => exact .turnService s
  | writeServed => exact .serviceResult s _ _ (fun t e v => .writeServed t e v _)
  | readServed => exact .serviceResult s _ _ (fun t e v => .readServed t e v _)
  | atomicServed => exact .serviceResult s _ _ (fun t e _ => .atomicServed t e _)
  | landingBegins hp hl => exact .of_eq rfl rfl rfl rfl (occupied_landingBegun hp hl) rfl id
  | lands hl count => exact (Keeps.storeIdle s).trans (.landed (s := s.storeIdle) count hl)
  | drains => exact .of_eq rfl rfl rfl rfl rfl rfl id

/-! ## The other events -/

/-- R174, R175: what a reset leaves meets both laws, and so does what changes neither of them after it. -/
theorem Keeps2.ofReset {s t : State} (station : StationState) (own : Station)
    (h : Keeps2 (s.resetUnits station own) t) : Keeps2 s t :=
  ⟨fun _ => h.1 (kept_reset s station own).1,
    fun _ _ => h.2 (kept_reset s station own).1 (kept_reset s station own).2⟩

theorem Keeps2.trans {s t u : State} (h : Keeps2 s t) (k : Keeps2 t u) : Keeps2 s u :=
  ⟨fun a => k.1 (h.1 a), fun a b => k.2 (h.1 a) (h.2 a b)⟩

/-- R167: a record that START accepts has a commitment limit within 96. -/
theorem commitmentLimit_le_of_valid {c : ConfigRecord} (h : c.firstInvalid = none) : c.commitmentLimit.toNat ≤ 96 := by
  by_contra hlt
  simp [ConfigRecord.firstInvalid, show 96 < c.commitmentLimit.toNat by omega] at h

/-- R45, R167: a START in CONFIG puts a valid limit in force while nothing is reserved or occupied. -/
theorem Keeps2.startInConfig {s : State} (hst : s.life.station = .config) (hv : s.written.firstInvalid = none) :
    Keeps2 s (s.withInForce s.written).beginJoining := by
  refine ⟨State.Accounted.of_eq rfl rfl rfl rfl, fun _ k => ?_⟩
  obtain ⟨_, hres, hocc⟩ := k.quiet (.inr hst)
  have hnone : s.reservedBlocks + s.buffer.occupied ≤ s.written.commitmentLimit.toNat := by omega
  exact {
    limit := commitmentLimit_le_of_valid hv
    committed := hnone
    reading := k.reading
    quiet := fun h => by rcases h with h | h <;> cases h }

/-- R168: a START in DETACHED keeps the record in force. -/
theorem Keeps.beginJoining (s : State) : Keeps s s.beginJoining :=
  .of_eq rfl rfl rfl rfl rfl rfl (fun h => by rcases h with h | h <;> cases h)

theorem Keeps2.startEffect (s : State) : Keeps2 s s.startEffect := by
  unfold State.startEffect
  split
  next hst =>
    split
    · exact .same rfl rfl rfl rfl rfl rfl rfl
    · exact .startInConfig hst ‹_›
  next =>
    split
    · exact (Keeps.beginJoining s).two
    · exact (Keeps.refl s).two

theorem Keeps2.completeAccess (s : State) (data : Option Word) (error : Bool) : Keeps2 s (s.completeAccess data error) :=
  .same rfl rfl rfl rfl rfl rfl rfl

theorem Keeps2.configWritten (s : State) (w : ConfigWord) (d : Word) (e : ByteEnables) :
    Keeps2 s (s.configWritten w d e) := by
  unfold State.configWritten
  split
  · exact (Keeps.refl s).two
  · split <;> exact .same rfl rfl rfl rfl rfl rfl rfl

theorem Keeps2.posted (s : State) : Keeps2 s s.posted := by
  unfold State.posted
  split <;> exact .same rfl rfl rfl rfl rfl rfl rfl

theorem Keeps2.registerWritten (s : State) (w : ControlWord) (d : Word) (e : ByteEnables) :
    Keeps2 s (s.registerWritten w d e) := by
  unfold State.registerWritten
  split <;> exact .same rfl rfl rfl rfl rfl rfl rfl

theorem Keeps2.holdAccess (s : State) (h : HeldAccess) : Keeps2 s (s.holdAccess h) := by
  simp only [State.holdAccess]
  split <;> exact .same rfl rfl rfl rfl rfl rfl rfl

theorem Keeps2.localCompleted (s : State) (g : Granted) : Keeps2 s (s.localCompleted g) := by
  unfold State.localCompleted
  split <;> exact .same rfl rfl rfl rfl rfl rfl rfl

theorem Keeps2.granting (s : State) (c : Claimant) (tr : Transfer) : Keeps2 s (s.granting c tr) := by
  simp only [State.granting]
  split <;> exact .same rfl rfl rfl rfl rfl rfl rfl

theorem Keeps.initEnds {s : State} (h : s.life.station = .init) : Keeps s s.initEnds := by
  simp only [State.initEnds]
  split <;> exact .of_eq rfl rfl rfl rfl rfl rfl (fun _ => .inl h)

/-- R148 to R153: the effect of each kind's take, from a state in which it can be taken. -/
theorem Keeps.takeEffect {run : State → CommandRecord → State} (hrun : TakeEffect run) (t : State) (c : CommandRecord)
    (h1 : t.issue.current = none) (h2 : t.issue.contexts.length < 32) (h3 : t.life.station = .running) :
    Keeps t (run t c) := by
  cases hrun with
  | settles st => exact .of_eq rfl rfl rfl rfl rfl rfl id
  | becomesCurrent => exact .makeCurrent c h1 h2 h3
  | asksAtOnce => exact (Keeps.makeCurrent c h1 h2 h3).trans (.issueNext _)
  | leaves => exact .beginLeave c h1 h2

/-- R45, R157: every event keeps the accounts, and with them the commitment law. -/
theorem Keeps2.ofEvent {s t : State} {c : Instr} (h : s.Event c t) : Keeps2 s t := by
  cases h with
  | stays => exact (Keeps.refl s).two
  | powerOn _ straps => exact .ofReset .init straps (Keeps.refl _).two
  | initEnds h => exact (Keeps.initEnds h).two
  | resetAsserted =>
    exact .ofReset (if s.life.station = .init then .init else .config) s.life.number (.same rfl rfl rfl rfl rfl rfl rfl)
  | resetReleased | byteLost | enablesWritten | resultPopped | noticePopped | cleared =>
    exact .same rfl rfl rfl rfl rfl rfl rfl
  | softReset => exact .ofReset .config s.life.number (.completeAccess _ _ _)
  | accessed _ data error => exact .completeAccess s data error
  | started => exact (Keeps2.startEffect s).trans (.completeAccess _ _ _)
  | configWritten _ w d e => exact (Keeps2.configWritten s w d e).trans (.completeAccess _ _ _)
  | posted => exact (Keeps2.posted s).trans (.completeAccess _ _ _)
  | stagingWritten _ w d e => exact (Keeps2.registerWritten s w d e).trans (.completeAccess _ _ _)
  | held _ h => exact .holdAccess s h
  | localCompleted => exact .localCompleted s _
  | grants => exact .granting s _ _
  | takes _ hrun h =>
    obtain ⟨u, hu, keep⟩ := Keeps2.take s _ _ (Keeps.takeEffect hrun)
    rwa [← Host.Outcome.next.inj (hu.symm.trans h)]
  | ofUnits _ h => exact (Keeps.ofUnits h).two

/-- The queue of waiting commands is no matter of the accounts. -/
theorem Keeps2.withPending (s : State) (rest : List Instr) : Keeps2 s (s.withPending rest) :=
  .same rfl rfl rfl rfl rfl rfl rfl

/-- Settles O57: every event keeps the accounts. -/
theorem everyStepKeepsTheAccounts : Obligations.EveryStepKeepsTheAccounts := by
  unfold Obligations.EveryStepKeepsTheAccounts
  intro s t
  exact step_preserves_of_events (fun s rest => (Keeps2.withPending s rest).1) (fun h => (Keeps2.ofEvent h).1)

/-- Settles O58: every event keeps the accounts and the commitment law together. -/
theorem everyStepKeepsTheCommitment : Obligations.EveryStepKeepsTheCommitment := by
  unfold Obligations.EveryStepKeepsTheCommitment
  intro s t h ha hb
  have both : t.Accounted ∧ t.BlocksKept :=
    step_preserves_of_events (p := fun s => s.Accounted ∧ s.BlocksKept)
      (fun s rest k => ⟨(Keeps2.withPending s rest).1 k.1, (Keeps2.withPending s rest).2 k.1 k.2⟩)
      (fun h k => ⟨(Keeps2.ofEvent h).1 k.1, (Keeps2.ofEvent h).2 k.1 k.2⟩) h ⟨ha, hb⟩
  exact both.2

end Sys2Proof.Machine
end

section
/-!
PROOFS. Kept response queue: every step keeps the response queue within its 16 entries, with room for the completions of the
service in progress (R72, R104).
-/
namespace Sys2Proof.Machine

/-! ## The events of the units -/

theorem KeepsFit.lost (s : State) (lowest : Option (BitVec 6)) : KeepsFit s (s.lost lowest) := by
  unfold State.lost
  refine KeepsFit.trans ?_ (KeepsFit.settle _)
  exact .holding rfl rfl (work_begun lowest) rfl

theorem KeepsFit.settleContention (s : State) (lowest : Option (BitVec 6)) : KeepsFit s (s.settleContention lowest) := by
  unfold State.settleContention
  split
  · split
    · split
      · exact .holding rfl rfl (work_won s) rfl
      · exact .lost s lowest
    · exact .holding rfl rfl (work_begun lowest) rfl
  · exact .refl s

/-- R2: the beginning of a contention leaves the receive holding. -/
theorem received_beginContention (u : SpanInterface) : u.beginContention.received = u.received := by
  unfold SpanInterface.beginContention
  split <;> rfl

theorem Fits.withSpan {s : State} {u : SpanInterface} (h : u.received = s.span.received) : Fits s (s.withSpan u) :=
  .same rfl rfl h rfl

theorem KeepsFit.contend (s : State) (report : ContentionReport) : KeepsFit s (s.contend report) := by
  have begins := (Fits.withSpan (received_beginContention s.span)).keepsFit
  cases report with
  | begins => exact begins
  | settles lowest =>
    simp only [State.contend, State.settleUnsynced]
    split
    · split
      · exact .refl s
      · exact (Fits.withSpan (u := { s.span with phase := .idle }) rfl).keepsFit
    · exact begins.trans (.settleContention _ _)

theorem KeepsFit.conflict (s : State) : KeepsFit s s.conflict :=
  ((Fits.same rfl rfl rfl rfl : Fits s (s.report .damageSeen)).keepsFit.trans (.ownConflict _)).trans (.settle _)

/-- R64, R65: a take that this station keeps of a RD_REQ has 1 to 256 bytes to read. -/
theorem bounds_of_receive {s : State} {body : List Bool} {t : Station} {tag : Tag} {g : Generation} {o : Offset}
    {n : BitVec 16} (h : (s.receive body (judge body)).work = some (.rdReq t tag g o n)) : 1 ≤ n.toNat ∧ n.toNat ≤ 256 := by
  cases hj : judge body with
  | damaged | unrecognisable => simp [hj, State.receive, Received.work] at h
  | recognised f =>
    simp only [hj, State.receive, Received.work, Option.map_some, Option.ite_none_right_eq_some, Option.some.injEq] at h
    exact takesFrom_bounds h.1 h.2

theorem KeepsFit.answered (s : State) (body : List Bool) : KeepsFit s (s.answered body) := by
  intro k
  refine { k with takes := fun t tag g o n h => ?_ }
  simp only [State.answered, State.withSpan, Option.bind_some] at h
  split at h
  · exact bounds_of_receive h
  · simp at h

theorem KeepsFit.resolved (s : State) (others : Answer) : KeepsFit s (s.resolved others) := by
  intro k
  have turns : KeepsFit s s.turnIdle := .holding rfl rfl rfl rfl
  have turned := turns k
  unfold State.resolved
  split
  · exact turned
  · split
    · exact KeepsFit.makeReports _ _ _ k.takes turned
    · exact turned

theorem Fits.advance (s : State) (time : Micros) : Fits s (s.advance time) := .same rfl rfl rfl rfl

theorem Fits.setTag (s : State) (t : Tag) (r : TagRecord) : Fits s (s.setTag t r) := .same rfl rfl rfl rfl

theorem KeepsFit.backoffExpired (s : State) (e : RequestEntry) (x : Micros) : KeepsFit s (s.backoffExpired e x) := by
  simp only [State.backoffExpired]
  refine KeepsFit.trans (Fits.keepsFit ?_) (.settle _)
  split
  · exact (Fits.advance s x).trans (.endEntry _ _ _)
  · exact .same rfl rfl rfl rfl

theorem KeepsFit.copyCarried (s : State) (e : RequestEntry) (data : List Byte) : KeepsFit s (s.copyCarried e data) := by
  have updated : ∀ f, Fits s (s.updateEntry (e.copied data).slot f) := fun f => .same rfl rfl rfl rfl
  have ready : ∀ f, Fits s (s.updateEntry (e.copied data).slot f).noCopy := fun f => .same rfl rfl rfl rfl
  simp only [State.copyCarried]
  split
  · exact (ready _).keepsFit
  · exact (updated _).keepsFit.trans (.raiseCopy _ _)

theorem KeepsFit.copyCompleted (s : State) (g : Granted) : KeepsFit s (s.copyCompleted g) := by
  unfold State.copyCompleted
  split
  · split
    · exact (Fits.endEntry s _ _).keepsFit
    · exact .copyCarried s _ _
  · exact .refl s

theorem Fits.withBuffer (s : State) (b : CompletionBuffer) : Fits s (s.withBuffer b) := .same rfl rfl rfl rfl

theorem KeepsFit.landAt (s : State) (p : Piece) (n : Nat) : KeepsFit s (s.landAt p n) :=
  (Fits.withBuffer s _).keepsFit.trans (KeepsFit.raiseOther _ .landing _ (by decide))

theorem KeepsFit.landingBegun (s : State) (p : Piece) : KeepsFit s (s.landingBegun p) :=
  (Fits.withBuffer s { s.buffer with pieces := s.buffer.pieces.tail }).keepsFit.trans (.landAt _ _ _)

theorem KeepsFit.takeNextPiece (s : State) : KeepsFit s s.takeNextPiece := by
  unfold State.takeNextPiece
  split
  · exact .landingBegun s _
  · exact .refl s

theorem KeepsFit.landed (s : State) (l : Landing) (count : Nat) : KeepsFit s (s.landed l count) := by
  have reported := (Fits.withBuffer s { s.buffer with landing := none }).trans (.landingReported _ l.piece)
  simp only [State.landed, State.landingEnded]
  split
  · exact (reported.keepsFit.trans (.takeNextPiece _)).trans (.settle _)
  · exact .landAt s _ _

/-! ## The service (R73 to R77) -/

/-- R73, R74, R76: the transfer of a service tells the kind of the request that it serves. -/
theorem work_of_transferAt {e : InboundEntry} {p : Nat} :
    (∀ cells, e.transferAt p = .write cells → ∃ payload, e.work = .write payload)
    ∧ (∀ o n, e.transferAt p = .read o n → ∃ length, e.work = .read length
      ∧ n = chunk (e.offset + p) (pieceRemaining p length))
    ∧ (∀ o op a b, e.transferAt p = .atomic o op a b → ∃ op a b, e.work = .atomic op a b) := by
  cases hw : e.work <;> simp [InboundEntry.transferAt, hw, readChunk, writeChunk]

/-- R13, R74: a transfer of a READ moves on by at least one byte, and not beyond the end of its piece. -/
theorem readChunk_bounds {o p n : Nat} (h : p < n) :
    1 ≤ chunk o (pieceRemaining p n) ∧ chunk o (pieceRemaining p n) ≤ 128 - p % 128
      ∧ chunk o (pieceRemaining p n) ≤ n - p := by
  simp only [chunk, pieceRemaining, nextBoundary, Config.pieceBytes]
  omega

section
variable {s : State} {g : Granted} {e : InboundEntry} {v : Service} {rest : List InboundEntry}
  (k : s.CompletionsFit) (hg : s.arbiter.Serves g) (hq : s.inbound.queue = e :: rest) (hv : s.inbound.service = some v)
include k hg hq hv

/-- What holds of the service whose transfer completes. -/
theorem serving_facts : e.begun = true ∧ (∀ n, e.work = .read n → v.position < n ∧ n ≤ 256)
    ∧ s.arbiter.raisedService = none ∧ g.transfer = e.transferAt v.position
    ∧ (∀ o n, g.transfer = .read o n → g.data.length = n) ∧ s.sender.responses.length + e.owed v.position ≤ 16 := by
  obtain ⟨_, _, hrest⟩ := completionsFit_serving k hg (by rw [hq]; rfl) hv
  exact hrest

/-- R71: the service of a request ends. -/
theorem completionsFit_serviceEnded : s.storeIdle.serviceEnded.CompletionsFit := by
  obtain ⟨-, -, hraised, -, -, hroom⟩ := serving_facts k hg hq hv
  refine completionsFit_ended k hq (u := s.storeIdle.serviceEnded) ?_ ?_ rfl hraised (not_serves_idle s)
  · change (⟨s.inbound.queue.tail, none⟩ : Inbound) = _
    rw [hq, List.tail_cons]
  · change s.sender.responses.length ≤ 16
    omega

/-- R75 to R77: the service of a request ends with one of the completions that it owes. -/
theorem completionsFit_endsWith (b : FrameBody) (howed : 1 ≤ e.owed v.position) :
    ((s.storeIdle.appendCompletion e b).serviceEnded).CompletionsFit := by
  obtain ⟨-, -, hraised, -, -, hroom⟩ := serving_facts k hg hq hv
  obtain ⟨hin, hsp, har⟩ := rest_appendCompletion s.storeIdle e b
  have hlen : (s.storeIdle.appendCompletion e b).sender.responses.length ≤ s.sender.responses.length + 1 :=
    length_appendCompletion s.storeIdle e b
  refine completionsFit_ended k hq (u := (s.storeIdle.appendCompletion e b).serviceEnded) ?_ ?_ ?_ ?_ ?_
  · rw [State.serviceEnded, hin]
    change (⟨s.inbound.queue.tail, none⟩ : Inbound) = _
    rw [hq, List.tail_cons]
  · change (s.storeIdle.appendCompletion e b).sender.responses.length ≤ 16
    omega
  · exact congrArg SpanInterface.received hsp
  · exact (congrArg Arbiter.raisedService har).trans hraised
  · intro x
    change ¬ (s.storeIdle.appendCompletion e b).arbiter.Serves x
    rw [har]
    exact not_serves_idle s x

/-- R73, R74: the service goes on at `p`, after no completion or one. -/
theorem completionsFit_serveAt {u : State} (h1 : u.inbound = s.inbound) (h2 : u.span = s.span)
    (h3 : u.arbiter = s.storeIdle.arbiter) {p : Nat} (piece : List Byte)
    (hroom : u.sender.responses.length + e.owed p ≤ 16) (hp : ∀ n, e.work = .read n → p < n) :
    (u.serveAt e p piece).CompletionsFit := by
  obtain ⟨hbegun, -, -, -, -, -⟩ := serving_facts k hg hq hv
  refine completionsFit_goesOn k hq hbegun (u := u.serveAt e p piece) (p := p) (piece := piece) ?_ hroom
    (congrArg SpanInterface.received h2) rfl (fun x => ?_) hp
  · change ({ u.inbound with service := some { position := p, piece := piece } } : Inbound) = _
    simp only [h1, hq]
  · have hidle : ¬ u.arbiter.Serves x := by rw [h3]; exact not_serves_idle s x
    exact hidle

theorem completionsFit_writeServed {cells : List Host.Cell} (ht : g.transfer = .write cells) (count : Nat) :
    (s.storeIdle.writeServed e v count).CompletionsFit := by
  obtain ⟨-, -, -, htr, -, hroom⟩ := serving_facts k hg hq hv
  obtain ⟨payload, hw⟩ := work_of_transferAt.1 cells (htr.symm.trans ht)
  simp only [State.writeServed]
  split
  · exact completionsFit_serviceEnded k hg hq hv
  · refine completionsFit_serveAt k hg hq hv (u := s.storeIdle) rfl rfl rfl [] ?_ (by simp [hw])
    simp only [InboundEntry.owed, hw] at hroom ⊢
    exact hroom

theorem completionsFit_atomicServed {o : Nat} {op : AtomicOp} {a b : Word} (ht : g.transfer = .atomic o op a b) :
    (s.storeIdle.atomicServed e g).CompletionsFit := by
  obtain ⟨-, -, -, htr, -, -⟩ := serving_facts k hg hq hv
  obtain ⟨_, _, _, hw⟩ := work_of_transferAt.2.2 o op a b (htr.symm.trans ht)
  have howed : 1 ≤ e.owed v.position := by simp [InboundEntry.owed, hw]
  unfold State.atomicServed State.serviceFailed
  split <;> exact completionsFit_endsWith k hg hq hv _ howed

theorem completionsFit_readServed {o count : Nat} (ht : g.transfer = .read o count) :
    (s.storeIdle.readServed e v g).CompletionsFit := by
  obtain ⟨-, hread, -, htr, hdata, hroom⟩ := serving_facts k hg hq hv
  obtain ⟨n, hw, hcount⟩ := work_of_transferAt.2.1 o count (htr.symm.trans ht)
  obtain ⟨hlt, -⟩ := hread n hw
  obtain ⟨hmin, hpiece, hend⟩ := readChunk_bounds (o := e.offset + v.position) hlt
  have hlen : g.data.length = count := hdata o count ht
  have howed : 1 ≤ e.owed v.position := owed_pos hw hlt
  have hlength : e.work.length = n := by rw [hw]; rfl
  have hat : ∀ p, e.owed p = (n + 127) / 128 - p / 128 := fun p => by simp [InboundEntry.owed, hw]
  rw [hat] at hroom
  have hgoes : ∀ {p}, ¬ n ≤ p → ∀ m, e.work = .read m → p < m := fun hp m hm => by
    cases hw.symm.trans hm
    omega
  simp only [State.readServed, hlength]
  split
  · exact completionsFit_endsWith k hg hq hv _ howed
  · split
    next hc =>
      split
      · exact completionsFit_endsWith k hg hq hv _ howed
      next hnot =>
        obtain ⟨hin, hsp, har⟩ := rest_appendCompletion s.storeIdle e
          (e.pieceBody (v.position + g.data.length) (v.piece ++ g.data))
        have hone := length_appendCompletion s.storeIdle e (e.pieceBody (v.position + g.data.length) (v.piece ++ g.data))
        change _ ≤ s.sender.responses.length + 1 at hone
        simp only [pieceComplete, Config.pieceBytes, Bool.or_eq_true, decide_eq_true_eq] at hc
        refine completionsFit_serveAt k hg hq hv hin hsp har [] ?_ (hgoes hnot)
        rw [hat]
        omega
    next hc =>
      simp only [pieceComplete, Config.pieceBytes, Bool.or_eq_true, decide_eq_true_eq, not_or] at hc
      refine completionsFit_serveAt k hg hq hv (u := s.storeIdle) rfl rfl rfl _ ?_ (hgoes hc.2)
      rw [hat]
      change s.sender.responses.length + _ ≤ 16
      omega

end

/-- R101: the choice of the offer is no matter of what is received. -/
theorem received_follow (u : SpanInterface) (choice : Option Place) : (u.follow choice).received = u.received := by
  unfold SpanInterface.follow
  split <;> rfl

/-- R103: a frame is placed in the control slot and offered. -/
theorem Fits.controlPlaced (s : State) (c : ControlFrame) :
    Fits s (s.withSender { s.sender with control := some c }).refreshOffer :=
  .same rfl rfl (received_follow _ _) rfl

theorem Fits.beginJoining (s : State) : Fits s s.beginJoining := .same rfl rfl (received_follow _ _) rfl

/-- R72, R104: the events of the units keep the response queue. -/
theorem KeepsFit.ofUnits {s t : State} (h : s.UnitEvent t) : KeepsFit s t := by
  cases h with
  | contends r => exact .contend s r
  | conflicts => exact .conflict s
  | sendsBody body => exact .holding rfl rfl rfl rfl
  | answers body => exact .answered s body
  | resolves others time => exact (Fits.advance s time).keepsFit.trans (.resolved _ others)
  | completionExpires => exact ((Fits.advance s _).trans (.endSegment _ _ _ _)).keepsFit.trans (.settle _)
  | staleExpires => exact ((Fits.advance s _).trans (.setTag _ _ _)).keepsFit.trans (.settle _)
  | backoffExpires => exact .backoffExpired s _ _
  | issues => exact (Fits.issueNext s).keepsFit.trans (.settle _)
  | copyBegins e => exact .raiseCopy s e
  | copyCompletes g => exact ((KeepsFit.storeIdle s).trans (.copyCompleted _ g)).trans (.settle _)
  | resultDropped => exact .storeIdle s
  | serviceBegins => exact .turnService s
  | writeServed hg ht =>
    exact .serviceResult _ (grantedTo_serves hg) (fun e v rest k hq hv hs => completionsFit_writeServed k hs hq hv ht _)
  | readServed hg ht =>
    exact .serviceResult _ (grantedTo_serves hg) (fun e v rest k hq hv hs => completionsFit_readServed k hs hq hv ht)
  | atomicServed hg ht =>
    exact .serviceResult _ (grantedTo_serves hg) (fun e v rest k hq hv hs => completionsFit_atomicServed k hs hq hv ht)
  | landingBegins => exact .landingBegun s _
  | lands _ count => exact (KeepsFit.storeIdle s).trans (.landed _ _ count)
  | drains => exact (Fits.controlPlaced s _).keepsFit

/-! ## The other events -/

/-- R174, R175: what a reset leaves meets the law. -/
theorem completionsFit_resetUnits (s : State) (station : StationState) (own : Station) :
    (s.resetUnits station own).CompletionsFit :=
  completionsFit_cleared rfl rfl rfl rfl (fun _ h => by cases h.1)

theorem Fits.completeAccess (s : State) (data : Option Word) (error : Bool) : Fits s (s.completeAccess data error) :=
  .same rfl rfl rfl rfl

theorem Fits.startEffect (s : State) : Fits s s.startEffect := by
  unfold State.startEffect
  split
  · split
    · exact .same rfl rfl rfl rfl
    · exact (Fits.same rfl rfl rfl rfl : Fits s (s.withInForce s.written)).trans (.beginJoining _)
  · split
    · exact .beginJoining s
    · exact .refl s

theorem Fits.configWritten (s : State) (w : ConfigWord) (d : Word) (e : ByteEnables) : Fits s (s.configWritten w d e) := by
  unfold State.configWritten
  (repeat' split) <;> exact .same rfl rfl rfl rfl

theorem Fits.posted (s : State) : Fits s s.posted := by
  unfold State.posted
  split <;> exact .same rfl rfl rfl rfl

theorem Fits.registerWritten (s : State) (w : ControlWord) (d : Word) (e : ByteEnables) :
    Fits s (s.registerWritten w d e) := by
  unfold State.registerWritten
  split <;> exact .same rfl rfl rfl rfl

theorem KeepsFit.initEnds (s : State) : KeepsFit s s.initEnds := by
  have entered : Fits s ((s.withStore Store.zeroed).enter .config) := .same rfl rfl rfl rfl
  simp only [State.initEnds]
  split
  · exact entered.keepsFit.trans (KeepsFit.raiseOther _ .localPort _ (by decide))
  · exact entered.keepsFit

theorem KeepsFit.holdAccess (s : State) (h : HeldAccess) : KeepsFit s (s.holdAccess h) := by
  have holds : Fits s (s.withPort { held := some h, completed := none }) := .same rfl rfl rfl rfl
  simp only [State.holdAccess]
  split
  · exact holds.keepsFit
  · exact holds.keepsFit.trans (KeepsFit.raiseOther _ .localPort _ (by decide))

theorem KeepsFit.localCompleted (s : State) (g : Granted) : KeepsFit s (s.localCompleted g) := by
  unfold State.localCompleted
  split
  · exact (KeepsFit.storeIdle s).trans (Fits.completeAccess _ _ _).keepsFit
  · exact (KeepsFit.storeIdle s).trans (Fits.completeAccess _ _ _).keepsFit
  · exact .storeIdle s

/-- R90: what a grant does to the arbiter, and what it leaves alone. -/
theorem granting_frame (s : State) (c : Claimant) (tr : Transfer) :
    (s.granting c tr).inbound = s.inbound ∧ (s.granting c tr).sender = s.sender ∧ (s.granting c tr).span = s.span
      ∧ (s.granting c tr).arbiter = { s.arbiter.setRaised c none with
        pointer := c.following
        granted := some {
          claimant := c
          transfer := tr
          data := tr.data s.store
          parityError := tr.parityError s.store
          discarded := false } } := by
  simp only [State.granting]
  split <;> exact ⟨rfl, rfl, rfl, rfl⟩

/-- R88: taking away a claimant's request leaves that of every other. -/
theorem raisedService_setRaised (a : Arbiter) (c : Claimant) :
    (a.setRaised c none).raisedService = if c = .service then none else a.raisedService := by
  cases c <;> rfl

/-- R90: the transfer granted to the service is the one that it raised. -/
theorem KeepsFit.granting {s : State} {c : Claimant} {tr : Transfer} (hr : s.arbiter.raised c = some tr) :
    KeepsFit s (s.granting c tr) := by
  intro k
  obtain ⟨hin, hsend, hspan, harb⟩ := granting_frame s c tr
  have hraised : (s.granting c tr).arbiter.raisedService = if c = .service then none else s.arbiter.raisedService := by
    rw [harb]
    exact raisedService_setRaised s.arbiter c
  have hserves : ∀ g, (s.granting c tr).arbiter.Serves g → c = .service ∧ g.transfer = tr ∧ g.data = tr.data s.store := by
    rintro g ⟨hg, hc, -⟩
    rw [harb] at hg
    obtain rfl := Option.some.inj hg
    exact ⟨hc, rfl, rfl⟩
  have hown : c = .service → s.arbiter.raisedService = some tr := by
    rintro rfl
    exact hr
  refine {
    room := by rw [hin, hsend]; exact k.room
    reads := by rw [hin]; exact k.reads
    takes := by rw [hspan]; exact k.takes
    idle := fun hv => ?_
    serving := fun v hv => ?_ }
  · rw [hin] at hv
    have hnone := (k.idle hv).1
    have hc : c ≠ .service := fun hc => by simp [hown hc] at hnone
    exact ⟨by rw [hraised, if_neg hc, hnone], fun g hg => hc (hserves g hg).1⟩
  · rw [hin] at hv ⊢
    obtain ⟨e, rest, hq, hbegun, hread, hraise, -⟩ := k.serving v hv
    refine ⟨e, rest, hq, hbegun, hread, fun tr' htr => ?_, fun g hg => ?_⟩
    · rw [hraised] at htr
      split at htr
      · cases htr
      next hc => exact ⟨(hraise tr' htr).1, fun g hg => hc (hserves g hg).1⟩
    · obtain ⟨hc, ht, hd⟩ := hserves g hg
      refine ⟨ht.trans (hraise tr (hown hc)).1, fun o n hn => ?_⟩
      rw [hd, ← ht, hn]
      simp [Transfer.data, Store.readRange]

/-- R148 to R153: the take of each kind leaves the response queue and the service. -/
theorem Fits.takeEffect {run : State → CommandRecord → State} (hrun : TakeEffect run) (t : State) (c : CommandRecord) :
    Fits t (run t c) := by
  have current : Fits t (t.makeCurrent c) := .same rfl rfl rfl rfl
  cases hrun with
  | settles st => exact .same rfl rfl rfl rfl
  | becomesCurrent => exact current
  | asksAtOnce => exact current.trans (.issueNext _)
  | leaves => exact .same rfl rfl rfl rfl

/-- R72, R104: every event keeps the response queue. -/
theorem KeepsFit.ofEvent {s t : State} {c : Instr} (h : s.Event c t) : KeepsFit s t := by
  cases h with
  | stays => exact .refl s
  | powerOn _ straps => exact fun _ => completionsFit_resetUnits s .init straps
  | initEnds => exact .initEnds s
  | resetAsserted =>
    exact fun _ => (Fits.same rfl rfl rfl rfl : Fits (s.resetUnits _ _) s.assertReset).keepsFit
      (completionsFit_resetUnits s (if s.life.station = .init then .init else .config) s.life.number)
  | resetReleased | byteLost | enablesWritten | resultPopped | noticePopped | cleared =>
    refine Fits.keepsFit ?_
    exact .same rfl rfl rfl rfl
  | softReset =>
    exact fun _ => (Fits.completeAccess _ _ _).keepsFit (completionsFit_resetUnits s .config s.life.number)
  | accessed _ data error => exact (Fits.completeAccess s data error).keepsFit
  | started => exact ((Fits.startEffect s).trans (.completeAccess _ _ _)).keepsFit
  | configWritten _ w d e => exact ((Fits.configWritten s w d e).trans (.completeAccess _ _ _)).keepsFit
  | posted => exact ((Fits.posted s).trans (.completeAccess _ _ _)).keepsFit
  | stagingWritten _ w d e => exact ((Fits.registerWritten s w d e).trans (.completeAccess _ _ _)).keepsFit
  | held _ h => exact .holdAccess s h
  | localCompleted => exact .localCompleted s _
  | grants hr => exact .granting hr
  | takes _ hrun h =>
    obtain ⟨u, hu, keep⟩ := KeepsFit.take s _ _ (Fits.takeEffect hrun)
    rwa [← Host.Outcome.next.inj (hu.symm.trans h)]
  | ofUnits _ h => exact .ofUnits h

/-- Settles O59: every event keeps the response queue. -/
theorem everyStepKeepsTheResponseQueue : Obligations.EveryStepKeepsTheResponseQueue := by
  unfold Obligations.EveryStepKeepsTheResponseQueue
  intro s t
  refine step_preserves_of_events (fun s rest => ?_) KeepsFit.ofEvent
  exact (Fits.same rfl rfl rfl rfl : Fits s (s.withPending rest)).keepsFit

end Sys2Proof.Machine
end

section
/-!
PROOFS. Kept bounds: every step keeps the bounded queues and the pool within their sizes (R69, R70, R107, R135, R145, R148).
-/
namespace Sys2Proof.Machine

/-- R69, R107, R135, R145, R148: `t` keeps each of the bounds that `s` keeps, that of the inbound queues provided there is
`room` for what joins them. -/
structure Bounded (room : Prop) (s t : State) : Prop where
  places : s.placesKept = true → t.placesKept = true
  queues : s.queuesKept = true → t.queuesKept = true
  inbound : room → s.inboundKept = true → t.inboundKept = true

theorem Bounded.refl (room : Prop) (s : State) : Bounded room s s := ⟨id, id, fun _ => id⟩

theorem Bounded.trans {room : Prop} {s t u : State} (h : Bounded room s t) (k : Bounded room t u) : Bounded room s u :=
  ⟨fun a => k.places (h.places a), fun a => k.queues (h.queues a), fun r a => k.inbound r (h.inbound r a)⟩

theorem placesKept_iff {s : State} :
    s.placesKept = true ↔ s.issue.contexts.length + s.issue.results.length ≤ 32 := decide_eq_true_iff

theorem queuesKept_iff {s : State} :
    s.queuesKept = true ↔ s.issue.commands.length ≤ 16 ∧ s.sender.requests.length ≤ 16 := by
  simp [State.queuesKept]

theorem inboundKept_iff {s : State} : s.inboundKept = true ↔ s.inbound.queue.length ≤ 16
    ∧ (s.inbound.queue.map InboundEntry.poolBlocks).sum ≤ 64 ∧ s.notices.queue.length ≤ 16 ∧ s.takeHasRoom = true := by
  simp [State.inboundKept, and_assoc]

/-! ## The room of a kept take -/

/-- R66, R136: there is room for what a take of this body joins to its queue. -/
def State.holdsRoomFor (s : State) : FrameBody → Bool
  | .rdReq _ _ _ _ _ => s.inbound.hasRoom 0
  | .atReq _ _ _ _ _ _ _ => s.inbound.hasRoom 0
  | .wrReq _ _ _ _ _ payload => s.inbound.hasRoom (blocksFor payload.length)
  | .notice _ => decide (s.notices.queue.length < Config.noticeEntries)
  | _ => true

/-- The bound on a kept take is the room for its body. -/
theorem takeHasRoom_eq (s : State) :
    s.takeHasRoom = (s.span.received.bind Received.work).all s.holdsRoomFor := by
  unfold State.takeHasRoom
  cases s.span.received.bind Received.work with
  | none => rfl
  | some b => cases b <;> rfl

/-- A shorter queue has the room that a longer one had. -/
theorem holdsRoomFor_mono {s t : State} (h : Shrinks s t) (b : FrameBody) (hb : s.holdsRoomFor b = true) :
    t.holdsRoomFor b = true := by
  cases b with
  | rdReq | wrReq | atReq => exact hasRoom_mono h.inb h.pool _ hb
  | notice =>
    have hlt : s.notices.queue.length < 16 := of_decide_eq_true hb
    exact decide_eq_true (lt_of_le_of_lt h.ntc hlt)
  | _ => rfl

/-- What lets no bounded queue grow keeps every bound. -/
theorem Shrinks.bounded {room : Prop} {s t : State} (h : Shrinks s t) : Bounded room s t where
  places hs := by
    have := placesKept_iff.1 hs
    have := h.ctx
    exact placesKept_iff.2 (by omega)
  queues hs := by
    obtain ⟨hcmd, hreq⟩ := queuesKept_iff.1 hs
    have := h.cmd
    have := h.req
    simp only [Config.requestEntries] at this
    exact queuesKept_iff.2 ⟨by omega, by omega⟩
  inbound _ hs := by
    obtain ⟨hq, hp, hn, htake⟩ := inboundKept_iff.1 hs
    refine inboundKept_iff.2 ⟨h.inb.trans hq, h.pool.trans hp, h.ntc.trans hn, ?_⟩
    rcases h.recd with hr | hr
    · rw [takeHasRoom_eq, hr]
      rw [takeHasRoom_eq] at htake
      cases hb : s.span.received.bind Received.work with
      | none => rfl
      | some b =>
        rw [hb] at htake
        exact holdsRoomFor_mono h b htake
    · rw [takeHasRoom_eq, hr]
      rfl

/-! ## The events that let no queue grow -/

theorem Shrinks.withSpan {s : State} {u : SpanInterface}
    (h : u.received = s.span.received ∨ u.received.bind Received.work = none) : Shrinks s (s.withSpan u) where
  ctx := le_rfl
  cmd := le_rfl
  req := le_max_left _ _
  inb := le_rfl
  pool := le_rfl
  ntc := le_rfl
  recd := h

theorem Shrinks.lost (s : State) (lowest : Option (BitVec 6)) : Shrinks s (s.lost lowest) := by
  unfold State.lost
  refine Shrinks.trans ?_ (Shrinks.settle _)
  refine Shrinks.trans ?_ (Shrinks.filterRequests _ _)
  exact .withSpan (.inr (work_begun lowest))

theorem Shrinks.settleContention (s : State) (lowest : Option (BitVec 6)) : Shrinks s (s.settleContention lowest) := by
  unfold State.settleContention
  split
  · split
    · split
      · exact .withSpan (.inr (work_won s))
      · exact .lost s lowest
    · exact .withSpan (.inr (work_begun lowest))
  · exact .refl s

theorem Shrinks.contend (s : State) (report : ContentionReport) : Shrinks s (s.contend report) := by
  have begins : Shrinks s (s.withSpan s.span.beginContention) := .withSpan (.inl (received_beginContention s.span))
  cases report with
  | begins => exact begins
  | settles lowest =>
    simp only [State.contend, State.settleUnsynced]
    split
    · split
      · exact .refl s
      · exact .withSpan (.inl rfl)
    · exact begins.trans (.settleContention _ _)

theorem Shrinks.conflict (s : State) : Shrinks s s.conflict :=
  ((Shrinks.report s .damageSeen).trans (.ownConflict _)).trans (.settle _)

theorem Shrinks.backoffExpired (s : State) (e : RequestEntry) (x : Micros) : Shrinks s (s.backoffExpired e x) := by
  simp only [State.backoffExpired]
  refine Shrinks.trans (Shrinks.trans (.advance s x) ?_) (.settle _)
  split
  · exact .endEntry _ _ _
  · exact .updateEntry _ _ _

theorem Shrinks.landingBegun (s : State) (p : Piece) : Shrinks s (s.landingBegun p) :=
  .of_eq rfl rfl rfl rfl rfl rfl rfl

theorem Shrinks.placeLeave (s : State) : Shrinks s s.placeLeave :=
  .of_eq rfl rfl rfl rfl rfl rfl (received_follow _ _)

theorem Shrinks.writeServed (s : State) (e : InboundEntry) (v : Service) (n : Nat) : Shrinks s (s.writeServed e v n) := by
  simp only [State.writeServed]
  split
  · exact .serviceEnded s
  · exact .serveAt s _ _ _

theorem Shrinks.readServed (s : State) (e : InboundEntry) (v : Service) (g : Granted) :
    Shrinks s (s.readServed e v g) := by
  simp only [State.readServed]
  split
  · exact .serviceFailed s e
  · split
    · split
      · exact (Shrinks.appendCompletion s e _).trans (.serviceEnded _)
      · exact (Shrinks.appendCompletion s e _).trans (.serveAt _ _ _ _)
    · exact .serveAt s _ _ _

theorem Shrinks.atomicServed (s : State) (e : InboundEntry) (g : Granted) : Shrinks s (s.atomicServed e g) := by
  unfold State.atomicServed
  split
  · exact .serviceFailed s e
  · exact (Shrinks.appendCompletion s e _).trans (.serviceEnded _)

/-! ## The answer field and the resolution -/

/-- R64: the three tests draw ACCEPT only if each passes. -/
theorem threeTests_accept {malformed passes room : Bool} :
    threeTests malformed passes room = .accept ↔ malformed = false ∧ passes = true ∧ room = true := by
  cases malformed <;> cases passes <;> cases room <;> decide

/-- R64: a request that this station accepts has passed the three tests. -/
theorem decideRequest_of_answerRequest {s : State} {source : Station} {b : FrameBody}
    (h : s.answerRequest source b = .accept) : s.decideRequest source b = .accept := by
  unfold State.answerRequest at h
  split at h
  · exact h
  · cases h
  · cases h

/-- R66, R136: a take is kept only where there is room for it. -/
theorem holdsRoomFor_of_takesFrom {s : State} {body : List Bool} {f : Frame} (hj : judge body = .recognised f)
    (h : s.takesFrom f = true) : s.holdsRoomFor f.body = true := by
  simp only [State.takesFrom, Bool.and_eq_true, decide_eq_true_eq] at h
  obtain ⟨ha, htake⟩ := h
  have hrequest : ∀ {own : Prop} [Decidable own] {x : Answer}, (if own then x else .silent) = .accept → x = .accept := by
    intro own _ x hx
    split at hx
    · exact hx
    · cases hx
  cases hb : f.body with
  | rdReq t tag g o n =>
    simp only [State.answerTo, hb] at ha
    have hd := decideRequest_of_answerRequest (hrequest ha)
    exact (threeTests_accept.1 hd).2.2
  | atReq t tag g o op a b =>
    simp only [State.answerTo, hb] at ha
    have hd := decideRequest_of_answerRequest (hrequest ha)
    exact (threeTests_accept.1 hd).2.2
  | wrReq t tag g o n payload =>
    simp only [State.answerTo, hb] at ha
    have hd := decideRequest_of_answerRequest (hrequest ha)
    obtain ⟨hmalformed, -, hroom⟩ := threeTests_accept.1 hd
    have hlen := payloadLengthOk_of_judge hj hb
    simp only [rangeMalformed, Bool.or_eq_false_iff, decide_eq_false_iff_not] at hmalformed
    have hpayload : payload.length = n.toNat := by
      have hrange : 1 ≤ n.toNat ∧ n.toNat ≤ 256 := by omega
      simp only [payloadLengthOk, if_pos hrange, decide_eq_true_eq] at hlen
      omega
    simp only [State.holdsRoomFor, hpayload, hroom]
  | notice data =>
    simp only [State.answerTo, hb, State.answerNotice] at ha
    simp only [hb] at htake
    split at ha
    · split at ha
      · cases ha
      next hfull => simpa [htake, State.holdsRoomFor] using hfull
    · cases ha
  | join | leave | rdData | atData | fail => rfl

theorem Bounded.answered (room : Prop) (s : State) (body : List Bool) : Bounded room s (s.answered body) where
  places := id
  queues := id
  inbound _ hs := by
    obtain ⟨hq, hp, hn, -⟩ := inboundKept_iff.1 hs
    refine inboundKept_iff.2 ⟨hq, hp, hn, ?_⟩
    rw [takeHasRoom_eq]
    simp only [State.answered, State.withSpan, Option.bind_some]
    split
    · cases hj : judge body with
      | damaged | unrecognisable => rfl
      | recognised f =>
        cases htake : s.takesFrom f with
        | false => simp [State.receive, Received.work, htake]
        | true =>
          simp only [State.receive, Received.work, htake, if_true, Option.map_some, Option.all_some]
          exact holdsRoomFor_of_takesFrom hj htake
    · rfl

/-- R67: a request joins the inbound queue, for which its take held room. -/
theorem Bounded.commitRequest {room : Prop} {s : State} {source : Station} {tag : Tag} {g : Generation} {offset : Nat}
    {w : InboundWork} {blocks : Nat} (hnone : s.span.received = none) (hroom : room → s.inbound.hasRoom blocks = true)
    (hw : ∀ e : InboundEntry, e.work = w → e.poolBlocks = blocks) :
    Bounded room s (s.commitRequest source tag g offset w) where
  places := id
  queues := id
  inbound r hs := by
    obtain ⟨hq, hp, hn, -⟩ := inboundKept_iff.1 hs
    obtain ⟨hlen, hfree⟩ := hasRoom_iff.1 (hroom r)
    refine inboundKept_iff.2 ⟨?_, ?_, hn, takeHasRoom_of_none (congrArg (Option.bind · Received.work) hnone)⟩
    · simp only [State.commitRequest, State.withInbound, List.length_append, List.length_singleton]
      omega
    · simp only [State.commitRequest, State.withInbound, List.map_append, List.map_cons, List.map_nil, List.sum_append,
        List.sum_cons, List.sum_nil]
      rw [hw _ (by rfl)]
      omega

/-- R137: a notice joins the notice queue, for which its take held room. -/
theorem Bounded.commitNotice {room : Prop} {s : State} (source : Station) (data : List Byte)
    (hnone : s.span.received = none) (hroom : room → s.notices.queue.length < 16) :
    Bounded room s (s.commitNotice source data) where
  places := id
  queues := id
  inbound r hs := by
    obtain ⟨hq, hp, hn, -⟩ := inboundKept_iff.1 hs
    have := hroom r
    refine inboundKept_iff.2 ⟨hq, hp, ?_, takeHasRoom_of_none (congrArg (Option.bind · Received.work) hnone)⟩
    simp only [State.commitNotice, State.withNotices, List.length_append, List.length_singleton]
    omega

theorem Shrinks.withBuffer (s : State) (b : CompletionBuffer) : Shrinks s (s.withBuffer b) :=
  .of_eq rfl rfl rfl rfl rfl rfl rfl

theorem Shrinks.commitCompletion (s : State) (f : Frame) (t : Tag) : Shrinks s (s.commitCompletion f t) := by
  unfold State.commitCompletion
  split
  · unfold State.commitMatched
    split
    · exact (Shrinks.setTag s _ _).trans (.withBuffer _ _)
    · exact .endSegment s _ _ _
    · exact .endSegment s _ _ _
    · exact .refl s
  · simp only [State.commitLate]
    split
    · exact (Shrinks.report s _).trans (.setTag _ _ _)
    · exact .report s _
  · exact .countUnexpected s f

/-- R9: a take becomes a commit, for which it held room. -/
theorem Bounded.commit {room : Prop} {s : State} {f : Frame} (hnone : s.span.received = none)
    (h : room → s.holdsRoomFor f.body = true) : Bounded room s (s.commit f) := by
  unfold State.commit
  cases hb : f.body with
  | rdReq | wrReq | atReq =>
    rw [hb] at h
    exact .commitRequest hnone h (fun e he => by simp [InboundEntry.poolBlocks, he])
  | notice data =>
    rw [hb] at h
    exact .commitNotice _ _ hnone (fun r => of_decide_eq_true (h r))
  | rdData | atData | fail => exact (Shrinks.commitCompletion s f _).bounded
  | join | leave => exact .refl room s

theorem received_countAnswer {s : State} (h : s.span.received = none) (f : Frame) (drove answer : Answer) :
    (s.countAnswer f drove answer).span.received = none :=
  (Fits.countAnswer s f drove answer).received.trans h

theorem Bounded.resolveReceived {room : Prop} {s : State} {r : Received} (hnone : s.span.received = none)
    (hroom : room → r.work.all s.holdsRoomFor = true) (answer : Answer) :
    Bounded room s (s.resolveReceived r answer) := by
  unfold State.resolveReceived
  cases hf : r.frame with
  | none => exact .refl room s
  | some f =>
    have counted := Shrinks.countAnswer s f r.drove answer
    have committed : Bounded room s (if r.take = true ∧ answer = .accept then (s.countAnswer f r.drove answer).commit f
        else s.countAnswer f r.drove answer) := by
      split
      next htake =>
        have hbody : room → s.holdsRoomFor f.body = true := fun h => by
          simpa [Received.work, htake.1, hf] using hroom h
        exact counted.bounded.trans (.commit (received_countAnswer hnone f _ _)
          (fun h => holdsRoomFor_mono counted _ (hbody h)))
      next => exact counted.bounded
    simp only [State.resolveFrame]
    split
    · exact committed
    · exact committed.trans (Shrinks.observe _ f).bounded

/-- R10: a resolution on the span, of a frame whose take held room. -/
theorem Bounded.makeReports {room : Prop} {s : State} {held : Option Received} (hnone : s.span.received = none)
    (hroom : room → (held.bind Received.work).all s.holdsRoomFor = true) (others : Answer) :
    Bounded room s (s.makeReports held others) := by
  simp only [State.makeReports]
  refine Bounded.trans ?_ ((Shrinks.completeGiveUp _).trans (.settle _)).bounded
  split
  · exact ((Shrinks.countDamage s others).trans (.ownOutcome _ others)).bounded
  · cases held with
    | none => exact (Shrinks.countDamage s others).bounded
    | some r =>
      have counted := Shrinks.countDamage s (r.drove.combine others)
      refine counted.bounded.trans (.resolveReceived ?_ (fun h => ?_) _)
      · unfold State.countDamage
        split <;> exact hnone
      · cases hw : r.work with
        | none => rfl
        | some b =>
          have hb : s.holdsRoomFor b = true := by simpa [hw] using hroom h
          exact holdsRoomFor_mono counted b hb

theorem Bounded.resolved (s : State) (others : Answer) : Bounded True s (s.resolved others) := by
  have turned : Shrinks s s.turnIdle := .withSpan (.inr rfl)
  have reports : Bounded (s.takeHasRoom = true) s (s.turnIdle.makeReports s.span.received others) := by
    refine turned.bounded.trans (.makeReports rfl (fun h => ?_) others)
    rw [takeHasRoom_eq] at h
    cases hw : s.span.received.bind Received.work with
    | none => rfl
    | some b =>
      rw [hw] at h
      exact holdsRoomFor_mono turned b h
  unfold State.resolved
  split
  · exact turned.bounded
  · split
    · exact { reports with inbound := fun _ hs => reports.inbound (inboundKept_iff.1 hs).2.2.2 hs }
    · exact turned.bounded

/-- R69, R107, R135, R145: the events of the units keep the bounds. -/
theorem Bounded.ofUnits {s t : State} (h : s.UnitEvent t) : Bounded True s t := by
  cases h with
  | contends r => exact (Shrinks.contend s r).bounded
  | conflicts => exact (Shrinks.conflict s).bounded
  | sendsBody body => exact (Shrinks.withSpan (.inr rfl)).bounded
  | answers body => exact .answered True s body
  | resolves others time => exact (Shrinks.advance s time).bounded.trans (.resolved _ others)
  | completionExpires => exact (((Shrinks.advance s _).trans (.endSegment _ _ _ _)).trans (.settle _)).bounded
  | staleExpires => exact (((Shrinks.advance s _).trans (.setTag _ _ _)).trans (.settle _)).bounded
  | backoffExpires => exact (Shrinks.backoffExpired s _ _).bounded
  | issues => exact ((Shrinks.issueNext s).trans (.settle _)).bounded
  | copyBegins e => exact (Shrinks.raiseCopy s e).bounded
  | copyCompletes g => exact (((Shrinks.storeIdle s).trans (.copyCompleted _ g)).trans (.settle _)).bounded
  | resultDropped => exact (Shrinks.storeIdle s).bounded
  | serviceBegins => exact (Shrinks.turnService s).bounded
  | writeServed => exact (Shrinks.serviceResult s _ _ (fun t e v => .writeServed t e v _)).bounded
  | readServed => exact (Shrinks.serviceResult s _ _ (fun t e v => .readServed t e v _)).bounded
  | atomicServed => exact (Shrinks.serviceResult s _ _ (fun t e _ => .atomicServed t e _)).bounded
  | landingBegins => exact (Shrinks.landingBegun s _).bounded
  | lands _ count => exact ((Shrinks.storeIdle s).trans (.landed _ _ count)).bounded
  | drains => exact (Shrinks.placeLeave s).bounded

/-! ## The other events -/

/-- R174, R175: after a reset every queue is empty. -/
theorem Bounded.ofReset {s t : State} (station : StationState) (own : Station)
    (h : Bounded True (s.resetUnits station own) t) : Bounded True s t :=
  ⟨fun _ => h.places rfl, fun _ => h.queues rfl, fun _ _ => h.inbound trivial rfl⟩

theorem Shrinks.completeAccess (s : State) (data : Option Word) (error : Bool) :
    Shrinks s (s.completeAccess data error) := .of_eq rfl rfl rfl rfl rfl rfl rfl

theorem Shrinks.beginJoining (s : State) : Shrinks s s.beginJoining :=
  .of_eq rfl rfl rfl rfl rfl rfl (received_follow _ _)

theorem Shrinks.startEffect (s : State) : Shrinks s s.startEffect := by
  unfold State.startEffect
  split
  · split
    · exact .of_eq rfl rfl rfl rfl rfl rfl rfl
    · exact (Shrinks.of_eq rfl rfl rfl rfl rfl rfl rfl : Shrinks s (s.withInForce s.written)).trans (.beginJoining _)
  · split
    · exact .beginJoining s
    · exact .refl s

theorem Shrinks.configWritten (s : State) (w : ConfigWord) (d : Word) (e : ByteEnables) :
    Shrinks s (s.configWritten w d e) := by
  unfold State.configWritten
  (repeat' split) <;> exact .of_eq rfl rfl rfl rfl rfl rfl rfl

/-- R146: a POST joins a command queue that holds fewer than 16. -/
theorem Bounded.posted (s : State) : Bounded True s s.posted := by
  unfold State.posted
  split
  next hlen =>
    refine ⟨id, fun hs => ?_, fun _ => id⟩
    obtain ⟨-, hreq⟩ := queuesKept_iff.1 hs
    refine queuesKept_iff.2 ⟨?_, hreq⟩
    simp only [State.withIssue, List.length_append, List.length_singleton]
    exact hlen
  next => exact (Shrinks.report s _).bounded

theorem Shrinks.registerWritten (s : State) (w : ControlWord) (d : Word) (e : ByteEnables) :
    Shrinks s (s.registerWritten w d e) := by
  unfold State.registerWritten
  split <;> exact .of_eq rfl rfl rfl rfl rfl rfl rfl

theorem Shrinks.initEnds (s : State) : Shrinks s s.initEnds := by
  simp only [State.initEnds]
  split <;> exact .of_eq rfl rfl rfl rfl rfl rfl rfl

theorem Shrinks.holdAccess (s : State) (h : HeldAccess) : Shrinks s (s.holdAccess h) := by
  simp only [State.holdAccess]
  split <;> exact .of_eq rfl rfl rfl rfl rfl rfl rfl

theorem Shrinks.localCompleted (s : State) (g : Granted) : Shrinks s (s.localCompleted g) := by
  unfold State.localCompleted
  split <;> exact .of_eq rfl rfl rfl rfl rfl rfl rfl

theorem Shrinks.granting (s : State) (c : Claimant) (tr : Transfer) : Shrinks s (s.granting c tr) := by
  simp only [State.granting]
  split <;> exact .of_eq rfl rfl rfl rfl rfl rfl rfl

/-- R148: a pop of the result queue, and the take of the head of the command queue, make room. -/
theorem Shrinks.resultPopped (s : State) : Shrinks s s.resultPopped where
  ctx := by simp [State.resultPopped, State.withIssue]
  cmd := le_rfl
  req := le_max_left _ _
  inb := le_rfl
  pool := le_rfl
  ntc := le_rfl
  recd := .inl rfl

theorem Shrinks.noticePopped (s : State) : Shrinks s s.noticePopped where
  ctx := le_rfl
  cmd := le_rfl
  req := le_max_left _ _
  inb := le_rfl
  pool := le_rfl
  ntc := by simp [State.noticePopped, State.withNotices]
  recd := .inl rfl

theorem Shrinks.dequeue (s : State) : Shrinks s s.dequeue where
  ctx := le_rfl
  cmd := by simp [State.dequeue, State.withIssue]
  req := le_max_left _ _
  inb := le_rfl
  pool := le_rfl
  ntc := le_rfl
  recd := .inl rfl

/-- R148: a command that settles at its take, or whose context enters use, takes one of the places that were free. -/
theorem Bounded.ofPlace {s t : State} (h : s.issue.contexts.length + s.issue.results.length < 32)
    (hplace : t.issue.contexts.length + t.issue.results.length ≤ s.issue.contexts.length + s.issue.results.length + 1)
    (hcmd : t.issue.commands = s.issue.commands) (hreq : t.sender.requests = s.sender.requests)
    (hin : t.inbound = s.inbound) (hn : t.notices = s.notices) (hr : t.span = s.span) : Bounded True s t where
  places _ := placesKept_iff.2 (by omega)
  queues hs := by
    rw [queuesKept_iff] at hs ⊢
    rwa [hcmd, hreq]
  inbound _ hs := by
    rw [inboundKept_iff, takeHasRoom_eq] at hs ⊢
    have hroom : t.holdsRoomFor = s.holdsRoomFor := by
      funext b
      cases b <;> simp [State.holdsRoomFor, hin, hn]
    rwa [hin, hn, hr, hroom]

theorem Bounded.settleAtTake {s : State} (h : s.issue.contexts.length + s.issue.results.length < 32)
    (c : CommandRecord) (st : Status) : Bounded True s (s.settleAtTake c st) :=
  .ofPlace h (by simp [State.settleAtTake, State.withIssue]; omega) rfl rfl rfl rfl rfl

theorem Bounded.takeEffect {run : State → CommandRecord → State} (hrun : TakeEffect run) {s : State}
    (h : s.issue.contexts.length + s.issue.results.length < 32) (c : CommandRecord) : Bounded True s (run s c) := by
  have current : Bounded True s (s.makeCurrent c) :=
    .ofPlace h (by simp [State.makeCurrent, State.openContext, State.withIssue]; omega) rfl rfl rfl rfl rfl
  cases hrun with
  | settles st => exact .settleAtTake h c st
  | becomesCurrent => exact current
  | asksAtOnce => exact current.trans (Shrinks.issueNext _).bounded
  | leaves =>
    exact .ofPlace h (by simp [State.beginLeave, State.openContext, State.withIssue, State.enter, State.withLife]; omega)
      rfl rfl rfl rfl rfl

/-- R148: what can be taken finds a free place. -/
theorem place_of_taken {s : State} {kinds : BitVec 4 → Bool} {c : CommandRecord} (h : s.taken kinds = some c) :
    s.issue.contexts.length + s.issue.results.length < 32 := by
  obtain ⟨-, hm⟩ := Option.filter_eq_some_iff.1 h
  simp only [State.mayTake, Bool.and_eq_true, decide_eq_true_eq] at hm
  exact hm.2.1.2

theorem Bounded.takes {run : State → CommandRecord → State} (hrun : TakeEffect run) {kinds : BitVec 4 → Bool}
    {s t : State} (h : takeCommand kinds run s = .next t) : Bounded True s t := by
  unfold takeCommand at h
  split at h
  next c hc =>
    obtain rfl := Host.Outcome.next.inj h
    have hplace := place_of_taken hc
    change s.dequeue.issue.contexts.length + s.dequeue.issue.results.length < 32 at hplace
    refine Bounded.trans ?_ (Shrinks.settle _).bounded
    refine (Shrinks.dequeue s).bounded.trans ?_
    unfold State.take
    (repeat' split)
    · exact .settleAtTake hplace c _
    · exact .takeEffect hrun hplace c
    · exact .settleAtTake hplace c _
  next =>
    obtain rfl := Host.Outcome.next.inj h
    exact .refl True s

/-- R69, R107, R135, R145, R148: every event keeps the bounds. -/
theorem Bounded.ofEvent {s t : State} {c : Instr} (h : s.Event c t) : Bounded True s t := by
  cases h with
  | stays => exact .refl True s
  | powerOn _ straps => exact .ofReset .init straps (.refl True _)
  | initEnds => exact (Shrinks.initEnds s).bounded
  | resetAsserted =>
    refine .ofReset (if s.life.station = .init then .init else .config) s.life.number (Shrinks.bounded ?_)
    exact .of_eq rfl rfl rfl rfl rfl rfl rfl
  | resetReleased | byteLost | enablesWritten | cleared =>
    refine Shrinks.bounded ?_
    exact .of_eq rfl rfl rfl rfl rfl rfl rfl
  | resultPopped => exact ((Shrinks.resultPopped s).trans (.completeAccess _ _ _)).bounded
  | noticePopped => exact ((Shrinks.noticePopped s).trans (.completeAccess _ _ _)).bounded
  | softReset => exact .ofReset .config s.life.number (Shrinks.completeAccess _ _ _).bounded
  | accessed _ data error => exact (Shrinks.completeAccess s data error).bounded
  | started => exact ((Shrinks.startEffect s).trans (.completeAccess _ _ _)).bounded
  | configWritten _ w d e => exact ((Shrinks.configWritten s w d e).trans (.completeAccess _ _ _)).bounded
  | posted => exact (Bounded.posted s).trans (Shrinks.completeAccess _ _ _).bounded
  | stagingWritten _ w d e => exact ((Shrinks.registerWritten s w d e).trans (.completeAccess _ _ _)).bounded
  | held _ h => exact (Shrinks.holdAccess s h).bounded
  | localCompleted => exact (Shrinks.localCompleted s _).bounded
  | grants => exact (Shrinks.granting s _ _).bounded
  | takes _ hrun h => exact .takes hrun h
  | ofUnits _ h => exact .ofUnits h

/-- Settles O56: every event keeps the bounds. -/
theorem everyStepKeepsTheBounds : Obligations.EveryStepKeepsTheBounds := by
  unfold Obligations.EveryStepKeepsTheBounds
  intro s t h
  exact ⟨step_preserves_of_events (fun _ _ => id) (fun h => (Bounded.ofEvent h).places) h,
    step_preserves_of_events (fun _ _ => id) (fun h => (Bounded.ofEvent h).queues) h,
    step_preserves_of_events (fun _ _ => id) (fun h => (Bounded.ofEvent h).inbound trivial) h⟩

end Sys2Proof.Machine
end

section
/-!
PROOFS. Kept laws: every command answers a next state and leaves the waiting commands (logs 1 and 2); which commands reach the
store (R84, R85); every step keeps the store's form, the SELF record and what settling establishes.
-/
namespace Sys2Proof.Machine

/-! ## What the events leave alone -/

theorem outer_landingBegun (s : State) (p : Piece) : (s.landingBegun p).outer = s.outer := rfl

theorem outer_placeLeave (s : State) : s.placeLeave.outer = s.outer := by
  rw [State.placeLeave, outer_refreshOffer, outer_withSender]

/-- The events of the units leave what lies outside the units. -/
theorem outer_ofUnits {s t : State} (h : s.UnitEvent t) : t.outer = s.outer := by
  cases h with
  | contends r => exact outer_contend s r
  | conflicts => exact outer_conflict s
  | sendsBody body | answers body => rfl
  | resolves others time => rw [outer_resolved, outer_advance]
  | completionExpires => exact outer_completionExpired s _ _
  | staleExpires => exact outer_staleExpired s _ _
  | backoffExpires => exact outer_backoffExpired s _ _
  | issues => rw [outer_settle, outer_issueNext]
  | copyBegins e => exact outer_raiseCopy s e
  | copyCompletes g => rw [outer_settle, outer_copyCompleted, outer_storeIdle]
  | resultDropped => rfl
  | serviceBegins => exact outer_turnService s
  | writeServed => exact outer_serviceResult s _ _ (fun t e v => outer_writeServed t e v _)
  | readServed => exact outer_serviceResult s _ _ (fun t e v => outer_readServed t e v _)
  | atomicServed => exact outer_serviceResult s _ _ (fun t e _ => outer_atomicServed t e _)
  | landingBegins => exact outer_landingBegun s _
  | lands _ count => rw [outer_landed, outer_storeIdle]
  | drains => exact outer_placeLeave s

/-- R150 to R153: the effect of a take reaches the units alone. -/
theorem outer_takeEffect {run : State → CommandRecord → State} (hrun : TakeEffect run) (t : State) (c : CommandRecord) :
    (run t c).outer = t.outer := by
  cases hrun with
  | settles st => rfl
  | becomesCurrent => rfl
  | asksAtOnce => exact outer_issueNext _
  | leaves => rfl

/-- R148: outside the units a take reaches the command queue alone. -/
theorem outer_takes {run : State → CommandRecord → State} (hrun : TakeEffect run) {kinds : BitVec 4 → Bool} {s t : State}
    (h : takeCommand kinds run s = .next t) : ∃ q, t.outer = { s.outer with commands := q } := by
  unfold takeCommand at h
  split at h
  next c hc =>
    obtain rfl := Host.Outcome.next.inj h
    refine ⟨s.issue.commands.tail, ?_⟩
    rw [outer_settle]
    unfold State.take
    (repeat' split)
    · rfl
    · exact outer_takeEffect hrun s.dequeue c
    · rfl
  next =>
    obtain rfl := Host.Outcome.next.inj h
    exact ⟨_, rfl⟩

/-- Log 1: no event touches the commands that wait. -/
theorem pending_ofEvent {s t : State} {c : Instr} (h : s.Event c t) : t.pending = s.pending := by
  cases h with
  | stays | powerOn | resetAsserted | resetReleased | softReset | byteLost | accessed | enablesWritten | resultPopped
  | noticePopped | cleared => rfl
  | initEnds =>
    simp only [State.initEnds]
    split <;> rfl
  | started =>
    change s.startEffect.pending = s.pending
    unfold State.startEffect
    (repeat' split) <;> rfl
  | configWritten _ w d e =>
    change (s.configWritten w d e).pending = s.pending
    unfold State.configWritten
    (repeat' split) <;> rfl
  | posted =>
    change s.posted.pending = s.pending
    unfold State.posted
    split <;> rfl
  | stagingWritten _ w d e =>
    change (s.registerWritten w d e).pending = s.pending
    unfold State.registerWritten
    split <;> rfl
  | held =>
    simp only [State.holdAccess]
    split <;> rfl
  | localCompleted =>
    unfold State.localCompleted
    split <;> rfl
  | grants =>
    simp only [State.granting]
    split <;> rfl
  | takes _ hrun h =>
    obtain ⟨q, hq⟩ := outer_takes hrun h
    exact congrArg Outer.pending hq
  | ofUnits _ h => exact congrArg Outer.pending (outer_ofUnits h)

/-- Settles O2: every command answers by an event, and no event touches the waiting commands. -/
theorem everyCommandAnswersANextState : Obligations.EveryCommandAnswersANextState := by
  unfold Obligations.EveryCommandAnswersANextState
  intro c s
  obtain ⟨u, hu, hev⟩ := exec_event c s
  exact ⟨u, hu, pending_ofEvent hev⟩

/-! ## The store (R84, R85) -/

/-- The three commands that reach the store, and how (R85 to R87). -/
inductive StoreReached (st : Store) : Instr → Store → Prop
  | initEnds : StoreReached st .storeInitEnd Store.zeroed
  | byteLost (o : Offset) (v : Byte) : StoreReached st (.storeByteLoss o v) (st.loseByte o.toNat v)
  | granted (tr : Transfer) : StoreReached st .storeGrant (tr.effect st)

/-- R84: an event leaves the store, or is of one of the three commands that reach it. -/
theorem store_ofEvent {s t : State} {c : Instr} (h : s.Event c t) :
    t.store = s.store ∨ StoreReached s.store c t.store := by
  cases h with
  | stays | powerOn | resetAsserted | resetReleased | softReset | accessed | enablesWritten | resultPopped
  | noticePopped | cleared => exact .inl rfl
  | initEnds =>
    have hst : s.initEnds.store = Store.zeroed := by
      simp only [State.initEnds]
      split <;> rfl
    rw [hst]
    exact .inr .initEnds
  | byteLost o v => exact .inr (.byteLost o v)
  | started =>
    change s.startEffect.store = s.store ∨ _
    unfold State.startEffect
    (repeat' split) <;> exact .inl rfl
  | configWritten _ w d e =>
    change (s.configWritten w d e).store = s.store ∨ _
    unfold State.configWritten
    (repeat' split) <;> exact .inl rfl
  | posted =>
    change s.posted.store = s.store ∨ _
    unfold State.posted
    split <;> exact .inl rfl
  | stagingWritten _ w d e =>
    change (s.registerWritten w d e).store = s.store ∨ _
    unfold State.registerWritten
    split <;> exact .inl rfl
  | held =>
    simp only [State.holdAccess]
    split <;> exact .inl rfl
  | localCompleted =>
    unfold State.localCompleted
    split <;> exact .inl rfl
  | grants =>
    simp only [State.granting]
    split <;> exact .inr (.granted _)
  | takes _ hrun h =>
    obtain ⟨q, hq⟩ := outer_takes hrun h
    exact .inl (congrArg Outer.store hq)
  | ofUnits _ h => exact .inl (congrArg Outer.store (outer_ofUnits h))

theorem wf_of_storeReached {st st' : Store} {c : Instr} (h : StoreReached st c st') (hw : Memory.wf st = true) :
    Memory.wf st' = true := by
  cases h with
  | initEnds => exact Memory.wf_zeroed
  | byteLost o v => exact Memory.wf_loseByte hw _ v
  | granted tr => exact Memory.wf_effect hw tr

theorem command_of_storeReached {st st' : Store} {c : Instr} (h : StoreReached st c st') :
    c = .storeGrant ∨ c = .storeInitEnd ∨ ∃ o v, c = .storeByteLoss o v := by
  cases h with
  | initEnds => exact .inr (.inl rfl)
  | byteLost o v => exact .inr (.inr ⟨o, v, rfl⟩)
  | granted tr => exact .inl rfl

/-- R84: every event keeps the canonical form of the store. -/
theorem wf_ofEvent {s t : State} {c : Instr} (h : s.Event c t) (hw : Memory.wf s.store = true) :
    Memory.wf t.store = true := by
  rcases store_ofEvent h with heq | hreach
  · rwa [heq]
  · exact wf_of_storeReached hreach hw

/-- R85: what a byte holds after its loss, and which bytes are LOST. -/
theorem byte_loseByte {st : Store} (h : Memory.wf st = true) {o : Nat} (ho : o < Config.storeBytes) (v : Byte) (a : Nat) :
    (st.loseByte o v).byte a = if a = o then v else st.byte a := by
  obtain ⟨hrising, -, -, -⟩ := (Memory.wf_iff st).1 h
  rw [Store.loseByte, if_pos ho]
  exact readCells_writeCell a hrising

theorem isLost_loseByte (st : Store) {o : Nat} (ho : o < Config.storeBytes) (v : Byte) (a : Nat) :
    (st.loseByte o v).isLost a = (decide (a = o) || st.isLost a) := by
  rw [Store.loseByte, if_pos ho, Bool.eq_iff_iff]
  simp [Store.isLost, mem_insertOffset]

/-- Settles O17: a loss reaches one byte, and every event of another command leaves the store. -/
theorem bytesChangeByThreeCommands : Obligations.BytesChangeByThreeCommands := by
  unfold Obligations.BytesChangeByThreeCommands
  refine ⟨fun o v s hw hgood => ?_, fun c s t he hgrant hinit hloss => ?_⟩
  · have ho : o.toNat < Config.storeBytes := o.isLt
    refine ⟨s.store.loseByte o.toNat v, ?_, byte_loseByte hw ho v, isLost_loseByte s.store ho v⟩
    simp only [exec, execStoreByteLoss, hgood, whenever, Bool.not_false, if_true]
    rfl
  · obtain ⟨u, hu, hev⟩ := exec_event c s
    obtain rfl := Host.Outcome.next.inj (hu.symm.trans he)
    rcases store_ofEvent hev with heq | hreach
    · exact heq
    · rcases command_of_storeReached hreach with hc | hc | ⟨o, v, hc⟩
      · exact absurd hc hgrant
      · exact absurd hc hinit
      · exact absurd hc (hloss o v)

/-! ## The SELF record (R120) -/

theorem selfKept_of_outer {s t : State} (h : t.outer.selfRecord = s.outer.selfRecord) (hs : s.selfKept = true) :
    t.selfKept = true := by
  have hself := of_decide_eq_true hs
  exact decide_eq_true (h.trans hself)

/-- R120: every reset and every START puts the own record at SELF. -/
theorem selfKept_of_resetPeers {t : State} (h : t.peers = resetPeers t.life.number) : t.selfKept = true := by
  refine decide_eq_true ?_
  rw [State.peerAt, h]
  simp [resetPeers]

/-- R120: every event keeps the SELF record. -/
theorem selfKept_ofEvent {s t : State} {c : Instr} (h : s.Event c t) (hs : s.selfKept = true) : t.selfKept = true := by
  cases h with
  | stays | byteLost | accessed | enablesWritten | resultPopped | noticePopped | cleared => exact hs
  | powerOn | resetAsserted | resetReleased | softReset => exact selfKept_of_resetPeers rfl
  | initEnds =>
    refine selfKept_of_outer ?_ hs
    simp only [State.initEnds]
    split <;> rfl
  | started =>
    unfold State.startEffect
    split
    · split
      · exact hs
      · exact selfKept_of_resetPeers rfl
    · split
      · exact selfKept_of_resetPeers rfl
      · exact hs
  | configWritten _ w d e =>
    refine selfKept_of_outer ?_ hs
    unfold State.configWritten
    (repeat' split) <;> rfl
  | posted =>
    refine selfKept_of_outer ?_ hs
    unfold State.posted
    split <;> rfl
  | stagingWritten _ w d e =>
    refine selfKept_of_outer ?_ hs
    unfold State.registerWritten
    split <;> rfl
  | held =>
    refine selfKept_of_outer ?_ hs
    simp only [State.holdAccess]
    split <;> rfl
  | localCompleted =>
    refine selfKept_of_outer ?_ hs
    unfold State.localCompleted
    split <;> rfl
  | grants =>
    refine selfKept_of_outer ?_ hs
    simp only [State.granting]
    split <;> rfl
  | takes _ hrun h =>
    obtain ⟨q, hq⟩ := outer_takes hrun h
    exact selfKept_of_outer (by rw [hq]) hs
  | ofUnits _ h => exact selfKept_of_outer (by rw [outer_ofUnits h]) hs

/-! ## What settling establishes (R71, R101, R155, R159) -/

theorem settled_iff {s : State} : s.settled = true ↔
    s.offerAgrees = true ∧ s.nothingDue = true ∧ s.waitsRightly = true ∧ s.servesRightly = true := by
  simp [State.settled, and_assoc]

/-- The contexts, what they wait for, the tags, the blocks and the request queue decide what is due and what waits. -/
structure SameWork (s t : State) : Prop where
  station : t.life.station = s.life.station ∨ t.life.station ≠ .running
  contexts : t.issue.contexts = s.issue.contexts
  current : t.issue.current = s.issue.current
  waitingFor : t.issue.waitingFor = s.issue.waitingFor
  requests : t.sender.requests = s.sender.requests
  responses : t.sender.responses = s.sender.responses
  tags : t.tags = s.tags
  blocks : t.life.station = .running → t.availableBlocks = s.availableBlocks
  peers : ∀ n, (t.peerAt n).state = .absent → (s.peerAt n).state = .absent
  inbound : t.inbound.queue = s.inbound.queue

/-- What changes neither the offer nor the work of the engines keeps a state settled. -/
theorem settled_of_sameWork {s t : State} (h : SameWork s t) (ho : s.offerAgrees = true → t.offerAgrees = true)
    (hs : s.settled = true) : t.settled = true := by
  obtain ⟨hoffer, hdue, hwaits, hserves⟩ := settled_iff.1 hs
  have hfind : t.issue.context = s.issue.context := by
    funext n
    rw [IssueEngine.context, IssueEngine.context, h.contexts]
  have hcontext : t.issue.currentContext = s.issue.currentContext := by
    rw [IssueEngine.currentContext, IssueEngine.currentContext, h.current, hfind]
  have hfree : t.lowestFreeTag = s.lowestFreeTag := lowestFreeTag_congr (fun x => by simp [State.tagAt, h.tags])
  refine settled_iff.2 ⟨ho hoffer, ?_, ?_, ?_⟩
  · rw [State.nothingDue, h.contexts]
    exact hdue
  · by_cases hr : t.life.station = .running
    · exact waitsRightly_congr h.station h.waitingFor hcontext (by rw [h.requests]) (by rw [hfree]) (h.blocks hr) h.peers
        hwaits
    · simp [State.waitsRightly, hr]
  · exact servesRightly_congr h.inbound (by rw [h.responses]) hserves

/-- R101: the offer agrees with the choice as long as neither changes. -/
theorem offerAgrees_congr {s t : State} (h1 : t.span.offer = s.span.offer) (h2 : t.span.offerState = s.span.offerState)
    (h3 : t.sender = s.sender) (h : s.offerAgrees = true) : t.offerAgrees = true := by
  simpa only [State.offerAgrees, h1, h2, h3] using h

/-- R2: a fixed offer needs to agree with no choice. -/
theorem offerAgrees_of_fixed {s : State} (h : s.span.offerState.isFixed = true) : s.offerAgrees = true := by
  simp [State.offerAgrees, h]

/-- A state that differs in none of the units that settling concerns is settled with the other. -/
theorem settled_of_same {s t : State} (h0 : t.life.station = s.life.station ∨ t.life.station ≠ .running)
    (h1 : t.issue.contexts = s.issue.contexts) (h2 : t.issue.current = s.issue.current)
    (h3 : t.issue.waitingFor = s.issue.waitingFor) (h4 : t.sender = s.sender) (h5 : t.tags = s.tags)
    (h6 : t.availableBlocks = s.availableBlocks) (h7 : ∀ n, (t.peerAt n).state = .absent → (s.peerAt n).state = .absent)
    (h8 : t.inbound.queue = s.inbound.queue) (h9 : t.span.offer = s.span.offer)
    (h10 : t.span.offerState = s.span.offerState) (hs : s.settled = true) : t.settled = true :=
  settled_of_sameWork ⟨h0, h1, h2, h3, by rw [h4], by rw [h4], h5, fun _ => h6, h7, h8⟩ (offerAgrees_congr h9 h10 h4) hs

theorem settled_resetUnits (s : State) (station : StationState) (own : Station) :
    (s.resetUnits station own).settled = true :=
  settled_iff.2 ⟨rfl, rfl, waitsRightly_of_not_waiting rfl, rfl⟩

/-- R120: right after a reset no peer is ABSENT. -/
theorem state_resetPeers_ne_absent (own n : Station) : (resetPeers own)[n.val].state ≠ .absent := by
  simp only [resetPeers, Vector.getElem_set, Vector.getElem_replicate]
  split <;> decide

theorem settled_completeAccess {s : State} (data : Option Word) (error : Bool) (hs : s.settled = true) :
    (s.completeAccess data error).settled = true := hs

/-- R103: what places a frame in the control slot of a station that does not issue offers it. -/
theorem settled_refreshOffer {s t : State} (h : SameWork s t) (hs : s.settled = true) : t.refreshOffer.settled = true := by
  have same : SameWork s t.refreshOffer := { h with }
  exact settled_of_sameWork same (fun _ => offerAgrees_refreshOffer t) hs

/-- R167, R168: a START leaves a station that does not issue, whatever record it puts into force. -/
theorem settled_beginJoining {s : State} (x : ConfigRecord) (hs : s.settled = true) :
    (s.withInForce x).beginJoining.settled = true := by
  refine settled_refreshOffer (s := s) ?_ hs
  exact {
    station := .inr (fun h => by cases h)
    contexts := rfl
    current := rfl
    waitingFor := rfl
    requests := rfl
    responses := rfl
    tags := rfl
    blocks := fun h => by cases h
    peers := fun n h => absurd h (state_resetPeers_ne_absent _ n)
    inbound := rfl }

theorem settled_placeLeave {s : State} (hs : s.settled = true) : s.placeLeave.settled = true :=
  settled_refreshOffer (s := s) ⟨.inl rfl, rfl, rfl, rfl, rfl, rfl, rfl, fun _ => rfl, fun _ => id, rfl⟩ hs

theorem settled_startEffect {s : State} (hs : s.settled = true) : s.startEffect.settled = true := by
  unfold State.startEffect
  split
  · split
    · exact settled_of_same (.inl rfl) rfl rfl rfl rfl rfl rfl (fun _ => id) rfl rfl rfl hs
    · exact settled_beginJoining s.written hs
  · split
    · exact settled_beginJoining s.inForce hs
    · exact hs

theorem settled_withSpan {s : State} {u : SpanInterface} (h : (s.withSpan u).offerAgrees = true)
    (hs : s.settled = true) : (s.withSpan u).settled = true :=
  settled_of_sameWork (s := s) ⟨.inl rfl, rfl, rfl, rfl, rfl, rfl, rfl, fun _ => rfl, fun _ => id, rfl⟩ (fun _ => h) hs

/-- R2, R3: the beginning of a contention fixes the offer that agrees with the choice, or changes it not. -/
theorem offerAgrees_beginContention {s : State} (h : s.offerAgrees = true) :
    (s.withSpan s.span.beginContention).offerAgrees = true := by
  unfold SpanInterface.beginContention
  split
  · cases ho : s.span.offerState with
    | offered => exact offerAgrees_of_fixed rfl
    | _ => exact offerAgrees_congr (s := s) rfl ho.symm rfl h
  · exact h

theorem settled_settleContention {s : State} (lowest : Option (BitVec 6)) (hs : s.settled = true) :
    (s.settleContention lowest).settled = true := by
  unfold State.settleContention
  split
  · split
    · split
      · exact settled_withSpan (offerAgrees_of_fixed rfl) hs
      · exact settled_settle _
    · exact settled_withSpan (offerAgrees_congr (s := s) rfl rfl rfl (settled_iff.1 hs).1) hs
  · exact hs

theorem settled_contend {s : State} (report : ContentionReport) (hs : s.settled = true) :
    (s.contend report).settled = true := by
  have hoffer := (settled_iff.1 hs).1
  have begins := settled_withSpan (offerAgrees_beginContention hoffer) hs
  cases report with
  | begins => exact begins
  | settles lowest =>
    simp only [State.contend, State.settleUnsynced]
    split
    · split
      · exact hs
      · exact settled_withSpan (offerAgrees_congr (s := s) rfl rfl rfl hoffer) hs
    · exact settled_settleContention lowest begins

theorem settled_resolved {s : State} (others : Answer) (hs : s.settled = true) : (s.resolved others).settled = true := by
  have turned : s.turnIdle.settled = true := settled_withSpan (offerAgrees_congr (s := s) rfl rfl rfl (settled_iff.1 hs).1) hs
  unfold State.resolved
  split
  · exact turned
  · split
    · exact settled_settle _
    · exact turned

theorem settled_storeIdle {s : State} (hs : s.settled = true) : s.storeIdle.settled = true := hs

theorem settled_serviceResult {s : State} (g : Granted) (act : State → InboundEntry → Service → State)
    (hs : s.settled = true) : (s.serviceResult g act).settled = true := by
  simp only [State.serviceResult]
  split
  · exact settled_storeIdle hs
  · split
    · exact settled_settle _
    · exact settled_storeIdle hs

theorem settled_turnService {s : State} (hs : s.settled = true) : s.turnService.settled = true := by
  obtain ⟨hoffer, hdue, hwaits, -⟩ := settled_iff.1 hs
  obtain ⟨h1, h2, h3⟩ := laws_turnService s
  exact settled_iff.2 ⟨h1.trans hoffer, h2.trans hdue, h3.trans hwaits, servesRightly_turnService s⟩

/-- R44: the available blocks follow the blocks occupied. -/
theorem availableBlocks_congr {s t : State} (h1 : t.tags = s.tags) (h2 : t.buffer.occupied = s.buffer.occupied)
    (h3 : t.inForce.commitmentLimit = s.inForce.commitmentLimit) : t.availableBlocks = s.availableBlocks := by
  simp only [State.availableBlocks, State.reservedBlocks, h1, h2, h3]

theorem settled_landed {s : State} {l : Landing} (hl : s.buffer.landing = some l) (count : Nat)
    (hs : s.settled = true) : (s.landed l count).settled = true := by
  simp only [State.landed]
  split
  · exact settled_settle _
  · refine settled_of_same (s := s) (.inl rfl) rfl rfl rfl rfl rfl (availableBlocks_congr rfl ?_ rfl) (fun _ => id) rfl
      rfl rfl hs
    simp [CompletionBuffer.occupied, State.landAt, State.withBuffer, State.raise, State.withArbiter, hl]

/-- R71, R101, R155, R159: every event of the units ends settled. -/
theorem settled_ofUnits {s t : State} (h : s.UnitEvent t) (hs : s.settled = true) : t.settled = true := by
  cases h with
  | contends r => exact settled_contend r hs
  | sendsBody body => exact settled_withSpan (offerAgrees_of_fixed rfl) hs
  | answers body => exact settled_withSpan (offerAgrees_congr (s := s) rfl rfl rfl (settled_iff.1 hs).1) hs
  | resolves others time => exact settled_resolved others (s := s.advance time) hs
  | conflicts | completionExpires | staleExpires | issues | copyCompletes => exact settled_settle _
  | backoffExpires =>
    simp only [State.backoffExpired]
    exact settled_settle _
  | copyBegins e =>
    unfold State.raiseCopy
    split
    · exact settled_of_same (s := s) (.inl rfl) rfl rfl rfl rfl rfl rfl (fun _ => id) rfl rfl rfl hs
    · exact hs
  | resultDropped => exact settled_storeIdle hs
  | serviceBegins => exact settled_turnService hs
  | writeServed | readServed | atomicServed => exact settled_serviceResult _ _ hs
  | landingBegins hp hl =>
    exact settled_of_same (s := s) (.inl rfl) rfl rfl rfl rfl rfl
      (availableBlocks_congr rfl (occupied_landingBegun hp hl) rfl) (fun _ => id) rfl rfl rfl hs
  | lands hl count => exact settled_landed (s := s.storeIdle) hl count hs
  | drains => exact settled_placeLeave hs

/-- R148: a take ends settled, or does not happen. -/
theorem settled_takes {run : State → CommandRecord → State} {kinds : BitVec 4 → Bool} {s t : State}
    (h : takeCommand kinds run s = .next t) (hs : s.settled = true) : t.settled = true := by
  unfold takeCommand at h
  split at h <;> obtain rfl := Host.Outcome.next.inj h
  · exact settled_settle _
  · exact hs

/-- R71, R101, R155, R159: every event keeps what settling establishes. -/
theorem settled_ofEvent {s t : State} {c : Instr} (h : s.Event c t) (hs : s.settled = true) : t.settled = true := by
  have same : ∀ {t : State}, t.life.station = s.life.station ∨ t.life.station ≠ .running →
      t.issue.contexts = s.issue.contexts → t.issue.current = s.issue.current → t.issue.waitingFor = s.issue.waitingFor →
      t.sender = s.sender → t.tags = s.tags → t.availableBlocks = s.availableBlocks →
      (∀ n, (t.peerAt n).state = .absent → (s.peerAt n).state = .absent) → t.inbound.queue = s.inbound.queue →
      t.span.offer = s.span.offer → t.span.offerState = s.span.offerState → t.settled = true :=
    fun h0 h1 h2 h3 h4 h5 h6 h7 h8 h9 h10 => settled_of_same h0 h1 h2 h3 h4 h5 h6 h7 h8 h9 h10 hs
  cases h with
  | stays | byteLost | accessed => exact hs
  | enablesWritten | resultPopped | noticePopped | cleared =>
    exact same (.inl rfl) rfl rfl rfl rfl rfl rfl (fun _ => id) rfl rfl rfl
  | powerOn _ straps => exact settled_resetUnits s .init straps
  | resetAsserted =>
    exact settled_resetUnits s (if s.life.station = .init then .init else .config) s.life.number
  | softReset => exact settled_resetUnits s .config s.life.number
  | resetReleased _ straps =>
    exact same (.inl rfl) rfl rfl rfl rfl rfl rfl (fun n h => absurd h (state_resetPeers_ne_absent _ n)) rfl rfl rfl
  | initEnds =>
    simp only [State.initEnds]
    split <;> exact same (.inr (fun h => by cases h)) rfl rfl rfl rfl rfl rfl (fun _ => id) rfl rfl rfl
  | started => exact settled_completeAccess none false (settled_startEffect hs)
  | configWritten _ w d e =>
    refine settled_completeAccess none false ?_
    unfold State.configWritten
    (repeat' split)
    · exact hs
    · exact same (.inl rfl) rfl rfl rfl rfl rfl rfl (fun _ => id) rfl rfl rfl
    · exact same (.inl rfl) rfl rfl rfl rfl rfl rfl (fun _ => id) rfl rfl rfl
  | posted =>
    refine settled_completeAccess none false ?_
    unfold State.posted
    split <;> exact same (.inl rfl) rfl rfl rfl rfl rfl rfl (fun _ => id) rfl rfl rfl
  | stagingWritten _ w d e =>
    refine settled_completeAccess _ false ?_
    unfold State.registerWritten
    split
    · exact same (.inl rfl) rfl rfl rfl rfl rfl rfl (fun _ => id) rfl rfl rfl
    · exact hs
  | held =>
    simp only [State.holdAccess]
    split <;> exact same (.inl rfl) rfl rfl rfl rfl rfl rfl (fun _ => id) rfl rfl rfl
  | localCompleted =>
    unfold State.localCompleted
    split <;> exact same (.inl rfl) rfl rfl rfl rfl rfl rfl (fun _ => id) rfl rfl rfl
  | grants =>
    simp only [State.granting]
    split <;> exact same (.inl rfl) rfl rfl rfl rfl rfl rfl (fun _ => id) rfl rfl rfl
  | takes _ _ h => exact settled_takes h hs
  | ofUnits _ h => exact settled_ofUnits h hs

/-- Settles O55: every event keeps the three. -/
theorem everyStepKeepsStoreSelfAndOffer : Obligations.EveryStepKeepsStoreSelfAndOffer := by
  unfold Obligations.EveryStepKeepsStoreSelfAndOffer
  intro s t h
  exact ⟨step_preserves_of_events (fun _ _ => id) wf_ofEvent h,
    step_preserves_of_events (fun _ _ => id) selfKept_ofEvent h,
    step_preserves_of_events (fun _ _ => id) settled_ofEvent h⟩

end Sys2Proof.Machine
end

section
/-!
PROOFS. Life cycle: the resets, the end of the initialization, START, the end of the drain, and the reset state (R86, R103,
R167 to R175, R185 to R187).
-/
namespace Sys2Proof.Machine

/-! ## Gates -/

/-- An event whose condition holds takes place (log 2). -/
@[simp] theorem whenever_true (s t : State) : whenever true s t = .next t := rfl

/-- R175: while RST_N is not asserted the units work. -/
theorem awake_of_not_rstN {s : State} (h : s.life.rstN = false) : s.awake = true := by
  rw [State.awake, h]; rfl

/-! ## Resets (R86, R174, R175) -/

theorem exec_storeInitEnd {s : State} (h : s.life.rstN = false) (hst : s.life.station = .init) :
    exec .storeInitEnd s = .next s.initEnds := by
  simp [exec, execStoreInitEnd, awake_of_not_rstN h, hst]

/-- R86: the end of the initialization in one expression. -/
theorem initEnds_eq (s : State) : s.initEnds = { s with
    store := Store.zeroed
    life := { s.life with station := .config }
    arbiter := match s.port.held with
      | some h => { s.arbiter with raisedLocal := some h.transfer }
      | none => s.arbiter } := by
  simp only [State.initEnds]
  change (match s.port.held with
    | some h => ((s.withStore Store.zeroed).enter .config).raise .localPort h.transfer
    | none => (s.withStore Store.zeroed).enter .config) = _
  cases s.port.held <;> rfl

/-- Settles O3: the reset is the state it leaves, field by field; the initialization ends behind the gate of the units. -/
theorem powerOnResetAndInitialization : Obligations.PowerOnResetAndInitialization := by
  unfold Obligations.PowerOnResetAndInitialization
  refine ⟨fun straps s => rfl, fun s h hst => ?_, fun o => ⟨rfl, rfl⟩⟩
  exact (exec_storeInitEnd h hst).trans (congrArg _ (initEnds_eq s))

theorem exec_rstNRelease {s : State} (h : s.life.rstN = true) (straps : Station) :
    exec (.rstNRelease straps) s = .next (s.releaseReset straps) := by
  simp [exec, execRstNRelease, h]

/-- R175: a soft reset outside INIT. -/
theorem exec_softReset {s : State} (h : s.PortReady) {e : ByteEnables} (he : e ≠ 0) (hst : s.life.station ≠ .init) :
    exec (.softReset e) s = .next ((s.resetUnits .config s.life.number).completeAccess none false) := by
  simp only [exec, execSoftReset, portFree_of_portReady h, whenever_true, if_neg (not_or.2 ⟨he, hst⟩)]

/-- R175, R186: a soft reset in INIT or with no byte enable is ignored. -/
theorem exec_softReset_ignored {s : State} (h : s.PortReady) {e : ByteEnables} (he : e = 0 ∨ s.life.station = .init) :
    exec (.softReset e) s = .next (s.completeAccess none false) := by
  simp only [exec, execSoftReset, portFree_of_portReady h, whenever_true, if_pos he]

/-- Settles O4: each reset by the state it leaves, and what stands while RST_N is asserted. -/
theorem pinResetAndSoftReset : Obligations.PinResetAndSoftReset := by
  unfold Obligations.PinResetAndSoftReset
  refine ⟨fun s h => ?_, fun straps s h => ?_, fun e s h he hst => ?_, fun e s h he => ?_,
    fun c s h hp hr hl => exec_of_rstN h hp hr hl⟩
  · rw [exec_rstNAssert h]; rfl
  · rw [exec_rstNRelease h]; rfl
  · rw [exec_softReset h he hst]; rfl
  · rw [exec_softReset_ignored h he]; rfl

/-! ## START (R61, R167, R168) -/

/-- R61: the check of a region is the rule's. -/
theorem valid_iff {r : Region} : r.valid = true ↔ r.IsValid := by
  simp [Region.valid, Region.IsValid, and_assoc]

/-- R61, R167: a record of valid regions has no invalid one. -/
theorem invalidRegion_eq_none {c : ConfigRecord}
    (h : ∀ n : Fin 8, c.regions[n.val].enabled = true → c.regions[n.val].IsValid) : c.invalidRegion = none := by
  refine List.find?_eq_none.2 (fun n _ => ?_)
  simp only [Bool.and_eq_true, Bool.not_eq_true', not_and, Bool.not_eq_false]
  exact fun he => valid_iff.2 (h n he)

/-- R61, R167: START names the invalid region with the lowest number. -/
theorem invalidRegion_eq_some {c : ConfigRecord} {n : Fin 8} (he : c.regions[n.val].enabled = true)
    (hn : ¬ c.regions[n.val].IsValid)
    (hm : ∀ m : Fin 8, m < n → c.regions[m.val].enabled = true → c.regions[m.val].IsValid) :
    c.invalidRegion = some n := by
  refine find_finRange _ n ?_ (fun m hlt => ?_)
  · rw [he, Bool.true_and, Bool.not_eq_true', ← Bool.not_eq_true, valid_iff]
    exact hn
  · cases hen : c.regions[m.val].enabled with
    | false => rfl
    | true => simp [valid_iff.2 (hm m hlt hen)]

/-- R167: with valid numbers, the first invalid item is the first invalid region. -/
theorem firstInvalid_of_numbersValid {c : ConfigRecord} (h : c.NumbersValid) :
    c.firstInvalid = c.invalidRegion.map .region := by
  obtain ⟨hlimit, htimeout, hretry⟩ := h
  simp only [ConfigRecord.firstInvalid]
  rw [if_neg (by omega), if_neg (by omega), if_neg (by omega)]

/-- R101, R103: while the offer is not fixed, a frame placed in the control slot is the one offered. -/
theorem controlPlaced_eq {s : State} (h : s.OffSpan) (c : ControlFrame) :
    (s.withSender { s.sender with control := some c }).refreshOffer = { s with
      sender := { s.sender with control := some c }
      span := { s.span with offer := some .control, offerState := .offered } } := by
  have hfree : s.span.offerState.isFixed = false := h
  simp [State.refreshOffer, SpanInterface.follow, Sender.choice, hfree, State.withSpan, State.withSender]

/-- R167, R168: what a START leaves that joins. -/
theorem beginJoining_eq {s : State} (h : s.OffSpan) : s.beginJoining = { s with
    life := { s.life with station := .joining, startStatus := .started }
    peers := resetPeers s.life.number
    sender := { s.sender with control := some { kind := .join, retransmissions := 0 } }
    span := { s.span with offer := some .control, offerState := .offered } } :=
  controlPlaced_eq (s := (s.withLife { s.life with station := .joining, startStatus := .started }).withPeers
    (resetPeers s.life.number)) h { kind := .join, retransmissions := 0 }

/-- R186: a START with a byte enable has its effect and completes the access. -/
theorem exec_start {s : State} (h : s.PortReady) {e : ByteEnables} (he : e ≠ 0) :
    exec (.start e) s = .next (s.startEffect.completeAccess none false) := by
  simp only [exec, execStart, portFree_of_portReady h, whenever_true, if_neg he]

theorem startEffect_of_invalid {s : State} (hst : s.life.station = .config) {item : InvalidItem}
    (h : s.written.firstInvalid = some item) :
    s.startEffect = s.withLife { s.life with startStatus := .invalid item } := by
  simp [State.startEffect, hst, h]

theorem startEffect_of_valid {s : State} (hst : s.life.station = .config) (h : s.written.firstInvalid = none) :
    s.startEffect = (s.withInForce s.written).beginJoining := by
  simp [State.startEffect, hst, h]

/-- Settles O5: a valid record has no invalid item, so either START joins. -/
theorem startJoins : Obligations.StartJoins := by
  unfold Obligations.StartJoins
  refine ⟨fun e s h he hoff hst hnum hreg => ?_, fun e s h he hoff hst => ?_⟩
  · have hvalid : s.written.firstInvalid = none := by
      rw [firstInvalid_of_numbersValid hnum, invalidRegion_eq_none hreg]; rfl
    have hoff' : (s.withInForce s.written).OffSpan := hoff
    rw [exec_start h he, startEffect_of_valid hst hvalid, beginJoining_eq hoff']
    rfl
  · have hjoin : s.startEffect = s.beginJoining := by simp [State.startEffect, hst]
    rw [exec_start h he, hjoin, beginJoining_eq hoff]
    rfl

/-- Settles O6: the first invalid item in each case, and the states in which a START has no effect. -/
theorem startIsTurnedAway : Obligations.StartIsTurnedAway := by
  unfold Obligations.StartIsTurnedAway
  intro e s h w invalid
  have turned : ∀ {item}, e ≠ 0 → s.life.station = .config → w.firstInvalid = some item → invalid item := by
    intro item he hst hitem
    change exec (.start e) s = _
    rw [exec_start h he, startEffect_of_invalid hst hitem]
    rfl
  refine ⟨fun he hst => ⟨fun hl => ?_, fun hl ht => ?_, fun hl ht hr => ?_, fun hnum n hen hn hm => ?_⟩, fun hno => ?_⟩
  · exact turned he hst (by rw [ConfigRecord.firstInvalid, if_pos hl])
  · exact turned he hst (by rw [ConfigRecord.firstInvalid, if_neg (by omega), if_pos ht])
  · exact turned he hst (by rw [ConfigRecord.firstInvalid, if_neg (by omega), if_neg (by omega), if_pos hr])
  · exact turned he hst (by rw [firstInvalid_of_numbersValid hnum, invalidRegion_eq_some hen hn hm]; rfl)
  · by_cases he : e = 0
    · simp only [exec, execStart, portFree_of_portReady h, whenever_true, if_pos he]
      rfl
    · obtain ⟨hconfig, hdetached⟩ := hno.resolve_left he
      have hnone : s.startEffect = s := by simp [State.startEffect, hconfig, hdetached]
      rw [exec_start h he, hnone]
      rfl

/-! ## The drain (R103, R171) -/

/-- R171: the drain is done where nothing inbound is left to serve. -/
theorem drainIsDone_of {s : State} (hst : s.life.station = .leaving) (hc : s.sender.control = none)
    (hq : s.inbound.queue = []) (hr : s.sender.responses = []) (ht : ∀ r f, s.span.received = some r → r.frame = some f →
      r.take = true → ¬ (f.body.frameClass = .request ∧ f.body.target ≠ none)) : s.drainIsDone = true := by
  have htake : s.span.received.any Received.isInboundTake = false := by
    cases hrec : s.span.received with
    | none => rfl
    | some r =>
      cases hf : r.frame with
      | none => simp [Received.isInboundTake, hf]
      | some f =>
        cases hk : r.take with
        | false => simp [Received.isInboundTake, hk]
        | true =>
          have hno := ht r f hrec hf hk
          cases hb : f.body <;> simp_all [Received.isInboundTake, FrameBody.isInboundRequest, FrameBody.frameClass,
            FrameBody.target]
  simp [State.drainIsDone, hst, hc, hq, hr, htake]

/-- Settles O7. -/
theorem drainDonePlacesLeave : Obligations.DrainDonePlacesLeave := by
  unfold Obligations.DrainDonePlacesLeave
  intro s h hoff hst hc hq hr ht
  have hdone : exec .drainDone s = .next s.placeLeave := by
    simp [exec, execDrainDone, awake_of_not_rstN h, drainIsDone_of hst hc hq hr ht]
  rw [hdone, State.placeLeave, controlPlaced_eq hoff]

/-! ## The reset state (R185) -/

/-- Settles O9: the words by evaluation, the laws by the lemmas that say what a reset leaves. -/
theorem resetStateReadsAndIsLawful : Obligations.ResetStateReadsAndIsLawful := by
  unfold Obligations.ResetStateReadsAndIsLawful
  have hreset : State.reset.resetUnits .init 0 = State.reset := rfl
  have hkept := kept_reset State.reset .init 0
  have hfit := completionsFit_resetUnits State.reset .init 0
  rw [hreset] at hkept hfit
  exact ⟨by decide, by decide, by decide, by decide, by decide, by decide, by decide, by decide, by decide, by decide,
    by decide, by decide, by decide, Memory.wf_reset, by decide, by decide, by decide, by decide, by decide, hkept.1, hkept.2,
    hfit⟩

end Sys2Proof.Machine
end

section
/-!
PROOFS. Port: the accesses of the local agent to the control window and to the store, and the incident unit (R95, R96, R140,
R146, R162, R166, R176, R177, R180, R185, R186).
-/
namespace Sys2Proof.Machine

/-! ## Configuration writes (R166, R180, R185) -/

theorem exec_configWrite {s : State} (h : s.PortReady) (w : ConfigWord) (d : Word) (e : ByteEnables) :
    exec (.configWrite w d e) s = .next ((s.configWritten w d e).completeAccess none false) := by
  simp only [exec, execConfigWrite, portFree_of_portReady h, whenever_true]

theorem exec_interruptEnablesWrite {s : State} (h : s.PortReady) (d : Word) (e : ByteEnables) :
    exec (.interruptEnablesWrite d e) s = .next ((s.enablesWritten d e).completeAccess none false) := by
  simp only [exec, execInterruptEnablesWrite, portFree_of_portReady h, whenever_true]

/-- R166: in CONFIG the written copy takes the enabled bytes. -/
theorem configWritten_in_config {s : State} {e : ByteEnables} (he : e ≠ 0) (hst : s.life.station = .config)
    (w : ConfigWord) (d : Word) : s.configWritten w d e = s.withWritten (s.written.write w d e) := by
  rw [State.configWritten, if_neg he, if_pos hst]

/-- R166: in any other state the write is ignored, and CONFIG_LOCKED is set. -/
theorem configWritten_locked {s : State} {e : ByteEnables} (he : e ≠ 0) (hst : s.life.station ≠ .config)
    (w : ConfigWord) (d : Word) : s.configWritten w d e = s.report .configLocked := by
  rw [State.configWritten, if_neg he, if_neg hst]

/-- R180, R186: the enables after a write, bit by bit. -/
theorem getLsbD_mergeEnables (old : BitVec 18) (d : Word) (e : ByteEnables) (i : Fin 18) :
    (mergeEnables old d e).getLsbD i.val = if e.getLsbD (i.val / 8) then d.getLsbD i.val else old.getLsbD i.val := by
  have hi : i.val < 32 := by omega
  rw [mergeEnables, BitVec.getLsbD_setWidth, getLsbD_mergeLanes _ _ _ hi, BitVec.getLsbD_setWidth]
  simp [hi]

theorem toNat_flagValue (b : Bool) : flagValue b = b.toNat := by
  cases b <;> rfl

/-- R185: the configuration words read their fields at their places. -/
theorem toNat_read_config0 (c : ConfigRecord) : (c.read .config0).toNat =
    c.commitmentLimit.toNat + 2 ^ 8 * c.completionTimeout.toNat + 2 ^ 16 * c.retryLimit.toNat := by
  have := c.commitmentLimit.isLt
  have := c.completionTimeout.isLt
  have := c.retryLimit.isLt
  rw [ConfigRecord.read, toNat_packFields]
  · simp; omega
  · simp [fieldsApart, lowestPlace]; omega

theorem toNat_read_acceptMask (c : ConfigRecord) : (c.read .acceptMask).toNat = c.acceptMask.toNat := by
  have := c.acceptMask.isLt
  simp [ConfigRecord.read]; omega

theorem toNat_read_regionA (c : ConfigRecord) (n : Fin 8) : (c.read (.regionA n)).toNat =
    c.regions[n.val].base.toNat + 2 ^ 16 * c.regions[n.val].peerSet.toNat := by
  have := c.regions[n.val].base.isLt
  have := c.regions[n.val].peerSet.isLt
  rw [ConfigRecord.read, toNat_packFields]
  · simp
  · simp [fieldsApart, lowestPlace]; omega

theorem toNat_read_regionB (c : ConfigRecord) (n : Fin 8) :
    (c.read (.regionB n)).toNat = c.regions[n.val].length.toNat + 2 ^ 24 * c.regions[n.val].enabled.toNat
      + 2 ^ 25 * c.regions[n.val].grantsRead.toNat + 2 ^ 26 * c.regions[n.val].grantsWrite.toNat
      + 2 ^ 27 * c.regions[n.val].grantsAtomic.toNat := by
  have := c.regions[n.val].length.isLt
  have := Bool.toNat_le c.regions[n.val].enabled
  have := Bool.toNat_le c.regions[n.val].grantsRead
  have := Bool.toNat_le c.regions[n.val].grantsWrite
  have := Bool.toNat_le c.regions[n.val].grantsAtomic
  rw [ConfigRecord.read, toNat_packFields]
  · simp [toNat_flagValue]; omega
  · simp [fieldsApart, lowestPlace, toNat_flagValue]; omega

/-- Settles O8. -/
theorem configurationWrites : Obligations.ConfigurationWrites := by
  unfold Obligations.ConfigurationWrites
  refine ⟨fun w d e s h he hst => ?_, fun w d e s h he hst => ?_, fun w d s h => ?_,
    fun old new e i => getLsbD_mergeLanes old new e i.isLt, fun c d n => ⟨rfl, rfl, rfl, rfl⟩, fun c n => ?_,
    fun d e s h => ?_⟩
  · rw [exec_configWrite h, configWritten_in_config he hst]
    rfl
  · rw [exec_configWrite h, configWritten_locked he hst]
    rfl
  · rw [exec_configWrite h, State.configWritten, if_pos rfl]
    rfl
  · exact ⟨toNat_read_config0 c, toNat_read_acceptMask c, toNat_read_regionA c n, toNat_read_regionB c n⟩
  · exact ⟨mergeEnables s.written.enables d e, exec_interruptEnablesWrite h d e,
      getLsbD_mergeEnables s.written.enables d e⟩

/-! ## POST (R146) and the pops (R140, R162) -/

theorem exec_post {s : State} (h : s.PortReady) {e : ByteEnables} (he : e ≠ 0) :
    exec (.post e) s = .next (s.posted.completeAccess none false) := by
  simp only [exec, execPost, portFree_of_portReady h, whenever_true, if_neg he]

/-- Settles O10. -/
theorem postQueuesOrOverflows : Obligations.PostQueuesOrOverflows := by
  unfold Obligations.PostQueuesOrOverflows
  refine fun e s h => ⟨fun he hlen => ?_, fun he hlen => ?_, fun he => ?_⟩
  · rw [exec_post h he, State.posted, if_pos hlen]
    rfl
  · rw [exec_post h he, State.posted, if_neg (Nat.not_lt.2 hlen)]
    rfl
  · simp only [exec, execPost, portFree_of_portReady h, whenever_true, if_pos he]
    rfl

theorem exec_resultPop {s : State} (h : s.PortReady) :
    exec .resultPop s = .next (s.resultPopped.completeAccess (some (resultWord s.issue.results.head?)) false) := by
  simp only [exec, execResultPop, portFree_of_portReady h, whenever_true]

theorem exec_noticePop {s : State} (h : s.PortReady) :
    exec .noticePop s = .next (s.noticePopped.completeAccess (some (noticeWord s.notices.queue.head?)) false) := by
  simp only [exec, execNoticePop, portFree_of_portReady h, whenever_true]

/-- R185: the codes of the statuses fit the status field. -/
theorem code_status_lt (st : Status) : st.code < 16 := by
  cases st <;> decide

/-- R162: the result pop word of an entry. -/
theorem toNat_resultWord (r : Result) :
    (resultWord (some r)).toNat = r.id.toNat + 2 ^ 8 * r.kind.toNat + 2 ^ 16 * r.status.code := by
  have := r.id.isLt
  have := r.kind.isLt
  have := code_status_lt r.status
  rw [resultWord, toNat_packFields]
  · simp; omega
  · simp [fieldsApart, lowestPlace]; omega

/-- Settles O11. -/
theorem popsReturnTheHead : Obligations.PopsReturnTheHead := by
  unfold Obligations.PopsReturnTheHead
  refine ⟨fun s h => ⟨_, exec_resultPop h, fun he => ?_, fun r rest hr => ?_⟩,
    fun s h => ⟨_, exec_noticePop h, fun he => ?_, fun n rest hn => ?_⟩⟩
  · rw [he]; rfl
  · rw [hr]
    exact toNat_resultWord r
  · rw [he]; rfl
  · rw [hn]
    simp [noticeWord, packFields]

/-! ## The map of the control window (R185, R186) -/

/-- R185: the map lists every word. -/
theorem mem_all (w : ControlWord) : w ∈ ControlWord.all := by
  simp only [ControlWord.all, ControlWord.groups, List.flatten_cons, List.flatten_nil, List.mem_append, List.mem_map,
    List.mem_finRange, List.mem_cons, List.not_mem_nil, true_and, or_false]
  cases w with
  | config x => cases x <;> simp
  | resultData n | noticeData n => fin_cases n <;> simp
  | _ => simp

/-- R186: an offset names no word of the map if no word has it. -/
theorem isNone_ofPortOffset_iff (a : Nat) :
    (ControlWord.ofPortOffset a).isNone = true ↔ ∀ w : ControlWord, w.portOffset ≠ a := by
  simp [ControlWord.ofPortOffset, List.find?_eq_none, mem_all]

/-- R185: the offsets that name a word. -/
theorem exists_portOffset_iff (a : Nat) : (∃ w : ControlWord, w.portOffset = a) ↔ a % 4 = 0 ∧
    (0x10000 ≤ a ∧ a < 0x1000C ∨ 0x10010 ≤ a ∧ a < 0x1001C ∨ 0x10020 ≤ a ∧ a < 0x10060 ∨ 0x10080 ≤ a ∧ a < 0x100AC
      ∨ 0x100B0 ≤ a ∧ a < 0x100BC ∨ 0x100C0 ≤ a ∧ a < 0x100D4 ∨ 0x10100 ≤ a ∧ a < 0x10140
      ∨ 0x10200 ≤ a ∧ a < 0x10234 ∨ 0x10240 ≤ a ∧ a < 0x1024C) := by
  constructor
  · rintro ⟨w, rfl⟩
    cases w with
    | config x =>
      cases x with
      | regionA n | regionB n =>
        have := n.isLt
        simp only [ControlWord.portOffset, ConfigWord.portOffset]
        omega
      | _ => decide
    | staging n | counter n | peerStatus n =>
      have := n.isLt
      simp only [ControlWord.portOffset]
      omega
    | resultData n | noticeData n => fin_cases n <;> decide
    | _ => decide
  · rintro ⟨ha, hr | hr | hr | hr | hr | hr | hr | hr | hr⟩
    · obtain rfl | rfl | rfl : a = 0x10000 ∨ a = 0x10004 ∨ a = 0x10008 := by omega
      exacts [⟨.stationState, rfl⟩, ⟨.start, rfl⟩, ⟨.softReset, rfl⟩]
    · obtain rfl | rfl | rfl : a = 0x10010 ∨ a = 0x10014 ∨ a = 0x10018 := by omega
      exacts [⟨.config .config0, rfl⟩, ⟨.config .acceptMask, rfl⟩, ⟨.interruptEnables, rfl⟩]
    · rcases Nat.mod_two_eq_zero_or_one ((a - 0x10020) / 4) with hp | hp
      · refine ⟨.config (.regionA ⟨(a - 0x10020) / 8, by omega⟩), ?_⟩
        simp only [ControlWord.portOffset, ConfigWord.portOffset]
        omega
      · refine ⟨.config (.regionB ⟨(a - 0x10020) / 8, by omega⟩), ?_⟩
        simp only [ControlWord.portOffset, ConfigWord.portOffset]
        omega
    · obtain hs | rfl | rfl | rfl | rfl : a < 0x1009C ∨ a = 0x1009C ∨ a = 0x100A0 ∨ a = 0x100A4 ∨ a = 0x100A8 := by omega
      · refine ⟨.staging ⟨(a - 0x10080) / 4, by omega⟩, ?_⟩
        simp only [ControlWord.portOffset]
        omega
      exacts [⟨.post, rfl⟩, ⟨.resultPop, rfl⟩, ⟨.resultData 0, rfl⟩, ⟨.resultData 1, rfl⟩]
    · obtain rfl | rfl | rfl : a = 0x100B0 ∨ a = 0x100B4 ∨ a = 0x100B8 := by omega
      exacts [⟨.noticePop, rfl⟩, ⟨.noticeData 0, rfl⟩, ⟨.noticeData 1, rfl⟩]
    · obtain rfl | rfl | rfl | rfl | rfl :
        a = 0x100C0 ∨ a = 0x100C4 ∨ a = 0x100C8 ∨ a = 0x100CC ∨ a = 0x100D0 := by omega
      exacts [⟨.bufferStatus, rfl⟩, ⟨.inboundStatus, rfl⟩, ⟨.senderStatus, rfl⟩, ⟨.noticeCount, rfl⟩, ⟨.issueStatus, rfl⟩]
    · refine ⟨.peerStatus ⟨(a - 0x10100) / 4, by omega⟩, ?_⟩
      simp only [ControlWord.portOffset]
      omega
    · refine ⟨.counter ⟨(a - 0x10200) / 4, by omega⟩, ?_⟩
      simp only [ControlWord.portOffset]
      omega
    · obtain rfl | rfl | rfl : a = 0x10240 ∨ a = 0x10244 ∨ a = 0x10248 := by omega
      exacts [⟨.flags, rfl⟩, ⟨.lastUnexpected, rfl⟩, ⟨.clearMask, rfl⟩]

/-- R186: an offset of the control window is unmapped if no word of the map has it. -/
theorem isUnmapped_iff (o : BitVec 17) : isUnmapped o = true ↔
    0x10000 ≤ o.toNat / 4 * 4 ∧ ¬ ∃ w : ControlWord, w.portOffset = o.toNat / 4 * 4 := by
  rw [isUnmapped, Bool.and_eq_true, decide_eq_true_eq, isNone_ofPortOffset_iff, not_exists]
  rfl

/-- R185, R186: the unmapped offsets by range. -/
theorem isUnmapped_iff_ranges (o : BitVec 17) :
    let a := o.toNat / 4 * 4
    isUnmapped o = true ↔
      0x1000C ≤ a ∧ a < 0x10010 ∨ 0x1001C ≤ a ∧ a < 0x10020 ∨ 0x10060 ≤ a ∧ a < 0x10080 ∨ 0x100AC ≤ a ∧ a < 0x100B0
      ∨ 0x100BC ≤ a ∧ a < 0x100C0 ∨ 0x100D4 ≤ a ∧ a < 0x10100 ∨ 0x10140 ≤ a ∧ a < 0x10200 ∨ 0x10234 ≤ a ∧ a < 0x10240
      ∨ 0x1024C ≤ a := by
  intro a
  have ha : a % 4 = 0 := by omega
  rw [isUnmapped_iff, exists_portOffset_iff]
  omega

/-! ## The other control accesses (R146, R186) -/

theorem exec_unmappedAccess {s : State} (h : s.PortReady) {o : BitVec 17} (ho : isUnmapped o = true) (a : PortAccess) :
    exec (.unmappedAccess o a) s = .next (s.completeAccess (PortAccess.data a 0) true) := by
  simp only [exec, execUnmappedAccess, portFree_of_portReady h, ho, Bool.and_self, whenever_true]

theorem exec_registerWrite {s : State} (h : s.PortReady) {w : ControlWord} (d : Word) (e : ByteEnables)
    (hw : w.writeHasOwnRow = false) :
    exec (.registerWrite w (.write d e)) s = .next ((s.registerWritten w d e).completeAccess none false) := by
  simp only [exec, execRegisterWrite, portFree_of_portReady h, ControlWord.hasOwnRow, hw, Bool.not_false, Bool.and_self,
    whenever_true]
  rfl

theorem exec_registerRead {s : State} (h : s.PortReady) {w : ControlWord} (hw : w.readHasOwnRow = false) :
    exec (.registerWrite w .read) s = .next (s.completeAccess (some (s.readControl w)) false) := by
  simp only [exec, execRegisterWrite, portFree_of_portReady h, ControlWord.hasOwnRow, hw, Bool.not_false, Bool.and_self,
    whenever_true]
  rfl

/-- R146, R186: a write of a word that is not a staging word is ignored. -/
theorem registerWritten_of_not_staging {w : ControlWord} (hw : ∀ n, w ≠ .staging n) (s : State) (d : Word)
    (e : ByteEnables) : s.registerWritten w d e = s := by
  cases w with
  | staging n => exact absurd rfl (hw n)
  | _ => rfl

/-- R185: the first staging words read their fields at their places. -/
theorem toNat_read_staging0 (c : CommandRecord) : (c.read 0).toNat =
    c.id.toNat + 2 ^ 8 * c.kind.toNat + 2 ^ 12 * c.target.toNat + 2 ^ 16 * c.operation.toNat := by
  have := c.id.isLt
  have := c.kind.isLt
  have := c.target.isLt
  have := c.operation.isLt
  have hread : c.read 0 = packFields [(c.id.toNat, 0), (c.kind.toNat, 8), (c.target.toNat, 12), (c.operation.toNat, 16)] :=
    rfl
  rw [hread, toNat_packFields]
  · simp; omega
  · simp [fieldsApart, lowestPlace]; omega

theorem toNat_read_staging1 (c : CommandRecord) :
    (c.read 1).toNat = c.remoteOffset.toNat + 2 ^ 16 * c.length.toNat := by
  have := c.remoteOffset.isLt
  have := c.length.isLt
  have hread : c.read 1 = packFields [(c.remoteOffset.toNat, 0), (c.length.toNat, 16)] := rfl
  rw [hread, toNat_packFields]
  · simp
  · simp [fieldsApart, lowestPlace]; omega

theorem toNat_read_staging2 (c : CommandRecord) : (c.read 2).toNat = c.localOffset.toNat := by
  have hread : c.read 2 = c.localOffset.setWidth 32 := rfl
  have := c.localOffset.isLt
  simp [hread]; omega

/-- Settles O13. -/
theorem otherControlAccesses : Obligations.OtherControlAccesses := by
  unfold Obligations.OtherControlAccesses
  refine ⟨fun o s h ho => ⟨exec_unmappedAccess h ho .read, fun d e => exec_unmappedAccess h ho (.write d e)⟩,
    fun n d e s h => exec_registerWrite h d e rfl, fun w d e s h hw hn => ?_, fun w s h hw => exec_registerRead h hw,
    fun c d => ⟨rfl, rfl, rfl, rfl, rfl, rfl, rfl, toNat_read_staging0 c, toNat_read_staging1 c, toNat_read_staging2 c,
      rfl, rfl, rfl, rfl⟩, isUnmapped_iff_ranges, fun o ho => ?_, fun w => ?_⟩
  · rw [exec_registerWrite h d e hw, registerWritten_of_not_staging hn]
    rfl
  · have ha : 0x10000 ≤ o.toNat / 4 * 4 := by omega
    rw [isUnmapped_iff, not_exists]
    exact ⟨fun h => h.2, fun h => ⟨ha, h⟩⟩
  · cases w with
    | config x => cases x <;> rfl
    | _ => rfl

/-! ## Local accesses to the store (R86, R95, R96) -/

theorem wordAligned_of_mod {o : Nat} (h : o % 4 = 0) : wordAligned o = o := by
  rw [wordAligned]; omega

/-- R86, R95: the access is held and, outside INIT, raises its transfer. -/
theorem holdAccess_eq (s : State) (x : HeldAccess) : s.holdAccess x = { s with
    port := { held := some x, completed := none }
    arbiter := if s.life.station = .init then s.arbiter else { s.arbiter with raisedLocal := some x.transfer } } := by
  by_cases hst : s.life.station = .init <;> simp [State.holdAccess, hst, State.withPort, State.raise, State.withArbiter,
    Arbiter.setRaised]

theorem exec_localRead {s : State} (h : s.PortReady) {o : Offset} (ho : o.toNat % 4 = 0) :
    exec (.localRead o) s = .next (s.holdAccess (.read o.toNat)) := by
  simp only [exec, execLocalRead, portFree_of_portReady h, whenever_true, wordAligned_of_mod ho]

theorem exec_localWrite {s : State} (h : s.PortReady) {o : Offset} (ho : o.toNat % 4 = 0) (d : Word) (e : ByteEnables) :
    exec (.localWrite o d e) s = .next (s.holdAccess (.write o.toNat d e)) := by
  simp only [exec, execLocalWrite, portFree_of_portReady h, whenever_true, wordAligned_of_mod ho]

/-- R95: the cells of a local write are the enabled bytes of its word. -/
theorem mem_laneCells {o n : Nat} {d : Word} {e : ByteEnables} {v : Byte} : (o + n, v) ∈ laneCells o d e ↔
    n < 4 ∧ e.getLsbD n = true ∧ v = d.extractLsb' (8 * n) 8 := by
  simp only [laneCells, byteOf, List.mem_filterMap, List.mem_range, Option.ite_none_right_eq_some, Option.some.injEq,
    Prod.mk.injEq, Nat.add_left_cancel_iff]
  constructor
  · rintro ⟨m, hm, he, rfl, rfl⟩
    exact ⟨hm, he, rfl⟩
  · rintro ⟨hn, he, rfl⟩
    exact ⟨n, hn, he, rfl, rfl⟩

/-- R87: a granted transfer of a claimant may complete while the units work. -/
theorem grantedTo_of {s : State} {g : Granted} {c : Claimant} (h : s.life.rstN = false) (hg : s.arbiter.granted = some g)
    (hc : g.claimant = c) : s.grantedTo c = some g := by
  simp [State.grantedTo, hg, hc, awake_of_not_rstN h]

theorem exec_localTransferComplete {s : State} {g : Granted} (h : s.life.rstN = false)
    (hg : s.arbiter.granted = some g) (hc : g.claimant = .localPort) :
    exec .localTransferComplete s = .next (s.localCompleted g) := by
  simp only [exec, execLocalTransferComplete, grantedTo_of h hg hc]

/-- Settles O18. -/
theorem localAccesses : Obligations.LocalAccesses := by
  unfold Obligations.LocalAccesses
  refine ⟨fun o s h ho => ?_, fun o d e s h ho => ?_, fun o n d e v => mem_laneCells, fun g s h hg hc =>
    ⟨fun o hp => ?_, fun o d e hp => ?_⟩⟩
  · rw [exec_localRead h ho, holdAccess_eq]
    rfl
  · rw [exec_localWrite h ho, holdAccess_eq]
    rfl
  · rw [exec_localTransferComplete h hg hc, State.localCompleted, hp]
    rfl
  · rw [exec_localTransferComplete h hg hc, State.localCompleted, hp]
    rfl

/-! ## The incident unit (R176, R177) -/

theorem position_lt (i : Incident) : i.position < 16 := by
  cases i <;> decide

/-- R176: a counter grows by 1 up to 65535. -/
theorem toNat_growCounter (c : BitVec 16) : (growCounter c).toNat = min (c.toNat + 1) 65535 := by
  unfold growCounter
  split
  next h => simp [h]
  next h =>
    have hne : c.toNat ≠ 65535 := fun hc => h (BitVec.eq_of_toNat_eq hc)
    have := c.isLt
    rw [BitVec.toNat_add]
    simp
    omega

/-- R176: a report sets the flag of its incident. -/
theorem getLsbD_flags_report (u : Incidents) (i : Incident) (k : Fin 16) :
    (u.report i).flags.getLsbD k.val = (u.flags.getLsbD k.val || decide (k.val = i.position)) := by
  have := position_lt i
  simp [Incidents.report]

/-- R176: a report grows the counter of its incident, if there is one. -/
theorem getElem_counters_report (u : Incidents) (i : Incident) (k : Fin 13) :
    (u.report i).counters[k.val] = if k.val = i.position then growCounter u.counters[k.val] else u.counters[k.val] := by
  by_cases hi : i.position < 13
  · by_cases hk : k.val = i.position
    · simp [Incidents.report, hi, hk]
    · simp [Incidents.report, hi, hk, Ne.symm hk]
  · have hk : k.val ≠ i.position := by omega
    simp [Incidents.report, hi, hk]

/-- Settles O15. -/
theorem incidentReports : Obligations.IncidentReports := by
  unfold Obligations.IncidentReports
  refine ⟨fun u i => ⟨getLsbD_flags_report u i, fun k => ?_, rfl⟩, fun u x => ⟨?_, rfl, rfl⟩⟩
  · rw [getElem_counters_report]
    split
    · exact toNat_growCounter _
    · rfl
  · cases h : u.lastUnexpected <;> simp [Incidents.reportUnexpected, h]

/-! ## Results (R159) -/

/-- A kind at or above a code differs from every code below it. -/
theorem kind_ne_of_le {k : BitVec 4} {m : Nat} (h : m ≤ k.toNat) {x : BitVec 4} (hx : x.toNat < m) : k ≠ x := by
  rintro rfl
  omega

/-- Settles O27: the fields by the first failure, and the bytes done by the kind. -/
theorem resultsSayHowTheCommandEnded : Obligations.ResultsSayHowTheCommandEnded := by
  unfold Obligations.ResultsSayHowTheCommandEnded
  refine fun c => ⟨rfl, rfl, fun hf => ⟨?_, fun hk => ?_, fun hk => ⟨?_, fun w hw => ?_⟩, fun hk => ?_, fun hk => ?_,
    fun hw => ?_⟩, fun k st hf => ⟨?_, ?_, fun hk => ?_, fun hk => ?_⟩⟩
  · simp only [Context.result, hf]
  · simp only [Context.result, Context.bytesDone, hf, if_pos hk]
  · simp [Context.result, Context.bytesDone, hf, hk]
  · simp only [Context.result, hf, hw]
  · simp [Context.result, Context.bytesDone, hf, hk]
  · have hne : ∀ {x : BitVec 4}, x.toNat < 4 → c.command.kind ≠ x := kind_ne_of_le hk
    simp only [Context.result, Context.bytesDone, hf, if_neg (not_or.2 ⟨hne (x := 0) (by decide), hne (x := 1) (by decide)⟩),
      if_neg (hne (x := 2) (by decide)), if_neg (hne (x := 3) (by decide))]
  · simp only [Context.result, hf, hw]
  · simp only [Context.result, hf]
  · simp only [Context.result, hf]
  · simp only [Context.result, Context.bytesDone, hf, if_pos hk]
  · have hne : ∀ {x : BitVec 4}, x.toNat < 2 → c.command.kind ≠ x := kind_ne_of_le hk
    simp only [Context.result, Context.bytesDone, hf, if_neg (not_or.2 ⟨hne (x := 0) (by decide), hne (x := 1) (by decide)⟩)]

end Sys2Proof.Machine
end

section
/-!
PROOFS. Words: what the words of the control window read, field by field (R59, R83, R119, R134, R164, R165, R178, R185).
-/
namespace Sys2Proof.Machine

/-! ## Bounds of the codes -/

theorem code_station_le (x : StationState) : x.code ≤ 6 := by
  cases x <;> decide

theorem code_haltCause_le (x : HaltCause) : x.code ≤ 3 := by
  cases x <;> decide

theorem code_startStatus_le (x : StartStatus) : x.code ≤ 2 := by
  cases x with
  | invalid item => exact Nat.le_refl 2
  | _ => decide

theorem itemCode_le (x : StartStatus) : x.itemCode ≤ 3 := by
  cases x with
  | invalid item => cases item <;> simp [StartStatus.itemCode]
  | _ => decide

theorem regionCode_le (x : StartStatus) : x.regionCode ≤ 7 := by
  cases x with
  | invalid item =>
    cases item with
    | region n => exact Nat.le_of_lt_succ n.isLt
    | _ => decide
  | _ => decide

theorem code_service_le (x : ServiceState) : x.code ≤ 2 := by
  cases x <;> decide

theorem code_issue_le (x : IssueState) : x.code ≤ 3 := by
  cases x <;> decide

theorem code_peer_le (x : PeerState) : x.code ≤ 3 := by
  cases x <;> decide

theorem completionKindCode_le (x : CompletionKind) : completionKindCode x ≤ 2 := by
  cases x <;> decide

theorem controlSlotCode_le (x : Option ControlFrame) : controlSlotCode x ≤ 2 := by
  rcases x with _ | ⟨_ | _, _⟩ <;> simp [controlSlotCode]

theorem offerSourceCode_le (x : Option Place) : offerSourceCode x ≤ 3 := by
  rcases x with _ | _ | _ | i
  · decide
  · decide
  · decide
  · exact Nat.le_refl 3

/-! ## The status words -/

/-- R165: the station state word. -/
theorem toNat_read_life (l : LifeCycle) : l.read.toNat = l.station.code + 2 ^ 4 * l.haltCause.code
    + 2 ^ 8 * l.startStatus.code + 2 ^ 12 * l.startStatus.itemCode + 2 ^ 16 * l.startStatus.regionCode
    + 2 ^ 24 * l.number.val := by
  have := code_station_le l.station
  have := code_haltCause_le l.haltCause
  have := code_startStatus_le l.startStatus
  have := itemCode_le l.startStatus
  have := regionCode_le l.startStatus
  have := l.number.isLt
  rw [LifeCycle.read, toNat_packFields]
  · simp; omega
  · simp [fieldsApart, lowestPlace]; omega

/-- R59: the buffer status word. -/
theorem toNat_bufferStatus {s : State} (hr : s.reservedBlocks ≤ 96) (ho : s.buffer.occupied ≤ 96)
    (hp : s.buffer.pieces.length ≤ 96) (hl : s.inForce.commitmentLimit.toNat ≤ 96) :
    s.bufferStatus.toNat = s.reservedBlocks + 2 ^ 8 * s.buffer.occupied + 2 ^ 16 * s.buffer.pieces.length
      + 2 ^ 23 * (if s.buffer.landing = none then 0 else 1) + 2 ^ 24 * s.inForce.commitmentLimit.toNat := by
  have hlanding : flagValue s.buffer.landing.isSome = if s.buffer.landing = none then 0 else 1 := by
    cases s.buffer.landing <;> rfl
  have := flagValue_le s.buffer.landing.isSome
  rw [← hlanding, State.bufferStatus, toNat_packFields]
  · simp; omega
  · simp [fieldsApart, lowestPlace]; omega

/-- R83: the inbound status word. -/
theorem toNat_inboundStatus {b : Inbound} (h : b.queue.length ≤ 16) :
    b.status.toNat = b.queue.length + 2 ^ 8 * b.poolFree
      + (match b.queue with
        | [] => 0
        | e :: _ => 2 ^ 16 * (if e.begun = true then 2 else 1) + 2 ^ 20 * e.source.val) := by
  have hfree := poolFree_le b
  have hcode := code_service_le b.engineState
  rw [Inbound.status, toNat_packFields]
  · cases hq : b.queue with
    | nil => simp [Inbound.engineState, hq, ServiceState.code]
    | cons e rest => cases hb : e.begun <;> simp [Inbound.engineState, hq, hb, ServiceState.code] <;> omega
  · cases hq : b.queue with
    | nil => simp_all [fieldsApart, lowestPlace]; omega
    | cons e rest => have := e.source.isLt; simp_all [fieldsApart, lowestPlace]; omega

theorem controlSlotCode_eq (x : Option ControlFrame) : controlSlotCode x = match x.map ControlFrame.kind with
    | none => 0
    | some .join => 1
    | some .leave => 2 := by
  rcases x with _ | ⟨_ | _, _⟩ <;> rfl

/-- R119: the sender status word. -/
theorem toNat_senderStatus {s : State} (hr : s.sender.responses.length ≤ 16) (hq : s.sender.requests.length ≤ 16) :
    s.senderStatus.toNat = controlSlotCode s.sender.control + 2 ^ 4 * s.sender.responses.length
      + 2 ^ 12 * s.sender.requests.length
      + 2 ^ 20 * (s.sender.requests.filter (fun e => decide (e.state = .held))).length
      + 2 ^ 28 * offerSourceCode s.span.offer := by
  have := controlSlotCode_le s.sender.control
  have := offerSourceCode_le s.span.offer
  have := List.length_filter_le (fun e : RequestEntry => decide (e.state = .held)) s.sender.requests
  rw [State.senderStatus, toNat_packFields]
  · simp; omega
  · simp [fieldsApart, lowestPlace]; omega

/-- R145, R164: the code of the issue engine's state. -/
theorem code_engineState (e : IssueEngine) : e.engineState.code =
    if e.current = none then (if e.commands = [] then 0 else 1)
    else if e.waitingFor.tag = true ∨ e.waitingFor.blocks = true ∨ e.waitingFor.entry = true then 3 else 2 := by
  rw [IssueEngine.engineState]
  cases hc : e.current with
  | none => cases e.commands <;> rfl
  | some k =>
    cases ht : e.waitingFor.tag <;> cases hb : e.waitingFor.blocks <;> cases hy : e.waitingFor.entry <;>
      simp [IssueEngine.isWaiting, ht, hb, hy, IssueState.code]

/-- R164: the issue status word. -/
theorem toNat_issueStatus {e : IssueEngine} (hc : e.commands.length ≤ 16)
    (hk : e.contexts.length + e.results.length ≤ 32) :
    e.status.toNat = e.commands.length + 2 ^ 8 * e.contexts.length + 2 ^ 16 * e.results.length
      + 2 ^ 24 * e.engineState.code
      + 2 ^ 28 * e.waitingFor.tag.toNat + 2 ^ 29 * e.waitingFor.blocks.toNat + 2 ^ 30 * e.waitingFor.entry.toNat := by
  have := code_issue_le e.engineState
  have := Bool.toNat_le e.waitingFor.tag
  have := Bool.toNat_le e.waitingFor.blocks
  have := Bool.toNat_le e.waitingFor.entry
  rw [IssueEngine.status, toNat_packFields]
  · simp [toNat_flagValue]; omega
  · simp [fieldsApart, lowestPlace, toNat_flagValue]; omega

/-- R134: a peer status word. -/
theorem toNat_read_peer {p : PeerRecord} (h : p.joinCount ≤ 255) : p.read.toNat = p.state.code + 2 ^ 8 * p.joinCount := by
  have := code_peer_le p.state
  rw [PeerRecord.read, toNat_packFields]
  · simp
  · simp [fieldsApart, lowestPlace]; omega

/-- R185: the fields of the last-unexpected-completion word, for every valid bit `v`: the kernel does not meet `2 ^ 31` alone. -/
theorem sum_unexpectedFields (a b c d v : Nat) :
    (([(a, 0), (b, 4), (c, 9), (d, 12), (v, 31)] : List (Nat × Nat)).map (fun f => 2 ^ f.2 * f.1)).sum =
      a + 2 ^ 4 * b + 2 ^ 9 * c + 2 ^ 12 * d + 2 ^ 31 * v := by
  simp only [List.map_cons, List.map_nil, List.sum_cons, List.sum_nil]
  omega

/-- R178: the last-unexpected-completion word of a valid record. -/
theorem toNat_unexpectedWord (x : Unexpected) : (unexpectedWord (some x)).toNat = x.source.val + 2 ^ 4 * x.tag.val
    + 2 ^ 9 * x.generation.val + 2 ^ 12 * completionKindCode x.kind + 2 ^ 31 := by
  have := x.source.isLt
  have := x.tag.isLt
  have := x.generation.isLt
  have := completionKindCode_le x.kind
  rw [unexpectedWord, toNat_packFields]
  · rw [sum_unexpectedFields, Nat.mul_one]
  · simp [fieldsApart, lowestPlace]; omega

/-- A field narrower than a word reads as it stands. -/
theorem toNat_setWidth_word {n : Nat} (hn : n ≤ 32) (x : BitVec n) : (x.setWidth 32).toNat = x.toNat := by
  rw [BitVec.toNat_setWidth, Nat.mod_eq_of_lt (Nat.lt_of_lt_of_le x.isLt (Nat.pow_le_pow_right (by decide) hn))]

/-- Settles O14. -/
theorem controlWordsRead : Obligations.ControlWordsRead := by
  unfold Obligations.ControlWordsRead
  refine ⟨fun s => toNat_read_life s.life, fun s hr ho hp hl => toNat_bufferStatus hr ho hp hl,
    fun s h => toNat_inboundStatus h, fun s hr hq => ?_, fun s h => ?_, fun s hc hk => ?_, fun n s h => toNat_read_peer h,
    fun k s => ⟨toNat_setWidth_word (by decide) _, toNat_setWidth_word (by decide) _⟩, fun s => ?_,
    fun s => ⟨fun h => ?_, fun r h => ?_⟩, fun s => ⟨fun h => ?_, fun n h => ?_⟩,
    fun s => ⟨fun w => rfl, fun n => rfl, toNat_setWidth_word (by decide) _, rfl, rfl, rfl, rfl⟩,
    by decide, by decide, fun item => ⟨rfl, rfl, rfl⟩, by decide, fun n => ⟨rfl, rfl⟩, by decide, by decide⟩
  · refine (toNat_senderStatus hr hq).trans ?_
    rw [controlSlotCode_eq]
    rcases s.span.offer with _ | _ | _ | i <;> rfl
  · exact (BitVec.toNat_ofNat _ _).trans (Nat.mod_eq_of_lt (by omega))
  · refine (toNat_issueStatus hc hk).trans ?_
    rw [code_engineState]
  · cases h : s.incidents.lastUnexpected with
    | none => simp [State.readControl, h, unexpectedWord]
    | some x =>
      refine (congrArg BitVec.toNat (congrArg unexpectedWord h)).trans ((toNat_unexpectedWord x).trans ?_)
      cases hx : x.kind <;> simp [completionKindCode, hx]
  · simp [State.readControl, resultDataWord, h]
  · simp [State.readControl, resultDataWord, h]
  · simp [State.readControl, noticeDataWord, h]
  · simp [State.readControl, noticeDataWord, h]

end Sys2Proof.Machine
end

section
/-!
PROOFS. Store: the arbiter's grant, and what a transfer returns and does (R84, R87, R89, R90, R93 to R95).
-/
namespace Sys2Proof.Machine

/-! ## The grant (R90) -/

/-- R90: the first claimant of the rotation whose request is raised is chosen. -/
theorem choice_of_rotation {a : Arbiter} {before after : List Claimant} {c : Claimant} {tr : Transfer}
    (h : a.pointer.rotation = before ++ c :: after) (hb : ∀ x ∈ before, a.raised x = none) (hc : a.raised c = some tr) :
    a.choice = some c := by
  rw [Arbiter.choice, List.find?_eq_some_iff_append]
  refine ⟨by rw [hc]; rfl, before, after, h, fun x hx => ?_⟩
  rw [hb x hx]; rfl

theorem exec_storeGrant {s : State} {c : Claimant} {tr : Transfer} (h : s.life.rstN = false) (hst : s.life.station ≠ .init)
    (hg : s.arbiter.granted = none) (hc : s.arbiter.choice = some c) (hr : s.arbiter.raised c = some tr) :
    exec .storeGrant s = .next (s.granting c tr) := by
  have hcan : s.storeCanGrant = true := by simp [State.storeCanGrant, awake_of_not_rstN h, hg, hst]
  simp only [exec, execStoreGrant, hc, hr, hcan, whenever_true]

/-- Settles O19. -/
theorem grantsFollowTheRotation : Obligations.GrantsFollowTheRotation := by
  unfold Obligations.GrantsFollowTheRotation
  intro s before after c tr h hst hg hrot hb hr
  rw [exec_storeGrant h hst hg (choice_of_rotation hrot hb hr) hr, State.granting]
  cases tr.parityError s.store <;> rfl

/-! ## Cells written one after another (R84, R95) -/

/-- R95: the byte of a cell that no other cell overwrites takes the cell's value. -/
theorem byte_writeCells_of_mem {a : Nat} {v : Byte} (cells : List Host.Cell) : ∀ {st : Store}, Memory.wf st = true →
    (∀ x ∈ cells, x.1 < Config.storeBytes) → (a, v) ∈ cells → (∀ w, (a, w) ∈ cells → w = v) →
    (st.writeCells cells).byte a = v := by
  induction cells with
  | nil => intro st _ _ hmem _; exact absurd hmem List.not_mem_nil
  | cons c rest ih =>
    intro st hw hlt hmem huniq
    have hw' : Memory.wf (st.writeByte c.1 c.2) = true := Memory.wf_writeByte hw c.1 c.2
    change ((st.writeByte c.1 c.2).writeCells rest).byte a = v
    by_cases hrest : a ∈ rest.map Prod.fst
    · obtain ⟨⟨_, w⟩, hx, rfl⟩ := List.mem_map.1 hrest
      have hwv : w = v := huniq w (List.mem_cons_of_mem c hx)
      exact ih hw' (fun y hy => hlt y (List.mem_cons_of_mem c hy)) (hwv ▸ hx)
        (fun u hu => huniq u (List.mem_cons_of_mem c hu))
    · obtain rfl | hx := List.mem_cons.1 hmem
      · rw [Store.byte_writeCells_of_not_mem rest hw' a hrest,
          Store.byte_writeByte hw (hlt (a, v) List.mem_cons_self) v a, if_pos rfl]
      · exact absurd (List.mem_map_of_mem hx) hrest

/-- R84: the bytes written are GOOD, and the others keep their integrity. -/
theorem isLost_writeCells (a : Nat) (cells : List Host.Cell) : ∀ {st : Store}, (∀ x ∈ cells, x.1 < Config.storeBytes) →
    (st.writeCells cells).isLost a = (decide (a ∉ cells.map Prod.fst) && st.isLost a) := by
  induction cells with
  | nil => intro st _; simp [Store.writeCells]
  | cons c rest ih =>
    intro st hlt
    change ((st.writeByte c.1 c.2).writeCells rest).isLost a = _
    rw [ih (fun y hy => hlt y (List.mem_cons_of_mem c hy)),
      Store.isLost_writeByte st (hlt c List.mem_cons_self), ← Bool.and_assoc]
    congr 1
    rw [Bool.eq_iff_iff]
    simp only [Bool.and_eq_true, decide_eq_true_eq, List.map_cons, List.mem_cons, not_or]
    exact and_comm

/-! ## Bytes laid from an offset -/

/-- The cells of bytes laid from an offset: each byte at its place. -/
theorem mem_cellsAt {v : Byte} (data : List Byte) : ∀ {o i : Nat}, (o + i, v) ∈ cellsAt o data ↔ data[i]? = some v := by
  induction data with
  | nil => intro o i; simp [cellsAt]
  | cons b rest ih =>
    intro o i
    cases i with
    | zero =>
      have hout : (o, v) ∉ cellsAt (o + 1) rest := fun hx =>
        not_mem_cellsAt (.inl (Nat.lt_succ_self o)) (List.mem_map_of_mem hx)
      simp [cellsAt, hout, eq_comm]
    | succ j =>
      have hstep : o + (j + 1) = (o + 1) + j := by omega
      have hne : ¬ o + 1 + j = o := by omega
      rw [hstep, cellsAt, List.mem_cons, ih]
      simp [hne]

theorem lt_storeBytes_of_mem_cellsAt {o : Nat} {data : List Byte} (h : o + data.length ≤ 65536) :
    ∀ x ∈ cellsAt o data, x.1 < Config.storeBytes := by
  intro x hx
  by_contra hge
  exact not_mem_cellsAt (.inr (Nat.le_trans h (Nat.not_lt.1 hge))) (List.mem_map_of_mem hx)

/-- R84: bytes laid from an offset have their values. -/
theorem byte_writeCells_cellsAt {st : Store} (hw : Memory.wf st = true) {o : Nat} {data : List Byte}
    (h : o + data.length ≤ 65536) {i : Nat} (hi : i < data.length) :
    (st.writeCells (cellsAt o data)).byte (o + i) = data[i] := by
  refine byte_writeCells_of_mem _ hw (lt_storeBytes_of_mem_cellsAt h) ?_ (fun w hmem => ?_)
  · exact (mem_cellsAt data).2 (List.getElem?_eq_getElem hi)
  · have hget := (mem_cellsAt data).1 hmem
    rw [List.getElem?_eq_getElem hi] at hget
    exact (Option.some.inj hget).symm

/-- R84: a range written reads back. -/
theorem readRange_writeCells_cellsAt {st : Store} (hw : Memory.wf st = true) {o : Nat} {data : List Byte}
    (h : o + data.length ≤ 65536) : (st.writeCells (cellsAt o data)).readRange o data.length = data := by
  refine List.ext_getElem (by simp [Store.readRange]) (fun i hi hi' => ?_)
  simp only [Store.readRange, List.getElem_map, List.getElem_range]
  exact byte_writeCells_cellsAt hw h hi'

/-- R84: bytes laid from an offset are GOOD. -/
theorem isLost_writeCells_cellsAt {st : Store} {o : Nat} {data : List Byte} (h : o + data.length ≤ 65536) {i : Nat}
    (hi : i < data.length) : (st.writeCells (cellsAt o data)).isLost (o + i) = false := by
  have hmem : o + i ∈ (cellsAt o data).map Prod.fst :=
    List.mem_map_of_mem (f := Prod.fst) ((mem_cellsAt data).2 (List.getElem?_eq_getElem hi))
  rw [isLost_writeCells _ _ (lt_storeBytes_of_mem_cellsAt h), decide_eq_false (not_not.2 hmem), Bool.false_and]

/-- R84: no byte beside the range changes. -/
theorem writeCells_cellsAt_beside {st : Store} (hw : Memory.wf st = true) {o : Nat} {data : List Byte}
    (h : o + data.length ≤ 65536) {a : Nat} (ha : a < o ∨ o + data.length ≤ a) :
    (st.writeCells (cellsAt o data)).byte a = st.byte a ∧ (st.writeCells (cellsAt o data)).isLost a = st.isLost a := by
  have hout := not_mem_cellsAt ha
  refine ⟨Store.byte_writeCells_of_not_mem _ hw a hout, ?_⟩
  rw [isLost_writeCells _ _ (lt_storeBytes_of_mem_cellsAt h), decide_eq_true hout, Bool.true_and]

/-! ## The enabled bytes of a word (R95) -/

/-- R95: the cells of a local write are of its word. -/
theorem exists_of_mem_laneCells {o : Nat} {d : Word} {e : ByteEnables} {x : Host.Cell} (hx : x ∈ laneCells o d e) :
    ∃ n, n < 4 ∧ e.getLsbD n = true ∧ x = (o + n, d.extractLsb' (8 * n) 8) := by
  obtain ⟨n, hn, heq⟩ := List.mem_filterMap.1 hx
  obtain ⟨he, hxn⟩ := Option.ite_none_right_eq_some.1 heq
  exact ⟨n, List.mem_range.1 hn, he, (Option.some.inj hxn).symm⟩

theorem lt_storeBytes_of_mem_laneCells {o : Nat} (h : o + 4 ≤ 65536) (d : Word) (e : ByteEnables) :
    ∀ x ∈ laneCells o d e, x.1 < Config.storeBytes := by
  intro x hx
  obtain ⟨n, hn, _, rfl⟩ := exists_of_mem_laneCells hx
  exact Nat.lt_of_lt_of_le (Nat.add_lt_add_left hn o) h

/-- R95: the byte of a lane is written if the lane is enabled. -/
theorem mem_map_laneCells {o n : Nat} (hn : n < 4) {d : Word} {e : ByteEnables} :
    o + n ∈ (laneCells o d e).map Prod.fst ↔ e.getLsbD n = true := by
  constructor
  · intro hmem
    obtain ⟨x, hx, hxn⟩ := List.mem_map.1 hmem
    obtain ⟨m, _, he, rfl⟩ := exists_of_mem_laneCells hx
    rwa [← Nat.add_left_cancel hxn]
  · intro he
    exact List.mem_map_of_mem (f := Prod.fst) (mem_laneCells.2 ⟨hn, he, rfl⟩)

theorem not_mem_map_laneCells {o a : Nat} (ha : a < o ∨ o + 4 ≤ a) (d : Word) (e : ByteEnables) :
    a ∉ (laneCells o d e).map Prod.fst := by
  intro hmem
  obtain ⟨x, hx, rfl⟩ := List.mem_map.1 hmem
  obtain ⟨n, hn, _, rfl⟩ := exists_of_mem_laneCells hx
  simp only at ha
  omega

/-! ## Verdicts and exchanges (R93, R94) -/

/-- R94: a range is LOST if a byte of it is. -/
theorem rangeLost_iff {st : Store} {o n : Nat} : st.rangeLost o n = true ↔ ∃ i, i < n ∧ st.isLost (o + i) = true := by
  simp [Store.rangeLost]

theorem rangeLost_eq_false_iff {st : Store} {o n : Nat} :
    st.rangeLost o n = false ↔ ∀ i, i < n → st.isLost (o + i) = false := by
  simp [Store.rangeLost]

/-- R93: an ATOMIC on a GOOD word leaves the word that its operation gives. -/
theorem atomic_effect_some {st : Store} {o : Nat} {op : AtomicOp} {a b w : Word} (hl : st.rangeLost o 4 = false)
    (hr : atomicResult op a b (wordOfBytes (st.readRange o 4)) = some w) :
    (Transfer.atomic o op a b).effect st = st.writeCells (cellsAt o (bytesOfWord w)) := by
  simp [Transfer.effect, hl, hr]

/-- R76, R93: an ATOMIC whose operation writes nothing leaves the store. -/
theorem atomic_effect_none {st : Store} {o : Nat} {op : AtomicOp} {a b : Word}
    (hr : atomicResult op a b (wordOfBytes (st.readRange o 4)) = none) : (Transfer.atomic o op a b).effect st = st := by
  simp [Transfer.effect, hr]

/-- What a store holds once a word is exchanged: its bytes GOOD, the word in them, nothing changed beside it. -/
def ExchangedAt (o : Nat) (st after : Store) (w : Word) : Prop :=
  (∀ i, i < 4 → after.isLost (o + i) = false) ∧ wordOfBytes (after.readRange o 4) = w
    ∧ ∀ x, (x < o ∨ o + 4 ≤ x) → after.byte x = st.byte x ∧ after.isLost x = st.isLost x

/-- R93: a word written is exchanged. -/
theorem exchangedAt_writeCells {st : Store} (hw : Memory.wf st = true) {o : Nat} (h : o + 4 ≤ 65536) (w : Word) :
    ExchangedAt o st (st.writeCells (cellsAt o (bytesOfWord w))) w := by
  refine ⟨fun i hi => isLost_writeCells_cellsAt h hi, ?_, fun x hx => writeCells_cellsAt_beside hw h hx⟩
  exact (congrArg wordOfBytes (readRange_writeCells_cellsAt (data := bytesOfWord w) hw h)).trans
    (wordOfBytes_bytesOfWord w)

/-- R93: a GOOD word that nothing is written to holds its value. -/
theorem exchangedAt_self {st : Store} {o : Nat} {w : Word} (hl : st.rangeLost o 4 = false)
    (hw : wordOfBytes (st.readRange o 4) = w) : ExchangedAt o st st w :=
  ⟨rangeLost_eq_false_iff.1 hl, hw, fun _ _ => ⟨rfl, rfl⟩⟩

/-- Settles O20, transfer by transfer. -/
theorem transfersReadWriteAndExchange : Obligations.TransfersReadWriteAndExchange := by
  unfold Obligations.TransfersReadWriteAndExchange
  refine ⟨fun st o n => ⟨rfl, rfl, rangeLost_iff⟩, fun st o data hw h => ⟨readRange_writeCells_cellsAt hw h,
    fun i hi => isLost_writeCells_cellsAt h hi, fun a ha => writeCells_cellsAt_beside hw h ha⟩,
    fun st o d e hw h => ⟨fun n hn => ⟨?_, ?_⟩, fun a ha => ⟨?_, ?_⟩⟩,
    fun st o op a b hw h => ⟨rfl, rangeLost_iff, fun hl => ?_, fun hop hne => ?_, fun hl => ?_⟩⟩
  · split
    next he =>
      refine byte_writeCells_of_mem _ hw (lt_storeBytes_of_mem_laneCells h d e) (mem_laneCells.2 ⟨hn, he, rfl⟩) ?_
      exact fun w hmem => (mem_laneCells.1 hmem).2.2
    next he => exact Store.byte_writeCells_of_not_mem _ hw _ (fun hmem => he ((mem_map_laneCells hn).1 hmem))
  · refine (isLost_writeCells _ _ (lt_storeBytes_of_mem_laneCells h d e)).trans ?_
    simp only [mem_map_laneCells hn]
    cases e.getLsbD n <;> rfl
  · exact Store.byte_writeCells_of_not_mem _ hw a (not_mem_map_laneCells ha d e)
  · refine (isLost_writeCells _ _ (lt_storeBytes_of_mem_laneCells h d e)).trans ?_
    rw [decide_eq_true (not_mem_map_laneCells ha d e), Bool.true_and]
  · simp [Transfer.effect, hl]
  · subst hop
    exact atomic_effect_none (if_neg hne)
  · cases op with
    | fetchAdd =>
      rw [atomic_effect_some hl rfl]
      exact exchangedAt_writeCells hw h _
    | swap =>
      rw [atomic_effect_some hl rfl]
      exact exchangedAt_writeCells hw h _
    | compareSwap =>
      by_cases heq : wordOfBytes (st.readRange o 4) = a
      · have hr : atomicResult .compareSwap a b (wordOfBytes (st.readRange o 4)) = some b := if_pos heq
        rw [atomic_effect_some hl hr]
        simp only [if_pos heq]
        exact exchangedAt_writeCells hw h _
      · have hr : atomicResult .compareSwap a b (wordOfBytes (st.readRange o 4)) = none := if_neg heq
        rw [atomic_effect_none hr]
        exact exchangedAt_self hl (if_neg heq).symm

end Sys2Proof.Machine
end

section
/-!
PROOFS. Answering: how a contention comes out, and what the station answers in the answer field (R2 to R9, R29, R62 to R66,
R136).
-/
namespace Sys2Proof.Machine

/-! ## Contentions (R2, R3, R4) -/

theorem exec_contention {s : State} (h : s.life.rstN = false) (r : ContentionReport) :
    exec (.contention r) s = .next (s.contend r) := by
  simp only [exec, execContention, awake_of_not_rstN h, whenever_true]

/-- R2: a contention begins at an idle span. -/
theorem beginContention_of_idle {u : SpanInterface} (h : u.phase = .unsynced ∨ u.phase = .idle) :
    u.beginContention = { u with
      phase := .contention
      offerState := if u.offerState = .offered then .contending else u.offerState } := by
  rw [SpanInterface.beginContention, if_pos h]

/-- R3: the report of a contention under way settles it. -/
theorem contend_settles {s : State} (h : s.span.phase = .contention) (lowest : Option (BitVec 6)) :
    s.contend (.settles lowest) = s.settleContention lowest := by
  have hbegin : s.span.beginContention = s.span := by
    rw [SpanInterface.beginContention, if_neg (by rw [h]; decide)]
  simp only [State.contend]
  rw [if_neg (by rw [h]; decide), hbegin]
  rfl

/-- R2, R3: a report at an idle span begins the contention that it settles (log 5). -/
theorem contend_settles_of_idle {s : State} (h : s.span.phase = .idle) (lowest : Option (BitVec 6)) :
    s.contend (.settles lowest) = State.settleContention { s with span := { s.span with
      phase := .contention
      offerState := if s.span.offerState = .offered then .contending else s.span.offerState } } lowest := by
  simp only [State.contend]
  rw [if_neg (by rw [h]; decide), beginContention_of_idle (.inr h)]
  rfl

/-- R3: the priority word of a frame as a number. -/
theorem toNat_priority (f : Frame) : f.priority.toNat = f.body.frameClass.value * 16 + f.source.val := by
  have := f.source.isLt
  have hclass : f.body.frameClass.value ≤ 2 := by cases f.body.frameClass <;> decide
  rw [Frame.priority, priorityWord, BitVec.toNat_ofNat, Nat.mod_eq_of_lt (by omega)]

/-- R3: the offered frame wins against a word that is not lower. -/
theorem wins_of_le {s : State} {f : Frame} (hf : s.offeredFrame = some f) {lowest : Option (BitVec 6)}
    (h : ∀ p, lowest = some p → f.body.frameClass.value * 16 + f.source.val ≤ p.toNat) : s.wins lowest = true := by
  cases lowest with
  | none => rfl
  | some p => simpa [State.wins, hf, toNat_priority] using h p rfl

/-- R3: the offered frame loses against a lower word. -/
theorem not_wins_of_lt {s : State} {f : Frame} (hf : s.offeredFrame = some f) {p : BitVec 6}
    (h : p.toNat < f.body.frameClass.value * 16 + f.source.val) : s.wins (some p) = false := by
  simpa [State.wins, hf, toNat_priority] using h

/-- R3, R4: the contention of a winner. -/
theorem settleContention_of_wins {s : State} (hp : s.span.phase = .contention) (ho : s.span.offerState = .contending)
    {lowest : Option (BitVec 6)} (hw : s.wins lowest = true) : s.settleContention lowest = s.won := by
  rw [State.settleContention, if_pos hp, if_pos ho, if_pos hw]

/-- R3, R4: the contention of a loser. -/
theorem settleContention_of_loses {s : State} (hp : s.span.phase = .contention) (ho : s.span.offerState = .contending)
    {lowest : Option (BitVec 6)} (hw : s.wins lowest = false) : s.settleContention lowest = s.lost lowest := by
  rw [State.settleContention, if_pos hp, if_pos ho, if_neg (by rw [hw]; decide)]

/-- R3: a contention in which the station does not contend. -/
theorem settleContention_of_others {s : State} (hp : s.span.phase = .contention) (ho : s.span.offerState ≠ .contending)
    (lowest : Option (BitVec 6)) : s.settleContention lowest = s.withSpan { s.span with
      phase := if lowest.isSome then .body else .idle
      received := lowest.map Received.begun } := by
  rw [State.settleContention, if_pos hp, if_neg ho]

/-- Settles O21. -/
theorem contentionsComeOut : Obligations.ContentionsComeOut := by
  unfold Obligations.ContentionsComeOut
  refine ⟨fun s h hp => ?_, fun f lowest s h hp ho hf hw => ?_, fun f p s h hp ho hf hlt => ?_,
    fun s h hp ho => ⟨fun p => ?_, ?_⟩, fun lowest s h hp => ?_, fun lowest s h hp => ?_⟩
  · rw [exec_contention h, State.contend, beginContention_of_idle hp]
    rfl
  · rw [exec_contention h, contend_settles hp, settleContention_of_wins hp ho (wins_of_le hf hw), State.won, hf]
    simp only [Option.map_some, Received.begun, toNat_priority]
    rfl
  · rw [exec_contention h, contend_settles hp, settleContention_of_loses hp ho (not_wins_of_lt hf hlt)]
    rfl
  · rw [exec_contention h, contend_settles hp, settleContention_of_others hp ho]
    rfl
  · rw [exec_contention h, contend_settles hp, settleContention_of_others hp ho]
    rfl
  · rw [exec_contention h, contend_settles_of_idle hp]
    refine Eq.symm ((exec_contention ?_ _).trans (congrArg _ (contend_settles ?_ lowest)))
    · exact h
    · rfl
  · rw [exec_contention h]
    simp only [State.contend, if_pos hp, State.settleUnsynced]
    cases lowest with
    | none => rfl
    | some p =>
      simp only [Option.isSome_some, if_true]
      rw [← hp]

/-! ## The answer field (R4 to R9) -/

/-- R7: the states in which the station answers. -/
theorem answers_iff {x : StationState} : x.answers = true ↔ x = .running ∨ x = .leaving := by
  cases x <;> simp [StationState.answers]

theorem answerIsDue_of {s : State} (h : s.life.rstN = false) (hu : s.span.phase ≠ .unsynced) (ha : s.span.phase ≠ .answer)
    (ho : s.span.offerState ≠ .contending) : s.answerIsDue = true := by
  simp [State.answerIsDue, awake_of_not_rstN h, hu, ha, ho]

/-- R2: an offer that is not fixed neither contends nor is sent. -/
theorem ne_of_offSpan {s : State} (h : s.OffSpan) : s.span.offerState ≠ .contending ∧ s.span.offerState ≠ .sending := by
  refine ⟨fun hx => ?_, fun hx => ?_⟩ <;> simp [State.OffSpan, hx, OfferState.isFixed] at h

theorem exec_answerField_sending {s : State} (h : s.life.rstN = false) (hu : s.span.phase ≠ .unsynced)
    (ha : s.span.phase ≠ .answer) (ho : s.span.offerState = .sending) (body : List Bool) :
    exec (.answerField body) s = .next (s.sentBody body) := by
  simp only [exec, execAnswerField, answerIsDue_of h hu ha (by rw [ho]; decide), if_pos ho, whenever_true]

theorem exec_answerField_offSpan {s : State} (h : s.life.rstN = false) (hu : s.span.phase ≠ .unsynced)
    (ha : s.span.phase ≠ .answer) (ho : s.OffSpan) (body : List Bool) :
    exec (.answerField body) s = .next (s.answered body) := by
  obtain ⟨hc, hs⟩ := ne_of_offSpan ho
  simp only [exec, execAnswerField, answerIsDue_of h hu ha hc, if_neg hs, whenever_true]

/-- R4, R7: on the span the receive holding takes the frame judged. -/
theorem answered_onSpan {s : State} (h : s.life.station.onSpan = true) (body : List Bool) :
    s.answered body = s.withSpan { s.span with phase := .answer, received := some (s.receive body (judge body)) } := by
  rw [State.answered, if_pos h]

/-- R5: a frame too short or with a wrong check is damaged. -/
theorem judge_damaged {body : List Bool} (h : body.length < 47 ∨
    body.drop (body.length - 32) ≠ bitsOfNat 32 (crc (body.take (body.length - 32))).toNat) : judge body = .damaged := by
  have hcheck : checkPasses body = false := by
    rw [checkPasses, Bool.and_eq_false_iff, decide_eq_false_iff_not, decide_eq_false_iff_not, Nat.not_le]
    exact h
  simp [judge, hcheck]

/-- R5, R7, R9: the receive holding of a frame recognised. -/
theorem receive_recognised {s : State} {f : Frame} {a : Answer} {take : Bool} (ha : s.answerTo f = a)
    (ht : s.takesFrom f = take) (body : List Bool) :
    s.receive body (.recognised f) = { bits := body, frame := some f, drove := a, take := take } := by
  rw [State.receive, ha, ht]

/-- Settles O22. -/
theorem answerFields : Obligations.AnswerFields := by
  unfold Obligations.AnswerFields
  refine ⟨fun body s h hu ha => ⟨fun ho => ?_, fun ho hon => ?_, fun ho hoff => ?_⟩, fun body s hbad => ?_,
    fun target body s => ?_, fun a b => ?_, fun a b hab => ?_, rfl, rfl, rfl, rfl, rfl⟩
  · rw [exec_answerField_sending h hu ha ho]
    rfl
  · rw [exec_answerField_offSpan h hu ha ho, answered_onSpan hon]
    rfl
  · rw [exec_answerField_offSpan h hu ha ho, State.answered, if_neg (by rw [hoff]; decide)]
    rfl
  · rw [judge_damaged hbad]
    rfl
  · simp only [State.receive, State.answerUnrecognisable, answers_iff]
  · cases a <;> cases b <;> rfl
  · revert hab
    cases a <;> cases b <;> decide

/-! ## Requests (R62 to R66) -/

/-- R62: the access check is that some region admits the access. -/
theorem accessPasses_iff {c : ConfigRecord} {right : Right} {source : Station} {offset size : Nat} :
    c.accessPasses right source offset size = true ↔ c.Admits right source offset size := by
  have hpass : ∀ r : Region, r.passes right source offset size = true ↔ r.enabled = true ∧ r.base.toNat ≤ offset
      ∧ offset + size ≤ r.base.toNat + r.length.toNat
      ∧ (match right with
        | .read => r.grantsRead
        | .write => r.grantsWrite
        | .atomic => r.grantsAtomic) = true
      ∧ r.peerSet.getLsbD source.val = true := by
    intro r
    cases right <;> simp [Region.passes, Region.grants, and_assoc]
  simp only [ConfigRecord.accessPasses, List.any_eq_true, hpass, Vector.mem_toList_iff, Vector.mem_iff_getElem,
    ConfigRecord.Admits]
  constructor
  · rintro ⟨_, ⟨n, hn, rfl⟩, hr⟩
    exact ⟨⟨n, hn⟩, hr⟩
  · rintro ⟨n, hr⟩
    exact ⟨_, ⟨n.val, n.isLt, rfl⟩, hr⟩

theorem rangeMalformed_iff {offset length : Nat} :
    rangeMalformed offset length = true ↔ length = 0 ∨ 256 < length ∨ 65536 < offset + length := by
  simp [rangeMalformed, or_assoc]

/-- R64: the decision on a request that has an access is by the three tests: of its fields and source, of the access, and of
the room. -/
theorem exists_threeTests (s : State) (source : Station) {b : FrameBody} {right : Right} {offset size : Nat}
    (h : FrameBody.access b = some (right, offset, size)) : ∃ malformed passes room,
      s.decideRequest source b = threeTests malformed passes room
      ∧ (malformed = true ↔ FrameBody.Malformed s.life.number source b)
      ∧ (passes = true ↔ s.inForce.Admits right source offset size) ∧ (room = true ↔ s.RoomFor b) := by
  cases b with
  | rdReq t tag g o n =>
    obtain ⟨rfl, rfl, rfl⟩ : Right.read = right ∧ o.toNat = offset ∧ n.toNat = size := by simpa [FrameBody.access] using h
    refine ⟨_, _, _, rfl, ?_, accessPasses_iff, ?_⟩
    · simp [rangeMalformed_iff, FrameBody.Malformed]
    · simp [hasRoom_iff, State.RoomFor]
  | wrReq t tag g o n payload =>
    obtain ⟨rfl, rfl, rfl⟩ : Right.write = right ∧ o.toNat = offset ∧ n.toNat = size := by simpa [FrameBody.access] using h
    refine ⟨_, _, _, rfl, ?_, accessPasses_iff, ?_⟩
    · simp [rangeMalformed_iff, FrameBody.Malformed]
    · simp [hasRoom_iff, State.RoomFor, blocksFor, Inbound.poolFree, Config.poolBlocks]
  | atReq t tag g o op x y =>
    obtain ⟨rfl, rfl, rfl⟩ : Right.atomic = right ∧ o.toNat = offset ∧ 4 = size := by simpa [FrameBody.access] using h
    refine ⟨_, _, _, rfl, ?_, accessPasses_iff, ?_⟩
    · simp [FrameBody.Malformed]
    · simp [hasRoom_iff, State.RoomFor]
  | _ => cases h

/-- R9: the take of a frame with a target goes with ACCEPT. -/
theorem takesFrom_of_target (s : State) {f : Frame} {t : Station} (h : f.body.target = some t) :
    s.takesFrom f = decide (s.answerTo f = .accept) := by
  obtain ⟨source, b⟩ := f
  cases b with
  | join | leave | notice => cases h
  | _ => simp [State.takesFrom]

/-- R7, R63: the answer to a request addressed to this station. -/
theorem answerTo_of_request {s : State} {f : Frame} (ht : f.body.target = some s.life.number)
    (hc : f.body.frameClass = .request) : s.answerTo f = s.answerRequest f.source f.body := by
  obtain ⟨source, b⟩ := f
  cases b with
  | rdReq | wrReq | atReq => simp [State.answerTo, Option.some.inj ht]
  | notice => cases ht
  | _ => cases hc

theorem frameClass_of_access {b : FrameBody} {x : Right × Nat × Nat} (h : FrameBody.access b = some x) : b.frameClass = .request := by
  cases b with
  | rdReq | wrReq | atReq => rfl
  | _ => cases h

/-- Settles O23: the decision is by the three tests, and the fourth answer is that none applies. -/
theorem requestsAreDecidedByFourTests : Obligations.RequestsAreDecidedByFourTests := by
  unfold Obligations.RequestsAreDecidedByFourTests
  intro f right offset size body s h hu ha ho hrun hj ht hacc answer malformed admitted
  obtain ⟨m, p, r, htests, hm, hp, hr⟩ := exists_threeTests s f.source hacc
  have hanswer : s.answerTo f = threeTests m p r := by
    rw [answerTo_of_request ht (frameClass_of_access hacc), State.answerRequest, hrun, htests]
  have hdraws : ∀ a, threeTests m p r = a → answer a := by
    intro a hma
    have hon : s.life.station.onSpan = true := by rw [hrun]; rfl
    have hrec := receive_recognised (hanswer.trans hma) (takesFrom_of_target s ht) body
    rw [hanswer.trans hma] at hrec
    change exec (.answerField body) s = _
    rw [exec_answerField_offSpan h hu ha ho, answered_onSpan hon, hj, hrec]
    rfl
  refine ⟨fun hx => hdraws _ ?_, fun hx hy => hdraws _ ?_, fun hx hy hz => hdraws _ ?_, fun hx hy hz => hdraws _ ?_⟩
  · rw [hm.2 hx]; rfl
  · have hp' : p = false := Bool.eq_false_iff.2 (mt hp.1 hy)
    simp [threeTests, hp']
  · have hm' : m = false := Bool.eq_false_iff.2 (mt hm.1 hx)
    have hr' : r = false := Bool.eq_false_iff.2 (mt hr.1 hz)
    simp [threeTests, hm', hp.2 hy, hr']
  · have hm' : m = false := Bool.eq_false_iff.2 (mt hm.1 hx)
    simp [threeTests, hm', hp.2 hy, hr.2 hz]

/-! ## Completions (R29) -/

theorem awaits_eq_true_iff {x : TagState} : x.awaits = true ↔ x = .sent ∨ x = .partialRead := by
  cases x <;> simp [TagState.awaits]

/-- R29: the conditions of the match rows. -/
theorem expects_iff {r : TagRecord} {b : FrameBody} : r.expects b = true ↔ r.Expects b := by
  cases b with
  | rdData t tag g second last data =>
    cases last <;>
      simp [TagRecord.expects, TagRecord.Expects, TagRecord.expectsPiece, awaits_eq_true_iff, and_assoc]
  | atData t tag g w => simp [TagRecord.expects, TagRecord.Expects]
  | fail t tag g => simp [TagRecord.expects, TagRecord.Expects, awaits_eq_true_iff]
  | _ => simp [TagRecord.expects, TagRecord.Expects]

/-- R29: a completion is unexpected unless the record names it and is STALE or expects it. -/
theorem matching_unexpected_iff {r : TagRecord} {source : Station} {g : Generation} {b : FrameBody} :
    r.matching source g b = .unexpected ↔
      ¬ ((r.target = some source ∧ r.generation = g) ∧ (r.state = .stale ∨ r.Expects b)) := by
  rw [TagRecord.matching, ← expects_iff]
  by_cases hn : r.target = some source ∧ r.generation = g
  · obtain ⟨htarget, hgen⟩ := hn
    by_cases hs : r.state = .stale
    · simp [htarget, hgen, hs]
    · cases he : r.expects b <;> simp [htarget, hgen, hs]
  · rw [if_pos (by rw [← not_and_or]; exact hn)]
    simp [hn]

/-- R7, R29: the answer to a completion addressed to this station. -/
theorem answerTo_of_completion {s : State} {f : Frame} (ht : f.body.target = some s.life.number)
    {x : Tag × Generation × CompletionKind} (hc : FrameBody.completion f.body = some x) :
    s.answerTo f = s.answerCompletion f.source f.body := by
  obtain ⟨source, b⟩ := f
  cases b with
  | rdData | atData | fail => simp [State.answerTo, Option.some.inj ht]
  | _ => cases hc

/-- Settles O24. -/
theorem completionsAreMatched : Obligations.CompletionsAreMatched := by
  unfold Obligations.CompletionsAreMatched
  intro f tag g kind body s hst ht hc r named
  have hmatching : s.matching f.source f.body = r.matching f.source g f.body := by
    rw [State.matching, hc]
  have hanswer : s.answerTo f = if r.matching f.source g f.body = .unexpected then .refuse else .accept := by
    rw [answerTo_of_completion ht hc, State.answerCompletion, if_pos (answers_iff.2 hst), hmatching]
  refine ⟨fun hn hx => ?_, fun hno => ?_⟩
  · have hmatched : ¬ r.matching f.source g f.body = .unexpected := fun hu => matching_unexpected_iff.1 hu ⟨hn, hx⟩
    rw [if_neg hmatched] at hanswer
    exact receive_recognised hanswer (by rw [takesFrom_of_target s ht, hanswer]; rfl) body
  · rw [if_pos (matching_unexpected_iff.2 hno)] at hanswer
    exact receive_recognised hanswer (by rw [takesFrom_of_target s ht, hanswer]; rfl) body

/-! ## The other frames (R7, R63, R136) -/

/-- R135: the senders admitted. -/
theorem admits_iff {s : State} {source : Station} :
    s.admits source = true ↔ s.inForce.acceptMask.getLsbD source.val = true ∧ source ≠ s.life.number := by
  simp [State.admits]

/-- R7: a frame to another station draws nothing. -/
theorem answerTo_of_other {s : State} {f : Frame} {t : Station} (h : f.body.target = some t) (ht : t ≠ s.life.number) :
    s.answerTo f = .silent := by
  obtain ⟨source, b⟩ := f
  cases b with
  | join | leave | notice => cases h
  | _ =>
    obtain rfl := Option.some.inj h
    exact if_neg ht

/-- R7: outside RUNNING and LEAVING the station answers nothing. -/
theorem answerTo_of_not_answers {s : State} (h1 : s.life.station ≠ .running) (h2 : s.life.station ≠ .leaving) (f : Frame) :
    s.answerTo f = .silent := by
  have hno : s.life.station.answers = false := Bool.eq_false_iff.2 (fun h => (answers_iff.1 h).elim h1 h2)
  have hrequest : s.answerRequest f.source f.body = .silent := by
    rw [State.answerRequest]
    split
    next h => exact absurd h h1
    next h => exact absurd h h2
    next => rfl
  have hcompletion : s.answerCompletion f.source f.body = .silent := by simp [State.answerCompletion, hno]
  have hcontrol : s.answerControl = .silent := by simp [State.answerControl, hno]
  have hnotice : s.answerNotice f.source = .silent := by simp [State.answerNotice, h1]
  obtain ⟨source, b⟩ := f
  cases b with
  | join | leave => exact hcontrol
  | notice => exact hnotice
  | rdReq | wrReq | atReq => simp only [State.answerTo, hrequest, ite_self]
  | rdData | atData | fail => simp only [State.answerTo, hcompletion, ite_self]

/-- R9: without ACCEPT there is no take. -/
theorem takesFrom_of_not_accept {s : State} {f : Frame} (h : s.answerTo f ≠ .accept) : s.takesFrom f = false := by
  simp [State.takesFrom, h]

/-- Settles O25, kind by kind. -/
theorem otherFramesAreAnswered : Obligations.OtherFramesAreAnswered := by
  unfold Obligations.OtherFramesAreAnswered
  refine ⟨fun f body s hb => ?_, fun source data body s hst => ?_, fun f body s hst ht hc => ?_, fun f t body s ht hne => ?_,
    fun f body s h1 h2 => ?_, fun source data body s hst => ?_⟩
  · have hanswer : s.answerTo f = if s.life.station = .running ∨ s.life.station = .leaving then .accept else .silent := by
      obtain hb | hb := hb <;> simp only [State.answerTo, hb, State.answerControl, answers_iff]
    refine receive_recognised hanswer ?_ body
    obtain hb | hb := hb <;> simp [State.takesFrom, hb]
  · intro admitted f
    have hanswer : s.answerTo f = if s.admits source && decide (16 ≤ s.notices.queue.length) then .busy else .accept := by
      simp [State.answerTo, f, State.answerNotice, hst]
    have htake : s.takesFrom f = (decide (s.answerTo f = .accept) && s.admits source) := rfl
    refine ⟨fun ha hlen => ?_, fun ha hlen => ?_, fun ha => ?_⟩
    · refine receive_recognised (hanswer.trans ?_) (htake.trans ?_) body
      · simp [admits_iff.2 ha, hlen]
      · simp [hanswer, admits_iff.2 ha, hlen]
    · refine receive_recognised (hanswer.trans ?_) (htake.trans ?_) body
      · simp [hlen]
      · simp [hanswer, admits_iff.2 ha, hlen]
    · have hno : s.admits source = false := Bool.eq_false_iff.2 (mt admits_iff.1 ha)
      refine receive_recognised (hanswer.trans ?_) (htake.trans ?_) body
      · simp [hno]
      · simp [hno]
  · have hanswer : s.answerTo f = .refuse := by
      rw [answerTo_of_request ht hc, State.answerRequest, hst]
    exact receive_recognised hanswer (takesFrom_of_not_accept (by rw [hanswer]; decide)) body
  · have hanswer := answerTo_of_other ht hne
    exact receive_recognised hanswer (takesFrom_of_not_accept (by rw [hanswer]; decide)) body
  · have hanswer := answerTo_of_not_answers h1 h2 f
    exact receive_recognised hanswer (takesFrom_of_not_accept (by rw [hanswer]; decide)) body
  · have hanswer : s.answerTo { source := source, body := .notice data } = .silent := by
      simp [State.answerTo, State.answerNotice, hst]
    exact receive_recognised hanswer (takesFrom_of_not_accept (by rw [hanswer]; decide)) body

end Sys2Proof.Machine
end

section
/-!
PROOFS. Settling: what every event ends with, the choice of the sender and the frame offered (R71, R101, R109, R155, R160).
-/
namespace Sys2Proof.Machine

/-! ## The issue of a segment leaves the span alone -/

theorem span_segmentIssued (s : State) (c : Context) : (s.segmentIssued c).span = s.span := by
  simp only [State.segmentIssued]
  split
  · rw [State.issuingEnds]
    split <;> rfl
  · rfl

theorem span_grant (s : State) (c : Context) : (s.grant c).span = s.span := by
  rw [State.grant]
  split
  next => rfl
  next slot _ =>
    split
    · split
      · exact span_segmentIssued _ c
      · rfl
    · rw [State.grantNotice, span_segmentIssued]
      rfl

theorem span_beyond (s : State) : s.beyond.span = s.span := rfl

/-- R154: asking for a segment leaves the span interface as it is. -/
theorem span_issueSegment (s : State) (c : Context) : (s.issueSegment c).span = s.span := by
  rw [State.issueSegment]
  split
  · rw [← span_beyond, beyond_failSegment, span_beyond]
  · split
    · rw [State.delaySegment]
      split <;> rfl
    · exact span_grant s c

/-- R155: the segment that a waiting engine asks again for, as the statement of settling writes it. -/
theorem askAgain_produceResults_eq (s : State) : s.produceResults.askAgain =
    if s.life.station = .running
        ∧ (s.issue.waitingFor.tag = true ∨ s.issue.waitingFor.blocks = true ∨ s.issue.waitingFor.entry = true) then
      match s.issue.current.bind s.produceResults.issue.context with
      | some c => s.produceResults.issueSegment c
      | none => s.produceResults
    else s.produceResults := by
  rw [State.askAgain]
  have hwaits : s.produceResults.issue.isWaiting = true ↔
      s.issue.waitingFor.tag = true ∨ s.issue.waitingFor.blocks = true ∨ s.issue.waitingFor.entry = true := by
    rw [isWaiting_produceResults]
    simp [IssueEngine.isWaiting, or_assoc]
  exact if_congr (and_congr Iff.rfl hwaits) rfl rfl

theorem span_askAgain_produceResults (s : State) : s.produceResults.askAgain.span = s.span := by
  rw [askAgain_produceResults_eq]
  split
  · split
    · exact span_issueSegment _ _
    · rfl
  · rfl

/-! ## The choice (R101, R109) -/

/-- R109: an entry that may be offered, after the older entries of the list. -/
def RequestEntry.Eligible (older : List RequestEntry) (e : RequestEntry) : Prop :=
  (e.state = .ready ∨ e.state = .held ∧ e.backoffReached = true) ∧ e.withdrawn = false
    ∧ ∀ x ∈ older, x.frame.body.target ≠ e.frame.body.target

/-- R109: the three conditions of the choice are those of an eligible entry, the keys passed over being those of the older
entries. -/
theorem eligible_iff {seen : List (Option Station)} {older : List RequestEntry} (h : ∀ k, k ∈ seen ↔ ∃ x ∈ older, x.key = k)
    (e : RequestEntry) : (e.sendable && !seen.contains e.key) = true ↔ e.Eligible older := by
  have hsend : e.sendable = true ↔
      (e.state = .ready ∨ e.state = .held ∧ e.backoffReached = true) ∧ e.withdrawn = false := by
    cases hst : e.state <;> simp [RequestEntry.sendable, hst, and_comm]
  have hseen : (!seen.contains e.key) = true ↔ ∀ x ∈ older, x.frame.body.target ≠ e.frame.body.target := by
    rw [Bool.not_eq_true', ← Bool.not_eq_true, List.contains_iff_mem, h]
    simp [RequestEntry.key]
  rw [Bool.and_eq_true, hsend, hseen, RequestEntry.Eligible, and_assoc]

theorem keys_cons {seen : List (Option Station)} {older : List RequestEntry} (h : ∀ k, k ∈ seen ↔ ∃ x ∈ older, x.key = k)
    (e : RequestEntry) : ∀ k, k ∈ e.key :: seen ↔ ∃ x ∈ older ++ [e], x.key = k := by
  intro k
  simp only [List.mem_cons, h, List.mem_append, List.not_mem_nil, or_false]
  constructor
  · rintro (rfl | ⟨x, hx, rfl⟩)
    · exact ⟨e, .inr rfl, rfl⟩
    · exact ⟨x, .inl hx, rfl⟩
  · rintro ⟨x, hx | rfl, rfl⟩
    · exact .inr ⟨x, hx, rfl⟩
    · exact .inl rfl

/-- No entry of `l` is eligible after those passed over and those of `l` that are older. -/
def NoneEligible (passed l : List RequestEntry) : Prop :=
  ∀ before x after, l = before ++ x :: after → ¬ x.Eligible (passed ++ before)

theorem NoneEligible.tail {passed rest : List RequestEntry} {e : RequestEntry} (h : NoneEligible passed (e :: rest)) :
    NoneEligible (passed ++ [e]) rest := by
  intro before x after hrest
  rw [List.append_assoc]
  exact h (e :: before) x after (by rw [hrest]; rfl)

/-- R109: the eligible entry that no eligible one precedes is the oldest. -/
theorem firstEligible_append {e : RequestEntry} {newer : List RequestEntry} (older : List RequestEntry) :
    ∀ {seen : List (Option Station)} {passed : List RequestEntry}, (∀ k, k ∈ seen ↔ ∃ x ∈ passed, x.key = k) →
    NoneEligible passed older → e.Eligible (passed ++ older) → firstEligible seen (older ++ e :: newer) = some e := by
  induction older with
  | nil =>
    intro seen passed h _ he
    rw [List.append_nil] at he
    exact if_pos ((eligible_iff h e).2 he)
  | cons y rest ih =>
    intro seen passed h hnone he
    have hy : ¬ (y.sendable && !seen.contains y.key) = true := fun hy =>
      hnone [] y rest rfl (by rw [List.append_nil]; exact (eligible_iff h y).1 hy)
    rw [List.cons_append, firstEligible, if_neg hy]
    exact ih (keys_cons h y) hnone.tail (by rw [List.append_assoc]; exact he)

theorem firstEligible_eq_none (l : List RequestEntry) : ∀ {seen : List (Option Station)} {passed : List RequestEntry},
    (∀ k, k ∈ seen ↔ ∃ x ∈ passed, x.key = k) → NoneEligible passed l → firstEligible seen l = none := by
  induction l with
  | nil => intro seen passed _ _; rfl
  | cons y rest ih =>
    intro seen passed h hnone
    have hy : ¬ (y.sendable && !seen.contains y.key) = true := fun hy =>
      hnone [] y rest rfl (by rw [List.append_nil]; exact (eligible_iff h y).1 hy)
    rw [firstEligible, if_neg hy]
    exact ih (keys_cons h y) hnone.tail

theorem keys_nil (k : Option Station) : k ∈ ([] : List (Option Station)) ↔ ∃ x ∈ ([] : List RequestEntry), x.key = k := by
  simp

/-- R101: without a control frame and a completion the choice is the oldest eligible request. -/
theorem choice_of_requests {d : Sender} (hc : d.control = none) (hr : d.responses = []) :
    d.choice = (firstEligible [] d.requests).map (fun e => .request e.slot) := by
  simp [Sender.choice, hc, hr]

/-- The entry in a storage place is the first of the list that has it. -/
theorem entryAt_of_append {d : Sender} {older newer : List RequestEntry} {e : RequestEntry}
    (h : d.requests = older ++ e :: newer) (hslot : ∀ x ∈ older, x.slot ≠ e.slot) : d.entryAt e.slot = some e := by
  rw [Sender.entryAt, List.find?_eq_some_iff_append]
  exact ⟨by simp, older, newer, h, fun x hx => by simpa using hslot x hx⟩

/-- Settles O26. -/
theorem settlingProducesAsksAndOffers : Obligations.SettlingProducesAsksAndOffers := by
  unfold Obligations.SettlingProducesAsksAndOffers
  refine ⟨fun s => ?_, fun d => ⟨fun c hc => ?_, fun hc hr => ?_, fun hc hr => ⟨fun older e newer hq he hnone => ?_,
    fun hnone => ?_⟩⟩, fun s => ⟨fun ho => ?_, fun c ho hc => ?_, fun x rest ho hr => ?_,
    fun older e newer ho hq hslot => ?_⟩⟩
  · have hspan : s.produceResults.askAgain.produceResults.span = s.span := span_askAgain_produceResults s
    have hsettle : s.settle = State.headServed { s.produceResults.askAgain.produceResults with
        span := if s.span.offerState.isFixed then s.span
          else s.span.offering s.produceResults.askAgain.produceResults.sender.choice } := by
      rw [State.settle, turnService_eq_headServed, State.refreshOffer, hspan]
      rfl
    rw [hsettle, askAgain_produceResults_eq]
    rfl
  · simp [Sender.choice, hc]
  · simp [Sender.choice, hc, hr]
  · rw [choice_of_requests hc hr, hq, firstEligible_append older keys_nil hnone he]
    rfl
  · rw [choice_of_requests hc hr, firstEligible_eq_none d.requests keys_nil (fun before x after hq => hnone before x after hq)]
    rfl
  · rw [State.offeredFrame, ho]
  · rw [State.offeredFrame, ho, hc]
    rfl
  · rw [State.offeredFrame, ho, hr]
    rfl
  · rw [State.offeredFrame, ho]
    exact congrArg (Option.map RequestEntry.frame) (entryAt_of_append hq hslot)

end Sys2Proof.Machine
end

section
/-!
PROOFS. Endings: the end of a segment and of a NOTICE, and the cleanup for a peer (R28, R40 to R42, R79, R97, R106, R114 to R116,
R125 to R127, R144, R157, R158).
-/
namespace Sys2Proof.Machine

/-! ## Units read from the two views of a state -/

/-- The issue engine that the view of the segments and a copy make. -/
def SegmentView.issue (v : SegmentView) (copying : Option (Fin 16)) : IssueEngine where
  commands := v.commands
  staging := v.staging
  current := v.current
  waitingFor := v.waitingFor
  copying := copying
  contexts := v.contexts
  results := v.results
  latch := v.latch

theorem issue_eq_segmentView (u : State) : u.issue = u.segmentView.issue u.issue.copying := rfl

/-- The sender is its three parts. -/
theorem sender_eq {u s : State} {q : List RequestEntry} (hc : u.sender.control = s.sender.control)
    (hr : u.sender.responses = s.sender.responses) (hq : u.sender.requests = q) :
    u.sender = { s.sender with requests := q } :=
  calc u.sender = ⟨u.sender.control, u.sender.responses, u.sender.requests⟩ := rfl
    _ = ⟨s.sender.control, s.sender.responses, q⟩ := by rw [hc, hr, hq]

/-! ## The end of a segment (R40, R41, R157, R158) -/

/-- R116: the entries that the end of a segment removes, as the statement of the end writes them. -/
theorem entrySide_endSegment_eq {s : State} {t : Tag} {st : Status} {v : Option Word} {n : ContextNumber} {k : Nat}
    (hn : (s.tagAt t).context = some n) (hk : (s.tagAt t).segment = some k) (ha : EntriesApart s.sender.requests) :
    (s.endSegment t st v).entrySide = (s.withoutEntries (fun e => e.liveFor (fun x =>
      decide (x = t) || decide (st ≠ .ok) && decide (x ≠ t) && (s.tagAt x).isLaterOf n k))).entrySide := by
  rw [entrySide_endSegment s t st v ha, entrySide_withoutEntries]
  simp only [hn, hk, laterIn]

/-! ## The end of a NOTICE (R144, R157, R158) -/

/-- R158: the end of issuing in one expression. -/
theorem issuingEnds_eq (s : State) (n : ContextNumber) : s.issuingEnds n = { s with issue := { s.issue with
    current := if s.issue.current = some n then none else s.issue.current
    waitingFor := if s.issue.current = some n then WaitingFor.nothing else s.issue.waitingFor } } := by
  rw [State.issuingEnds]
  split <;> rfl

/-- R114: without later segments nothing is withdrawn. -/
theorem withdrawLater_of_none {s : State} {n : ContextNumber} {k : Nat} (h : ∀ x, (s.tagAt x).isLaterOf n k = false) :
    s.withdrawLater n k = s := by
  rw [State.withdrawLater]
  exact List.foldl_fixed' (fun t => by rw [if_neg (by rw [h t]; decide)]) allTags

/-- R157, R158: the context of a NOTICE once its entry has ended. -/
theorem notice_context_ok (c : Context) : c.accounted none = { c with outstanding := c.outstanding - 1 } := rfl

theorem notice_context_failed (c : Context) (st : Status) : (c.accounted none).failed 0 st = { c with
    outstanding := c.outstanding - 1
    firstFailure := lowestFailure st c.firstFailure 0
    issuingFinished := true
    phase := .outstanding } := by
  rw [← lower_eq]
  rfl

/-- R144, R158: the end report of a NOTICE reaches its context, and no tag is of that context. -/
theorem reportEnd_notice {s : State} {n : ContextNumber} (h : ∀ x, (s.tagAt x).context ≠ some n) (st : Status) :
    s.reportEnd n 0 st none = { s with issue := { s.issue with
      contexts := s.issue.contexts.map (fun c => if c.number = n then { c with
        outstanding := c.outstanding - 1
        firstFailure := if st = .ok then c.firstFailure else lowestFailure st c.firstFailure 0
        issuingFinished := c.issuingFinished || decide (st ≠ .ok)
        phase := if st = .ok then c.phase else .outstanding } else c)
      current := if st ≠ .ok ∧ s.issue.current = some n then none else s.issue.current
      waitingFor := if st ≠ .ok ∧ s.issue.current = some n then WaitingFor.nothing else s.issue.waitingFor } } := by
  by_cases hst : st = .ok
  · subst hst
    simp only [State.reportEnd, if_true, State.updateContext, State.withIssue, notice_context_ok, ne_eq, not_true,
      decide_false, Bool.or_false, false_and, if_false]
  · have hlater : ∀ x, (((s.updateContext n (fun c => c.accounted none)).updateContext n
        (fun c => c.failed 0 st)).issuingEnds n |>.tagAt x).isLaterOf n 0 = false := by
      intro x
      rw [issuingEnds_eq]
      refine Bool.eq_false_iff.2 (fun hx => h x ?_)
      exact isLaterOf_ctx hx
    simp only [State.reportEnd, if_neg hst, State.failSegment]
    rw [withdrawLater_of_none hlater, issuingEnds_eq]
    have hcontexts : (s.issue.contexts.map (fun c => if c.number = n then c.accounted none else c)).map
        (fun c => if c.number = n then c.failed 0 st else c) = s.issue.contexts.map (fun c =>
          if c.number = n then { c with
            outstanding := c.outstanding - 1
            firstFailure := lowestFailure st c.firstFailure 0
            issuingFinished := true
            phase := .outstanding } else c) := by
      rw [List.map_map]
      refine List.map_congr_left (fun c _ => ?_)
      by_cases hc : c.number = n
      · have hc' : (c.accounted none).number = n := hc
        simp only [Function.comp, if_pos hc, if_pos hc', notice_context_failed]
      · simp only [Function.comp, if_neg hc]
    simp only [State.updateContext, State.withIssue, hcontexts, ne_eq, hst, not_false_eq_true, decide_true, Bool.or_true,
      true_and]

/-- Settles O28. -/
theorem segmentsEnd : Obligations.SegmentsEnd := by
  unfold Obligations.SegmentsEnd
  refine ⟨fun s t st v n k hn hk => ?_, fun s e n st he hctx => ?_⟩
  · obtain ⟨hfreed, hstale, hother, hview⟩ := endSegment_spec s t st v n k hn hk
    refine ⟨hfreed, hstale, hother, congrArg SegmentView.buffer hview, fun ha => ⟨?_, ?_, ?_⟩, ?_,
      congrArg SegmentView.control hview, congrArg SegmentView.responses hview, congrArg SegmentView.life hview,
      congrArg SegmentView.span hview, congrArg SegmentView.inbound hview, congrArg SegmentView.peers hview,
      congrArg SegmentView.notices hview, congrArg SegmentView.incidents hview, congrArg SegmentView.store hview,
      congrArg SegmentView.clock hview, congrArg SegmentView.pending hview, congrArg SegmentView.port hview,
      congrArg SegmentView.written hview, congrArg SegmentView.inForce hview⟩
    · exact sender_eq (congrArg SegmentView.control hview) (congrArg SegmentView.responses hview)
        (congrArg EntrySide.requests (entrySide_endSegment_eq hn hk ha))
    · exact congrArg EntrySide.arbiter (entrySide_endSegment_eq hn hk ha)
    · exact congrArg EntrySide.copying (entrySide_endSegment_eq hn hk ha)
    · refine (issue_eq_segmentView _).trans ?_
      rw [hview]
      rfl
  · have hctx' : ∀ x, ((s.withoutEntries (fun x => decide (x.slot = e.slot))).tagAt x).context ≠ some n := hctx
    intro removed stopped
    rw [State.endNotice, removeEntry_eq s e he, reportEnd_notice hctx']
    rfl

/-! ## Cleanup (R42, R79, R106, R115, R125) -/

/-- R42: the state once the tags of a peer have ended. -/
theorem beyond_cleanTags (s : State) (peer : Station) : (s.cleanTags peer).beyond = s.beyond := by
  rw [cleanTags_eq, beyond_endTags]

/-- The test of the tags whose target is a peer. -/
def TagRecord.names (peer : Station) (r : TagRecord) : Bool :=
  decide (r.target = some peer)

/-- R42: a tag after the cleanup for a peer. -/
theorem tagAt_cleanTags (s : State) (peer : Station) (x : Tag) : (s.cleanTags peer).tagAt x =
    if s.goneWith (TagRecord.names peer) allTags x || (TagRecord.names peer (s.tagAt x) && decide ((s.tagAt x).state = .stale))
    then (s.tagAt x).freed else s.tagAt x := by
  rw [cleanTags_eq]
  refine (tagAt_endTags (by decide) (by decide) allTags allTags_nodup s x).trans ?_
  simp only [mem_allTags, decide_true, Bool.true_and]
  rfl

/-- R114: a tag that goes with others is in flight. -/
theorem inFlight_of_goneWith {s : State} {named : TagRecord → Bool} {l : List Tag} {x : Tag}
    (h : s.goneWith named l x = true) : (s.tagAt x).state.inFlight = true := by
  obtain h | h := Bool.or_eq_true _ _ ▸ h
  · exact (Bool.and_eq_true _ _ ▸ (Bool.and_eq_true _ _ ▸ h).2).2
  · obtain ⟨t, -, ht⟩ := List.any_eq_true.1 h
    obtain ⟨n, k, -, -, hl⟩ := follows_iff.1 (Bool.and_eq_true _ _ ▸ ht).2
    exact isLaterOf_inFlight hl

theorem inFlight_or_stale {x : TagState} (h : x ≠ .free) : x.inFlight = true ∨ x = .stale := by
  cases x <;> simp_all [TagState.inFlight]

/-- R42, R114: what goes at the cleanup for a peer, as the statement of the cleanup writes it. -/
theorem goneWith_names (s : State) (peer : Station) (x : Tag) : s.goneWith (TagRecord.names peer) allTags x =
    ((s.tagAt x).state.inFlight && decide ((s.tagAt x).target = some peer)
      || allTags.any (fun t => (s.tagAt t).state.inFlight && decide ((s.tagAt t).target = some peer) && s.follows t x)) := by
  simp only [goneAll, State.ends, TagRecord.names, Bool.and_comm (decide _) (TagState.inFlight _)]

/-- R158: the segments that fail at the cleanup for a peer, as the statement of the cleanup writes them. -/
theorem endingOf_names (s : State) (peer : Station) (n : ContextNumber) : s.endingOf (TagRecord.names peer) allTags n =
    (allTags.filter (fun x => (s.tagAt x).state.inFlight && decide ((s.tagAt x).target = some peer)
      && decide ((s.tagAt x).context = some n))).filterMap (fun x => (s.tagAt x).segment) := by
  simp only [State.endingOf, State.ends, TagRecord.names, Bool.and_comm (decide _) (TagState.inFlight _)]

/-- R79: the inbound queue after the cleanup for a peer. -/
theorem cleanInbound_entry (peer : Station) (e : InboundEntry) : (if e.source = peer then e.removed else some e) =
    if e.source ≠ peer then some e
    else if e.begun then some { e with orphaned := true }
    else match e.work with
      | .write _ => some e
      | _ => none := by
  by_cases hs : e.source = peer
  · rw [if_pos hs, if_neg (not_not.2 hs), InboundEntry.removed]
    split
    · rfl
    · cases e.work <;> rfl
  · rw [if_neg hs, if_pos hs]

/-- R125: a cleanup is the ending of the tags, and then its parts in the sender, the inbound queue and the counters. -/
theorem cleanup_eq {s a : State} {peer : Station} (h : s.cleanTags peer = a) : s.cleanup peer = { a with
    sender := { a.sender with
      responses := a.sender.responses.filter (fun e => e.frame.body.target != some peer)
      requests := a.sender.requests.filter (fun e => e.key != some peer) }
    inbound := { a.inbound with queue := a.inbound.queue.filterMap (fun e => if e.source = peer then e.removed else some e) }
    incidents := a.incidents.counted 12 } := by
  rw [State.cleanup, h]
  rfl

/-- R157: an issue engine given by its parts. -/
theorem issue_eq_of_beyond {a s : State} (hb : a.beyond = s.beyond) : a.issue = { s.issue with
    contexts := a.issue.contexts
    current := a.issue.current
    waitingFor := a.issue.waitingFor
    copying := a.issue.copying } := by
  have hparts : a.issue = ⟨a.issue.staging, a.issue.commands, a.issue.contexts, a.issue.current, a.issue.waitingFor,
    a.issue.copying, a.issue.results, a.issue.latch⟩ := rfl
  have hcommands : a.issue.commands = s.issue.commands := congrArg Beyond.commands hb
  have hstaging : a.issue.staging = s.issue.staging := congrArg Beyond.staging hb
  have hresults : a.issue.results = s.issue.results := congrArg Beyond.results hb
  have hlatch : a.issue.latch = s.issue.latch := congrArg Beyond.latch hb
  rw [hcommands, hstaging, hresults, hlatch] at hparts
  exact hparts

/-- Settles O29: the parts of a cleanup, and the endings of the tags in turn. -/
theorem cleanupEndsAPeersWork : Obligations.CleanupEndsAPeersWork := by
  unfold Obligations.CleanupEndsAPeersWork
  intro s peer u ended later gone removed failed
  obtain ⟨a, hcl⟩ : ∃ a, s.cleanTags peer = a := ⟨_, rfl⟩
  have hu : u = _ := cleanup_eq hcl
  clear_value u
  subst hu
  have hb : a.beyond = s.beyond := hcl ▸ beyond_cleanTags s peer
  have htag : ∀ x, a.tagAt x = _ := hcl ▸ tagAt_cleanTags s peer
  have hgone : s.goneWith (TagRecord.names peer) allTags = gone := funext (goneWith_names s peer)
  have hfailed : s.endingOf (TagRecord.names peer) allTags = failed := funext (endingOf_names s peer)
  have hresponses : a.sender.responses = s.sender.responses := congrArg Beyond.responses hb
  have hinbound : a.inbound = s.inbound := congrArg Beyond.inbound hb
  have hincidents : a.incidents = s.incidents := congrArg Beyond.incidents hb
  have hfold : a = allTags.foldl (State.endTagIf (TagRecord.names peer) .peerLost) s := hcl ▸ cleanTags_eq s peer
  refine ⟨fun t ht hst => (htag t).trans ?_, fun t hst => (htag t).trans ?_, fun t ht hctx => (htag t).trans ?_, fun e he => ?_,
    congrArg _ hresponses, congrArg Beyond.control hb, ?_, congrArg (fun v => Incidents.counted v 12) hincidents,
    congrArg Beyond.life hb, congrArg Beyond.span hb, congrArg Beyond.peers hb, congrArg Beyond.notices hb,
    congrArg Beyond.store hb, congrArg Beyond.pending hb, congrArg Beyond.clock hb, congrArg Beyond.port hb,
    congrArg Beyond.written hb, congrArg Beyond.inForce hb, fun ha => ?_⟩
  · rw [if_pos]
    · rfl
    · obtain hx | hx := inFlight_or_stale hst
      · simp [goneWith_names, hx, ht]
      · simp [TagRecord.names, hx, ht]
  · rw [if_neg]
    rw [Bool.or_eq_true, not_or]
    refine ⟨fun hx => ?_, by simp [hst]⟩
    have hflight := inFlight_of_goneWith hx
    rw [hst] at hflight
    cases hflight
  · rw [if_neg]
    have hnames : TagRecord.names peer (s.tagAt t) = false := by simp [TagRecord.names, ht]
    have hnot : ∀ x, s.ends (TagRecord.names peer) x = true → s.follows x t = false := by
      intro x hx
      refine Bool.eq_false_iff.2 (fun hf => ?_)
      obtain ⟨n, k, hn, -, hl⟩ := follows_iff.1 hf
      have htarget : (s.tagAt x).target = some peer := by
        simp only [State.ends, TagRecord.names, Bool.and_eq_true, decide_eq_true_eq] at hx
        exact hx.1
      obtain hnone | hne := hctx x htarget
      · rw [hnone] at hn
        cases hn
      · exact hne (hn.trans (isLaterOf_ctx hl).symm)
    have hany : allTags.any (fun x => s.ends (TagRecord.names peer) x && s.follows x t) = false := by
      refine List.any_eq_false.2 (fun x _ => ?_)
      cases hx : s.ends (TagRecord.names peer) x <;> simp [hnot, hx]
    rw [goneAll, hany, State.ends, hnames]
    simp
  · have hkey : (e.key != some peer) = true := (List.mem_filter.1 he).2
    simpa [RequestEntry.key] using hkey
  · refine (congrArg (fun v : Inbound => { v with queue := v.queue.filterMap (fun e : InboundEntry =>
      if e.source = peer then e.removed else some e) }) hinbound).trans ?_
    exact congrArg (fun f => { s.inbound with queue := s.inbound.queue.filterMap f }) (funext (cleanInbound_entry peer))
  · have hside : a.entrySide = removed.entrySide := by
      rw [hfold, entrySide_endTags (by decide) (by decide) allTags allTags_nodup s ha.apart, hgone,
        entrySide_withoutEntries]
    have hwork := contexts_endTags (named := TagRecord.names peer) (st := .peerLost) (by decide) (by decide) allTags
      allTags_nodup s (accounted_named ha _)
    rw [← hfold, hfailed] at hwork
    obtain ⟨hcontexts, hcurrent, hwaiting⟩ := hwork
    refine ⟨fun x => (htag x).trans ?_, ?_, ?_, congrArg EntrySide.arbiter hside, ?_⟩
    · rw [hgone, Bool.and_comm (TagRecord.names peer _)]
      rfl
    · have hbuffer := buffer_endTags (named := TagRecord.names peer) (st := .peerLost) (by decide) (by decide) allTags
        allTags_nodup s
      rw [← hfold, hgone] at hbuffer
      exact hbuffer
    · have hrequests : a.sender.requests = removed.sender.requests := congrArg EntrySide.requests hside
      rw [← hrequests]
      rfl
    · refine (issue_eq_of_beyond hb).trans ?_
      have hcopying : a.issue.copying = removed.issue.copying := congrArg EntrySide.copying hside
      rw [hcontexts, hcurrent, hwaiting, hcopying]
      simp only [State.goneCount, hgone]
      rfl

end Sys2Proof.Machine
end

section
/-!
PROOFS. Halt: the entry to HALTED, the work it ends and the results it leaves due (R19, R43, R50, R80, R98, R118, R152, R163,
R173).
-/
namespace Sys2Proof.Machine

/-! ## The tags (R43) -/

theorem inFlight_ne {x : TagState} (h : x.inFlight = true) : x ≠ .free ∧ x ≠ .stale := by
  cases x <;> simp_all [TagState.inFlight]

/-- R43: a tag after the tag table's part of the entry to HALTED. -/
theorem tagAt_haltTags (b : State) (x : Tag) :
    b.haltTags.tagAt x = if (b.tagAt x).state = .free then b.tagAt x else (b.tagAt x).freed := by
  rw [haltTags_eq, tagAt_endTags (by decide) (by decide) allTags allTags_nodup]
  by_cases hfree : (b.tagAt x).state = .free
  · rw [if_pos hfree, if_neg]
    simp [goneHalt, hfree, TagState.inFlight]
  · rw [if_neg hfree, if_pos]
    obtain hx | hx := inFlight_or_stale hfree
    · simp [goneHalt, hx]
    · simp [mem_allTags, hx]

/-- R50: the pieces after the tag table's part of the entry to HALTED. -/
theorem buffer_haltTags (b : State) : b.haltTags.buffer = { b.buffer with pieces := b.buffer.pieces.filter (fun p =>
    !((b.tagAt p.tag).state.inFlight && decide (p.generation = (b.tagAt p.tag).generation))) } := by
  rw [haltTags_eq, buffer_endTags (by decide) (by decide) allTags allTags_nodup]
  simp only [goneHalt]

theorem contexts_haltTags {b : State} (h : b.SegmentsNamed (fun _ => true)) : b.haltTags.issue.contexts =
    b.issue.contexts.map (fun c => c.ending .halted (b.goneCount (fun _ => true) allTags c.number)
      (b.endingOf (fun _ => true) allTags c.number)) := by
  rw [haltTags_eq]
  exact (contexts_endTags (named := fun _ => true) (st := .halted) (by decide) (by decide) allTags allTags_nodup b h).1

theorem waitingFor_haltTags {b : State} (h : b.issue.current = none) : b.haltTags.issue.waitingFor = b.issue.waitingFor := by
  rw [haltTags_eq]
  exact (cur_wait_endTags (fun _ => true) .halted allTags b h).2

theorem beyond_haltTags (b : State) : b.haltTags.beyond = b.beyond := by
  rw [haltTags_eq, beyond_endTags]

/-- R118: a NOTICE entry stays when tags end. -/
theorem noticesOf_without (v : EntrySide) (fixed : Fin 16 → Bool) (f : Tag → Bool) (n : ContextNumber) :
    (noticesOf (v.without fixed (fun e => e.liveFor f)).requests n) = noticesOf v.requests n := by
  change noticesOf (v.requests.filterMap (RequestEntry.leaves fixed (fun e => e.liveFor f))) n = _
  induction v.requests with
  | nil => rfl
  | cons e rest ih =>
    rw [List.filterMap_cons, RequestEntry.leaves]
    by_cases hlive : e.liveFor f = true
    · obtain ⟨hw, t, ho, -⟩ := liveFor_iff.1 hlive
      have hleft : noticesOf (e :: rest) n = noticesOf rest n := by simp [noticesOf, ho]
      rw [if_pos hlive, hleft]
      split
      next h => exact ih
      next y h =>
        by_cases hfix : fixed e.slot = true
        · rw [if_pos hfix] at h
          obtain rfl := Option.some.inj h
          rw [← ih]
          simp [noticesOf]
        · rw [if_neg hfix] at h
          cases h
    · rw [if_neg hlive]
      simp only [noticesOf, List.filter_cons]
      rw [noticesOf, noticesOf] at ih
      rw [ih]

theorem freed_not_inFlight (r : TagRecord) : r.freed.state.inFlight = false := rfl

theorem requests_entrySide (s : State) : s.entrySide.requests = s.sender.requests := rfl

theorem contexts_segmentView (s : State) : s.segmentView.contexts = s.issue.contexts := rfl

theorem waitingFor_segmentView (s : State) : s.segmentView.waitingFor = s.issue.waitingFor := rfl

theorem buffer_segmentView (s : State) : s.segmentView.buffer = s.buffer := rfl

theorem current_segmentView (s : State) : s.segmentView.current = s.issue.current := rfl

/-! ## The segments and notices that fail (R43, R118, R163) -/

/-- R43: the segments in flight of a context. -/
def State.failingTags (s : State) (n : ContextNumber) : List Nat :=
  (allTags.filter (fun x => (s.tagAt x).state.inFlight
    && decide ((s.tagAt x).context = some n))).filterMap (fun x => (s.tagAt x).segment)

/-- R43, R118, R163: the segments of a context that fail at the entry to HALTED: the next of the current command, those in
flight, and the only one of a NOTICE. -/
def State.haltFailures (s : State) (c : Context) : List Nat :=
  (if s.issue.current = some c.number then [c.next] else []) ++ s.failingTags c.number
    ++ (noticesOf s.sender.requests c.number).map (fun _ => 0)

theorem exists_lowestFailure (st : Status) (h : Option (Nat × Status)) (k : Nat) :
    ∃ j old, lowestFailure st h k = some (j, old) ∧ j ≤ k := by
  cases h with
  | none => exact ⟨k, st, rfl, Nat.le_refl k⟩
  | some x =>
    obtain ⟨j, old⟩ := x
    by_cases hlt : k < j
    · exact ⟨k, st, if_pos hlt, Nat.le_refl k⟩
    · exact ⟨j, old, if_neg hlt, Nat.not_lt.1 hlt⟩

/-- R114, R163: of the tags that go with the current command's next segment, each is of a later one. -/
def State.GoneLater (a : State) (gone : Tag → Bool) (c : Context) : Prop :=
  ∀ x, gone x = true → (a.tagAt x).context = some c.number →
    a.issue.current = some c.number ∧ ∃ j, (a.tagAt x).segment = some j ∧ c.next < j

/-- R43: the segments in flight that fail after the current command's later ones have gone. -/
theorem endingOf_of_gone {a b : State} {gone : Tag → Bool}
    (htag : ∀ x, b.tagAt x = if gone x then (a.tagAt x).freed else a.tagAt x) (n : ContextNumber) :
    b.endingOf (fun _ => true) allTags n = ((allTags.filter (fun x => (a.tagAt x).state.inFlight
      && decide ((a.tagAt x).context = some n))).filter (fun x => !gone x)).filterMap (fun x => (a.tagAt x).segment) := by
  rw [State.endingOf, List.filter_filter, List.filterMap_filter, List.filterMap_filter]
  refine List.filterMap_congr (fun x _ => ?_)
  cases hg : gone x with
  | true => simp [State.ends, htag, hg, freed_not_inFlight]
  | false => simp [State.ends, htag, hg]

theorem context_of_mem {a : State} {n : ContextNumber} {x : Tag} (h : x ∈ allTags.filter (fun x =>
    (a.tagAt x).state.inFlight && decide ((a.tagAt x).context = some n))) : (a.tagAt x).context = some n :=
  of_decide_eq_true (Bool.and_eq_true _ _ ▸ (List.mem_filter.1 h).2).2

/-- R114: no tag of another command than the current one goes before. -/
theorem failing_filter_of_not_current {a : State} {gone : Tag → Bool} {c : Context} (h : a.GoneLater gone c)
    (hcur : a.issue.current ≠ some c.number) :
    ((allTags.filter (fun x => (a.tagAt x).state.inFlight
      && decide ((a.tagAt x).context = some c.number))).filter (fun x => !gone x)).filterMap (fun x => (a.tagAt x).segment)
    = a.failingTags c.number := by
  rw [State.failingTags, List.filter_eq_self.2]
  intro x hx
  have hctx : (a.tagAt x).context = some c.number := context_of_mem hx
  cases hg : gone x with
  | false => rfl
  | true => exact absurd (h x hg hctx).1 hcur

/-- R158: with the current command's next segment failed, leaving out its later ones makes no difference. -/
theorem foldl_failing_of_gone {a : State} {gone : Tag → Bool} {c : Context} (h : a.GoneLater gone c) (rest : List Nat) :
    ((if a.issue.current = some c.number then [c.next] else [])
      ++ ((allTags.filter (fun x => (a.tagAt x).state.inFlight
        && decide ((a.tagAt x).context = some c.number))).filter (fun x => !gone x)).filterMap (fun x => (a.tagAt x).segment)
      ++ rest).foldl (lowestFailure .halted) c.firstFailure
    = ((if a.issue.current = some c.number then [c.next] else []) ++ a.failingTags c.number ++ rest).foldl
      (lowestFailure .halted) c.firstFailure := by
  simp only [List.foldl_append]
  congr 1
  by_cases hcur : a.issue.current = some c.number
  · obtain ⟨j, old, hj, hle⟩ := exists_lowestFailure .halted c.firstFailure c.next
    simp only [if_pos hcur, List.foldl_cons, List.foldl_nil, hj]
    refine lowestFailure_drop _ _ _ _ j old (fun x hx hkeep k hk => ?_)
    have hg : gone x = true := by simpa using hkeep
    have hctx : (a.tagAt x).context = some c.number := context_of_mem hx
    obtain ⟨-, i, hi, hlt⟩ := h x hg hctx
    rw [hi] at hk
    obtain rfl := Option.some.inj hk
    omega
  · simp only [if_neg hcur]
    rw [failing_filter_of_not_current h hcur]

/-- R157: the tags that go before and those that end after are the segments in flight. -/
theorem length_failing_of_gone {a b : State} {gone : Tag → Bool} (hflight : ∀ x, gone x = true → (a.tagAt x).state.inFlight = true)
    (htag : ∀ x, b.tagAt x = if gone x then (a.tagAt x).freed else a.tagAt x) (n : ContextNumber) :
    (allTags.filter (fun x => gone x && decide ((a.tagAt x).context = some n))).length + b.goneCount (fun _ => true) allTags n
      = (allTags.filter (fun x => (a.tagAt x).state.inFlight && decide ((a.tagAt x).context = some n))).length := by
  rw [State.goneCount, ← length_filter_or]
  · congr 1
    refine List.filter_congr (fun x _ => ?_)
    cases hg : gone x with
    | true => simp [goneHalt, htag, hg, hflight x hg, freed_not_inFlight]
    | false => simp [goneHalt, htag, hg]
  · rintro x - ⟨hx, hy⟩
    have hg : gone x = true := (Bool.and_eq_true _ _ ▸ hx).1
    simp [goneHalt, htag, hg, freed_not_inFlight] at hy

/-- R43: once the tags have ended every tag is FREE, and there is no current command. -/
theorem halted_free (a : State) :
    (∀ x, (a.haltCurrent.haltTags.tagAt x).state = .free) ∧ a.haltCurrent.haltTags.issue.current = none := by
  constructor
  · intro x
    rw [tagAt_haltTags]
    split
    next h => exact h
    next => exact freed_state _
  · obtain ⟨_, _, _, hview, _⟩ := haltCurrent_spec a
    have hcur : a.haltCurrent.issue.current = none := by rw [← current_segmentView, hview]
    rw [haltTags_eq]
    exact (cur_wait_endTags (fun _ => true) .halted allTags a.haltCurrent hcur).1

/-- R118: the notices that fail are those of the queue at the entry to HALTED. -/
theorem noticesOf_haltTags {a : State} {gone : Tag → Bool} (ha : EntriesApart a.sender.requests)
    (hside : a.haltCurrent.entrySide = a.entrySide.without a.fixedOn (fun e => e.liveFor gone)) (n : ContextNumber) :
    noticesOf a.haltCurrent.haltTags.sender.requests n = noticesOf a.sender.requests n := by
  have hrequests : a.haltCurrent.sender.requests = (a.entrySide.without a.fixedOn (fun e => e.liveFor gone)).requests :=
    congrArg EntrySide.requests hside
  have hapart : EntriesApart a.haltCurrent.sender.requests := by
    rw [hrequests]
    exact EntriesApart.without (v := a.entrySide) ha _ _
  have hafter := entrySide_endTags (named := (fun _ => true)) (st := .halted) (by decide) (by decide) allTags allTags_nodup
    a.haltCurrent hapart
  rw [← haltTags_eq] at hafter
  rw [← requests_entrySide, hafter, noticesOf_without, requests_entrySide, hrequests, noticesOf_without]
  rfl

/-- R158: an ending depends on the segments by their first failure, and by whether there is one. -/
theorem ending_congr {c : Context} {st : Status} {m n : Nat} {k l : List Nat} (hmn : m = n)
    (hfold : k.foldl (lowestFailure st) c.firstFailure = l.foldl (lowestFailure st) c.firstFailure)
    (hnil : k = [] ↔ l = []) : c.ending st m k = c.ending st n l := by
  simp only [Context.ending, hmn, hfold, hnil, ne_eq]

/-- R43, R118, R163: the contexts once every segment and notice in progress has ended. -/
theorem contexts_haltNotices {a : State} (ha : a.Accounted) : a.haltCurrent.haltTags.haltNotices.issue.contexts =
    a.issue.contexts.map (fun c => c.ending .halted c.outstanding (a.haltFailures c)) := by
  obtain ⟨gone, hflight, htag, hview, -, hlater, hcontexts, hside⟩ := haltCurrent_spec a
  replace hlater := hlater ha.numbers
  replace hcontexts := hcontexts ha.numbers
  replace hside := hside ha.apart
  have hnamed : a.haltCurrent.SegmentsNamed (fun _ => true) := by
    intro t ht hctx
    have hfree : gone t = false := by
      refine Bool.eq_false_iff.2 (fun hg => ?_)
      simp [State.ends, htag, hg, freed_not_inFlight] at ht
    rw [htag, if_neg (by rw [hfree]; decide)]
    rw [State.ends, htag, if_neg (by rw [hfree]; decide)] at ht
    obtain ⟨c, -, -, hseg⟩ := ha.named t (Bool.and_eq_true _ _ ▸ ht).2
    exact hseg
  have htags := contexts_haltTags hnamed
  obtain ⟨hall, hcurrent⟩ := halted_free a
  rw [← contexts_segmentView, State.haltNotices, (haltNotices_spec _ a.haltCurrent.haltTags hall hcurrent).1]
  simp only []
  rw [htags, hcontexts, List.map_map, List.map_map]
  refine List.map_congr_left (fun c hc => ?_)
  simp only [Function.comp, ending_append, number_ending, endingOf_of_gone htag, noticesOf_haltTags ha.apart hside]
  refine ending_congr ?_ (foldl_failing_of_gone (hlater c hc) _) ?_
  · rw [length_failing_of_gone hflight htag, ha.counted c hc]
    rfl
  · by_cases hcur : a.issue.current = some c.number
    · simp [State.haltFailures, hcur]
    · rw [failing_filter_of_not_current (hlater c hc) hcur, State.haltFailures]

/-! ## The state once every segment and notice has ended -/

section
variable {d : State} (hall : ∀ x, (d.tagAt x).state = .free) (hcurrent : d.issue.current = none)
include hall hcurrent

/-- R118, R144: the notices that end reach their contexts, and nothing else of the view of the segments. -/
theorem segmentView_haltNotices : d.haltNotices.segmentView = { d.segmentView with
    contexts := d.issue.contexts.map (fun c => c.ending .halted (noticesOf d.sender.requests c.number).length
      ((noticesOf d.sender.requests c.number).map (fun _ => 0))) } :=
  (haltNotices_spec d.sender.requests d hall hcurrent).1

theorem beyond_haltNotices : d.haltNotices.beyond = d.beyond := by
  rw [State.beyond, segmentView_haltNotices hall hcurrent]
  rfl

theorem tagAt_haltNotices (x : Tag) : d.haltNotices.tagAt x = d.tagAt x :=
  (tagAt_of_segmentView (congrArg SegmentView.tags (segmentView_haltNotices hall hcurrent)) x).trans rfl

theorem buffer_haltNotices : d.haltNotices.buffer = d.buffer :=
  congrArg SegmentView.buffer (segmentView_haltNotices hall hcurrent)

theorem current_haltNotices : d.haltNotices.issue.current = none :=
  (congrArg SegmentView.current (segmentView_haltNotices hall hcurrent)).trans hcurrent

theorem waitingFor_haltNotices : d.haltNotices.issue.waitingFor = d.issue.waitingFor :=
  congrArg SegmentView.waitingFor (segmentView_haltNotices hall hcurrent)

end

theorem beyond_halted (a : State) : a.haltCurrent.haltTags.haltNotices.beyond = a.beyond := by
  obtain ⟨_, _, _, hview, _⟩ := haltCurrent_spec a
  obtain ⟨hall, hcurrent⟩ := halted_free a
  have hcurrentBeyond : a.haltCurrent.beyond = a.beyond := by
    rw [State.beyond, hview]
    rfl
  rw [beyond_haltNotices hall hcurrent, beyond_haltTags, hcurrentBeyond]

/-- R43: a tag at the entry to HALTED. -/
theorem tagAt_halted (a : State) (x : Tag) : a.haltCurrent.haltTags.haltNotices.tagAt x =
    if (a.tagAt x).state = .free then a.tagAt x else (a.tagAt x).freed := by
  obtain ⟨gone, hflight, htag, -⟩ := haltCurrent_spec a
  obtain ⟨hall, hcurrent⟩ := halted_free a
  rw [tagAt_haltNotices hall hcurrent, tagAt_haltTags, htag]
  cases hg : gone x with
  | true =>
    obtain ⟨hfree, -⟩ := inFlight_ne (hflight x hg)
    simp [freed_state, hfree]
  | false => simp

/-- R50: the pieces not begun of the tags that end leave the list. -/
theorem buffer_halted (a : State) : a.haltCurrent.haltTags.haltNotices.buffer = { a.buffer with
    pieces := a.buffer.pieces.filter (fun p =>
      !((a.tagAt p.tag).state.inFlight && decide (p.generation = (a.tagAt p.tag).generation))) } := by
  obtain ⟨gone, hflight, htag, hview, -⟩ := haltCurrent_spec a
  obtain ⟨hall, hcurrent⟩ := halted_free a
  have hbuffer : a.haltCurrent.buffer = { a.buffer with pieces := a.buffer.pieces.filter (fun p =>
      !(gone p.tag && decide (p.generation = (a.tagAt p.tag).generation))) } := by
    rw [← buffer_segmentView, hview]
  rw [buffer_haltNotices hall hcurrent, buffer_haltTags, hbuffer]
  simp only [List.filter_filter]
  refine congrArg (fun l => { a.buffer with pieces := l }) (List.filter_congr (fun p _ => ?_))
  rw [htag]
  cases hg : gone p.tag with
  | true => simp [freed_not_inFlight, hflight p.tag hg]
  | false => simp

/-- R173: there is no current command, and a wait of one has ended. -/
theorem current_halted (a : State) : a.haltCurrent.haltTags.haltNotices.issue.current = none
    ∧ a.haltCurrent.haltTags.haltNotices.issue.waitingFor =
      if a.issue.current = none then a.issue.waitingFor else WaitingFor.nothing := by
  obtain ⟨_, _, _, hview, _⟩ := haltCurrent_spec a
  obtain ⟨hall, hcurrent⟩ := halted_free a
  have hnone : a.haltCurrent.issue.current = none := by rw [← current_segmentView, hview]
  have hwaiting : a.haltCurrent.issue.waitingFor = if a.issue.current = none then a.issue.waitingFor
      else WaitingFor.nothing := by rw [← waitingFor_segmentView, hview]
  refine ⟨current_haltNotices hall hcurrent, ?_⟩
  rw [waitingFor_haltNotices hall hcurrent, waitingFor_haltTags hnone, hwaiting]

theorem outsideIssue_halted (a : State) :
    outsideIssue a.haltCurrent.haltTags.haltNotices.arbiter = outsideIssue a.arbiter := by
  obtain ⟨_, _, _, _, hcurrentIssue, _⟩ := haltCurrent_spec a
  obtain ⟨hall, hcurrent⟩ := halted_free a
  rw [State.haltNotices, (haltNotices_spec _ a.haltCurrent.haltTags hall hcurrent).2, haltTags_eq,
    outsideIssue_fold _ (outsideIssue_endTagIf _ _), hcurrentIssue]

/-- R80, R98: the requests of SERVICE and ISSUE are withdrawn, whatever has stopped of ISSUE before. -/
theorem abandon_of_outsideIssue {a b : Arbiter} (h : outsideIssue a = outsideIssue b) :
    (a.abandon .issue).abandon .service = { b with
      raisedService := none
      raisedIssue := none
      granted := b.granted.map (fun g =>
        if g.claimant = .service ∨ g.claimant = .issue then { g with discarded := true } else g) } := by
  have htwice : ∀ x : Option Granted, (x.map (fun g : Granted => if g.claimant = .issue then { g with discarded := true } else g)).map
      (fun g => if g.claimant = .service then { g with discarded := true } else g)
      = x.map (fun g => if g.claimant = .service ∨ g.claimant = .issue then { g with discarded := true } else g) := by
    intro x
    rw [Option.map_map]
    refine Option.map_congr (fun g _ => ?_)
    cases hg : g.claimant <;> simp [Function.comp, hg]
  simp only [outsideIssue, Prod.mk.injEq] at h
  obtain ⟨hpointer, hlocal, hlanding, -, hgranted⟩ := h
  simp only [Arbiter.abandon, Arbiter.setRaised, hgranted, htwice, hpointer, hlocal, hlanding]

/-! ## The contexts and their results (R152, R160, R163) -/

/-- R163: without segments in flight or notices, and not current, a context has no failure. -/
theorem haltFailures_of_leave {s : State} (ha : s.Accounted) {c : Context} (hc : c ∈ s.issue.contexts) (hl : c.phase = .leave) :
    s.haltFailures c = [] := by
  obtain ⟨hout, hcur⟩ := ha.leaving c hc hl
  have hzero := (ha.counted c hc).symm.trans hout
  rw [State.outstandingOf, Nat.add_eq_zero_iff, List.length_eq_zero_iff, List.length_eq_zero_iff] at hzero
  obtain ⟨htags, hnotices⟩ := hzero
  have hnotices' : noticesOf s.sender.requests c.number = [] := hnotices
  simp [State.haltFailures, State.failingTags, if_neg hcur, htags, hnotices']

/-- R152: the LEAVE's context once it has ended HALTED. -/
def Context.leaveHalted (c : Context) : Context :=
  if c.phase = .leave then { c with issuingFinished := true, firstFailure := some (0, .halted) } else c

/-- R50, R152, R163: a context in use at the entry to HALTED. -/
theorem leaveHalted_ending {s : State} (ha : s.Accounted) {c : Context} (hc : c ∈ s.issue.contexts) :
    (c.ending .halted c.outstanding (s.haltFailures c)).leaveHalted = { c with
      outstanding := 0
      issuingFinished := true
      phase := if c.phase = .leave ∨ s.haltFailures c = [] then c.phase else .outstanding
      firstFailure := if c.phase = .leave then some (0, .halted)
        else (s.haltFailures c).foldl (lowestFailure .halted) c.firstFailure } := by
  by_cases hl : c.phase = .leave
  · rw [haltFailures_of_leave ha hc hl]
    simp [Context.leaveHalted, Context.ending, hl]
  · have hfinished : (c.issuingFinished || decide (s.haltFailures c ≠ [])) = true := by
      cases hf : c.issuingFinished with
      | true => rfl
      | false =>
        have hcur := (ha.finishing c hc hf).resolve_right hl
        simp [State.haltFailures, hcur]
    by_cases hnil : s.haltFailures c = []
    · have hfin : c.issuingFinished = true := by simpa [hnil] using hfinished
      simp [Context.leaveHalted, Context.ending, hl, hnil, hfin]
    · simp [Context.leaveHalted, Context.ending, hl, hnil]

/-- R160: outside RUNNING, contexts that are all due leave their results. -/
theorem settle_of_allDone {u : State} (hst : u.life.station ≠ .running) (hdone : ∀ c ∈ u.issue.contexts, c.isDone = true) :
    u.settle.issue.contexts = [] ∧ u.settle.issue.results = u.issue.results ++ u.issue.contexts.map Context.result := by
  have hask : u.produceResults.askAgain = u.produceResults := if_neg (fun h => hst h.1)
  have hissue : u.settle.issue = u.produceResults.produceResults.issue := by
    obtain ⟨b, a, hturn⟩ := turnService_frame u.produceResults.produceResults.refreshOffer
    rw [State.settle, hask, hturn]
    rfl
  have hall : u.issue.contexts.filter Context.isDone = u.issue.contexts := List.filter_eq_self.2 hdone
  have hnone : u.issue.contexts.filter (fun c => !c.isDone) = [] := by
    rw [List.filter_eq_nil_iff]
    intro c hc
    simp [hdone c hc]
  rw [hissue]
  simp [State.produceResults, State.withIssue, hall, hnone]

/-! ## The entry to HALTED -/

/-- R131, R173: what the entry to HALTED records, and the offer withdrawn. -/
theorem recordHalt_haltSpan_eq (s : State) (cause : HaltCause) : (s.recordHalt cause).haltSpan = { s with
    life := { s.life with station := .halted, haltCause := cause, giveUp := none }
    span := { s.span with offer := none, offerState := .none, received := none }
    incidents := { s.incidents with
      flags := s.incidents.flags ||| (if cause = .duplicate then 0xA000#16 else 0x8000#16) } } := by
  by_cases hc : cause = .duplicate
  · have hflags : s.incidents.flags ||| 0x2000#16 ||| 0x8000#16 = s.incidents.flags ||| 0xA000#16 := BitVec.or_assoc ..
    rw [if_pos hc, ← hflags, State.haltSpan, State.recordHalt, if_pos hc]
    rfl
  · rw [if_neg hc, State.haltSpan, State.recordHalt, if_neg hc]
    rfl

/-- R173: the entry to HALTED from the state once every segment and notice has ended. -/
theorem enterHalted_eq {s w : State} {cause : HaltCause}
    (h : (s.recordHalt cause).haltSpan.haltCurrent.haltTags.haltNotices = w) : s.enterHalted cause = { w with
      issue := { w.issue with contexts := w.issue.contexts.map Context.leaveHalted, copying := none }
      arbiter := (w.arbiter.abandon .issue).abandon .service
      inbound := Inbound.reset
      sender := Sender.reset } := by
  rw [State.enterHalted, State.haltWork, h]
  rfl

/-- Settles O30. -/
theorem haltEndsAllWork : Obligations.HaltEndsAllWork := by
  unfold Obligations.HaltEndsAllWork
  intro s cause u ofTags ofNotices failed
  obtain ⟨a, hrec⟩ : ∃ a, (s.recordHalt cause).haltSpan = a := ⟨_, rfl⟩
  obtain ⟨w, hw⟩ : ∃ w, a.haltCurrent.haltTags.haltNotices = w := ⟨_, rfl⟩
  have hu : u = _ := enterHalted_eq (hrec ▸ hw)
  clear_value u
  subst hu
  have hb : w.beyond = a.beyond := hw ▸ beyond_halted a
  have htag : ∀ x, w.tagAt x = _ := hw ▸ tagAt_halted a
  have hbuffer : w.buffer = _ := hw ▸ buffer_halted a
  have harbiter := abandon_of_outsideIssue (hw ▸ outsideIssue_halted a)
  obtain ⟨hcurrent, hwaiting⟩ := hw ▸ current_halted a
  have hcontexts : a.Accounted → w.issue.contexts = _ := hw ▸ contexts_haltNotices
  have ha : a = _ := hrec.symm.trans (recordHalt_haltSpan_eq s cause)
  clear hw hrec
  subst ha
  refine ⟨congrArg Beyond.life hb, congrArg Beyond.span hb, fun t ht => (htag t).trans (if_neg ht),
    fun t ht => (htag t).trans (if_pos ht), rfl, rfl, harbiter, hcurrent, rfl, congrArg Beyond.commands hb,
    congrArg Beyond.results hb, congrArg Beyond.incidents hb, congrArg Beyond.peers hb, congrArg Beyond.notices hb,
    congrArg Beyond.store hb, congrArg Beyond.inForce hb, congrArg Beyond.written hb, congrArg Beyond.pending hb,
    congrArg Beyond.clock hb, congrArg Beyond.port hb, congrArg Beyond.staging hb, congrArg Beyond.latch hb, hwaiting,
    fun hacc => ?_⟩
  have hended : w.issue.contexts.map Context.leaveHalted = s.issue.contexts.map (fun c => { c with
      outstanding := 0
      issuingFinished := true
      phase := if c.phase = .leave ∨ failed c = [] then c.phase else .outstanding
      firstFailure := if c.phase = .leave then some (0, .halted)
        else (failed c).foldl (lowestFailure .halted) c.firstFailure }) := by
    rw [hcontexts (State.Accounted.of_eq (s := s) rfl rfl rfl rfl hacc), List.map_map]
    exact List.map_congr_left (fun c hc => leaveHalted_ending hacc hc)
  have hdone := settle_of_allDone (u := { w with
      issue := { w.issue with contexts := w.issue.contexts.map Context.leaveHalted, copying := none }
      arbiter := (w.arbiter.abandon .issue).abandon .service
      inbound := Inbound.reset
      sender := Sender.reset }) ?_ ?_
  · obtain ⟨hnone, hresults⟩ := hdone
    refine ⟨hbuffer, hended, hnone, hresults.trans ?_⟩
    exact congrArg (· ++ _) (congrArg Beyond.results hb)
  · have hlife : w.life = _ := congrArg Beyond.life hb
    change w.life.station ≠ _
    rw [hlife]
    change StationState.halted ≠ StationState.running
    decide
  · intro c hc
    change c ∈ w.issue.contexts.map Context.leaveHalted at hc
    rw [hended] at hc
    obtain ⟨x, -, rfl⟩ := List.mem_map.1 hc
    rfl

end Sys2Proof.Machine
end

section
/-!
PROOFS. Attempts: the outcomes of the station's own frames (R14 to R17, R24 to R27, R103, R105, R107, R110 to R113, R116, R124,
R144, R152, R169, R172).
-/
namespace Sys2Proof.Machine

/-! ## Settling after an event that keeps what settling looks at -/

/-- R22, R25, R26: the tags once the owner of an entry has passed to a state; a NOTICE has no tag. -/
def State.ownerTags (s : State) (o : Owner) (x : TagState) : Vector TagRecord 32 :=
  match o with
  | .tag t => s.tags.set t.val { s.tagAt t with state := x } t.isLt
  | .context _ => s.tags

theorem setOwnerState_eq (s : State) (o : Owner) (x : TagState) : s.setOwnerState o x = s.withTags (s.ownerTags o x) := by
  cases o <;> rfl

theorem lowestFreeTag_of_tags {s u : State} (h : u.tags = s.tags) : u.lowestFreeTag = s.lowestFreeTag :=
  lowestFreeTag_congr (fun x => by simp only [State.tagAt, h])

/-- From a settled state: an event that keeps the tags, the blocks, the peers and the issue engine ends with the offer its choice
calls for, and the head served. -/
theorem settle_of_tags {s u : State} (hs : s.settled = true) (hissue : u.issue = s.issue)
    (hst : u.life.station = s.life.station) (hreq : u.sender.requests.length = s.sender.requests.length)
    (htags : u.tags = s.tags) (hbuffer : u.buffer = s.buffer) (hforce : u.inForce = s.inForce) (hpeers : u.peers = s.peers)
    (hf : u.span.offerState.isFixed = false) :
    u.settle = State.headServed { u with span := u.span.offering u.sender.choice } := by
  refine settle_after_served hs hissue hst hreq ?_ ?_ hpeers hf
  · rw [lowestFreeTag_of_tags htags]
  · exact availableBlocks_congr htags (by rw [hbuffer]) (by rw [hforce])

/-- The same where no completion leaves and no request joins: the head has been served before. -/
theorem settle_of_kept {s u : State} (hs : s.settled = true) (hissue : u.issue = s.issue)
    (hst : u.life.station = s.life.station) (hreq : u.sender.requests.length = s.sender.requests.length)
    (htags : u.tags = s.tags) (hbuffer : u.buffer = s.buffer) (hforce : u.inForce = s.inForce) (hpeers : u.peers = s.peers)
    (hf : u.span.offerState.isFixed = false) (hin : u.inbound = s.inbound)
    (hresp : s.sender.responses.length ≤ u.sender.responses.length) :
    u.settle = { u with span := u.span.offering u.sender.choice } := by
  refine settle_after hs hissue hst hreq ?_ ?_ hpeers hf (by rw [hin]) hresp
  · rw [lowestFreeTag_of_tags htags]
  · exact availableBlocks_congr htags (by rw [hbuffer]) (by rw [hforce])

/-- An entry that stays at its place, its owner's tag in another state than FREE. -/
def State.entryKept (s : State) (clock : Micros) (incidents : Incidents) (span : SpanInterface) (o : Owner) (x : TagState)
    (f : RequestEntry → RequestEntry) : State :=
  { s with
    clock := clock
    incidents := incidents
    span := span
    sender := { s.sender with requests := s.sender.requests.map f }
    tags := s.ownerTags o x }

/-- R25, R26: after an attempt whose entry stays, the offer is what the choice calls for. -/
theorem settle_entryKept {s : State} (hs : s.settled = true) (ha : s.Accounted) {slot : Fin 16} {e : RequestEntry}
    (he : s.sender.entryAt slot = some e) (hw : e.withdrawn = false) {x : TagState} (hx : x ≠ .free) {span : SpanInterface}
    (hf : span.offerState.isFixed = false) (clock : Micros) (incidents : Incidents) (f : RequestEntry → RequestEntry) :
    (s.entryKept clock incidents span e.owner x f).settle = s.entryKept clock incidents
      (span.offering { s.sender with requests := s.sender.requests.map f }.choice) e.owner x f := by
  have htag : (s.entryKept clock incidents span e.owner x f).lowestFreeTag = s.lowestFreeTag := by
    rw [← lowestFreeTag_setOwnerState s e.owner x hx (ha.owner_not_free he hw), setOwnerState_eq]
    rfl
  have hblocks : (s.entryKept clock incidents span e.owner x f).availableBlocks = s.availableBlocks := by
    rw [← availableBlocks_setOwnerState s e.owner x, setOwnerState_eq]
    exact availableBlocks_congr rfl rfl rfl
  exact settle_after hs rfl rfl (List.length_map _) (by rw [htag]) hblocks rfl hf rfl (Nat.le_refl _)

/-! ## The outcome of a request-queue entry (R110, R116) -/

theorem slot_of_entryAt {d : Sender} {slot : Fin 16} {e : RequestEntry} (h : d.entryAt slot = some e) : e.slot = slot := by
  simpa using List.find?_some h

theorem requestOutcome_of {s : State} {slot : Fin 16} {e : RequestEntry} (he : s.sender.entryAt slot = some e)
    (hw : e.withdrawn = false) (a : Answer) : s.requestOutcome slot a = s.entryOutcome e a := by
  simp [State.requestOutcome, he, hw]

theorem requestOutcome_of_withdrawn {s : State} {slot : Fin 16} {e : RequestEntry} (he : s.sender.entryAt slot = some e)
    (hw : e.withdrawn = true) (a : Answer) : s.requestOutcome slot a = s.dropWithdrawn := by
  simp [State.requestOutcome, he, hw]

/-- R107: an entry that is not fixed on the span and not being copied leaves the list. -/
theorem removeEntry_of_free {s : State} {slot : Fin 16} (hc : s.issue.copying ≠ some slot)
    (hf : s.span.offerState.isFixed = false) :
    s.removeEntry slot = s.withRequests (s.sender.requests.filter (fun e => e.slot != slot)) := by
  simp [State.removeEntry, State.stopCopyOf, State.fixedOn, hc, hf]

/-- R10: the resolution of an own request whose entry is not withdrawn. -/
theorem resolution_request {s u : State} {slot : Fin 16} {e : RequestEntry} {a : Answer} {time : Micros}
    (h : s.OwnFrame (.request slot)) (he : s.sender.entryAt slot = some e) (hw : e.withdrawn = false)
    (hu : (s.attemptEnded time a).entryOutcome e a = u) (hg : u.life.giveUp = none) :
    exec (.resolution a time) s = .next u.settle := by
  refine resolution_own h ?_ hg
  exact (requestOutcome_of (s := s.attemptEnded time a) he hw a).trans hu

/-- Settles O31. -/
theorem acceptedRequestsAreSent : Obligations.AcceptedRequestsAreSent := by
  unfold Obligations.AcceptedRequestsAreSent
  intro slot e t time s h he hw ho hk hc now
  refine resolution_request h he hw ?_ h.noGiveUp
  change State.entryAccepted (s.attemptEnded time .accept) e = _
  simp only [State.entryAccepted, ho]
  refine (if_neg hk).trans ?_
  rw [slot_of_entryAt he, removeEntry_of_free (s := s.attemptEnded time .accept) hc rfl]
  rfl

/-- R124: the report of a silence for a peer. -/
theorem reportSilence_of_peer {s : State} {p : Station} (h : p ≠ s.life.number) : s.reportSilence (some p) = s.markAbsent p := by
  simp only [State.reportSilence, State.silentReport, if_neg h]

/-- Settles O32: each outcome is the end of the segment or of the notice. -/
theorem outcomesEndRequests : Obligations.OutcomesEndRequests := by
  unfold Obligations.OutcomesEndRequests
  intro slot e time s h he hw u
  have hend : ∀ t st, (State.endSegment u t st none).life.giveUp = none := by
    intro t st
    rw [life_endSegment]
    exact h.noGiveUp
  refine ⟨fun t ho => ⟨fun hk => resolution_request h he hw ?_ (hend t .ok), resolution_request h he hw ?_ (hend t .refused),
    fun p hp hne => resolution_request h he hw ?_ ?_⟩, fun n ho a ha => resolution_request h he hw ?_ ?_⟩
  · change State.entryAccepted u e = _
    simp only [State.entryAccepted, ho]
    exact if_pos hk
  · change State.entryRefused u e = _
    simp only [State.entryRefused, ho]
  · change State.entrySilent u e = _
    have hnumber : (State.endSegment u t .noStation none).life.number = s.life.number := by rw [life_endSegment]
    have hkey : e.key = some p := hp
    simp only [State.entrySilent, ho, hkey]
    exact reportSilence_of_peer (by rw [hnumber]; exact hne)
  · rw [life_markAbsent]
    exact hend t .noStation
  · obtain rfl | rfl | rfl := ha
    · change State.entryAccepted u e = _
      simp only [State.entryAccepted, ho]
    · change State.entryRefused u e = _
      simp only [State.entryRefused, ho]
    · change State.entrySilent u e = _
      simp only [State.entrySilent, ho]
  · rw [life_endNotice]
    exact h.noGiveUp

/-- Settles O33. -/
theorem busyHoldsAnEntry : Obligations.BusyHoldsAnEntry := by
  unfold Obligations.BusyHoldsAnEntry
  intro slot e time s h hs ha he hw now busy d
  have hbusy : (fun x : RequestEntry => if x.slot = slot then x.afterBusy now else x)
      = fun x => if x.slot = slot then busy x else x := by
    funext x
    congr 1
    cases hx : x.holdStart <;> simp only [RequestEntry.afterBusy, busy, hx] <;> rfl
  have hu : (s.attemptEnded time .busy).entryOutcome e .busy = s.entryKept now (s.incidents.counted 1)
      { s.span with phase := .idle, offer := none, offerState := .none, received := none } e.owner .held
      (fun x => if x.slot = slot then busy x else x) := by
    rw [← hbusy]
    change State.entryBusy (s.attemptEnded time .busy) e = _
    rw [State.entryBusy, slot_of_entryAt he, setOwnerState_eq]
    rfl
  rw [resolution_request h he hw hu h.noGiveUp, settle_entryKept hs ha he hw (by decide) rfl]
  rfl

/-- R26, R113: DAMAGED within the retry limit. -/
theorem entryDamaged_within {s : State} {slot : Fin 16} {e : RequestEntry} (he : s.sender.entryAt slot = some e)
    (h : e.retransmissions + 1 ≤ s.inForce.retryLimit.toNat) : s.entryDamaged e = s.entryKept s.clock s.incidents s.span
      e.owner .queued (fun x => if x.slot = slot then x.afterDamage else x) := by
  rw [State.entryDamaged, if_pos (show e.retransmissions + 1 ≤ s.retryLimit from h), slot_of_entryAt he, setOwnerState_eq]
  rfl

/-- R26, R113: DAMAGED beyond the retry limit. -/
theorem entryDamaged_beyond {s : State} {e : RequestEntry} (h : s.inForce.retryLimit.toNat < e.retransmissions + 1) :
    s.entryDamaged e = s.endEntry e .spanFault := by
  rw [State.entryDamaged, if_neg (show ¬ e.retransmissions + 1 ≤ s.retryLimit from Nat.not_le.2 h)]

/-- Settles O34. -/
theorem damagedRequestsAreSentAgain : Obligations.DamagedRequestsAreSentAgain := by
  unfold Obligations.DamagedRequestsAreSentAgain
  intro slot e time s h he hw now again d u
  refine ⟨fun hs ha hin => ?_, fun hout => ⟨fun t ho => resolution_request h he hw ?_ ?_,
    fun n ho => resolution_request h he hw ?_ ?_⟩⟩
  · have hu : (s.attemptEnded time .damaged).entryOutcome e .damaged = s.entryKept now (s.incidents.counted 2)
        { s.span with phase := .idle, offer := none, offerState := .none, received := none } e.owner .queued
        (fun x => if x.slot = slot then again x else x) :=
      entryDamaged_within (s := s.attemptEnded time .damaged) he hin
    rw [resolution_request h he hw hu h.noGiveUp, settle_entryKept hs ha he hw (by decide) rfl]
    rfl
  · refine (entryDamaged_beyond (s := s.attemptEnded time .damaged) hout).trans ?_
    simp only [State.endEntry, ho]
    rfl
  · rw [life_endSegment]
    exact h.noGiveUp
  · refine (entryDamaged_beyond (s := s.attemptEnded time .damaged) hout).trans ?_
    simp only [State.endEntry, ho]
    rfl
  · rw [life_endNotice]
    exact h.noGiveUp

/-- Settles O35. -/
theorem withdrawnEntriesIgnoreTheirOutcome : Obligations.WithdrawnEntriesIgnoreTheirOutcome := by
  unfold Obligations.WithdrawnEntriesIgnoreTheirOutcome
  intro slot e a time s h he hw
  refine resolution_own h ?_ h.noGiveUp
  exact requestOutcome_of_withdrawn (s := s.attemptEnded time a) he hw a

/-! ## The outcome of the head completion (R105) -/

/-- R105: the outcome goes to the head of the response queue. -/
theorem responseOutcome_of {s : State} {e : ResponseEntry} {rest : List ResponseEntry} (h : s.sender.responses = e :: rest) :
    s.responseOutcome .accept = s.dropResponse ∧ s.responseOutcome .refuse = s.dropResponse.report .completionRefused
      ∧ s.responseOutcome .silent = s.dropResponse.reportSilence e.frame.body.target
      ∧ s.responseOutcome .damaged = s.responseDamaged e := by
  simp only [State.responseOutcome, h, List.head?_cons, and_self]

/-- R17, R105: DAMAGED within the retry limit. -/
theorem responseDamaged_within {s : State} {e : ResponseEntry} (h : e.retransmissions + 1 ≤ s.inForce.retryLimit.toNat) :
    s.responseDamaged e = s.withSender { s.sender with
      responses := { e with retransmissions := e.retransmissions + 1 } :: s.sender.responses.tail } :=
  if_pos h

/-- R17, R105: DAMAGED beyond the retry limit. -/
theorem responseDamaged_beyond {s : State} {e : ResponseEntry} (h : s.inForce.retryLimit.toNat < e.retransmissions + 1) :
    s.responseDamaged e = s.dropResponse.report .completionDropped :=
  if_neg (Nat.not_le.2 h)

/-- Settles O36. -/
theorem completionOutcomes : Obligations.CompletionOutcomes := by
  unfold Obligations.CompletionOutcomes
  intro e rest time s h hr now after
  have htail : s.sender.responses.tail = rest := by rw [hr]; rfl
  have houtcome : ∀ a, (s.attemptEnded time a).sender.responses = e :: rest := fun _ => hr
  refine ⟨fun hs => ?_, fun hs => ?_, fun hs hin => ?_, fun hs hout => ?_, fun p hp hne => ?_⟩
  · obtain ⟨hu, -⟩ := responseOutcome_of (houtcome .accept)
    rw [resolution_own h hu h.noGiveUp, ← htail]
    exact congrArg _ (settle_of_tags hs rfl rfl rfl rfl rfl rfl rfl rfl)
  · obtain ⟨-, hu, -⟩ := responseOutcome_of (houtcome .refuse)
    rw [resolution_own h hu h.noGiveUp, ← htail]
    exact congrArg _ (settle_of_tags hs rfl rfl rfl rfl rfl rfl rfl rfl)
  · obtain ⟨-, -, -, hu⟩ := responseOutcome_of (houtcome .damaged)
    have hu' := hu.trans (responseDamaged_within (s := s.attemptEnded time .damaged) hin)
    rw [resolution_own h hu' h.noGiveUp, ← htail]
    refine congrArg _ (settle_of_kept hs rfl rfl rfl rfl rfl rfl rfl rfl rfl ?_)
    · change s.sender.responses.length ≤ s.sender.responses.tail.length + 1
      rw [hr]
      exact Nat.le_refl _
  · obtain ⟨-, -, -, hu⟩ := responseOutcome_of (houtcome .damaged)
    have hu' := hu.trans (responseDamaged_beyond (s := s.attemptEnded time .damaged) hout)
    rw [resolution_own h hu' h.noGiveUp, ← htail]
    exact congrArg _ (settle_of_tags hs rfl rfl rfl rfl rfl rfl rfl rfl)
  · obtain ⟨-, -, hu, -⟩ := responseOutcome_of (houtcome .silent)
    have hdrop : (s.attemptEnded time .silent).dropResponse = { s with
        clock := now
        sender := { s.sender with responses := rest }
        span := { s.span with phase := .idle, offer := none, offerState := .none, received := none } } := by
      rw [← htail]
      rfl
    rw [hp, hdrop, reportSilence_of_peer (by exact hne)] at hu
    refine resolution_own h hu ?_
    rw [life_markAbsent]
    exact h.noGiveUp

/-! ## The outcome of the own JOIN and LEAVE (R16, R169, R172) -/

/-- R43: a record that is STALE becomes FREE with the next generation. -/
def TagRecord.freedIfStale (r : TagRecord) : TagRecord :=
  if r.state = .stale then TagRecord.freeOf (r.generation + 1) else r

theorem freeIfStale_eq (s : State) (t : Tag) :
    s.freeIfStale t = s.withTags (s.tags.set t.val (s.tagAt t).freedIfStale t.isLt) := by
  rw [State.freeIfStale, TagRecord.freedIfStale]
  split
  · rfl
  · have hself : s.tags.set t.val (s.tagAt t) t.isLt = s.tags := Vector.set_getElem_self _
    rw [hself]
    rfl

/-- R43: the tags of a list, each once, have become FREE where they were STALE. -/
theorem freeStale_fold (l : List Tag) : l.Nodup → ∀ s : State, ∃ tags : Vector TagRecord 32,
    l.foldl (fun acc t => State.freeIfStale acc t) s = s.withTags tags
      ∧ ∀ x : Tag, tags[x.val] = if x ∈ l then (s.tagAt x).freedIfStale else s.tagAt x := by
  induction l with
  | nil => exact fun _ s => ⟨s.tags, rfl, fun x => rfl⟩
  | cons t rest ih =>
    intro hnodup s
    obtain ⟨ht, hrest⟩ := List.nodup_cons.1 hnodup
    obtain ⟨tags, hfold, htags⟩ := ih hrest (s.freeIfStale t)
    refine ⟨tags, ?_, fun x => ?_⟩
    · rw [List.foldl_cons, hfold, freeIfStale_eq]
      rfl
    · have htag : (s.freeIfStale t).tagAt x = if x = t then (s.tagAt t).freedIfStale else s.tagAt x := by
        rw [freeIfStale_eq]
        exact tagAt_set s t x _
      rw [htags, htag]
      by_cases hx : x = t
      · subst hx
        simp [ht]
      · simp [hx]

/-- R43, R172: every STALE tag becomes FREE. -/
theorem freeStale_eq (s : State) : s.freeStale = s.withTags (s.tags.map TagRecord.freedIfStale) := by
  obtain ⟨tags, hfold, htags⟩ := freeStale_fold allTags allTags_nodup s
  have hmap : tags = s.tags.map TagRecord.freedIfStale := by
    refine Vector.ext (fun i hi => ?_)
    rw [Vector.getElem_map]
    exact (htags ⟨i, hi⟩).trans (if_pos (mem_allTags _))
  rw [State.freeStale, hfold, hmap]

/-- R172: what the own LEAVE leaves once it has succeeded. -/
theorem left_eq (s : State) : s.left = { s with
    life := { s.life with station := .detached }
    tags := s.tags.map TagRecord.freedIfStale
    sender := { s.sender with control := none }
    issue := { s.issue with contexts := s.issue.contexts.map (fun x =>
      if x.phase = .leave then { x with issuingFinished := true, firstFailure := none } else x) } } := by
  rw [State.left, freeStale_eq]
  rfl

/-- R16, R169, R172: the outcome of the control slot's frame. -/
theorem controlOutcome_of {s : State} {c : ControlFrame} (h : s.sender.control = some c) :
    (∀ a, (a = .accept ∨ a = .refuse ∨ a = .silent) → s.controlOutcome a = s.controlDone c.kind)
      ∧ s.controlOutcome .damaged = s.controlDamaged c := by
  refine ⟨fun a ha => ?_, ?_⟩
  · obtain rfl | rfl | rfl := ha <;> simp only [State.controlOutcome, h]
  · simp only [State.controlOutcome, h]

/-- R17: an offered control frame is the choice. -/
theorem offering_choice_of_control {d : Sender} {c : ControlFrame} (h : d.control = some c) (u : SpanInterface) :
    u.offering d.choice = { u with offer := some .control, offerState := .offered } := by
  have hchoice : d.choice = some .control := by simp [Sender.choice, h]
  rw [hchoice]
  rfl

/-- Settles O37. -/
theorem joinAndLeaveOutcomes : Obligations.JoinAndLeaveOutcomes := by
  unfold Obligations.JoinAndLeaveOutcomes
  intro c time s h hc now d u
  have hslot : ∀ a, (s.attemptEnded time a).sender.control = some c := fun _ => hc
  refine ⟨fun a ha hk => ?_, fun a ha hk => ?_, fun hs hin => ?_, fun hout => ?_⟩
  · obtain ⟨hdone, -⟩ := controlOutcome_of (hslot a)
    refine resolution_own h ?_ h.noGiveUp
    change State.controlOutcome (s.attemptEnded time a) a = _
    rw [hdone a ha, hk]
    obtain rfl | rfl | rfl := ha <;> rfl
  · obtain ⟨hdone, -⟩ := controlOutcome_of (hslot a)
    refine resolution_own h ?_ h.noGiveUp
    change State.controlOutcome (s.attemptEnded time a) a = _
    rw [hdone a ha, hk]
    change (s.attemptEnded time a).left = _
    rw [left_eq]
    obtain rfl | rfl | rfl := ha <;> rfl
  · obtain ⟨-, hdamaged⟩ := controlOutcome_of (hslot .damaged)
    have hu : (s.attemptEnded time .damaged).outcomeAt .control .damaged = (s.attemptEnded time .damaged).recountControl c :=
      hdamaged.trans (if_pos hin)
    rw [resolution_own h hu h.noGiveUp]
    refine congrArg _ (Eq.trans (settle_of_kept hs rfl rfl rfl rfl rfl rfl rfl rfl rfl (Nat.le_refl _)) ?_)
    rw [offering_choice_of_control rfl]
    rfl
  · obtain ⟨-, hdamaged⟩ := controlOutcome_of (hslot .damaged)
    refine resolution_own h (hdamaged.trans ((if_neg (Nat.not_le.2 hout)).trans ?_)) (giveUp_enterHalted u _)
    cases hk : c.kind <;> rfl

end Sys2Proof.Machine
end

section
/-!
PROOFS. Conflicts: what a transmit conflict does, and the give-up that waits for the frame that remains (R17, R18, R105, R113,
R116, R131, R173).
-/
namespace Sys2Proof.Machine

/-! ## The conflict (R18) -/

/-- R18: the state in which the frame of an abandoned attempt is given back. -/
def State.abandoned (s : State) : State :=
  { s with
    incidents := s.incidents.counted 2
    span := { s.span with offer := none, offerState := .none } }

theorem exec_transmitConflict {s : State} {p : Place} (h : s.life.rstN = false) (hs : s.span.offerState = .sending)
    (ho : s.span.offer = some p) : exec .transmitConflict s = .next (s.abandoned.conflictAt p).settle := by
  have hconflict : s.conflict = (s.abandoned.conflictAt p).settle := by
    have hoffer : (s.report .damageSeen).span.offer = some p := ho
    rw [State.conflict, State.ownConflict, hoffer]
    rfl
  simp only [exec, execTransmitConflict, awake_of_not_rstN h, hs, decide_true, Bool.and_self, whenever_true, hconflict]

/-- R18: a conflict on an entry that is not withdrawn counts as a DAMAGED. -/
theorem exec_transmitConflict_request {s : State} {slot : Fin 16} {e : RequestEntry} (h : s.life.rstN = false)
    (hs : s.span.offerState = .sending) (ho : s.span.offer = some (.request slot))
    (he : s.sender.entryAt slot = some e) (hw : e.withdrawn = false) :
    exec .transmitConflict s = .next (s.abandoned.entryDamaged e).settle := by
  rw [exec_transmitConflict h hs ho]
  exact congrArg (fun t => Host.Outcome.next (State.settle t)) (requestOutcome_of (s := s.abandoned) he hw .damaged)

/-- R105: a conflict on the head completion counts as a DAMAGED. -/
theorem exec_transmitConflict_response {s : State} {e : ResponseEntry} {rest : List ResponseEntry} (h : s.life.rstN = false)
    (hs : s.span.offerState = .sending) (ho : s.span.offer = some .response) (hr : s.sender.responses = e :: rest) :
    exec .transmitConflict s = .next (s.abandoned.responseDamaged e).settle := by
  obtain ⟨-, -, -, hdamaged⟩ := responseOutcome_of (s := s.abandoned) hr
  rw [exec_transmitConflict h hs ho]
  exact congrArg (fun t => Host.Outcome.next (State.settle t)) hdamaged

/-- R17, R173: a conflict on the control slot's frame; a give-up waits (log 16). -/
theorem controlConflict_eq {s : State} {c : ControlFrame} (hc : s.sender.control = some c) :
    s.controlConflict = (s.recountControl c).withLife { s.life with
      giveUp := if c.retransmissions + 1 ≤ s.inForce.retryLimit.toNat then s.life.giveUp else some c.kind.giveUpCause } := by
  simp only [State.controlConflict, hc]
  by_cases hin : c.retransmissions + 1 ≤ s.inForce.retryLimit.toNat
  · rw [if_pos hin]
    exact if_pos hin
  · rw [if_neg hin]
    exact if_neg hin

theorem giveUpCause_eq (k : ControlKind) : k.giveUpCause = if k = .join then HaltCause.joinRetry else .leaveRetry := by
  cases k <;> rfl

/-! ## The resolution of the frame that remains (R131, R173) -/

/-- R7, R121: of a JOIN or a LEAVE nothing is counted and nothing taken; it is observed unless it resolves DAMAGED. -/
theorem resolveFrame_of_control {s : State} {f : Frame} (h : f.body = .join ∨ f.body = .leave) (drove answer : Answer)
    (take : Bool) : s.resolveFrame f drove answer take = if answer = .damaged then s else s.observe f := by
  have hcount : s.countAnswer f drove answer = s := by
    obtain h | h := h <;> simp only [State.countAnswer, h]
  have hcommit : s.commit f = s := by
    obtain h | h := h <;> simp only [State.commit, h]
  simp only [State.resolveFrame, hcount, hcommit, ite_self]

/-- R132: a LEAVE that bears the own number is not observed. -/
theorem observe_own_leave (s : State) : s.observe { source := s.life.number, body := .leave } = s := by
  simp only [State.observe, if_true, State.observeOwn]

/-- R131: a JOIN that bears the own number halts the station. -/
theorem observe_own_join (s : State) : s.observe { source := s.life.number, body := .join } = s.enterHalted .duplicate := by
  simp only [State.observe, if_true, State.observeOwn]

/-- R173: the give-up that waited takes effect. -/
theorem completeGiveUp_of_some {s : State} {cause : HaltCause} (hg : s.life.giveUp = some cause)
    (hon : s.life.station.onSpan = true) : s.completeGiveUp = s.enterHalted cause := by
  simp only [State.completeGiveUp, hg, hon, if_true]

theorem completeGiveUp_of_none {s : State} (hg : s.life.giveUp = none) : s.completeGiveUp = s := by
  simp only [State.completeGiveUp, hg]

/-- R18, R105, R113, R116: a conflict on an entry of the request queue. -/
theorem transmitConflict_request {s : State} {slot : Fin 16} {e : RequestEntry} (h : s.life.rstN = false)
    (hs : s.span.offerState = .sending) (ho : s.span.offer = some (.request slot)) (he : s.sender.entryAt slot = some e)
    (hw : e.withdrawn = false) (hout : s.inForce.retryLimit.toNat < e.retransmissions + 1) :
    exec .transmitConflict s = .next (s.abandoned.endEntry e .spanFault).settle := by
  rw [exec_transmitConflict_request h hs ho he hw, entryDamaged_beyond (s := s.abandoned) hout]

section
variable {s : State} {r : Received} (h : s.life.rstN = false) (hon : s.life.station.onSpan = true)
  (hp : s.span.phase = .answer) (ho : s.OffSpan) (hr : s.span.received = some r) (others : Answer) (time : Micros)
include h hon hp ho hr

/-- R10: a recognised frame that does not resolve DAMAGED. -/
theorem resolution_frame {f : Frame} (hf : r.frame = some f) (hd : r.drove.combine others ≠ .damaged) :
    exec (.resolution others time) s = .next
      ((s.receiveEnded time).resolveFrame f r.drove (r.drove.combine others) r.take).completeGiveUp.settle := by
  have hres := resolution_received h hon hp ho hr others time hd
  rw [hf] at hres
  exact hres

/-- R6, R10: an unrecognisable frame that does not resolve DAMAGED. -/
theorem resolution_noFrame (hf : r.frame = none) (hd : r.drove.combine others ≠ .damaged) :
    exec (.resolution others time) s = .next (s.receiveEnded time).completeGiveUp.settle := by
  have hres := resolution_received h hon hp ho hr others time hd
  rw [hf] at hres
  exact hres

/-- R10: a recognised frame that resolves DAMAGED. -/
theorem resolution_frame_damaged {f : Frame} (hf : r.frame = some f) (hd : r.drove.combine others = .damaged) :
    exec (.resolution others time) s = .next (((s.receiveEnded time).withIncidents (s.incidents.counted 2)).resolveFrame f
      r.drove .damaged r.take).completeGiveUp.settle := by
  have hres := resolution_damaged h hon hp ho hr others time hd
  rw [hf] at hres
  exact hres

/-- R5, R10: a frame that was not recognised resolves DAMAGED. -/
theorem resolution_noFrame_damaged (hf : r.frame = none) (hd : r.drove.combine others = .damaged) :
    exec (.resolution others time) s = .next
      ((s.receiveEnded time).withIncidents (s.incidents.counted 2)).completeGiveUp.settle := by
  have hres := resolution_damaged h hon hp ho hr others time hd
  rw [hf] at hres
  exact hres

/-- R131, R173: a give-up that waits, at the resolution DAMAGED of a frame that is not observed. -/
theorem giveUp_of_damaged {cause : HaltCause} (hg : s.life.giveUp = some cause) (hd : r.drove.combine others = .damaged)
    (hframe : ∀ f, r.frame = some f → f.body = .join ∨ f.body = .leave) : exec (.resolution others time) s =
      .next (((s.receiveEnded time).withIncidents (s.incidents.counted 2)).enterHalted cause).settle := by
  rw [← completeGiveUp_of_some (s := (s.receiveEnded time).withIncidents (s.incidents.counted 2)) hg hon]
  cases hf : r.frame with
  | none => exact resolution_noFrame_damaged h hon hp ho hr others time hf hd
  | some f =>
    rw [resolution_frame_damaged h hon hp ho hr others time hf hd, resolveFrame_of_control (hframe f hf), if_pos rfl]

end

/-- Settles O38: the conflict by the place of the offer, and the give-up by the frame that remains. -/
theorem transmitConflicts : Obligations.TransmitConflicts := by
  unfold Obligations.TransmitConflicts
  constructor
  · intro s h hs u
    refine ⟨fun slot e ho he => ⟨fun hset ha hw hin => ?_, fun hw hout => ⟨fun t hown => ?_, fun n hown => ?_⟩, fun hw => ?_⟩,
      fun e rest hset ho hr => ⟨fun hin => ?_, fun hout => ?_⟩, fun c hset ho hc => ?_⟩
    · rw [exec_transmitConflict_request h hs ho he hw, entryDamaged_within (s := s.abandoned) he hin]
      exact congrArg _ (settle_entryKept hset ha he hw (by decide) rfl _ _ _)
    · rw [transmitConflict_request h hs ho he hw hout]
      simp only [State.endEntry, hown]
      rfl
    · rw [transmitConflict_request h hs ho he hw hout]
      simp only [State.endEntry, hown]
      rfl
    · rw [exec_transmitConflict h hs ho]
      exact congrArg (fun t => Host.Outcome.next (State.settle t))
        (requestOutcome_of_withdrawn (s := s.abandoned) he hw .damaged)
    · have htail : s.sender.responses.tail = rest := by rw [hr]; rfl
      rw [exec_transmitConflict_response h hs ho hr, responseDamaged_within (s := s.abandoned) hin, ← htail]
      refine congrArg _ (settle_of_kept hset rfl rfl rfl rfl rfl rfl rfl rfl rfl ?_)
      change s.sender.responses.length ≤ s.sender.responses.tail.length + 1
      rw [hr]
      exact Nat.le_refl _
    · have htail : s.sender.responses.tail = rest := by rw [hr]; rfl
      rw [exec_transmitConflict_response h hs ho hr, responseDamaged_beyond (s := s.abandoned) hout, ← htail]
      exact congrArg _ (settle_of_tags hset rfl rfl rfl rfl rfl rfl rfl rfl)
    · rw [exec_transmitConflict h hs ho]
      change Host.Outcome.next (State.settle s.abandoned.controlConflict) = _
      rw [controlConflict_eq (s := s.abandoned) hc, giveUpCause_eq]
      refine congrArg _ (Eq.trans (settle_of_kept hset rfl rfl rfl rfl rfl rfl rfl rfl rfl (Nat.le_refl _)) ?_)
      rw [offering_choice_of_control rfl]
      rfl
  · intro r cause others time s h hon hp ho hr hg u damaged own
    have hnot : ¬ damaged → r.drove.combine others ≠ .damaged := fun hd => mt combine_damaged.1 hd
    refine ⟨fun hd hframe => ?_, fun hd hframe => ?_, fun hd hframe => ?_⟩
    · refine giveUp_of_damaged h hon hp ho hr others time hg (combine_damaged.2 hd) (fun f hf => ?_)
      obtain hn | hn | hn := hframe
      · rw [hn] at hf
        cases hf
      · obtain rfl := Option.some.inj (hn.symm.trans hf)
        exact .inl rfl
      · obtain rfl := Option.some.inj (hn.symm.trans hf)
        exact .inr rfl
    · rw [← completeGiveUp_of_some (s := u) hg hon]
      obtain hn | hn := hframe
      · exact resolution_noFrame h hon hp ho hr others time hn (hnot hd)
      · rw [resolution_frame h hon hp ho hr others time hn (hnot hd), resolveFrame_of_control (.inr rfl), if_neg (hnot hd)]
        exact congrArg (fun t => Host.Outcome.next (State.settle (State.completeGiveUp t))) (observe_own_leave u)
    · rw [resolution_frame h hon hp ho hr others time hframe (hnot hd), resolveFrame_of_control (.inl rfl),
        if_neg (hnot hd), ← completeGiveUp_of_none (giveUp_enterHalted u .duplicate)]
      exact congrArg (fun t => Host.Outcome.next (State.settle (State.completeGiveUp t))) (observe_own_join u)

end Sys2Proof.Machine
end

section
/-!
PROOFS. Received: what the resolution of a received frame commits, counts and observes (R5, R9, R10, R29 to R34, R67, R68, R120 to
R123, R131, R132, R137, R139, R177).
-/
namespace Sys2Proof.Machine

/-! ## A frame that is no JOIN and no LEAVE (R10, R121, R132) -/

/-- R9, R10: the resolution of a frame of another kind is what it counts and commits, and then its source observed. -/
theorem resolution_observed {s w : State} {f : Frame} {a others : Answer} {take : Bool} {bits : List Bool} {time : Micros}
    (h : s.Receiving { bits := bits, frame := some f, drove := a, take := take }) (hj : f.body ≠ .join) (hl : f.body ≠ .leave)
    (hd : a.combine others ≠ .damaged)
    (hw : (if take = true ∧ a.combine others = .accept then
      ((s.receiveEnded time).countAnswer f a (a.combine others)).commit f
      else (s.receiveEnded time).countAnswer f a (a.combine others)) = w)
    (hpeers : w.peers = s.peers) (hlife : w.life = s.life) :
    exec (.resolution others time) s = .next (w.withPeers (s.peersSeeing f.source)).settle := by
  obtain ⟨hawake, hon, hphase, hoff, hrec, hgive⟩ := h
  have hframe : (s.receiveEnded time).resolveFrame f a (a.combine others) take = w.withPeers (s.peersSeeing f.source) := by
    have hsee : w.peersSeeing f.source = s.peersSeeing f.source := by
      simp only [State.peersSeeing, hpeers, hlife]
    simp only [State.resolveFrame, hw, if_neg hd, observe_other hj hl, hsee]
  have hnone : (w.withPeers (s.peersSeeing f.source)).life.giveUp = none := by
    change w.life.giveUp = none
    rw [hlife]
    exact hgive
  rw [resolution_frame hawake hon hphase hoff hrec others time rfl hd, ← completeGiveUp_of_none hnone, ← hframe]

/-- R121: an event that leaves everything settling looks at, and turns no peer ABSENT, has settled already but for the head. -/
theorem settle_of_peersSeeing {s u : State} {p : Station} (hs : s.settled = true) (hissue : u.issue = s.issue)
    (hst : u.life.station = s.life.station) (hsender : u.sender = s.sender) (htags : u.tags = s.tags)
    (hbuffer : u.buffer = s.buffer) (hforce : u.inForce = s.inForce) (hpeers : u.peers = s.peersSeeing p)
    (hoffer : u.span.offer = s.span.offer) (hstate : u.span.offerState = s.span.offerState) : u.settle = u.headServed := by
  refine settle_self_served hs hissue hst hsender ?_ ?_ (fun n hn => ?_) hoffer hstate
  · rw [lowestFreeTag_of_tags htags]
  · exact availableBlocks_congr htags (by rw [hbuffer]) (by rw [hforce])
  · refine absent_of_peersSeeing s p n ?_
    rw [State.peerAt, hpeers] at hn
    exact hn

/-- R121: the same where the inbound queue stays too. -/
theorem settle_of_peersSeeing_kept {s u : State} {p : Station} (hs : s.settled = true) (hissue : u.issue = s.issue)
    (hst : u.life.station = s.life.station) (hsender : u.sender = s.sender) (htags : u.tags = s.tags)
    (hbuffer : u.buffer = s.buffer) (hforce : u.inForce = s.inForce) (hpeers : u.peers = s.peersSeeing p)
    (hoffer : u.span.offer = s.span.offer) (hstate : u.span.offerState = s.span.offerState)
    (hin : u.inbound.queue = s.inbound.queue) : u.settle = u := by
  refine settle_self hs hissue hst hsender ?_ ?_ (fun n hn => ?_) hoffer hstate hin
  · rw [lowestFreeTag_of_tags htags]
  · exact availableBlocks_congr htags (by rw [hbuffer]) (by rw [hforce])
  · refine absent_of_peersSeeing s p n ?_
    rw [State.peerAt, hpeers] at hn
    exact hn

/-- R8: an ACCEPT among SILENT and ACCEPT resolves as it is. -/
theorem combine_accept {others : Answer} (h : others = .silent ∨ others = .accept) : Answer.accept.combine others = .accept := by
  obtain rfl | rfl := h <;> rfl

/-- R29, R68, R139: an answer other than BUSY and REFUSE is not counted. -/
theorem countAnswer_of_not_given {a : Answer} (hb : a ≠ .busy) (hr : a ≠ .refuse) (s : State) (f : Frame) (answer : Answer) :
    s.countAnswer f a answer = s := by
  obtain ⟨source, b⟩ := f
  cases b <;> simp [State.countAnswer, State.countRequestAnswer, hb, hr]

/-- R9, R10: the resolution of a frame taken, as its commit and the observation of its source. -/
theorem resolution_taken {s w : State} {f : Frame} {others : Answer} {bits : List Bool} {time : Micros}
    (h : s.Receiving { bits := bits, frame := some f, drove := .accept, take := true }) (hj : f.body ≠ .join)
    (hl : f.body ≠ .leave) (ho : others = .silent ∨ others = .accept) (hw : (s.receiveEnded time).commit f = w)
    (hpeers : w.peers = s.peers) (hlife : w.life = s.life) :
    exec (.resolution others time) s = .next (w.withPeers (s.peersSeeing f.source)).settle := by
  refine resolution_observed h hj hl (by rw [combine_accept ho]; decide) ?_ hpeers hlife
  rw [countAnswer_of_not_given (by decide) (by decide), combine_accept ho, if_pos ⟨rfl, rfl⟩, hw]

/-! ## Requests and notices taken (R67, R137) -/

/-- Settles O39. -/
theorem requestsAndNoticesCommit : Obligations.RequestsAndNoticesCommit := by
  unfold Obligations.RequestsAndNoticesCommit
  intro f others time bits s h hs ho u joins
  refine ⟨fun t tag g o n hb => ?_, fun t tag g o n payload hb => ?_, fun t tag g o op a b hb => ?_, fun data hb => ?_⟩
  · have hw : (s.receiveEnded time).commit f = (s.receiveEnded time).commitRequest f.source tag g o.toNat (.read n.toNat) := by
      simp only [State.commit, hb]
    exact (resolution_taken h (by simp [hb]) (by simp [hb]) ho hw rfl rfl).trans
      (congrArg _ (settle_of_peersSeeing hs rfl rfl rfl rfl rfl rfl rfl rfl rfl))
  · have hw : (s.receiveEnded time).commit f = (s.receiveEnded time).commitRequest f.source tag g o.toNat (.write payload) := by
      simp only [State.commit, hb]
    exact (resolution_taken h (by simp [hb]) (by simp [hb]) ho hw rfl rfl).trans
      (congrArg _ (settle_of_peersSeeing hs rfl rfl rfl rfl rfl rfl rfl rfl rfl))
  · have hw : (s.receiveEnded time).commit f =
        (s.receiveEnded time).commitRequest f.source tag g o.toNat (.atomic op a b) := by
      simp only [State.commit, hb]
    exact (resolution_taken h (by simp [hb]) (by simp [hb]) ho hw rfl rfl).trans
      (congrArg _ (settle_of_peersSeeing hs rfl rfl rfl rfl rfl rfl rfl rfl rfl))
  · have hw : (s.receiveEnded time).commit f = (s.receiveEnded time).commitNotice f.source data := by
      simp only [State.commit, hb]
    exact (resolution_taken h (by simp [hb]) (by simp [hb]) ho hw rfl rfl).trans
      (congrArg _ (settle_of_peersSeeing_kept hs rfl rfl rfl rfl rfl rfl rfl rfl rfl rfl))

/-! ## Completions taken (R30 to R34) -/

theorem matching_of_expects {r : TagRecord} {source : Station} {g : Generation} {b : FrameBody}
    (hn : r.target = some source ∧ r.generation = g) (hs : r.state ≠ .stale) (he : r.Expects b) :
    r.matching source g b = .matched := by
  obtain ⟨htarget, hgen⟩ := hn
  simp [TagRecord.matching, htarget, hgen, hs, expects_iff.2 he]

theorem matching_of_stale {r : TagRecord} {source : Station} {g : Generation} {b : FrameBody}
    (hn : r.target = some source ∧ r.generation = g) (hs : r.state = .stale) : r.matching source g b = .late := by
  obtain ⟨htarget, hgen⟩ := hn
  simp [TagRecord.matching, htarget, hgen, hs]

/-- R30: the commit of a completion is by what the tag table makes of it now. -/
theorem commit_of_completion {s : State} {f : Frame} {tag : Tag} {g : Generation} {kind : CompletionKind}
    (hc : FrameBody.completion f.body = some (tag, g, kind)) : s.commit f = s.commitCompletion f tag
      ∧ s.matching f.source f.body = (s.tagAt tag).matching f.source g f.body := by
  refine ⟨?_, by rw [State.matching, hc]⟩
  obtain ⟨source, b⟩ := f
  cases b with
  | rdData | atData | fail =>
    simp only [FrameBody.completion, Option.some.injEq, Prod.mk.injEq] at hc
    obtain ⟨rfl, -⟩ := hc
    rfl
  | _ => cases hc

theorem ne_of_completion {b : FrameBody} {x : Tag × Generation × CompletionKind} (h : FrameBody.completion b = some x) :
    b ≠ .join ∧ b ≠ .leave := by
  refine ⟨fun hb => ?_, fun hb => ?_⟩ <;> rw [hb] at h <;> cases h

/-- R177: the record of an unexpected completion. -/
theorem countUnexpected_eq {s : State} {f : Frame} {tag : Tag} {g : Generation} {kind : CompletionKind}
    (hc : FrameBody.completion f.body = some (tag, g, kind)) : s.countUnexpected f =
      s.withIncidents (s.incidents.reportUnexpected { source := f.source, tag := tag, generation := g, kind := kind }) := by
  simp only [State.countUnexpected, Frame.asUnexpected, hc, Option.map_some]

theorem commitCompletion_matched {s : State} {f : Frame} (h : s.matching f.source f.body = .matched) (t : Tag) :
    s.commitCompletion f t = s.commitMatched f.body := by
  rw [State.commitCompletion, h]

theorem commitCompletion_late {s : State} {f : Frame} (h : s.matching f.source f.body = .late) (t : Tag) :
    s.commitCompletion f t = s.commitLate t f.body := by
  rw [State.commitCompletion, h]

theorem commitCompletion_unexpected {s : State} {f : Frame} (h : s.matching f.source f.body = .unexpected) (t : Tag) :
    s.commitCompletion f t = s.countUnexpected f := by
  rw [State.commitCompletion, h]

/-- R31 to R33: a matched completion is committed by its kind. -/
theorem commit_of_matched {s : State} {f : Frame} {tag : Tag} {g : Generation} {kind : CompletionKind}
    (hc : FrameBody.completion f.body = some (tag, g, kind))
    (hn : (s.tagAt tag).target = some f.source ∧ (s.tagAt tag).generation = g) (hs : (s.tagAt tag).state ≠ .stale)
    (he : (s.tagAt tag).Expects f.body) : s.commit f = s.commitMatched f.body := by
  obtain ⟨hcommit, hmatching⟩ := commit_of_completion (s := s) hc
  rw [hcommit, commitCompletion_matched (hmatching.trans (matching_of_expects hn hs he))]

/-- R34: a late completion. -/
theorem commit_of_late {s : State} {f : Frame} {tag : Tag} {g : Generation} {kind : CompletionKind}
    (hc : FrameBody.completion f.body = some (tag, g, kind))
    (hn : (s.tagAt tag).target = some f.source ∧ (s.tagAt tag).generation = g) (hs : (s.tagAt tag).state = .stale) :
    s.commit f = { s with
      incidents := s.incidents.counted 3
      tags := if FrameBody.isLastCompletion f.body then
        s.tags.set tag.val (TagRecord.freeOf ((s.tagAt tag).generation + 1)) tag.isLt else s.tags } := by
  obtain ⟨hcommit, hmatching⟩ := commit_of_completion (s := s) hc
  rw [hcommit, commitCompletion_late (hmatching.trans (matching_of_stale hn hs)), State.commitLate]
  cases FrameBody.isLastCompletion f.body <;> rfl

/-- R30: a completion that no longer matches. -/
theorem commit_of_unexpected {s : State} {f : Frame} {tag : Tag} {g : Generation} {kind : CompletionKind}
    (hc : FrameBody.completion f.body = some (tag, g, kind))
    (hno : ¬ (((s.tagAt tag).target = some f.source ∧ (s.tagAt tag).generation = g)
      ∧ ((s.tagAt tag).state = .stale ∨ (s.tagAt tag).Expects f.body))) : s.commit f =
      s.withIncidents (s.incidents.reportUnexpected { source := f.source, tag := tag, generation := g, kind := kind }) := by
  obtain ⟨hcommit, hmatching⟩ := commit_of_completion (s := s) hc
  rw [hcommit, commitCompletion_unexpected (hmatching.trans (matching_unexpected_iff.2 hno)), countUnexpected_eq hc]

/-- R32, R33, R41: a completion that ends its segment, and its source observed. -/
theorem resolution_ends_segment {s : State} {f : Frame} {others : Answer} {bits : List Bool} {time : Micros}
    (h : s.Receiving { bits := bits, frame := some f, drove := .accept, take := true }) (hj : f.body ≠ .join)
    (hl : f.body ≠ .leave) (ho : others = .silent ∨ others = .accept) {tag : Tag} {st : Status} {v : Option Word}
    (hw : (s.receiveEnded time).commit f = (s.receiveEnded time).endSegment tag st v) :
    exec (.resolution others time) s =
      .next (((s.receiveEnded time).withPeers (s.peersSeeing f.source)).endSegment tag st v).settle := by
  rw [← withPeers_endSegment]
  exact resolution_taken h hj hl ho hw (peers_endSegment _ _ _ _) (life_endSegment _ _ _ _)

/-- Settles O40: the commit by the matching, which the tag's record decides. -/
theorem completionsCommit : Obligations.CompletionsCommit := by
  unfold Obligations.CompletionsCommit
  intro f tag g kind others time bits s h ho hc r named u
  obtain ⟨hj, hl⟩ := ne_of_completion hc
  refine ⟨fun t second last data hb hn hs he => ?_, fun t old hb hn hs he => ?_, fun t hb hn hs he => ?_, fun hn hs => ?_,
    fun hno => ?_⟩
  · have hcommit := commit_of_matched (s := s.receiveEnded time) hc hn hs he
    simp only [hb, State.commitMatched] at hcommit
    refine (resolution_taken h hj hl ho hcommit rfl rfl).trans (congrArg (fun t => Host.Outcome.next (State.settle t)) ?_)
    rfl
  · have hcommit := commit_of_matched (s := s.receiveEnded time) hc hn hs he
    simp only [hb, State.commitMatched] at hcommit
    exact resolution_ends_segment h hj hl ho hcommit
  · have hcommit := commit_of_matched (s := s.receiveEnded time) hc hn hs he
    simp only [hb, State.commitMatched] at hcommit
    exact resolution_ends_segment h hj hl ho hcommit
  · have hcommit := commit_of_late (s := s.receiveEnded time) hc hn hs
    refine (resolution_taken h hj hl ho hcommit rfl rfl).trans (congrArg (fun t => Host.Outcome.next (State.settle t)) ?_)
    obtain ⟨source, b⟩ := f
    cases b with
    | rdData t tag' g' second last data => cases last <;> rfl
    | atData | fail => rfl
    | _ => cases hc
  · exact (resolution_taken h hj hl ho (commit_of_unexpected (s := s.receiveEnded time) hc hno) rfl rfl).trans
      (congrArg (fun t => Host.Outcome.next (State.settle t)) rfl)

/-! ## Frames not taken (R5, R9, R68, R139) -/

/-- R68, R139: of a frame that resolves DAMAGED only a BUSY given to a NOTICE is counted. -/
theorem countAnswer_damaged {f : Frame} {drove : Answer} (h : ∀ data, f.body = .notice data → drove ≠ .busy) (s : State) :
    s.countAnswer f drove .damaged = s := by
  obtain ⟨source, b⟩ := f
  cases b with
  | notice data => exact if_neg (h data rfl)
  | _ => simp [State.countAnswer, State.countRequestAnswer]

/-- R139: a BUSY given to a NOTICE. -/
theorem countAnswer_notice_busy {f : Frame} {data : List Byte} (hb : f.body = .notice data) (s : State) (answer : Answer) :
    s.countAnswer f .busy answer = s.report .noticeBusyGiven := by
  simp only [State.countAnswer, hb, if_true]

/-- R5, R10: what a resolution DAMAGED counts, and nothing else. -/
theorem resolution_counts_damage {s : State} {r : Received} {others : Answer} {time : Micros} {u : Incidents}
    (h : s.Receiving r) (hs : s.settled = true) (hd : others = .damaged ∨ r.drove = .damaged)
    (hcount : ∀ f, r.frame = some f → ((s.receiveEnded time).withIncidents (s.incidents.counted 2)).countAnswer f r.drove .damaged
      = (s.receiveEnded time).withIncidents u) (hnone : r.frame = none → u = s.incidents.counted 2) :
    exec (.resolution others time) s = .next ((s.receiveEnded time).withIncidents u) := by
  obtain ⟨hawake, hon, hphase, hoff, hrec, hgive⟩ := h
  have hd' := combine_damaged.2 hd
  have hsettle : ((s.receiveEnded time).withIncidents u).completeGiveUp.settle = (s.receiveEnded time).withIncidents u := by
    rw [completeGiveUp_of_none (by exact hgive)]
    exact settle_self hs rfl rfl rfl rfl rfl (fun n hn => hn) rfl rfl rfl
  cases hf : r.frame with
  | none =>
    rw [resolution_noFrame_damaged hawake hon hphase hoff hrec others time hf hd', ← hnone hf, hsettle]
  | some f =>
    have hframe : ((s.receiveEnded time).withIncidents (s.incidents.counted 2)).resolveFrame f r.drove .damaged r.take
        = (s.receiveEnded time).withIncidents u := by
      simp only [State.resolveFrame, hcount f hf]
      simp
    rw [resolution_frame_damaged hawake hon hphase hoff hrec others time hf hd', hframe, hsettle]

/-- Settles O41. -/
theorem damagedFramesAreNotTaken : Obligations.DamagedFramesAreNotTaken := by
  unfold Obligations.DamagedFramesAreNotTaken
  intro r others time s h hs hd after
  refine ⟨fun hn => ?_, fun source data hf hb => ?_⟩
  · refine resolution_counts_damage h hs hd (fun f hf => countAnswer_damaged (fun data hb => ?_) _) (fun _ => rfl)
    obtain ⟨source, b⟩ := f
    exact hn source data (by rw [hf]; exact congrArg some (congrArg _ hb))
  · refine resolution_counts_damage h hs hd (fun f hf' => ?_) (fun hnone => ?_)
    · obtain rfl := Option.some.inj (hf.symm.trans hf')
      rw [hb, countAnswer_notice_busy rfl]
      rfl
    · rw [hf] at hnone
      cases hnone

/-- R9, R10: the resolution of a frame not taken is what it counts, and its source observed. -/
theorem resolution_counted {s : State} {f : Frame} {a others : Answer} {take : Bool} {bits : List Bool} {time : Micros}
    {u : Incidents} (h : s.Receiving { bits := bits, frame := some f, drove := a, take := take }) (hs : s.settled = true)
    (hj : f.body ≠ .join) (hl : f.body ≠ .leave) (hd : a.combine others ≠ .damaged)
    (htake : take = true → a.combine others ≠ .accept)
    (hcount : (s.receiveEnded time).countAnswer f a (a.combine others) = (s.receiveEnded time).withIncidents u) :
    exec (.resolution others time) s =
      .next (((s.receiveEnded time).withIncidents u).withPeers (s.peersSeeing f.source)) := by
  rw [resolution_observed (w := (s.receiveEnded time).withIncidents u) h hj hl hd ?_ rfl rfl]
  · exact congrArg _ (settle_of_peersSeeing_kept hs rfl rfl rfl rfl rfl rfl rfl rfl rfl rfl)
  · rw [if_neg (fun hx => htake hx.1 hx.2), hcount]

/-- R8: a BUSY or a REFUSE resolves as driven unless another station drives a more dominant answer. -/
theorem combine_given {a others : Answer} (ha : a = .busy ∨ a = .refuse) (ho : others = .silent ∨ others = .accept ∨ others = a) :
    a.combine others = a := by
  obtain rfl | rfl := ha <;> obtain rfl | rfl | rfl := ho <;> rfl

/-- R68: an answer given to a request addressed to this station. -/
theorem countAnswer_request {f : Frame} (hc : f.body.frameClass = .request) (ht : f.body.target ≠ none) (s : State)
    (drove answer : Answer) : s.countAnswer f drove answer = s.countRequestAnswer drove answer := by
  obtain ⟨source, b⟩ := f
  cases b with
  | rdReq | wrReq | atReq => rfl
  | notice => exact absurd rfl ht
  | _ => cases hc

/-- R29, R30: a REFUSE given to a completion. -/
theorem countAnswer_completion {f : Frame} {tag : Tag} {g : Generation} {kind : CompletionKind}
    (hc : FrameBody.completion f.body = some (tag, g, kind)) (s : State) :
    s.countAnswer f .refuse .refuse = s.countUnexpected f := by
  obtain ⟨source, b⟩ := f
  cases b with
  | rdData | atData | fail => rfl
  | _ => cases hc

/-- Settles O42. -/
theorem givenAnswersAreCounted : Obligations.GivenAnswersAreCounted := by
  unfold Obligations.GivenAnswersAreCounted
  intro f a others time bits s h hs ha ho after
  have hcombine := combine_given ha ho
  have hd : a.combine others ≠ .damaged := by
    rw [hcombine]
    obtain rfl | rfl := ha <;> decide
  have hafter : ∀ u : Incidents, f.body ≠ .join → f.body ≠ .leave →
      (s.receiveEnded time).countAnswer f a a = (s.receiveEnded time).withIncidents u → after u := fun u hj hl hu =>
    resolution_counted h hs hj hl hd (fun hx => by cases hx) (by rw [hcombine, hu])
  refine ⟨fun hc ht hb => hafter _ ?_ ?_ ?_, fun hc ht hb => hafter _ ?_ ?_ ?_, fun data hn hb => hafter _ ?_ ?_ ?_,
    fun tag g kind hc hb => hafter _ ?_ ?_ ?_⟩
  · exact fun hx => by rw [hx] at hc; cases hc
  · exact fun hx => by rw [hx] at hc; cases hc
  · rw [hb, countAnswer_request hc ht]
    rfl
  · exact fun hx => by rw [hx] at hc; cases hc
  · exact fun hx => by rw [hx] at hc; cases hc
  · rw [hb, countAnswer_request hc ht]
    rfl
  · simp [hn]
  · simp [hn]
  · rw [hb, countAnswer_notice_busy hn]
    rfl
  · exact (ne_of_completion hc).1
  · exact (ne_of_completion hc).2
  · rw [hb, countAnswer_completion hc]
    exact countUnexpected_eq hc

/-! ## Resolutions that commit nothing -/

/-- R68: a REFUSE that resolves BUSY is not counted. -/
theorem countAnswer_refuse_busy (s : State) (f : Frame) : s.countAnswer f .refuse .busy = s := by
  obtain ⟨source, b⟩ := f
  cases b <;> simp [State.countAnswer, State.countRequestAnswer]

/-- R8: what is not DAMAGED does not come of answers that are not. -/
theorem combine_ne_damaged {a b : Answer} (ha : a ≠ .damaged) (hb : b ≠ .damaged) : a.combine b ≠ .damaged := fun h =>
  (combine_damaged.1 h).elim hb ha

/-- R4: a resolution off the span, or of a frame not followed, turns the span idle. -/
theorem exec_resolution_unfollowed {s : State} (h : s.life.rstN = false) (others : Answer) (time : Micros)
    (hp : s.span.phase = .unsynced ∨ s.span.phase = .answer ∧ s.life.station.onSpan = false) :
    exec (.resolution others time) s = .next (s.receiveEnded time) := by
  have hdue : s.resolutionIsDue = true := by
    obtain hp | ⟨hp, -⟩ := hp <;> simp [State.resolutionIsDue, awake_of_not_rstN h, hp]
  have hresolved : (s.advance time).resolved others = s.receiveEnded time := by
    rw [State.resolved]
    obtain hp | ⟨hp, hoff⟩ := hp
    · exact if_pos hp
    · refine (if_neg ?_).trans (if_neg ?_)
      · exact fun hx => by rw [show (s.advance time).span.phase = s.span.phase from rfl, hp] at hx; cases hx
      · exact fun hx => by rw [show (s.advance time).life = s.life from rfl, hoff] at hx; cases hx
  simp only [exec, execResolution, hdue, whenever_true, hresolved]

/-- Settles O43. -/
theorem resolutionsThatCommitNothing : Obligations.ResolutionsThatCommitNothing := by
  unfold Obligations.ResolutionsThatCommitNothing
  refine ⟨fun f a others take time bits s h hs hj hl hcase htake => ?_, fun r others time s h hs hf hr ho => ?_,
    fun others time s h => ⟨fun hp => exec_resolution_unfollowed h others time (.inl hp),
      fun hp hoff => exec_resolution_unfollowed h others time (.inr ⟨hp, hoff⟩)⟩⟩
  · refine resolution_counted h hs hj hl ?_ htake ?_
    · obtain ⟨ha, ho⟩ | ⟨rfl, rfl⟩ := hcase
      · exact combine_ne_damaged (by obtain rfl | rfl := ha <;> decide) ho
      · decide
    · obtain ⟨ha, ho⟩ | ⟨rfl, rfl⟩ := hcase
      · exact countAnswer_of_not_given (by obtain rfl | rfl := ha <;> decide) (by obtain rfl | rfl := ha <;> decide) _ f _
      · exact countAnswer_refuse_busy _ f
  · obtain ⟨hawake, hon, hphase, hoff, hrec, hgive⟩ := h
    rw [resolution_noFrame hawake hon hphase hoff hrec others time hf (combine_ne_damaged hr ho),
      completeGiveUp_of_none (by exact hgive)]
    exact congrArg _ (settle_self hs rfl rfl rfl rfl rfl (fun n hn => hn) rfl rfl rfl)

/-! ## JOIN and LEAVE (R120 to R123, R131, R132) -/

/-- R10: the resolution of a JOIN or a LEAVE is the observation of its source. -/
theorem resolution_control {s u : State} {f : Frame} {drove others : Answer} {bits : List Bool} {time : Micros}
    (h : s.Receiving { bits := bits, frame := some f, drove := drove, take := false })
    (hb : f.body = .join ∨ f.body = .leave) (hdrove : drove = .silent ∨ drove = .accept) (ho : others ≠ .damaged)
    (hu : (s.receiveEnded time).observe f = u) (hg : u.life.giveUp = none) :
    exec (.resolution others time) s = .next u.settle := by
  obtain ⟨hawake, hon, hphase, hoff, hrec, -⟩ := h
  have hd : drove.combine others ≠ .damaged := combine_ne_damaged (by obtain rfl | rfl := hdrove <;> decide) ho
  rw [resolution_frame hawake hon hphase hoff hrec others time rfl hd, resolveFrame_of_control hb, if_neg hd, hu,
    completeGiveUp_of_none hg]

theorem observe_peer {s : State} {f : Frame} (h : f.source ≠ s.life.number) : s.observe f = s.observePeer f.source f.body :=
  if_neg h

/-- R121: the record of a peer whose JOIN is observed is PRESENT and counts it. -/
def State.seenJoining (s : State) (p : Station) : State :=
  s.setPeer p { state := .present, joinCount := min (s.peers[p.val].joinCount + 1) 255 }

/-- R121: a JOIN observed of a peer; a peer that was PRESENT is cleaned up. -/
theorem observeJoin_eq (s : State) (p : Station) : s.observeJoin p =
    if s.peers[p.val].state = .present then (s.seenJoining p).cleanup p else s.seenJoining p := rfl

/-- Settles O44. -/
theorem joinsAndLeavesOfPeersAreObserved : Obligations.JoinsAndLeavesOfPeersAreObserved := by
  unfold Obligations.JoinsAndLeavesOfPeersAreObserved
  intro f drove others time bits s h hs hdrove ho p u joined
  have hgive : s.life.giveUp = none := h.noGiveUp
  refine ⟨fun hb hne hst => ?_, fun hb hne hst => ?_, fun hb hne => ?_, fun hb heq => ?_, fun hb heq => ?_⟩
  · have hobserve : u.observe f = joined := by
      rw [observe_peer (s := u) hne, hb]
      exact (observeJoin_eq u p).trans (if_neg hst)
    rw [resolution_control h (.inl hb) hdrove ho hobserve hgive]
    refine congrArg _ (settle_self hs rfl rfl rfl rfl rfl (fun n hn => ?_) rfl rfl rfl)
    by_cases hnp : p.val = n.val
    · have hpresent : (joined.peerAt n).state = .present := by
        simp only [State.peerAt, joined, ← hnp, Vector.getElem_set_self]
      rw [hpresent] at hn
      cases hn
    · have hsame : joined.peerAt n = s.peerAt n := by
        simp only [State.peerAt, joined, Vector.getElem_set_ne _ _ hnp]
      rw [← hsame]
      exact hn
  · have hobserve : u.observe f = joined.cleanup p := by
      rw [observe_peer (s := u) hne, hb]
      exact (observeJoin_eq u p).trans (if_pos hst)
    refine resolution_control h (.inl hb) hdrove ho hobserve ?_
    rw [life_cleanup]
    exact hgive
  · have hobserve : u.observe f = u.markAbsent p := by
      rw [observe_peer (s := u) hne, hb]
      rfl
    refine resolution_control h (.inr hb) hdrove ho hobserve ?_
    rw [life_markAbsent]
    exact hgive
  · have hobserve : u.observe f = u.enterHalted .duplicate := by
      rw [State.observe, if_pos heq, hb]
      rfl
    exact resolution_control h (.inl hb) hdrove ho hobserve (giveUp_enterHalted _ _)
  · have hobserve : u.observe f = u := by
      rw [State.observe, if_pos heq, hb]
      rfl
    rw [resolution_control h (.inr hb) hdrove ho hobserve hgive]
    exact congrArg _ (settle_self hs rfl rfl rfl rfl rfl (fun n hn => hn) rfl rfl rfl)

end Sys2Proof.Machine
end

section
/-!
PROOFS. Timers: the expiries of the completion timer, the stale timer and a backoff (R37, R38, R112).
-/
namespace Sys2Proof.Machine

/-! ## The end of an event that may stand in a contention -/

/-- R101: an offer that the choice calls for, unless it is fixed. -/
def SpanInterface.offeringUnlessFixed (u : SpanInterface) (choice : Option Place) : SpanInterface :=
  if u.offerState.isFixed then u else u.offering choice

/-- From a settled state: an event that keeps the tags, the blocks, the peers, the issue engine, the inbound queue and the
completions ends with the offer its choice calls for, if the offer is not fixed. -/
theorem settle_unless_fixed {s u : State} (hs : s.settled = true) (hissue : u.issue = s.issue)
    (hst : u.life.station = s.life.station) (hreq : u.sender.requests.length = s.sender.requests.length)
    (htags : u.tags = s.tags) (hbuffer : u.buffer = s.buffer) (hforce : u.inForce = s.inForce) (hpeers : u.peers = s.peers)
    (hin : u.inbound = s.inbound) (hresp : s.sender.responses.length ≤ u.sender.responses.length) :
    u.settle = { u with span := u.span.offeringUnlessFixed u.sender.choice } := by
  cases hf : u.span.offerState.isFixed with
  | false =>
    rw [settle_of_kept hs hissue hst hreq htags hbuffer hforce hpeers hf hin hresp, SpanInterface.offeringUnlessFixed, hf]
    rfl
  | true =>
    simp only [State.settled, Bool.and_eq_true] at hs
    obtain ⟨⟨⟨_, hdue⟩, hwaits⟩, hserves⟩ := hs
    have hnow : u.nothingDue = true := by simpa only [State.nothingDue, hissue] using hdue
    have hwait : u.waitsRightly = true := waitsRightly_congr (Or.inl hst) (by rw [hissue]) (by rw [hissue]) hreq
      (by rw [lowestFreeTag_of_tags htags]) (availableBlocks_congr htags (by rw [hbuffer]) (by rw [hforce]))
      (fun n hn => by simpa only [State.peerAt, hpeers] using hn) hwaits
    have hserve : u.servesRightly = true := servesRightly_congr (by rw [hin]) hresp hserves
    have hoffer : u.offerAgrees = true := by rw [State.offerAgrees, hf]; rfl
    rw [settle_of_settled (by rw [State.settled, hoffer, hnow, hwait, hserve]; rfl), SpanInterface.offeringUnlessFixed, hf]
    rfl

/-! ## Timers of tags (R37, R38) -/

theorem completionDeadline_of_awaits {r : TagRecord} (h : r.state = .sent ∨ r.state = .partialRead) :
    r.completionDeadline = r.deadline := by
  rw [TagRecord.completionDeadline]
  rcases h with h | h <;> rw [h] <;> rfl

theorem completionDeadline_of_not_awaits {r : TagRecord} (hsent : r.state ≠ .sent) (hpartial : r.state ≠ .partialRead) :
    r.completionDeadline = none := by
  rw [TagRecord.completionDeadline]
  cases hr : r.state with
  | sent => exact absurd hr hsent
  | partialRead => exact absurd hr hpartial
  | _ => rfl

theorem exec_completionTimerExpiry {t : Tag} {d : Micros} {s : State} (h : s.life.rstN = false)
    (hd : (s.tagAt t).completionDeadline = some d) :
    exec (.completionTimerExpiry t) s = .next (s.completionExpired t d) := by
  simp only [exec, execCompletionTimerExpiry, hd, awake_of_not_rstN h, whenever_true]

theorem exec_staleTimerExpiry {t : Tag} {d : Micros} {s : State} (h : s.life.rstN = false)
    (hd : (s.tagAt t).staleDeadline = some d) : exec (.staleTimerExpiry t) s = .next (s.staleExpired t d) := by
  simp only [exec, execStaleTimerExpiry, hd, awake_of_not_rstN h, whenever_true]

/-! ## The backoff of an entry (R112) -/

theorem exec_backoffExpiry {place : Fin 16} {e : RequestEntry} {x : Micros} {s : State} (h : s.life.rstN = false)
    (he : s.sender.requests[place.val]? = some e) (hx : e.runningBackoff = some x) :
    exec (.backoffExpiry place) s = .next (s.backoffExpired e x) := by
  simp only [exec, execBackoffExpiry, he, hx, awake_of_not_rstN h, whenever_true]

theorem runningBackoff_of_held {e : RequestEntry} {x : Micros} (hheld : e.state = .held) (hw : e.withdrawn = false)
    (hb : e.backoffReached = false) (hx : e.backoffExpiry = some x) : e.runningBackoff = some x := by
  rw [RequestEntry.runningBackoff, if_pos ⟨hheld, hb, hw⟩, hx]

/-- R112: how long an entry that began to be held at `start` has been held at `now`. -/
theorem heldTooLong_iff {e : RequestEntry} {start now timeout : Micros} (hs : e.holdStart = some start) :
    e.heldTooLong now timeout = true ↔ start + timeout < now := by
  rw [RequestEntry.heldTooLong, hs, Option.getD_some, decide_eq_true_eq]
  exact lt_tsub_iff_left

/-- R112: an entry held no longer than the completion timeout may be offered again. -/
theorem backoffExpired_of_short {e : RequestEntry} {x : Micros} {s : State} (h : e.heldTooLong x s.timeout = false) :
    s.backoffExpired e x =
      ((s.advance x).updateEntry e.slot (fun y => { y with backoffReached := true })).settle := by
  rw [State.backoffExpired]
  exact congrArg State.settle (if_neg (ne_true_of_eq_false h))

/-- R112: an entry held for longer ends. -/
theorem backoffExpired_of_long {e : RequestEntry} {x : Micros} {s : State} (h : e.heldTooLong x s.timeout = true) :
    s.backoffExpired e x = ((s.advance x).endEntry e .targetBusy).settle := by
  rw [State.backoffExpired]
  exact congrArg State.settle (if_pos h)

/-- Settles O45. -/
theorem timersExpire : Obligations.TimersExpire := by
  unfold Obligations.TimersExpire
  refine ⟨fun t d s h hawaits hd => ?_, fun t d s h hstale hd => ?_, fun t s hsent hpartial => ?_, fun t s hstale => ?_,
    ?_⟩
  · exact exec_completionTimerExpiry h ((completionDeadline_of_awaits hawaits).trans hd)
  · exact exec_staleTimerExpiry h (by rw [TagRecord.staleDeadline, if_pos hstale, hd])
  · simp only [exec, execCompletionTimerExpiry, completionDeadline_of_not_awaits hsent hpartial]
  · simp only [exec, execStaleTimerExpiry, TagRecord.staleDeadline, if_neg hstale]
  · intro place e start expiry s h he hheld hw hb hstart hx now d
    refine ⟨fun hshort hs => ?_, fun hlong => ⟨fun t ht => ?_, fun n hn => ?_⟩⟩
    · have hlong : e.heldTooLong expiry s.timeout = false := by
        rw [← Bool.not_eq_true, heldTooLong_iff hstart]
        exact Nat.not_lt.2 hshort
      rw [exec_backoffExpiry h he (runningBackoff_of_held hheld hw hb hx), backoffExpired_of_short hlong]
      exact congrArg Host.Outcome.next
        (settle_unless_fixed hs rfl rfl (List.length_map _) rfl rfl rfl rfl rfl (le_refl _))
    · rw [exec_backoffExpiry h he (runningBackoff_of_held hheld hw hb hx),
        backoffExpired_of_long ((heldTooLong_iff hstart).2 hlong), State.endEntry, ht]
      rfl
    · rw [exec_backoffExpiry h he (runningBackoff_of_held hheld hw hb hx),
        backoffExpired_of_long ((heldTooLong_iff hstart).2 hlong), State.endEntry, hn]
      rfl

end Sys2Proof.Machine
end

section
/-!
PROOFS. Takes: what the take of a command does in RUNNING, and the takes at which a command ends (R148 to R150, R152).
-/
namespace Sys2Proof.Machine

/-! ## The row that takes a record -/

/-- R149, R150: in RUNNING a command that fails the check is settled BAD_COMMAND at its take. -/
theorem take_of_fails {s : State} {c : CommandRecord} (hr : s.life.station = .running) (hp : ¬ c.Passes s.life.number)
    (run : State → CommandRecord → State) : s.take c run = s.dequeue.settleAtTake c .badCommand := by
  have hbad : c.bad s.life.number = true := by rwa [← Bool.not_eq_false, bad_eq_false_iff]
  rw [State.take, if_pos hr, if_pos hbad]

/-- R148: each kind code has one row that takes it, with an effect of its own in RUNNING. -/
theorem exec_takeRow {s : State} {c : CommandRecord} {rest : List CommandRecord} (h : s.Taking c rest)
    (ht : s.life.station.takes = true) : ∃ run, exec c.takeRow s = .next (s.take c run).settle := by
  have hrow {i : Instr} {kinds : BitVec 4 → Bool} {run : State → CommandRecord → State}
      (hi : exec i s = takeCommand kinds run s) (hk : kinds c.kind = true) :
      ∃ run, exec i s = .next (s.take c run).settle := ⟨run, hi.trans (takeCommand_of_taking h ht hk run)⟩
  simp only [CommandRecord.takeRow]
  split_ifs with h0 h1 h2 h3 h4 h5
  · exact hrow rfl (decide_eq_true h0)
  · exact hrow rfl (decide_eq_true h1)
  · exact hrow rfl (decide_eq_true h2)
  · exact hrow rfl (decide_eq_true h3)
  · exact hrow rfl (decide_eq_true h4)
  · exact hrow rfl (decide_eq_true h5)
  · exact hrow rfl (decide_eq_true (by bv_omega))

/-- Settles O48. -/
theorem takesThatEndAtOnce : Obligations.TakesThatEndAtOnce := by
  unfold Obligations.TakesThatEndAtOnce
  intro c rest s h hs
  refine ⟨fun hr hp => ?_, fun hst => ?_⟩
  · obtain ⟨run, he⟩ := exec_takeRow h (by rw [hr]; rfl)
    rw [he, take_of_fails hr hp, settle_settleAtTake h.commands hs]
  · obtain ⟨ht, hr⟩ := takes_of_not_running hst
    obtain ⟨run, he⟩ := exec_takeRow h ht
    rw [he, take_of_not_running hr, settle_settleAtTake h.commands hs]

/-! ## The context that a take opens (R148, R150, R157) -/

/-- R157: the context of a command just taken. -/
def CommandRecord.opened (c : CommandRecord) (n : ContextNumber) (phase : ContextPhase) (total : Nat) : Context where
  number := n
  phase := phase
  command := c
  total := total
  next := 0
  outstanding := 0
  issuingFinished := false
  firstFailure := none
  atomicValue := none

/-- A command just taken has its work before it. -/
theorem isDone_opened (c : CommandRecord) (n : ContextNumber) (phase : ContextPhase) (total : Nat) :
    (c.opened n phase total).isDone = false := rfl

/-- R148, R150: the take makes the command current. -/
theorem dequeue_makeCurrent {s : State} {c : CommandRecord} {rest : List CommandRecord} {n : ContextNumber}
    (h : s.Taking c rest) (hn : s.issue.LowestFree n) : s.dequeue.makeCurrent c = { s with issue := { s.issue with
      commands := rest
      contexts := s.issue.contexts ++ [c.opened n .issuing c.segments]
      current := some n
      waitingFor := WaitingFor.nothing } } := by
  have hfree : s.dequeue.issue.freeContext = n := freeContext_of_lowest (e := s.dequeue.issue) hn
  simp only [State.makeCurrent, State.openContext, hfree]
  simp only [State.dequeue, State.withIssue, h.commands, List.tail_cons, CommandRecord.opened]

/-- R148, R152: the take of a LEAVE opens its context, and the station leaves. -/
theorem dequeue_beginLeave {s : State} {c : CommandRecord} {rest : List CommandRecord} {n : ContextNumber}
    (h : s.Taking c rest) (hn : s.issue.LowestFree n) : s.dequeue.beginLeave c = { s with
      life := { s.life with station := .leaving }
      issue := { s.issue with
        commands := rest
        contexts := s.issue.contexts ++ [c.opened n .leave c.segments] } } := by
  have hfree : s.dequeue.issue.freeContext = n := freeContext_of_lowest (e := s.dequeue.issue) hn
  simp only [State.beginLeave, State.openContext, hfree]
  simp only [State.dequeue, State.withIssue, State.enter, State.withLife, h.commands, List.tail_cons, CommandRecord.opened]

/-- The new context is the one of its number. -/
theorem context_of_opened {e : IssueEngine} {n : ContextNumber} (hn : e.LowestFree n) (x : Context) (hx : x.number = n) :
    (e.contexts ++ [x]).find? (fun y => y.number == n) = some x := by
  have hnone : e.contexts.find? (fun y => y.number == n) = none := by
    simpa only [List.find?_eq_none, beq_iff_eq] using hn.1
  simp [List.find?_append, hnone, hx]

/-- From a settled state: where only the issue engine and the station state have changed, no result is due and nothing waits,
the event ends with nothing more. -/
theorem settle_of_issue {s u : State} (hs : s.settled = true) (hspan : u.span = s.span) (hsender : u.sender = s.sender)
    (hin : u.inbound = s.inbound) (hdue : u.nothingDue = true)
    (hwaits : u.life.station ≠ .running ∨ u.issue.isWaiting = false) : u.settle = u := by
  simp only [State.settled, Bool.and_eq_true] at hs
  obtain ⟨⟨⟨hoffer, _⟩, _⟩, hserves⟩ := hs
  have hw : u.waitsRightly = true := by
    rcases hwaits with hw | hw <;> simp [State.waitsRightly, hw]
  have ho : u.offerAgrees = true := by rwa [State.offerAgrees, hspan, hsender]
  have hv : u.servesRightly = true := by rwa [State.servesRightly, hin, hsender]
  exact settle_of_settled (by rw [State.settled, ho, hdue, hw, hv]; rfl)

/-- One more context that has work before it makes no result due. -/
theorem nothingDue_of_opened {s u : State} {x : Context} (hs : s.settled = true)
    (hx : u.issue.contexts = s.issue.contexts ++ [x]) (hd : x.isDone = false) : u.nothingDue = true := by
  simp only [State.settled, Bool.and_eq_true] at hs
  obtain ⟨⟨⟨_, hdue⟩, _⟩, _⟩ := hs
  rw [State.nothingDue] at hdue ⊢
  simp [hx, hd, hdue]

/-- R150: at the take of a READ or a WRITE nothing more follows. -/
theorem settle_makeCurrent {s : State} {c : CommandRecord} {rest : List CommandRecord} {n : ContextNumber}
    (h : s.Taking c rest) (hs : s.settled = true) (hn : s.issue.LowestFree n) :
    (s.dequeue.makeCurrent c).settle = s.dequeue.makeCurrent c := by
  rw [dequeue_makeCurrent h hn]
  exact settle_of_issue hs rfl rfl rfl (nothingDue_of_opened hs rfl (isDone_opened c n .issuing c.segments)) (.inr rfl)

/-- R152: at the take of a LEAVE nothing more follows. -/
theorem settle_beginLeave {s : State} {c : CommandRecord} {rest : List CommandRecord} {n : ContextNumber}
    (h : s.Taking c rest) (hs : s.settled = true) (hn : s.issue.LowestFree n) :
    (s.dequeue.beginLeave c).settle = s.dequeue.beginLeave c := by
  rw [dequeue_beginLeave h hn]
  exact settle_of_issue hs rfl rfl rfl (nothingDue_of_opened hs rfl (isDone_opened c n .leave c.segments))
    (.inl (fun hx => nomatch hx))

/-- R154: the command just made current asks for its first segment. -/
theorem issueNext_makeCurrent {s : State} {c : CommandRecord} {rest : List CommandRecord} {n : ContextNumber}
    (h : s.Taking c rest) (hn : s.issue.LowestFree n) :
    (s.dequeue.makeCurrent c).issueNext = (s.dequeue.makeCurrent c).issueSegment (c.opened n .issuing c.segments) := by
  have hcurrent : (s.dequeue.makeCurrent c).issue.currentContext = some (c.opened n .issuing c.segments) := by
    rw [dequeue_makeCurrent h hn]
    exact context_of_opened hn _ rfl
  rw [State.issueNext, hcurrent]

/-! ## The segments of a command (R153) -/

theorem segments_of_transfer {c : CommandRecord} (h : c.kind = 0 ∨ c.kind = 1) :
    c.segments = (c.length.toNat + 255) / 256 := if_pos h

theorem segments_of_single {c : CommandRecord} (h0 : c.kind ≠ 0) (h1 : c.kind ≠ 1) : c.segments = 1 :=
  if_neg (not_or.2 ⟨h0, h1⟩)

/-- Settles O46. -/
theorem commandsAreTaken : Obligations.CommandsAreTaken := by
  unfold Obligations.CommandsAreTaken
  intro c rest n s h hs hr hp hn context opened current
  have ht : s.life.station.takes = true := by rw [hr]; rfl
  have hrow (kinds : BitVec 4 → Bool) (hk : kinds c.kind = true) (run : State → CommandRecord → State) :
      takeCommand kinds run s = .next (run s.dequeue c).settle := by
    rw [takeCommand_of_taking h ht hk, take_of_passes hr hp]
  have hmade : s.dequeue.makeCurrent c = current c.segments := dequeue_makeCurrent h hn
  have hissues (hone : c.segments = 1) :
      ((s.dequeue.makeCurrent c).issueNext).settle = ((current 1).issueSegment (context .issuing 1)).settle := by
    rw [issueNext_makeCurrent h hn, hmade, hone]
    rfl
  refine ⟨fun hk => ?_, fun hk => ?_, fun hk => ?_, fun hk => ?_, fun hk => ?_⟩
  · refine (hrow _ (decide_eq_true hk) _).trans ?_
    rw [settle_makeCurrent h hs hn, hmade, segments_of_transfer (.inl hk)]
  · refine (hrow _ (decide_eq_true hk) _).trans ?_
    rw [settle_makeCurrent h hs hn, hmade, segments_of_transfer (.inr hk)]
  · exact (hrow _ (decide_eq_true hk) _).trans
      (congrArg _ (hissues (segments_of_single (by rw [hk]; decide) (by rw [hk]; decide))))
  · exact (hrow _ (decide_eq_true hk) _).trans
      (congrArg _ (hissues (segments_of_single (by rw [hk]; decide) (by rw [hk]; decide))))
  · refine (hrow _ (decide_eq_true hk) _).trans ?_
    rw [settle_beginLeave h hs hn, dequeue_beginLeave h hn, segments_of_single (by rw [hk]; decide) (by rw [hk]; decide)]
    rfl

end Sys2Proof.Machine
end

section
/-!
PROOFS. Segments: what the issue of a segment does where its resources are available, where some are refused, and where its
target is ABSENT (R23, R46, R129, R153 to R155, R158).
-/
namespace Sys2Proof.Machine

/-! ## The claim of a segment (R154) -/

/-- R129: the segment of a command to a peer that is not ABSENT, or of a command without a target, is claimed. -/
theorem targetAbsent_eq_false {s : State} {p : CommandRecord}
    (h : p.kind.toNat < 3 → (s.peerAt p.target.toFin).state ≠ .absent) : s.targetAbsent p = false := by
  rw [State.targetAbsent, Bool.and_eq_false_imp]
  intro ht
  exact decide_eq_false (h (hasTarget_iff.1 ht))

/-- R154: every resource a segment asks for is available, so all are granted. -/
theorem issueSegment_of_available {s : State} {c : Context} (ha : s.targetAbsent c.command = false)
    (htag : c.command.hasTarget = true → s.lowestFreeTag.isNone = false)
    (hblocks : c.command.hasTarget = true → c.command.segmentBlocks c.next ≤ s.availableBlocks)
    (hentry : s.sender.requests.length < 16) : s.issueSegment c = s.grant c := by
  have hnone : (s.refused c).any = false := by
    rw [WaitingFor.any, Bool.or_eq_false_iff, Bool.or_eq_false_iff]
    exact ⟨⟨Bool.and_eq_false_imp.2 htag, Bool.and_eq_false_imp.2 fun ht => decide_eq_false (Nat.not_lt.2 (hblocks ht))⟩,
      decide_eq_false (Nat.not_le.2 hentry)⟩
  rw [State.issueSegment, if_neg (by rw [ha]; decide), if_neg (by rw [hnone]; decide)]

/-- R45: blocks that keep within the commitment limit are available. -/
theorem le_availableBlocks {s : State} {b : Nat}
    (h : s.reservedBlocks + s.buffer.occupied + b ≤ s.inForce.commitmentLimit.toNat) : b ≤ s.availableBlocks := by
  rw [← Nat.not_lt, availableBlocks_lt_iff]
  exact fun hlt => absurd h (Nat.not_le.2 hlt.2)

/-- R107, R143: the request-queue entry of a segment granted. -/
def State.claimedEntry (s : State) (slot : Fin 16) (body : FrameBody) (owner : Owner) (x : EntryState) : RequestEntry where
  slot := slot
  frame := { source := s.life.number, body := body }
  owner := owner
  state := x
  retransmissions := 0
  busyCount := 0
  holdStart := none
  backoffExpiry := none
  backoffReached := false
  withdrawn := false

/-- R154: what the grant of a segment leaves: the tags, the entry behind every earlier one, and the context that counts it. -/
def State.claimed (s : State) (c : Context) (tags : Vector TagRecord 32) (e : RequestEntry) : State :=
  ((s.withTags tags).withRequests (s.sender.requests ++ [e])).segmentIssued c

/-- R143: the grant of a NOTICE's entry. -/
theorem grant_of_notice {s : State} {c : Context} {slot : Fin 16} (hslot : s.sender.LowestFreeSlot slot)
    (hk : c.command.hasTarget = false) : s.grant c =
      s.claimed c s.tags (s.claimedEntry slot (.notice c.command.noticeBytes) (.context c.number) .ready) := by
  rw [State.grant, freeSlot_of_lowest hslot]
  exact if_neg (by rw [hk]; decide)

/-- R23, R107: the grant of a segment with a tag. -/
theorem grant_of_tagged {s : State} {c : Context} {slot : Fin 16} {t : Tag} (hslot : s.sender.LowestFreeSlot slot)
    (hk : c.command.hasTarget = true) (ht : s.LowestFreeTag t) : s.grant c =
      s.claimed c (s.tags.set t.val (c.command.grantedTag c.next (s.tagAt t).generation c.number) t.isLt)
        (s.claimedEntry slot (c.command.segmentBody c.next t (s.tagAt t).generation) (.tag t)
          (c.command.entryState c.next)) := by
  rw [State.grant, freeSlot_of_lowest hslot]
  refine (if_pos hk).trans ?_
  rw [lowestFreeTag_of_lowest ht]
  rfl

/-- R154: a segment with a tag, whose blocks keep within the commitment limit. -/
theorem issueSegment_of_tagged {s : State} {c : Context} {slot : Fin 16} {t : Tag} (hroom : s.sender.requests.length < 16)
    (hslot : s.sender.LowestFreeSlot slot) (ht : s.LowestFreeTag t) (hk : c.command.kind.toNat < 3)
    (hp : (s.peerAt c.command.target.toFin).state ≠ .absent)
    (hblocks : c.command.segmentBlocks c.next ≤ s.availableBlocks) : s.issueSegment c =
      s.claimed c (s.tags.set t.val (c.command.grantedTag c.next (s.tagAt t).generation c.number) t.isLt)
        (s.claimedEntry slot (c.command.segmentBody c.next t (s.tagAt t).generation) (.tag t)
          (c.command.entryState c.next)) := by
  have hfree : s.lowestFreeTag.isNone = false := by rw [lowestFreeTag_of_lowest ht]; rfl
  rw [issueSegment_of_available (targetAbsent_eq_false fun _ => hp) (fun _ => hfree) (fun _ => hblocks) hroom,
    grant_of_tagged hslot (hasTarget_iff.2 hk) ht]

/-- R143: a NOTICE's segment. -/
theorem issueSegment_of_notice {s : State} {c : Context} {slot : Fin 16} (hroom : s.sender.requests.length < 16)
    (hslot : s.sender.LowestFreeSlot slot) (hk : c.command.kind = 3) : s.issueSegment c =
      s.claimed c s.tags (s.claimedEntry slot (.notice c.command.noticeBytes) (.context c.number) .ready) := by
  have hlate : ¬ c.command.kind.toNat < 3 := by rw [hk]; decide
  have htarget : c.command.hasTarget = false := by rwa [← Bool.not_eq_true, hasTarget_iff]
  rw [issueSegment_of_available (targetAbsent_eq_false fun h => absurd h hlate) (by rw [htarget]; exact nofun)
    (by rw [htarget]; exact nofun) hroom, grant_of_notice hslot htarget]

/-- R154: a grant, field by field. -/
theorem claimed_eq (s : State) (c : Context) (tags : Vector TagRecord 32) (e : RequestEntry) : s.claimed c tags e = { s with
    tags := tags
    sender := { s.sender with requests := s.sender.requests ++ [e] }
    issue := { s.issue with
      contexts := s.issue.contexts.map (fun x => if x.number = c.number then { x with
        next := x.next + 1
        outstanding := x.outstanding + 1
        issuingFinished := x.issuingFinished || decide (x.next + 1 = x.total)
        phase := if x.next + 1 = x.total then .outstanding else x.phase } else x)
      current := if c.next + 1 = c.total ∧ s.issue.current = some c.number then none else s.issue.current
      waitingFor := { tag := false, blocks := false, entry := false } } } := segmentIssued_eq

/-! ## The segments of each kind (R20, R107, R153) -/

theorem segmentBlocks_of_read {p : CommandRecord} (hk : p.kind = 0) (k : Nat) :
    p.segmentBlocks k = (min 256 (p.length.toNat - 256 * k) + 31) / 32 := by
  simp [CommandRecord.segmentBlocks, CommandRecord.segmentLength, hk, blocksFor, Config.segmentBytes]

theorem segmentBlocks_of_write {p : CommandRecord} (hk : p.kind = 1) (k : Nat) : p.segmentBlocks k = 0 := by
  simp [CommandRecord.segmentBlocks, hk]

theorem segmentBlocks_of_atomic {p : CommandRecord} (hk : p.kind = 2) (k : Nat) : p.segmentBlocks k = 1 := by
  simp [CommandRecord.segmentBlocks, hk]

theorem segmentBlocks_of_notice {p : CommandRecord} (hk : 3 ≤ p.kind.toNat) (k : Nat) : p.segmentBlocks k = 0 := by
  have h0 : p.kind ≠ 0 := by bv_omega
  have h2 : p.kind ≠ 2 := by bv_omega
  rw [CommandRecord.segmentBlocks, if_neg h0, if_neg h2]

/-- R23: the record of a granted tag. -/
theorem grantedTag_of {p : CommandRecord} {k length blocks : Nat} {localOffset : Option Nat} {kind : SegmentKind}
    (hkind : p.segmentKind = kind) (hlength : p.segmentLength k = length)
    (hlocal : (if p.kind = 0 then some (p.segmentLocal k) else none) = localOffset) (hblocks : p.segmentBlocks k = blocks)
    (g : Generation) (n : ContextNumber) : p.grantedTag k g n = {
      state := .queued
      generation := g
      kind := some kind
      target := some p.target.toFin
      length := length
      localOffset := localOffset
      reserved := blocks
      received := 0
      landed := 0
      context := some n
      segment := some k
      deadline := none } := by
  subst hkind hlength hlocal hblocks
  rfl

theorem segmentKind_of_read {p : CommandRecord} (hk : p.kind = 0) : p.segmentKind = .read := if_pos hk

theorem segmentKind_of_write {p : CommandRecord} (hk : p.kind = 1) : p.segmentKind = .write := by
  simp [CommandRecord.segmentKind, hk]

theorem segmentKind_of_atomic {p : CommandRecord} (hk : p.kind = 2) : p.segmentKind = .atomic := by
  simp [CommandRecord.segmentKind, hk]

/-- R153: the segments of a transfer are 256 bytes, but for the last. -/
theorem segmentLength_of_transfer {p : CommandRecord} (hk : p.kind ≠ 2) (k : Nat) :
    p.segmentLength k = min 256 (p.length.toNat - 256 * k) := if_neg hk

theorem segmentLength_of_atomic {p : CommandRecord} (hk : p.kind = 2) (k : Nat) : p.segmentLength k = 4 := if_pos hk

/-- R147: the code of an atomic operation names it. -/
theorem atomicOp_of_code {p : CommandRecord} {op : AtomicOp} (h : p.operation.toNat = op.code) : p.atomicOp = op := by
  rw [CommandRecord.atomicOp, h]
  cases op <;> rfl

/-- Settles O49. -/
theorem segmentsAreIssued : Obligations.SegmentsAreIssued := by
  unfold Obligations.SegmentsAreIssued
  refine ⟨fun n c s h hn hc => ?_, ?_⟩
  · have hcurrent : s.issue.currentContext = some c := by rw [IssueEngine.currentContext, hn]; exact hc
    simp [exec, execSegmentIssue, awake_of_not_rstN h, hcurrent, State.issueNext]
  · intro c slot s hroom hslot p after
    refine ⟨fun hk => (issueSegment_of_notice hroom hslot hk).trans (claimed_eq _ _ _ _), ?_⟩
    intro t ht hk hp g remote here n room tagged
    refine ⟨fun h0 hr => ?_, fun h1 => ?_, fun op hop h2 hr => ?_⟩
    · have h2 : p.kind ≠ 2 := by rw [h0]; decide
      have hlength : p.segmentLength c.next = n := segmentLength_of_transfer h2 _
      have hblocks : p.segmentBlocks c.next = (n + 31) / 32 := segmentBlocks_of_read h0 _
      have htag : p.grantedTag c.next g c.number = _ := grantedTag_of (segmentKind_of_read h0) hlength (if_pos h0) hblocks _ _
      have hbody : p.segmentBody c.next t g = .rdReq p.target.toFin t g remote (BitVec.ofNat 16 n) := by
        simp only [CommandRecord.segmentBody, segmentKind_of_read h0, hlength]
        rfl
      have hentry : p.entryState c.next = .ready := if_neg (by rw [h0]; decide)
      refine (issueSegment_of_tagged hroom hslot ht hk hp (hblocks ▸ le_availableBlocks hr)).trans ?_
      rw [htag, hbody, hentry]
      exact claimed_eq _ _ _ _
    · have h0 : p.kind ≠ 0 := by rw [h1]; decide
      have h2 : p.kind ≠ 2 := by rw [h1]; decide
      have hlength : p.segmentLength c.next = n := segmentLength_of_transfer h2 _
      have hblocks : p.segmentBlocks c.next = 0 := segmentBlocks_of_write h1 _
      have htag : p.grantedTag c.next g c.number = _ := grantedTag_of (segmentKind_of_write h1) hlength (if_neg h0) hblocks _ _
      have hbody : p.segmentBody c.next t g = .wrReq p.target.toFin t g remote (BitVec.ofNat 16 n) [] := by
        simp only [CommandRecord.segmentBody, segmentKind_of_write h1, hlength]
        rfl
      have hentry : p.entryState c.next = .filling here n := by
        rw [← hlength]
        exact if_pos h1
      refine (issueSegment_of_tagged hroom hslot ht hk hp (hblocks ▸ Nat.zero_le _)).trans ?_
      rw [htag, hbody, hentry]
      exact claimed_eq _ _ _ _
    · have h0 : p.kind ≠ 0 := by rw [h2]; decide
      have hblocks : p.segmentBlocks c.next = 1 := segmentBlocks_of_atomic h2 _
      have htag : p.grantedTag c.next g c.number = _ :=
        grantedTag_of (segmentKind_of_atomic h2) (segmentLength_of_atomic h2 _) (if_neg h0) hblocks _ _
      have hbody : p.segmentBody c.next t g =
          .atReq p.target.toFin t g remote op p.a (if op = .compareSwap then p.b else 0) := by
        simp only [CommandRecord.segmentBody, segmentKind_of_atomic h2, CommandRecord.sentB, atomicOp_of_code hop]
        rfl
      have hentry : p.entryState c.next = .ready := if_neg (by rw [h2]; decide)
      refine (issueSegment_of_tagged hroom hslot ht hk hp (hblocks ▸ le_availableBlocks hr)).trans ?_
      rw [htag, hbody, hentry]
      exact claimed_eq _ _ _ _

/-! ## Segments refused or without a target (R129, R155, R158) -/

/-- R158: the first failure is that of the lowest-index failed segment. -/
theorem lowerFailure_eq (held : Option (Nat × Status)) (k : Nat) (st : Status) :
    lowerFailure held k st = some (match held with
      | some (j, old) => if k < j then (k, st) else (j, old)
      | none => (k, st)) := by
  cases held with
  | none => rfl
  | some x => exact (apply_ite some _ _ _).symm

/-- R158: a segment fails that no later segment follows. -/
theorem failSegment_of_last {s : State} {n : ContextNumber} {k : Nat} (st : Status)
    (h : ∀ x, (s.tagAt x).isLaterOf n k = false) :
    s.failSegment n k st = (s.updateContext n (fun c => c.failed k st)).issuingEnds n := by
  rw [State.failSegment]
  exact withdrawLater_of_none (fun x => by rw [issuingEnds_eq]; exact h x)

/-- R158: a failed segment finishes the command's issuing. -/
theorem failed_eq (c : Context) (k : Nat) (st : Status) : c.failed k st = { c with
    firstFailure := some (match c.firstFailure with
      | some (j, old) => if k < j then (k, st) else (j, old)
      | none => (k, st))
    issuingFinished := true
    phase := .outstanding } := by
  rw [Context.failed, lowerFailure_eq]

/-- R158: the context of a command whose segment fails, with no later segment issued. -/
theorem failSegment_of_last_eq {s : State} {n : ContextNumber} {k : Nat} (st : Status)
    (h : ∀ x, (s.tagAt x).isLaterOf n k = false) : s.failSegment n k st = { s with issue := { s.issue with
      contexts := s.issue.contexts.map (fun x => if x.number = n then { x with
        firstFailure := some (match x.firstFailure with
          | some (j, old) => if k < j then (k, st) else (j, old)
          | none => (k, st))
        issuingFinished := true
        phase := .outstanding } else x)
      current := if s.issue.current = some n then none else s.issue.current
      waitingFor := if s.issue.current = some n then WaitingFor.nothing else s.issue.waitingFor } } := by
  rw [failSegment_of_last st h, issuingEnds_eq]
  simp only [State.updateContext, State.withIssue, failed_eq]

/-- R129: the segment of a command to a peer that is ABSENT ends without a claim. -/
theorem issueSegment_of_absent {s : State} {c : Context} (hk : c.command.kind.toNat < 3)
    (hp : (s.peerAt c.command.target.toFin).state = .absent) :
    s.issueSegment c = s.failSegment c.number c.next .noStation := by
  rw [State.issueSegment]
  exact if_pos (by rw [State.targetAbsent, hasTarget_iff.2 hk]; exact decide_eq_true hp)

/-- R155: the resources a segment is refused, one by one. -/
theorem refused_eq {s : State} {c : Context} {w : WaitingFor} {needed : Nat} (hneeded : c.command.segmentBlocks c.next = needed)
    (htag : w.tag = true ↔ c.command.kind.toNat < 3 ∧ ∀ t, (s.tagAt t).state ≠ .free)
    (hblocks : w.blocks = true ↔
      0 < needed ∧ s.inForce.commitmentLimit.toNat < s.reservedBlocks + s.buffer.occupied + needed)
    (hentry : w.entry = true ↔ 16 ≤ s.sender.requests.length) : s.refused c = w := by
  have h1 : (c.command.hasTarget && s.lowestFreeTag.isNone) = w.tag := by
    rw [Bool.eq_iff_iff, htag, Bool.and_eq_true, hasTarget_iff, lowestFreeTag_isNone_iff]
  have h2 : (c.command.hasTarget && decide (s.availableBlocks < c.command.segmentBlocks c.next)) = w.blocks := by
    rw [Bool.eq_iff_iff, hblocks, Bool.and_eq_true, decide_eq_true_eq, hasTarget_iff, availableBlocks_lt_iff, hneeded]
    refine and_iff_right_of_imp fun hlt => Nat.lt_of_not_le fun hlate => ?_
    rw [segmentBlocks_of_notice hlate] at hneeded
    omega
  have h3 : decide (Config.requestEntries ≤ s.sender.requests.length) = w.entry := by
    rw [Bool.eq_iff_iff, hentry, decide_eq_true_eq, Config.requestEntries]
  rw [State.refused, h1, h2, h3]

/-- R46, R154: the blocks of a segment, by the kind of its command. -/
theorem segmentBlocks_eq (p : CommandRecord) (k : Nat) : p.segmentBlocks k =
    if p.kind = 0 then (min 256 (p.length.toNat - 256 * k) + 31) / 32 else if p.kind = 2 then 1 else 0 := by
  split_ifs with h0 h2
  · exact segmentBlocks_of_read h0 k
  · exact segmentBlocks_of_atomic h2 k
  · rw [CommandRecord.segmentBlocks, if_neg h0, if_neg h2]

theorem waitingFor_any_iff (w : WaitingFor) :
    w.any = true ↔ w.tag = true ∨ w.blocks = true ∨ w.entry = true := by
  simp only [WaitingFor.any, Bool.or_eq_true, or_assoc]

theorem isWaiting_iff (e : IssueEngine) : e.isWaiting = true ↔
    e.waitingFor.tag = true ∨ e.waitingFor.blocks = true ∨ e.waitingFor.entry = true :=
  waitingFor_any_iff e.waitingFor

/-- R155, R178: a segment refused a resource waits, and the episode is counted once. -/
theorem delaySegment_eq (s : State) (w : WaitingFor) : s.delaySegment w = { s with
    issue := { s.issue with waitingFor := w }
    incidents := if s.issue.waitingFor.tag = true ∨ s.issue.waitingFor.blocks = true ∨ s.issue.waitingFor.entry = true
      then s.incidents else s.incidents.counted 0 } := by
  simp only [← isWaiting_iff, State.delaySegment]
  split <;> rfl

/-- R155: a segment that some resource is refused. -/
theorem issueSegment_of_refused {s : State} {c : Context} (ha : s.targetAbsent c.command = false)
    (hr : (s.refused c).any = true) : s.issueSegment c = s.delaySegment (s.refused c) := by
  rw [State.issueSegment, if_neg (by rw [ha]; decide), if_pos hr]

/-! ## A peer becomes ABSENT (R123, R124, R129) -/

/-- R129: the segment of the current command waits to be sent to a station. -/
theorem endWaitFor_of_waiting {s : State} {p : Station} {n : ContextNumber} {c : Context} (hn : s.issue.current = some n)
    (hc : s.issue.context n = some c) (hw : s.issue.isWaiting = true) (hk : c.command.kind.toNat < 3)
    (hp : c.command.target.toNat = p.val) : s.endWaitFor p = s.failSegment n c.next .noStation := by
  have htarget : c.command.targetStation = p := Fin.ext hp
  simp [State.endWaitFor, hn, hc, hw, hasTarget_iff.2 hk, htarget]

/-- R129: a segment that does not wait, or not to be sent to that station, stays. -/
theorem endWaitFor_of_other {s : State} {p : Station} {n : ContextNumber} {c : Context} (hn : s.issue.current = some n)
    (hc : s.issue.context n = some c)
    (h : ¬ s.issue.isWaiting = true ∨ 3 ≤ c.command.kind.toNat ∨ c.command.target.toNat ≠ p.val) : s.endWaitFor p = s := by
  have hcond : ¬ (s.issue.isWaiting = true ∧ c.command.hasTarget = true ∧ c.command.targetStation = p) := by
    rintro ⟨hw, hk, rfl⟩
    rcases h with h | h | h
    · exact h hw
    · exact absurd (hasTarget_iff.1 hk) (Nat.not_lt.2 h)
    · exact h rfl
  simp only [State.endWaitFor, hn, hc, Bool.and_eq_true, decide_eq_true_eq]
  rw [if_neg (by rwa [and_assoc])]

theorem endWaitFor_of_noCurrent {s : State} (p : Station) (hn : s.issue.current = none) : s.endWaitFor p = s := by
  simp [State.endWaitFor, hn]

/-- Settles O50. -/
theorem segmentsWaitOrEnd : Obligations.SegmentsWaitOrEnd := by
  unfold Obligations.SegmentsWaitOrEnd
  refine ⟨fun c s hk hp hlater => (issueSegment_of_absent hk hp).trans (failSegment_of_last_eq _ hlater), ?_, ?_⟩
  · intro c w s p needed hp htag hblocks hentry hany
    have hrefused : s.refused c = w := refused_eq (segmentBlocks_eq p c.next) htag hblocks hentry
    rw [issueSegment_of_refused (targetAbsent_eq_false hp) (by rw [hrefused]; exact (waitingFor_any_iff w).2 hany),
      hrefused, delaySegment_eq]
  · intro s p marked waiting
    refine ⟨fun n c hn hc hw hk hp => ?_, fun n c hn hc h => ?_, fun hn => ?_⟩
    · exact congrArg (fun u => State.cleanup u p)
        (endWaitFor_of_waiting (s := marked) hn hc ((isWaiting_iff _).2 hw) hk hp)
    · refine congrArg (fun u => State.cleanup u p) (endWaitFor_of_other (s := marked) hn hc ?_)
      exact h.imp_left fun hw hwaits => hw ((isWaiting_iff _).1 hwaits)
    · exact congrArg (fun u => State.cleanup u p) (endWaitFor_of_noCurrent (s := marked) p hn)

end Sys2Proof.Machine
end

section
/-!
PROOFS. Copies: the copy of a WRITE payload from the store into its request-queue entry (R92, R97, R156).
-/
namespace Sys2Proof.Machine

/-! ## What a transfer completed finds -/

/-- R97: a READ of a stretch ends at the next block boundary. -/
theorem readChunk_eq (base position remaining : Nat) :
    readChunk base position remaining = .read (base + position) (blockPart (base + position) remaining) := by
  rw [readChunk, chunk_eq_blockPart]

/-- R88: a claimant with nothing raised and nothing granted has no transfer. -/
theorem occupied_of_unused {a : Arbiter} {c : Claimant} (h : a.Unused c) : a.occupied c = false := by
  obtain ⟨hraised, hgranted⟩ := h
  rw [Arbiter.occupied, hraised]
  cases hg : a.granted with
  | none => rfl
  | some g => exact decide_eq_false (hgranted g hg)

/-! ## The beginning of a copy (R156) -/

theorem isFilling_iff (x : EntryState) : x.isFilling = true ↔ ∃ a b, x = .filling a b := by
  cases x with
  | filling a b => exact ⟨fun _ => ⟨a, b, rfl⟩, fun _ => rfl⟩
  | _ => exact ⟨nofun, fun ⟨_, _, h⟩ => nomatch h⟩

/-- R156: the entry to copy is the first that is FILLING. -/
theorem nextFilling_of_append {d : Sender} {older newer : List RequestEntry} {e : RequestEntry} {a b : Nat}
    (hd : d.requests = older ++ e :: newer) (holder : ∀ x ∈ older, ∀ a b, x.state ≠ .filling a b)
    (he : e.state = .filling a b) : d.nextFilling = some e := by
  have hnone : older.find? (fun x => x.state.isFilling) = none := by
    rw [List.find?_eq_none]
    intro x hx hf
    obtain ⟨a, b, h⟩ := (isFilling_iff _).1 hf
    exact holder x hx a b h
  rw [Sender.nextFilling, hd, List.find?_append, hnone, Option.none_or]
  exact List.find?_cons_of_pos ((isFilling_iff _).2 ⟨a, b, he⟩)

/-- R97: the next transfer of a FILLING entry. -/
theorem copyTransfer_of_filling {e : RequestEntry} {source length : Nat} (he : e.state = .filling source length) :
    e.copyTransfer = some (.read (source + (FrameBody.payload e.frame.body).length)
      (blockPart (source + (FrameBody.payload e.frame.body).length)
        (length - (FrameBody.payload e.frame.body).length))) := by
  simp only [RequestEntry.copyTransfer, he, readChunk_eq]

theorem exec_copyBegin {s : State} {e : RequestEntry} (h : s.life.rstN = false) (hcopying : s.issue.copying = none)
    (hunused : s.arbiter.Unused .issue) (he : s.sender.nextFilling = some e) :
    exec .copyBegin s = .next (s.raiseCopy e) := by
  simp only [exec, execCopyBegin, he, State.copyIsIdle, awake_of_not_rstN h, hcopying, occupied_of_unused hunused]
  rfl

/-! ## A copy transfer completed (R92, R97) -/

theorem exec_copyTransferComplete {s : State} {g : Granted} (h : s.life.rstN = false) (hg : s.arbiter.granted = some g)
    (hc : g.claimant = .issue) : exec .copyTransferComplete s =
      .next (if g.discarded then s.storeIdle else (s.storeIdle.copyCompleted g).settle) := by
  simp only [exec, execCopyTransferComplete, grantedTo_of h hg hc]

/-- R97: the entry that a copy reaches. -/
theorem copiedEntry_of {s : State} {e : RequestEntry} (hcopying : s.issue.copying = some e.slot)
    (he : s.sender.entryAt e.slot = some e) (hw : e.withdrawn = false) : s.copiedEntry = some e := by
  simp [State.copiedEntry, hcopying, he, hw]

theorem copyDone_of_filling {e : RequestEntry} {source length : Nat} (he : e.state = .filling source length) :
    e.copyDone = decide (length ≤ (FrameBody.payload e.frame.body).length) := by
  simp only [RequestEntry.copyDone, he]

/-- R97: the entry after a clean transfer into a WR_REQ. -/
theorem copied_of_wrReq {e : RequestEntry} {target : Station} {tag : Tag} {gen : Generation} {remote : Offset}
    {field : BitVec 16} {payload : List Byte} (hb : e.frame.body = .wrReq target tag gen remote field payload)
    (data : List Byte) : e.copied data =
      { e with frame := { e.frame with body := .wrReq target tag gen remote field (payload ++ data) } } := by
  rw [RequestEntry.copied, hb]
  rfl

/-- R97: the last transfer of a copy makes the entry READY. -/
theorem copyCarried_of_done {s : State} {e : RequestEntry} {data : List Byte} (h : (e.copied data).copyDone = true) :
    s.copyCarried e data = (s.updateEntry e.slot (fun _ => { e.copied data with state := .ready })).noCopy := by
  rw [State.copyCarried]
  exact if_pos h

/-- R97: every other is followed by the next. -/
theorem copyCarried_of_more {s : State} {e : RequestEntry} {data : List Byte} (h : (e.copied data).copyDone = false) :
    s.copyCarried e data = (s.updateEntry e.slot (fun _ => e.copied data)).raiseCopy (e.copied data) := by
  rw [State.copyCarried]
  exact if_neg (ne_true_of_eq_false h)

/-- R97: a transfer raised for the entry that is being copied. -/
theorem raiseCopy_of_copying {s : State} {e : RequestEntry} {tr : Transfer} (htr : e.copyTransfer = some tr)
    (hcopying : s.issue.copying = some e.slot) :
    s.raiseCopy e = { s with arbiter := { s.arbiter with raisedIssue := some tr } } := by
  have hissue : { s.issue with copying := some e.slot } = s.issue := by rw [← hcopying]
  simp only [State.raiseCopy, htr, hissue]
  rfl

/-- Settles O51. -/
theorem copiesRun : Obligations.CopiesRun := by
  unfold Obligations.CopiesRun
  refine ⟨?_, ?_, fun g s h hg hc hd => ?_⟩
  · intro e older newer source length s h hcopying hunused hreq holder he copied
    rw [exec_copyBegin h hcopying hunused (nextFilling_of_append hreq holder he)]
    simp only [State.raiseCopy, copyTransfer_of_filling he]
    rfl
  · intro g e source length target tag gen remote field payload s h hg hc hd hcopying hentry hw hfilling hb copied filled
      replaced
    have hexec : exec .copyTransferComplete s = .next (s.storeIdle.copyCompleted g).settle := by
      rw [exec_copyTransferComplete h hg hc, if_neg (by rw [hd]; decide)]
    have hentry : s.storeIdle.copiedEntry = some e := copiedEntry_of (s := s.storeIdle) hcopying hentry hw
    have hcopied := copied_of_wrReq hb g.data
    have hdone : (e.copied g.data).copyDone = decide (length ≤ copied.length) := by
      rw [hcopied]
      exact copyDone_of_filling (e := { e with frame := { e.frame with body := .wrReq target tag gen remote field copied } })
        hfilling
    have hclean (hp : g.parityError = false) : s.storeIdle.copyCompleted g = s.storeIdle.copyCarried e g.data := by
      simp only [State.copyCompleted, hentry, hp]
      rfl
    refine ⟨fun t hp ht => ?_, fun hp hmore => ?_, fun hp hall => ?_⟩
    · rw [hexec]
      simp only [State.copyCompleted, hentry, hp, State.endEntry, ht]
      rfl
    · have htransfer := copyTransfer_of_filling (e := e.copied g.data) hfilling
      rw [hexec, hclean hp, copyCarried_of_more (hdone.trans (decide_eq_false (Nat.not_le.2 hmore))),
        raiseCopy_of_copying (s := s.storeIdle.updateEntry e.slot fun _ => e.copied g.data) htransfer hcopying, hcopied,
        ← hfilling]
      rfl
    · rw [hexec, hclean hp, copyCarried_of_done (hdone.trans (decide_eq_true hall)), hcopied]
      rfl
  · rw [exec_copyTransferComplete h hg hc, if_pos hd]
    rfl

end Sys2Proof.Machine
end

section
/-!
PROOFS. Services: the service of the head of the inbound queue, from its beginning to the end of each of its transfers (R71 to
R79).
-/
namespace Sys2Proof.Machine

/-! ## The beginning of a service (R71, R72) -/

/-- R71: the row of the move that every event ends with. -/
theorem exec_serviceBegin {s : State} (h : s.life.rstN = false) : exec .serviceBegin s = .next s.headServed := by
  simp only [exec, execServiceBegin, awake_of_not_rstN h, whenever_true, turnService_eq_headServed]

/-- R71: without an inbound request no service begins. -/
theorem headServed_of_nil {s : State} (hq : s.inbound.queue = []) : s.headServed = s := by
  simp only [State.headServed, hq]

/-- R71, R72: a head that has begun, or for which the response queue lacks room, stays as it is. -/
theorem headServed_of_not {s : State} {e : InboundEntry} {rest : List InboundEntry} (hq : s.inbound.queue = e :: rest)
    (h : e.begun = true ∨ 16 - s.sender.responses.length < e.work.needs) : s.headServed = s := by
  have hno : ¬ (e.begun = false ∧ e.work.needs ≤ 16 - s.sender.responses.length) := by
    rintro ⟨hbegun, hroom⟩
    rcases h with h | h
    · exact Bool.false_ne_true (hbegun.symm.trans h)
    · exact Nat.not_lt.2 hroom h
  simp only [State.headServed, hq, if_neg hno]

/-- R71, R72: a head that has not begun is served where the response queue has room. -/
theorem headServed_of_room {s : State} {e : InboundEntry} {rest : List InboundEntry} {tr : Transfer}
    (hq : s.inbound.queue = e :: rest) (hb : e.begun = false) (hroom : e.work.needs ≤ 16 - s.sender.responses.length)
    (htr : e.firstTransfer = tr) : s.headServed = { s with
      inbound := { queue := { e with begun := true } :: rest, service := some { position := 0, piece := [] } }
      arbiter := { s.arbiter with raisedService := some tr } } := by
  simp only [State.headServed, hq, if_pos (And.intro hb hroom), htr]

/-! ## A transfer of a service completed (R71, R92) -/

/-- R92: the result of a transfer that has been discarded reaches nothing. -/
theorem serviceResult_of_discarded {s : State} {g : Granted} (hd : g.discarded = true)
    (act : State → InboundEntry → Service → State) : s.serviceResult g act = s.storeIdle := by
  rw [State.serviceResult]
  exact if_pos hd

/-- R71: every other reaches the service in progress. -/
theorem serviceResult_of_serving {s : State} {g : Granted} {e : InboundEntry} {rest : List InboundEntry} {v : Service}
    (hd : g.discarded = false) (hq : s.inbound.queue = e :: rest) (hv : s.inbound.service = some v)
    (act : State → InboundEntry → Service → State) : s.serviceResult g act = (act s.storeIdle e v).settle := by
  have hq' : s.storeIdle.inbound.queue.head? = some e := by
    rw [show s.storeIdle.inbound = s.inbound from rfl, hq, List.head?_cons]
  have hv' : s.storeIdle.inbound.service = some v := hv
  simp only [State.serviceResult, hd, Bool.false_eq_true, if_false, hq', hv']

section
variable {s : State} {g : Granted} (h : s.life.rstN = false) (hg : s.arbiter.granted = some g) (hc : g.claimant = .service)
include h hg hc

theorem exec_serviceWriteTransferComplete {cells : List Host.Cell} (ht : g.transfer = .write cells) :
    exec .serviceWriteTransferComplete s =
      .next (s.serviceResult g (fun t e v => t.writeServed e v cells.length)) := by
  simp only [exec, execServiceWriteTransferComplete, grantedTo_of h hg hc, ht]

theorem exec_serviceReadTransferComplete {o n : Nat} (ht : g.transfer = .read o n) :
    exec .serviceReadTransferComplete s = .next (s.serviceResult g (fun t e v => t.readServed e v g)) := by
  simp only [exec, execServiceReadTransferComplete, grantedTo_of h hg hc, ht]

theorem exec_atomicTransferComplete {o : Nat} {op : AtomicOp} {a b : Word} (ht : g.transfer = .atomic o op a b) :
    exec .atomicTransferComplete s = .next (s.serviceResult g (fun t e _ => t.atomicServed e g)) := by
  simp only [exec, execAtomicTransferComplete, grantedTo_of h hg hc, ht]

end

/-! ## The service of a WRITE (R73) -/

/-- R53, R73: a WRITE of a stretch ends at the next block boundary. -/
theorem writeChunk_eq (base position : Nat) (data : List Byte) :
    writeChunk base position data = blockWrite base position data := by
  rw [writeChunk, blockWrite, chunk_eq_blockPart]

/-- R71: where a service ends the head has left the queue. -/
theorem serviceEnded_eq {s : State} {e : InboundEntry} {rest : List InboundEntry} (hq : s.inbound.queue = e :: rest) :
    s.serviceEnded = { s with inbound := { queue := rest, service := none } } := by
  rw [State.serviceEnded, hq]
  rfl

theorem serveAt_of_write {e : InboundEntry} {payload : List Byte} (hw : e.work = .write payload) (s : State)
    (position : Nat) (piece : List Byte) : s.serveAt e position piece = { s with
      inbound := { s.inbound with service := some { position := position, piece := piece } }
      arbiter := { s.arbiter with raisedService := some (blockWrite e.offset position payload) } } := by
  simp only [State.serveAt, InboundEntry.transferAt, hw, writeChunk_eq]
  rfl

theorem length_of_write {e : InboundEntry} {payload : List Byte} (hw : e.work = .write payload) :
    e.work.length = payload.length := by
  rw [hw]; rfl

/-- Settles O52. -/
theorem servicesBeginAndWritesAreServed : Obligations.ServicesBeginAndWritesAreServed := by
  unfold Obligations.ServicesBeginAndWritesAreServed
  refine ⟨?_, fun s h hnot => ?_, ?_, ?_⟩
  · intro e rest s hq hb begins
    have hbegins {tr : Transfer} (hroom : e.work.needs ≤ 16 - s.sender.responses.length) (htr : e.firstTransfer = tr) :
        begins tr := by
      have hserved := headServed_of_room hq hb hroom htr
      exact ⟨hserved, fun h => (exec_serviceBegin h).trans (congrArg _ hserved)⟩
    refine ⟨fun n hw hroom => hbegins ?_ ?_, fun payload hw => hbegins ?_ ?_, fun op a b hw hroom => hbegins ?_ ?_⟩
    · simp only [hw, InboundWork.needs]
      omega
    · simp only [InboundEntry.firstTransfer, hw]
    · simp only [hw, InboundWork.needs, Nat.zero_le]
    · simp only [InboundEntry.firstTransfer, hw]
    · simp only [hw, InboundWork.needs]
      omega
    · simp only [InboundEntry.firstTransfer, hw]
  · have hserved : s.headServed = s := by
      rcases hnot with hq | ⟨e, rest, hq, hb | ⟨n, hw, hroom⟩ | ⟨op, a, b, hw, hroom⟩⟩
      · exact headServed_of_nil hq
      · exact headServed_of_not hq (.inl hb)
      · refine headServed_of_not hq (.inr ?_)
        simp only [hw, InboundWork.needs]
        split_ifs at hroom ⊢ <;> omega
      · refine headServed_of_not hq (.inr ?_)
        simp only [hw, InboundWork.needs]
        omega
    exact ⟨hserved, (exec_serviceBegin h).trans (congrArg _ hserved)⟩
  · intro g cells e rest payload v s hs h hg hc hd ht hq hw hv position
    have hexec : exec .serviceWriteTransferComplete s = .next (s.storeIdle.writeServed e v cells.length).settle :=
      (exec_serviceWriteTransferComplete h hg hc ht).trans (congrArg _ (serviceResult_of_serving hd hq hv _))
    rw [hexec, State.writeServed, length_of_write hw]
    refine ⟨fun hmore => congrArg _ ?_, fun hall => congrArg _ ?_⟩
    · refine (congrArg State.settle (if_neg (Nat.not_le.2 hmore))).trans ?_
      rw [serveAt_of_write hw]
      exact settle_self hs rfl rfl rfl rfl rfl (fun _ => id) rfl rfl rfl
    · refine (congrArg State.settle (if_pos hall)).trans ?_
      rw [serviceEnded_eq (s := s.storeIdle) hq]
      exact settle_self_served hs rfl rfl rfl rfl rfl (fun _ => id) rfl rfl
  · intro g s h hg hc hd dropped
    refine ⟨fun cells ht => ?_, fun o n ht => ?_, fun o op a b ht => ?_⟩
    · exact (exec_serviceWriteTransferComplete h hg hc ht).trans (congrArg _ (serviceResult_of_discarded hd _))
    · exact (exec_serviceReadTransferComplete h hg hc ht).trans (congrArg _ (serviceResult_of_discarded hd _))
    · exact (exec_atomicTransferComplete h hg hc ht).trans (congrArg _ (serviceResult_of_discarded hd _))

/-! ## The services of a READ and of an ATOMIC (R74 to R79) -/

/-- R78, R79: a completion joins the response queue, unless its service is orphaned. -/
theorem appendCompletion_eq (s : State) (e : InboundEntry) (body : FrameBody) : s.appendCompletion e body = { s with
    sender := { s.sender with responses := s.sender.responses ++
      (if e.orphaned then [] else [{ frame := { source := s.life.number, body := body }, retransmissions := 0 }]) } } := by
  rw [State.appendCompletion]
  split
  · rw [List.append_nil]
  · rfl

/-- R71, R75 to R77: the last completion joins the response queue, and the service ends. -/
theorem serviceEnded_appendCompletion {s : State} {e : InboundEntry} {rest : List InboundEntry}
    (hq : s.inbound.queue = e :: rest) (body : FrameBody) : (s.appendCompletion e body).serviceEnded = { s with
      inbound := { queue := rest, service := none }
      sender := { s.sender with responses := s.sender.responses ++
        (if e.orphaned then [] else [{ frame := { source := s.life.number, body := body }, retransmissions := 0 }]) } } := by
  rw [appendCompletion_eq]
  exact serviceEnded_eq (s := { s with sender := _ }) hq

theorem serveAt_of_read {e : InboundEntry} {n : Nat} (hw : e.work = .read n) (s : State)
    (position : Nat) (piece : List Byte) : s.serveAt e position piece = { s with
      inbound := { s.inbound with service := some { position := position, piece := piece } }
      arbiter := { s.arbiter with raisedService := some (.read (e.offset + position)
        (blockPart (e.offset + position) (min (n - position) (128 - position % 128)))) } } := by
  simp only [State.serveAt, InboundEntry.transferAt, hw, readChunk_eq]
  rfl

/-- R74: a piece ends at 128 bytes, and the last with the request. -/
theorem pieceComplete_iff (position n : Nat) : pieceComplete position n = true ↔ position % 128 = 0 ∨ n ≤ position := by
  simp [pieceComplete, Config.pieceBytes]

section
variable {s : State} {e : InboundEntry} {v : Service} {g : Granted} {n : Nat}

/-- R75: a parity error ends the service. -/
theorem readServed_of_parity (hp : g.parityError = true) : s.readServed e v g = s.serviceFailed e := by
  rw [State.readServed]
  exact if_pos hp

/-- R74: a piece still being filled. -/
theorem readServed_of_filling (hw : e.work = .read n) (hp : g.parityError = false)
    (hmore : v.position + g.data.length < n) (hfill : (v.position + g.data.length) % 128 ≠ 0) :
    s.readServed e v g = s.serveAt e (v.position + g.data.length) (v.piece ++ g.data) := by
  have hnot : ¬ pieceComplete (v.position + g.data.length) n = true := by
    rw [pieceComplete_iff]
    exact not_or.2 ⟨hfill, Nat.not_le.2 hmore⟩
  simp only [State.readServed, hp, hw, InboundWork.length, if_neg hnot, Bool.false_eq_true, if_false]

/-- R13, R74: a piece complete before the last. -/
theorem readServed_of_piece (hw : e.work = .read n) (hp : g.parityError = false)
    (hmore : v.position + g.data.length < n) (hfull : (v.position + g.data.length) % 128 = 0) :
    s.readServed e v g =
      (s.appendCompletion e (e.pieceBody (v.position + g.data.length) (v.piece ++ g.data))).serveAt e
        (v.position + g.data.length) [] := by
  have hdone : pieceComplete (v.position + g.data.length) n = true := (pieceComplete_iff _ _).2 (.inl hfull)
  simp only [State.readServed, hp, hw, InboundWork.length, if_pos hdone, if_neg (Nat.not_le.2 hmore), Bool.false_eq_true,
    if_false]

/-- R13, R74: the last piece ends the service. -/
theorem readServed_of_last (hw : e.work = .read n) (hp : g.parityError = false) (hall : n ≤ v.position + g.data.length) :
    s.readServed e v g =
      (s.appendCompletion e (e.pieceBody (v.position + g.data.length) (v.piece ++ g.data))).serviceEnded := by
  have hdone : pieceComplete (v.position + g.data.length) n = true := (pieceComplete_iff _ _).2 (.inr hall)
  simp only [State.readServed, hp, hw, InboundWork.length, if_pos hdone, if_pos hall, Bool.false_eq_true, if_false]

end

/-- R13: the RD_DATA of a piece. -/
theorem pieceBody_of_read {e : InboundEntry} {n : Nat} (hw : e.work = .read n) {position : Nat} {last : Bool}
    (hlast : decide (n ≤ position) = last) (piece : List Byte) : e.pieceBody position piece =
      .rdData e.source e.tag e.generation (decide (128 ≤ position - piece.length)) last piece := by
  subst hlast
  rw [InboundEntry.pieceBody, hw]
  rfl

/-- Settles O53. -/
theorem readsAndAtomicsAreServed : Obligations.ReadsAndAtomicsAreServed := by
  unfold Obligations.ReadsAndAtomicsAreServed
  intro g e rest v s h hg hc hd hq hv idle joined ended
  have hended (body : FrameBody) :
      Host.Outcome.next ((s.storeIdle.appendCompletion e body).serviceEnded).settle = ended body := by
    rw [serviceEnded_appendCompletion (s := s.storeIdle) hq]
    rfl
  constructor
  · intro n o count hw ht position piece next data
    have hexec : exec .serviceReadTransferComplete s = .next (s.storeIdle.readServed e v g).settle :=
      (exec_serviceReadTransferComplete h hg hc ht).trans (congrArg _ (serviceResult_of_serving hd hq hv _))
    rw [hexec]
    refine ⟨fun hp => ?_, fun hp hmore hfill => ?_, fun hp hmore hfull => ?_, fun hp hall => ?_⟩
    · rw [readServed_of_parity hp]
      exact hended _
    · rw [readServed_of_filling hw hp hmore hfill, serveAt_of_read hw]
      rfl
    · rw [readServed_of_piece hw hp hmore hfull, serveAt_of_read hw, appendCompletion_eq,
        pieceBody_of_read hw (decide_eq_false (Nat.not_le.2 hmore))]
      rfl
    · rw [readServed_of_last hw hp hall, pieceBody_of_read hw (decide_eq_true hall)]
      exact hended _
  · intro o op a b ht
    have hexec : exec .atomicTransferComplete s = .next (s.storeIdle.atomicServed e g).settle :=
      (exec_atomicTransferComplete h hg hc ht).trans (congrArg _ (serviceResult_of_serving hd hq hv _))
    rw [hexec, State.atomicServed]
    refine ⟨fun hp => ?_, fun hp => ?_⟩
    · rw [if_pos hp]
      exact hended _
    · rw [if_neg (ne_true_of_eq_false hp)]
      exact hended _

end Sys2Proof.Machine
end

section
/-!
PROOFS. Landings: the pieces of a READ carried from the completion buffer into the store (R36, R52 to R54).
-/
namespace Sys2Proof.Machine

/-! ## The transfers of the landing engine (R52, R53) -/

theorem exec_landingBegin {s : State} {p : Piece} {rest : List Piece} (h : s.life.rstN = false)
    (hp : s.buffer.pieces = p :: rest) (hl : s.buffer.landing = none) (hunused : s.arbiter.Unused .landing) :
    exec .landingBegin s = .next (s.landingBegun p) := by
  simp only [exec, execLandingBegin, hp, List.head?_cons, State.landingIsIdle, awake_of_not_rstN h, hl,
    occupied_of_unused hunused]
  rfl

theorem exec_landingTransferComplete {s : State} {g : Granted} {cells : List Host.Cell} {l : Landing}
    (h : s.life.rstN = false) (hg : s.arbiter.granted = some g) (hc : g.claimant = .landing)
    (ht : g.transfer = .write cells) (hl : s.buffer.landing = some l) :
    exec .landingTransferComplete s = .next (s.storeIdle.landed l cells.length) := by
  simp only [exec, execLandingTransferComplete, grantedTo_of h hg hc, hl, ht, Transfer.bytesWritten]

theorem landAt_eq (s : State) (p : Piece) (position : Nat) : s.landAt p position = { s with
    buffer := { s.buffer with landing := some { piece := p, position := position } }
    arbiter := { s.arbiter with raisedLanding := some (blockWrite p.destination position p.data) } } := by
  rw [State.landAt, writeChunk_eq]
  rfl

/-- R52: the head piece becomes the current piece. -/
theorem landingBegun_eq {s : State} {p : Piece} {rest : List Piece} (hp : s.buffer.pieces = p :: rest) :
    s.landingBegun p = { s with
      buffer := { pieces := rest, landing := some { piece := p, position := 0 } }
      arbiter := { s.arbiter with raisedLanding := some (blockWrite p.destination 0 p.data) } } := by
  rw [State.landingBegun, hp, landAt_eq]
  rfl

/-! ## The landing report (R36, R54) -/

/-- R36: a piece of an earlier use of its tag, or of a tag that is no longer PARTIAL, is not reported. -/
theorem landingReported_of_other {s : State} {p : Piece}
    (h : ¬ ((s.tagAt p.tag).state = .partialRead ∧ (s.tagAt p.tag).generation = p.generation)) :
    s.landingReported p = s := by
  rw [State.landingReported]
  exact if_neg h

/-- R36: every other piece counts as landed, and the last ends its segment. -/
theorem landingReported_of_mine {s : State} {p : Piece}
    (h : (s.tagAt p.tag).state = .partialRead ∧ (s.tagAt p.tag).generation = p.generation) : s.landingReported p =
      if (s.tagAt p.tag).landed + p.data.length = (s.tagAt p.tag).length then
        (s.setTag p.tag { s.tagAt p.tag with landed := (s.tagAt p.tag).landed + p.data.length }).endSegment p.tag .ok none
      else s.setTag p.tag { s.tagAt p.tag with landed := (s.tagAt p.tag).landed + p.data.length } := by
  rw [State.landingReported]
  exact if_pos h

/-- R50: the end of a segment with OK leaves the completion buffer as it is. -/
theorem buffer_endSegment_ok (s : State) (t : Tag) (v : Option Word) : (s.endSegment t .ok v).buffer = s.buffer := by
  have hentry : (s.removeEntryOf t).buffer = s.buffer := congrArg SegmentView.buffer (segmentView_removeEntryOf s t)
  rw [State.endSegment]
  split
  · exact hentry
  · exact hentry

/-- R54: the engine stays idle where no piece is listed. -/
theorem takeNextPiece_of_nil {s : State} (hp : s.buffer.pieces = []) : s.takeNextPiece = s := by
  simp only [State.takeNextPiece, hp, List.head?_nil]

theorem takeNextPiece_of_cons {s : State} {p : Piece} {rest : List Piece} (hp : s.buffer.pieces = p :: rest) :
    s.takeNextPiece = { s with
      buffer := { pieces := rest, landing := some { piece := p, position := 0 } }
      arbiter := { s.arbiter with raisedLanding := some (blockWrite p.destination 0 p.data) } } := by
  rw [← landingBegun_eq hp]
  simp only [State.takeNextPiece, hp, List.head?_cons]

/-- R53: a piece not yet landed goes on. -/
theorem landed_of_more {s : State} {l : Landing} {count : Nat} (h : l.position + count < l.piece.data.length) :
    s.landed l count = s.landAt l.piece (l.position + count) := by
  rw [State.landed]
  exact if_neg (Nat.not_le.2 h)

/-- R54: a piece landed is reported, and the next is taken. -/
theorem landed_of_all {s : State} {l : Landing} {count : Nat} (h : l.piece.data.length ≤ l.position + count) :
    s.landed l count = ((s.withBuffer { s.buffer with landing := none }).landingReported l.piece).takeNextPiece.settle := by
  rw [State.landed]
  exact if_pos h

/-- Settles O54. -/
theorem landingsRun : Obligations.LandingsRun := by
  unfold Obligations.LandingsRun
  refine ⟨fun p rest s h hp hl hunused => ?_, ?_⟩
  · rw [exec_landingBegin h hp hl hunused, landingBegun_eq hp]
  · intro g cells l s h hg hc ht hl p r position mine idle counted next landed
    have hexec := exec_landingTransferComplete h hg hc ht hl
    have hnext (u : State) (hu : u.buffer.pieces = s.buffer.pieces) :
        Host.Outcome.next u.takeNextPiece.settle = next u := by
      cases hp : s.buffer.pieces with
      | nil =>
        rw [takeNextPiece_of_nil (hu.trans hp)]
        simp only [next, hp]
      | cons q rest =>
        rw [takeNextPiece_of_cons (hu.trans hp)]
        simp only [next, hp]
    have hended (hall : p.data.length ≤ position) (u : State) (hreport : landed.landingReported p = u)
        (hu : u.buffer.pieces = s.buffer.pieces) : exec .landingTransferComplete s = next u := by
      rw [← hnext u hu, ← hreport, hexec, landed_of_all (s := s.storeIdle) hall]
      rfl
    refine ⟨fun hmore => ?_, fun hall hother => ?_, fun hall hmine hpart => ?_, fun hall hmine hwhole => ?_⟩
    · rw [hexec, landed_of_more (s := s.storeIdle) hmore, landAt_eq]
      rfl
    · exact hended hall _ (landingReported_of_other (s := landed) hother) rfl
    · exact hended hall _ ((landingReported_of_mine (s := landed) hmine).trans (if_neg hpart)) rfl
    · exact hended hall _ ((landingReported_of_mine (s := landed) hmine).trans (if_pos hwhole))
        ((congrArg CompletionBuffer.pieces (buffer_endSegment_ok _ _ _)).trans rfl)

end Sys2Proof.Machine
end

section
/-!
PROOFS. Frames: the bits of a frame spell its body, and a body that spells one is the bits of its frame (R5, R6, R182, R183).
-/
namespace Sys2Proof.Machine

/-! ## What stands at a position of a sequence -/

section
variable {bits rest : List Bool} {k : Nat}

/-- What stands behind a field. -/
theorem drop_of_drop {pre : List Bool} {m : Nat} (h : bits.drop k = pre ++ rest) (hm : k + pre.length = m) :
    bits.drop m = rest := by
  rw [← hm, ← List.drop_drop, h, List.drop_left]

theorem bitField_of_drop {w n : Nat} (h : bits.drop k = bitsOfNat w n ++ rest) (hn : n < 2 ^ w) : bitField bits k w = n := by
  have hfield := bitField_front rest hn
  rwa [← h, bitField, List.drop_zero] at hfield

theorem bytesAt_of_drop {bytes : List Byte} (h : bits.drop k = bitsOfBytes bytes ++ rest) :
    bytesAt bits k bytes.length = bytes := by
  have hbytes := bytesAt_front bytes rest
  rw [← h] at hbytes
  refine Eq.trans ?_ hbytes
  simp only [bytesAt, bitField, List.drop_drop, Nat.zero_add]

theorem wordAt_of_drop {w : Word} (h : bits.drop k = bitsOfWord w ++ rest) : wordAt bits k = w := by
  have hbytes : bytesAt bits k 4 = bytesOfWord w := bytesAt_of_drop (bytes := bytesOfWord w) h
  rw [wordAt, hbytes, wordOfBytes_bytesOfWord]

/-- What stands at the end of a sequence, as a field with nothing behind it. -/
theorem drop_eq_append_nil {pre : List Bool} (h : bits.drop k = pre) : bits.drop k = pre ++ [] := by
  rw [h, List.append_nil]

theorem length_of_drop (h : bits.drop k = rest) (hk : k ≤ bits.length) : bits.length = k + rest.length := by
  rw [← h, List.length_drop]
  omega

end

/-- A flag of a body is a field of width 1. -/
theorem bitsOfNat_flag (b : Bool) : bitsOfNat 1 b.toNat = [b] := by cases b <;> rfl

theorem decide_toNat_eq_one (b : Bool) : decide (b.toNat = 1) = b := by cases b <;> rfl

theorem bitsOfNat_of_lt_two {n : Nat} (h : n < 2 ^ 1) : bitsOfNat 1 n = [decide (n = 1)] := by
  obtain rfl | rfl : n = 0 ∨ n = 1 := by omega
  · rfl
  · rfl

theorem toNat_ofNat_bitField (bits : List Bool) (start w : Nat) :
    (BitVec.ofNat w (bitField bits start w)).toNat = bitField bits start w := by
  rw [BitVec.toNat_ofNat, Nat.mod_eq_of_lt (bitField_lt bits start w)]

/-! ## The tag and the generation (R182) -/

@[simp] theorem length_tagBits (tag : Tag) (g : Generation) : (tagBits tag g).length = 7 := by
  simp [tagBits]

section
variable {bits rest : List Bool} {tag : Tag} {g : Generation}

theorem parseTag_of_drop (h : bits.drop 15 = tagBits tag g ++ rest) : parseTag bits = tag := by
  rw [tagBits, List.append_assoc] at h
  rw [parseTag, bitField_of_drop h (Nat.lt_of_lt_of_le tag.isLt (by decide)), Fin.ofNat_val_eq_self]

theorem parseGeneration_of_drop (h : bits.drop 15 = tagBits tag g ++ rest) : parseGeneration bits = g := by
  rw [tagBits, List.append_assoc] at h
  rw [parseGeneration, bitField_of_drop (drop_of_drop h (by simp)) (Nat.lt_of_lt_of_le g.isLt (by decide)),
    Fin.ofNat_val_eq_self]

/-- What stands behind the tag and the generation. -/
theorem drop_behind_tag (h : bits.drop 15 = tagBits tag g ++ rest) : bits.drop 22 = rest :=
  drop_of_drop h (by simp)

end

theorem val_ofNat_of_lt {n m : Nat} [NeZero m] (h : n < m) : (Fin.ofNat m n).val = n := Nat.mod_eq_of_lt h

/-- A body from the tag on is its tag, its generation and the rest. -/
theorem drop_eq_tagBits {bits : List Bool} (h : 22 ≤ bits.length) :
    bits.drop 15 = tagBits (parseTag bits) (parseGeneration bits) ++ bits.drop 22 := by
  have htag : (parseTag bits).val = bitField bits 15 5 := val_ofNat_of_lt (bitField_lt bits 15 5)
  have hgen : (parseGeneration bits).val = bitField bits 20 2 := val_ofNat_of_lt (bitField_lt bits 20 2)
  rw [tagBits, htag, hgen, List.append_assoc, drop_eq_bitField (start := 15) (width := 5) (by omega),
    drop_eq_bitField (start := 20) (width := 2) (by omega)]

/-! ## A sequence that spells a body (R182) -/

/-- R182: the sequence has the head of the body, but for the source, and its fields. -/
structure SpelledBy (b : FrameBody) (bits : List Bool) : Prop where
  long : 15 ≤ bits.length
  frameClass : bitField bits 0 2 = b.frameClass.value
  kind : bitField bits 6 4 = b.kindCode
  target : bitField bits 10 5 = targetCode b.target
  fields : bits.drop 15 = b.fieldBits

theorem value_lt (c : FrameClass) : c.value < 2 ^ 2 := by cases c <;> decide

theorem kindCode_lt (b : FrameBody) : b.kindCode < 2 ^ 4 := by
  cases b <;> simp [FrameBody.kindCode]

theorem targetCode_lt (t : Option Station) : targetCode t < 2 ^ 5 := by
  cases t with
  | none => decide
  | some t => exact Nat.lt_trans t.isLt (by decide)

/-- The head of a frame, field by field. -/
theorem drop_contentBits (f : Frame) : f.contentBits.drop 0 = bitsOfNat 2 f.body.frameClass.value ++
    (bitsOfNat 4 f.source.val ++ (bitsOfNat 4 f.body.kindCode ++ (bitsOfNat 5 (targetCode f.body.target) ++
      f.body.fieldBits))) := by
  simp only [List.drop_zero, Frame.contentBits, Frame.headBits, List.append_assoc]

theorem length_contentBits (f : Frame) : f.contentBits.length = 15 + f.body.fieldBits.length := by
  simp only [Frame.contentBits, Frame.headBits, List.length_append, length_bitsOfNat]

/-- R182: the bits of a frame spell its body. -/
theorem spelledBy_contentBits (f : Frame) : SpelledBy f.body f.contentBits := by
  have h2 := drop_of_drop (m := 2) (drop_contentBits f) (by simp)
  have h6 := drop_of_drop (m := 6) h2 (by simp)
  have h10 := drop_of_drop (m := 10) h6 (by simp)
  exact {
    long := by rw [length_contentBits]; exact Nat.le_add_right _ _
    frameClass := bitField_of_drop (drop_contentBits f) (value_lt _)
    kind := bitField_of_drop h6 (kindCode_lt _)
    target := bitField_of_drop h10 (targetCode_lt _)
    fields := drop_of_drop h10 (by simp) }

/-- R182: the bits of a frame bear its source. -/
theorem stationOf_contentBits (f : Frame) : stationOf (bitField f.contentBits 2 4) = f.source := by
  have h2 := drop_of_drop (m := 2) (drop_contentBits f) (by simp)
  rw [bitField_of_drop h2 f.source.isLt]
  exact Fin.ofNat_val_eq_self f.source

/-- R182: a sequence that spells a body is the bits of that body in a frame of the source it bears. -/
theorem eq_contentBits_of_spelledBy {b : FrameBody} {bits : List Bool} (h : SpelledBy b bits) :
    bits = Frame.contentBits { source := stationOf (bitField bits 2 4), body := b } := by
  obtain ⟨hlong, hclass, hkind, htarget, hfields⟩ := h
  have hsource : (stationOf (bitField bits 2 4)).val = bitField bits 2 4 := val_ofNat_of_lt (bitField_lt bits 2 4)
  have hbits : bits.drop 0 = _ := drop_eq_bitField (start := 0) (width := 2) (by omega)
  rw [drop_eq_bitField (start := 0 + 2) (width := 4) (by omega), drop_eq_bitField (start := 0 + 2 + 4) (width := 4) (by omega),
    drop_eq_bitField (start := 0 + 2 + 4 + 4) (width := 5) (by omega)] at hbits
  rw [← List.drop_zero (l := Frame.contentBits _), drop_contentBits, hsource]
  rw [← hclass, ← hkind, ← htarget, ← hfields]
  exact hbits

/-! ## What is recognised spells its body, and fits (R6, R183) -/

theorem spelledBy_of_parseControl {bits : List Bool} {b : FrameBody} (hc : bitField bits 0 2 = 0)
    (h : parseControl bits = some b) : SpelledBy b bits ∧ FrameBody.fieldsFit b = true := by
  rw [parseControl] at h
  split at h
  next hcond =>
    obtain ⟨htarget, hlength⟩ := hcond
    have hnil : bits.drop 15 = [] := List.drop_eq_nil_of_le hlength.le
    split at h
    next hkind =>
      obtain rfl := Option.some.inj h
      exact ⟨⟨hlength.ge, hc, hkind, htarget, hnil⟩, rfl⟩
    next hkind =>
      obtain rfl := Option.some.inj h
      exact ⟨⟨hlength.ge, hc, hkind, htarget, hnil⟩, rfl⟩
    next => cases h
  next => cases h

theorem spelledBy_of_parseRdData {bits : List Bool} {t : Station} {b : FrameBody} (hc : bitField bits 0 2 = 1)
    (hk : bitField bits 6 4 = 0) (ht : bitField bits 10 5 = t.val) (h : parseRdData bits t = some b) :
    SpelledBy b bits ∧ FrameBody.fieldsFit b = true := by
  rw [parseRdData] at h
  split at h
  next hcond =>
    obtain ⟨hone, hmost, hlength, hflags⟩ := hcond
    obtain rfl := Option.some.inj h
    have hcount : (bytesAt bits 32 (bitField bits 24 8)).length = bitField bits 24 8 := by simp [bytesAt]
    have hfields : bits.drop 15 = FrameBody.fieldBits (.rdData t (parseTag bits) (parseGeneration bits)
        (decide (bitField bits 22 1 = 1)) (decide (bitField bits 23 1 = 1)) (bytesAt bits 32 (bitField bits 24 8))) := by
      rw [drop_eq_tagBits (by omega), drop_eq_bitField (start := 22) (width := 1) (by omega),
        drop_eq_bitField (start := 23) (width := 1) (by omega), drop_eq_bitField (start := 24) (width := 8) (by omega),
        drop_eq_bytesAt (bitField bits 24 8) (start := 32) (by omega), List.drop_eq_nil_of_le (by omega),
        bitsOfNat_of_lt_two (bitField_lt bits 22 1), bitsOfNat_of_lt_two (bitField_lt bits 23 1), FrameBody.fieldBits, hcount]
      simp
    refine ⟨⟨by omega, hc, hk, ht, hfields⟩, ?_⟩
    have hfits : (!decide (bitField bits 22 1 = 1) || decide (bitField bits 23 1 = 1)) = true := by
      rwa [Bool.or_eq_true, Bool.not_eq_true', ← Bool.not_eq_true, ← imp_iff_not_or]
    simp only [FrameBody.fieldsFit, hcount, hone, hmost, decide_true, Bool.true_and, hfits]
  next => cases h

/-- R182: the target field of a frame to one station. -/
theorem target_eq {bits : List Bool} (h : bitField bits 10 5 < 16) :
    bitField bits 10 5 = (stationOf (bitField bits 10 5)).val := (val_ofNat_of_lt h).symm

theorem spelledBy_of_parseResponse {bits : List Bool} {b : FrameBody} (hc : bitField bits 0 2 = 1)
    (h : parseResponse bits = some b) : SpelledBy b bits ∧ FrameBody.fieldsFit b = true := by
  rw [parseResponse] at h
  split at h
  next ht =>
    split at h
    next hk => exact spelledBy_of_parseRdData hc hk (target_eq ht) h
    next hk =>
      split at h
      next hlength =>
        obtain rfl := Option.some.inj h
        have hfields : bits.drop 15 = tagBits (parseTag bits) (parseGeneration bits) ++ bitsOfWord (wordAt bits 22) := by
          rw [drop_eq_tagBits (by omega), drop_eq_wordAt (start := 22) (by omega), List.drop_eq_nil_of_le (by omega),
            List.append_nil]
        exact ⟨⟨by omega, hc, hk, target_eq ht, hfields⟩, rfl⟩
      next => cases h
    next hk =>
      split at h
      next hcond =>
        obtain ⟨hlength, hcode⟩ := hcond
        obtain rfl := Option.some.inj h
        have hfields : bits.drop 15 = tagBits (parseTag bits) (parseGeneration bits) ++ bitsOfNat 8 1 := by
          rw [drop_eq_tagBits (by omega), drop_eq_bitField (start := 22) (width := 8) (by omega), hcode,
            List.drop_eq_nil_of_le (by omega), List.append_nil]
        exact ⟨⟨by omega, hc, hk, target_eq ht, hfields⟩, rfl⟩
      next => cases h
    next => cases h
  next => cases h

/-- R183: the payload of a WR_REQ is a whole number of bytes. -/
theorem eq_mul_of_payloadLengthOk {length count : Nat} (h : payloadLengthOk length count = true) : count = 8 * (count / 8) := by
  rw [payloadLengthOk] at h
  split at h
  next =>
    have := of_decide_eq_true h
    omega
  next =>
    have := of_decide_eq_true h
    omega

theorem spelledBy_of_parseWrReq {bits : List Bool} {t : Station} {b : FrameBody} (hc : bitField bits 0 2 = 2)
    (hk : bitField bits 6 4 = 1) (ht : bitField bits 10 5 = t.val) (h : parseWrReq bits t = some b) :
    SpelledBy b bits ∧ FrameBody.fieldsFit b = true := by
  simp only [parseWrReq] at h
  split at h
  next hcond =>
    obtain ⟨hlength, hpayload⟩ := hcond
    obtain rfl := Option.some.inj h
    have hwhole := eq_mul_of_payloadLengthOk hpayload
    have hcount : (bytesAt bits 54 ((bits.length - 54) / 8)).length = (bits.length - 54) / 8 := by simp [bytesAt]
    have hfields : bits.drop 15 = FrameBody.fieldBits (.wrReq t (parseTag bits) (parseGeneration bits)
        (BitVec.ofNat 16 (bitField bits 22 16)) (BitVec.ofNat 16 (bitField bits 38 16))
        (bytesAt bits 54 ((bits.length - 54) / 8))) := by
      rw [FrameBody.fieldBits, toNat_ofNat_bitField, toNat_ofNat_bitField, drop_eq_tagBits (by omega),
        drop_eq_bitField (start := 22) (width := 16) (by omega), drop_eq_bitField (start := 38) (width := 16) (by omega),
        drop_eq_bytesAt ((bits.length - 54) / 8) (start := 54) (by omega),
        List.drop_eq_nil_of_le (i := 54 + 8 * ((bits.length - 54) / 8)) (by omega), List.append_nil]
    refine ⟨⟨by omega, hc, hk, ht, hfields⟩, ?_⟩
    rw [FrameBody.fieldsFit, hcount, ← hwhole]
    exact hpayload
  next => cases h

theorem code_of_atomicOpOfCode {n : Nat} {op : AtomicOp} (h : atomicOpOfCode n = some op) : op.code = n := by
  rw [atomicOpOfCode.eq_def] at h
  split at h
  · obtain rfl := Option.some.inj h
    rfl
  · obtain rfl := Option.some.inj h
    rfl
  · obtain rfl := Option.some.inj h
    rfl
  · cases h

theorem spelledBy_of_parseAtReq {bits : List Bool} {t : Station} {b : FrameBody} (hc : bitField bits 0 2 = 2)
    (hk : bitField bits 6 4 = 2) (ht : bitField bits 10 5 = t.val) (h : parseAtReq bits t = some b) :
    SpelledBy b bits ∧ FrameBody.fieldsFit b = true := by
  rw [parseAtReq] at h
  split at h
  next hlength =>
    split at h
    next op hop =>
      obtain rfl := Option.some.inj h
      have hfields : bits.drop 15 = FrameBody.fieldBits (.atReq t (parseTag bits) (parseGeneration bits)
          (BitVec.ofNat 16 (bitField bits 22 16)) op (wordAt bits 40) (wordAt bits 72)) := by
        rw [FrameBody.fieldBits, toNat_ofNat_bitField, code_of_atomicOpOfCode hop, drop_eq_tagBits (by omega),
          drop_eq_bitField (start := 22) (width := 16) (by omega), drop_eq_bitField (start := 38) (width := 2) (by omega),
          drop_eq_wordAt (start := 40) (by omega), drop_eq_wordAt (start := 72) (by omega),
          List.drop_eq_nil_of_le (i := 72 + 32) (by omega), List.append_nil]
      exact ⟨⟨by omega, hc, hk, ht, hfields⟩, rfl⟩
    next => cases h
  next => cases h

theorem spelledBy_of_parseRequest {bits : List Bool} {b : FrameBody} (hc : bitField bits 0 2 = 2)
    (h : parseRequest bits = some b) : SpelledBy b bits ∧ FrameBody.fieldsFit b = true := by
  rw [parseRequest] at h
  split at h
  next hk =>
    split at h
    next hcond =>
      obtain ⟨ht, hlength⟩ := hcond
      obtain rfl := Option.some.inj h
      have hfields : bits.drop 15 = bitsOfBytes (bytesAt bits 15 8) := by
        rw [drop_eq_bytesAt 8 (start := 15) (by omega), List.drop_eq_nil_of_le (by omega), List.append_nil]
      exact ⟨⟨by omega, hc, hk, ht, hfields⟩, by simp [FrameBody.fieldsFit, bytesAt]⟩
    next => cases h
  next =>
    split at h
    next ht =>
      split at h
      next hk =>
        split at h
        next hlength =>
          obtain rfl := Option.some.inj h
          have hfields : bits.drop 15 = FrameBody.fieldBits (.rdReq (stationOf (bitField bits 10 5)) (parseTag bits)
              (parseGeneration bits) (BitVec.ofNat 16 (bitField bits 22 16)) (BitVec.ofNat 16 (bitField bits 38 16))) := by
            rw [FrameBody.fieldBits, toNat_ofNat_bitField, toNat_ofNat_bitField, drop_eq_tagBits (by omega),
              drop_eq_bitField (start := 22) (width := 16) (by omega),
              drop_eq_bitField (start := 38) (width := 16) (by omega),
              List.drop_eq_nil_of_le (i := 38 + 16) (by omega), List.append_nil]
          exact ⟨⟨by omega, hc, hk, target_eq ht, hfields⟩, rfl⟩
        next => cases h
      next hk => exact spelledBy_of_parseWrReq hc hk (target_eq ht) h
      next hk => exact spelledBy_of_parseAtReq hc hk (target_eq ht) h
      next => cases h
    next => cases h

/-- R6, R183: a body that is recognised is spelled by its bits, and its fields fit. -/
theorem spelledBy_of_parseBody {bits : List Bool} {b : FrameBody} (h : parseBody bits = some b) :
    SpelledBy b bits ∧ FrameBody.fieldsFit b = true := by
  rw [parseBody] at h
  split at h
  next hc => exact spelledBy_of_parseControl hc h
  next hc => exact spelledBy_of_parseResponse hc h
  next hc => exact spelledBy_of_parseRequest hc h
  next => cases h

/-! ## What spells a body that fits is recognised (R6, R183) -/

theorem stationOf_val (t : Station) : stationOf t.val = t := Fin.ofNat_val_eq_self t

section
variable {bits : List Bool}

/-- R182: a sequence that spells a body is as long as the head and the fields of the body. -/
theorem length_of_spelledBy {b : FrameBody} (h : SpelledBy b bits) : bits.length = 15 + b.fieldBits.length :=
  length_of_drop h.fields h.long

theorem parseBody_of_control (h : bitField bits 0 2 = 0) : parseBody bits = parseControl bits := by
  simp only [parseBody, h]

theorem parseBody_of_response {t : Station} (h : bitField bits 0 2 = 1) (ht : bitField bits 10 5 = t.val) :
    (bitField bits 6 4 = 0 → parseBody bits = parseRdData bits t)
    ∧ (bitField bits 6 4 = 1 → bits.length = 54 →
      parseBody bits = some (.atData t (parseTag bits) (parseGeneration bits) (wordAt bits 22)))
    ∧ (bitField bits 6 4 = 2 → bits.length = 30 → bitField bits 22 8 = 1 →
      parseBody bits = some (.fail t (parseTag bits) (parseGeneration bits))) := by
  simp only [parseBody, h, parseResponse, ht, t.isLt, if_true, stationOf_val]
  refine ⟨fun hk => ?_, fun hk hlength => ?_, fun hk hlength hcode => ?_⟩
  · simp only [hk]
  · simp only [hk, hlength, if_true]
  · simp only [hk, hlength, hcode, and_self, if_true]

theorem parseBody_of_request {t : Station} (h : bitField bits 0 2 = 2) (ht : bitField bits 10 5 = t.val) :
    (bitField bits 6 4 = 0 → bits.length = 54 → parseBody bits = some (.rdReq t (parseTag bits) (parseGeneration bits)
      (BitVec.ofNat 16 (bitField bits 22 16)) (BitVec.ofNat 16 (bitField bits 38 16))))
    ∧ (bitField bits 6 4 = 1 → parseBody bits = parseWrReq bits t)
    ∧ (bitField bits 6 4 = 2 → parseBody bits = parseAtReq bits t) := by
  simp only [parseBody, h, parseRequest, ht, t.isLt, if_true, stationOf_val]
  refine ⟨fun hk hlength => ?_, fun hk => ?_, fun hk => ?_⟩
  · simp [hk, hlength]
  · simp [hk]
  · simp [hk]

theorem parseBody_of_notice (h : bitField bits 0 2 = 2) (hk : bitField bits 6 4 = 3) (ht : bitField bits 10 5 = 31)
    (hlength : bits.length = 79) : parseBody bits = some (.notice (bytesAt bits 15 8)) := by
  simp only [parseBody, h, parseRequest, hk, ht, hlength, and_self, if_true]

end

theorem parseBody_rdReq {bits : List Bool} {t : Station} {tag : Tag} {g : Generation} {o : Offset} {n : BitVec 16}
    (h : SpelledBy (.rdReq t tag g o n) bits) : parseBody bits = some (.rdReq t tag g o n) := by
  have hlong := length_of_spelledBy h
  obtain ⟨_, hclass, hkind, htarget, hfields⟩ := h
  have hlength : bits.length = 54 := by rw [hlong]; simp [FrameBody.fieldBits]
  have h22 := drop_behind_tag hfields
  have h38 := drop_eq_append_nil (drop_of_drop (m := 38) h22 (by simp))
  obtain ⟨hread, _, _⟩ := parseBody_of_request hclass htarget
  rw [hread hkind hlength, parseTag_of_drop hfields, parseGeneration_of_drop hfields, bitField_of_drop h22 o.isLt,
    bitField_of_drop h38 n.isLt, BitVec.ofNat_toNat, BitVec.ofNat_toNat, BitVec.setWidth_eq, BitVec.setWidth_eq]

theorem parseBody_wrReq {bits : List Bool} {t : Station} {tag : Tag} {g : Generation} {o : Offset} {n : BitVec 16}
    {payload : List Byte} (h : SpelledBy (.wrReq t tag g o n payload) bits)
    (hfit : FrameBody.fieldsFit (.wrReq t tag g o n payload) = true) :
    parseBody bits = some (.wrReq t tag g o n payload) := by
  have hlong := length_of_spelledBy h
  obtain ⟨_, hclass, hkind, htarget, hfields⟩ := h
  have hlength : bits.length = 54 + 8 * payload.length := by
    rw [hlong]
    simp [FrameBody.fieldBits]
    omega
  have hrest : bits.length - 54 = 8 * payload.length := by omega
  have h22 := drop_behind_tag hfields
  have h38 := drop_of_drop (m := 38) h22 (by simp)
  have h54 := drop_eq_append_nil (drop_of_drop (m := 54) h38 (by simp))
  have hoffset : BitVec.ofNat 16 (bitField bits 22 16) = o := by
    rw [bitField_of_drop h22 o.isLt, BitVec.ofNat_toNat, BitVec.setWidth_eq]
  have hfield : BitVec.ofNat 16 (bitField bits 38 16) = n := by
    rw [bitField_of_drop h38 n.isLt, BitVec.ofNat_toNat, BitVec.setWidth_eq]
  have hbytes : bytesAt bits 54 ((bits.length - 54) / 8) = payload := by
    rw [hrest, Nat.mul_div_cancel_left _ (by decide), bytesAt_of_drop h54]
  have hcond : 54 ≤ bits.length ∧ payloadLengthOk n.toNat (bits.length - 54) = true := by
    rw [hrest]
    exact ⟨by omega, hfit⟩
  obtain ⟨_, hwrite, _⟩ := parseBody_of_request hclass htarget
  rw [hwrite hkind]
  simp only [parseWrReq, hoffset, hfield, hbytes, parseTag_of_drop hfields, parseGeneration_of_drop hfields, if_pos hcond]

theorem parseBody_atReq {bits : List Bool} {t : Station} {tag : Tag} {g : Generation} {o : Offset} {op : AtomicOp}
    {a b : Word} (h : SpelledBy (.atReq t tag g o op a b) bits) : parseBody bits = some (.atReq t tag g o op a b) := by
  have hlong := length_of_spelledBy h
  obtain ⟨_, hclass, hkind, htarget, hfields⟩ := h
  have hlength : bits.length = 104 := by rw [hlong]; simp [FrameBody.fieldBits]
  have h22 := drop_behind_tag hfields
  have h38 := drop_of_drop (m := 38) h22 (by simp)
  have h40 := drop_of_drop (m := 40) h38 (by simp)
  have h72 := drop_eq_append_nil (drop_of_drop (m := 72) h40 (by simp))
  have hoffset : BitVec.ofNat 16 (bitField bits 22 16) = o := by
    rw [bitField_of_drop h22 o.isLt, BitVec.ofNat_toNat, BitVec.setWidth_eq]
  have hop : atomicOpOfCode (bitField bits 38 2) = some op := by
    rw [bitField_of_drop h38 (by cases op <;> decide)]
    cases op <;> rfl
  obtain ⟨_, _, hatomic⟩ := parseBody_of_request hclass htarget
  rw [hatomic hkind]
  simp only [parseAtReq, hlength, if_true, hop, hoffset, parseTag_of_drop hfields, parseGeneration_of_drop hfields,
    wordAt_of_drop h40, wordAt_of_drop h72]

theorem parseBody_rdData {bits : List Bool} {t : Station} {tag : Tag} {g : Generation} {second last : Bool}
    {data : List Byte} (h : SpelledBy (.rdData t tag g second last data) bits)
    (hfit : FrameBody.fieldsFit (.rdData t tag g second last data) = true) :
    parseBody bits = some (.rdData t tag g second last data) := by
  have hlong := length_of_spelledBy h
  obtain ⟨_, hclass, hkind, htarget, hfields⟩ := h
  simp only [FrameBody.fieldsFit, Bool.and_eq_true, decide_eq_true_eq] at hfit
  obtain ⟨⟨hone, hmost⟩, hflags⟩ := hfit
  have hlength : bits.length = 32 + 8 * data.length := by
    rw [hlong]
    simp [FrameBody.fieldBits]
    omega
  have h22 : bits.drop 22 = bitsOfNat 1 second.toNat ++ ([last] ++ (bitsOfNat 8 data.length ++ bitsOfBytes data)) := by
    rw [drop_behind_tag hfields, bitsOfNat_flag]
    rfl
  have h23 : bits.drop 23 = bitsOfNat 1 last.toNat ++ (bitsOfNat 8 data.length ++ bitsOfBytes data) := by
    rw [bitsOfNat_flag]
    exact drop_of_drop h22 (by simp)
  have h24 := drop_of_drop (m := 24) h23 (by simp)
  have h32 := drop_eq_append_nil (drop_of_drop (m := 32) h24 (by simp))
  have hsecond : decide (bitField bits 22 1 = 1) = second := by
    rw [bitField_of_drop h22 (Bool.toNat_lt second), decide_toNat_eq_one]
  have hlast : decide (bitField bits 23 1 = 1) = last := by
    rw [bitField_of_drop h23 (Bool.toNat_lt last), decide_toNat_eq_one]
  have hcount : bitField bits 24 8 = data.length := bitField_of_drop h24 (by omega)
  have hsplit : second = true → last = true := by
    rwa [Bool.or_eq_true, Bool.not_eq_true', ← Bool.not_eq_true, ← imp_iff_not_or] at hflags
  obtain ⟨hread, _, _⟩ := parseBody_of_response hclass htarget
  rw [hread hkind]
  simp only [parseRdData, hsecond, hlast, hcount, bytesAt_of_drop h32, parseTag_of_drop hfields,
    parseGeneration_of_drop hfields, if_pos (And.intro hone (And.intro hmost (And.intro hlength hsplit)))]

theorem parseBody_atData {bits : List Bool} {t : Station} {tag : Tag} {g : Generation} {old : Word}
    (h : SpelledBy (.atData t tag g old) bits) : parseBody bits = some (.atData t tag g old) := by
  have hlong := length_of_spelledBy h
  obtain ⟨_, hclass, hkind, htarget, hfields⟩ := h
  have hlength : bits.length = 54 := by rw [hlong]; simp [FrameBody.fieldBits]
  obtain ⟨_, hdata, _⟩ := parseBody_of_response hclass htarget
  rw [hdata hkind hlength, parseTag_of_drop hfields, parseGeneration_of_drop hfields,
    wordAt_of_drop (drop_eq_append_nil (drop_behind_tag hfields))]

theorem parseBody_fail {bits : List Bool} {t : Station} {tag : Tag} {g : Generation}
    (h : SpelledBy (.fail t tag g) bits) : parseBody bits = some (.fail t tag g) := by
  have hlong := length_of_spelledBy h
  obtain ⟨_, hclass, hkind, htarget, hfields⟩ := h
  have hlength : bits.length = 30 := by rw [hlong]; simp [FrameBody.fieldBits]
  have hcode : bitField bits 22 8 = 1 := bitField_of_drop (drop_eq_append_nil (drop_behind_tag hfields)) (by decide)
  obtain ⟨_, _, hfail⟩ := parseBody_of_response hclass htarget
  rw [hfail hkind hlength hcode, parseTag_of_drop hfields, parseGeneration_of_drop hfields]

theorem parseBody_notice {bits : List Bool} {data : List Byte} (h : SpelledBy (.notice data) bits)
    (hfit : FrameBody.fieldsFit (.notice data) = true) : parseBody bits = some (.notice data) := by
  have hlong := length_of_spelledBy h
  obtain ⟨_, hclass, hkind, htarget, hfields⟩ := h
  have hcount : data.length = 8 := of_decide_eq_true hfit
  have hlength : bits.length = 79 := by rw [hlong]; simp [FrameBody.fieldBits, hcount]
  rw [parseBody_of_notice hclass hkind htarget hlength, ← hcount, bytesAt_of_drop (drop_eq_append_nil hfields)]

/-- R6, R183: what spells a body whose fields fit is recognised as that body. -/
theorem parseBody_of_spelledBy {bits : List Bool} {b : FrameBody} (h : SpelledBy b bits)
    (hfit : FrameBody.fieldsFit b = true) : parseBody bits = some b := by
  cases b with
  | join =>
    have hlength : bits.length = 15 := length_of_spelledBy h
    obtain ⟨_, hclass, hkind, htarget, _⟩ := h
    rw [parseBody_of_control hclass, parseControl, if_pos ⟨htarget, hlength⟩, hkind]
    rfl
  | leave =>
    have hlength : bits.length = 15 := length_of_spelledBy h
    obtain ⟨_, hclass, hkind, htarget, _⟩ := h
    rw [parseBody_of_control hclass, parseControl, if_pos ⟨htarget, hlength⟩, hkind]
    rfl
  | notice data => exact parseBody_notice h hfit
  | rdReq t tag g o n => exact parseBody_rdReq h
  | wrReq t tag g o n payload => exact parseBody_wrReq h hfit
  | atReq t tag g o op a b => exact parseBody_atReq h
  | rdData t tag g second last data => exact parseBody_rdData h hfit
  | atData t tag g old => exact parseBody_atData h
  | fail t tag g => exact parseBody_fail h

/-! ## The check and the verdict (R5, R6, R183) -/

theorem checkPasses_iff (body : List Bool) : checkPasses body = true ↔ 47 ≤ body.length ∧
    body.drop (body.length - 32) = bitsOfNat 32 (crc (body.take (body.length - 32))).toNat := by
  rw [checkPasses, Bool.and_eq_true, decide_eq_true_eq, decide_eq_true_eq]

theorem judge_of_recognised {body : List Bool} {b : FrameBody} (h : checkPasses body = true)
    (hb : parseBody (body.take (body.length - 32)) = some b) : judge body =
      .recognised { source := stationOf (bitField (body.take (body.length - 32)) 2 4), body := b } := by
  simp only [judge, h, if_true, hb]

theorem judge_of_not_recognised {body : List Bool} (h : checkPasses body = true)
    (hb : parseBody (body.take (body.length - 32)) = none) :
    judge body = .unrecognisable (bitField (body.take (body.length - 32)) 10 5) := by
  simp only [judge, h, if_true, hb]

theorem judge_of_damaged {body : List Bool} (h : ¬ checkPasses body = true) : judge body = .damaged := by
  rw [judge, if_neg h]

/-- R183: the content of a frame as sent. -/
theorem take_bodyBits (f : Frame) : f.bodyBits.take (f.bodyBits.length - 32) = f.contentBits := by
  rw [Frame.bodyBits, List.length_append, length_bitsOfNat, Nat.add_sub_cancel, List.take_left]

/-- R183: the check of a frame as sent passes. -/
theorem checkPasses_bodyBits (f : Frame) : checkPasses f.bodyBits = true := by
  rw [checkPasses_iff, take_bodyBits]
  constructor
  · rw [Frame.bodyBits, List.length_append, length_contentBits, length_bitsOfNat]
    omega
  · rw [Frame.bodyBits, List.length_append, length_bitsOfNat, Nat.add_sub_cancel, List.drop_left]

/-- R6, R183: a frame whose fields fit is recognised from its bits. -/
theorem judge_bodyBits {f : Frame} (h : FrameBody.fieldsFit f.body = true) : judge f.bodyBits = .recognised f := by
  have hparse : parseBody (f.bodyBits.take (f.bodyBits.length - 32)) = some f.body := by
    rw [take_bodyBits]
    exact parseBody_of_spelledBy (spelledBy_contentBits f) h
  rw [judge_of_recognised (checkPasses_bodyBits f) hparse, take_bodyBits, stationOf_contentBits]

/-- R6, R183: a body whose check passes and that is recognised is the bits of its frame. -/
theorem bodyBits_of_parseBody {body : List Bool} {b : FrameBody} (h : checkPasses body = true)
    (hb : parseBody (body.take (body.length - 32)) = some b) : FrameBody.fieldsFit b = true ∧
      body = Frame.bodyBits { source := stationOf (bitField (body.take (body.length - 32)) 2 4), body := b } := by
  obtain ⟨hspelled, hfit⟩ := spelledBy_of_parseBody hb
  obtain ⟨_, hcheck⟩ := (checkPasses_iff body).1 h
  refine ⟨hfit, ?_⟩
  rw [Frame.bodyBits, ← eq_contentBits_of_spelledBy hspelled, ← hcheck, List.take_append_drop]

/-- R6, R183: only the bits of a frame whose fields fit are recognised as that frame. -/
theorem eq_bodyBits_of_judge {body : List Bool} {f : Frame} (h : judge body = .recognised f) :
    FrameBody.fieldsFit f.body = true ∧ body = f.bodyBits := by
  by_cases hcheck : checkPasses body = true
  · cases hb : parseBody (body.take (body.length - 32)) with
    | none =>
      rw [judge_of_not_recognised hcheck hb] at h
      cases h
    | some b =>
      rw [judge_of_recognised hcheck hb] at h
      obtain rfl := Judged.recognised.inj h
      exact bodyBits_of_parseBody hcheck hb
  · rw [judge_of_damaged hcheck] at h
    cases h

/-- R6: the target field of a body lies before its check. -/
theorem bitField_take {bits : List Bool} {m start w : Nat} (h : start + w ≤ m) :
    bitField (bits.take m) start w = natOfBits ((bits.drop start).take w) := by
  rw [bitField, List.drop_take, List.take_take, Nat.min_eq_left (by omega)]

/-- R6: a body whose check passes and that is the bits of no frame is not recognisable. -/
theorem judge_of_no_frame {body : List Bool} (h : checkPasses body = true)
    (hno : ∀ f : Frame, FrameBody.fieldsFit f.body = true → body ≠ f.bodyBits) :
    judge body = .unrecognisable (natOfBits ((body.drop 10).take 5)) := by
  obtain ⟨hlength, _⟩ := (checkPasses_iff body).1 h
  cases hb : parseBody (body.take (body.length - 32)) with
  | none => rw [judge_of_not_recognised h hb, bitField_take (by omega)]
  | some b =>
    obtain ⟨hfit, hbits⟩ := bodyBits_of_parseBody h hb
    exact absurd hbits (hno _ hfit)

/-! ## The fields that fit (R12, R13, R183) -/

/-- R183: the payload lengths a WR_REQ may have. -/
theorem payloadLengthOk_iff (length count : Nat) : payloadLengthOk length (8 * count) = true ↔
    if 1 ≤ length ∧ length ≤ 256 then count = length else count ≤ 256 := by
  rw [payloadLengthOk]
  split
  next =>
    rw [decide_eq_true_eq]
    omega
  next =>
    rw [decide_eq_true_eq]
    omega

theorem fieldsFit_rdData_iff (t : Station) (tag : Tag) (g : Generation) (second last : Bool) (data : List Byte) :
    FrameBody.fieldsFit (.rdData t tag g second last data) = true ↔
      1 ≤ data.length ∧ data.length ≤ 128 ∧ (second = true → last = true) := by
  simp only [FrameBody.fieldsFit, Bool.and_eq_true, decide_eq_true_eq, and_assoc, Bool.or_eq_true, Bool.not_eq_true',
    ← Bool.not_eq_true, ← imp_iff_not_or]

/-- R182: a frame before its check, field by field. -/
theorem contentBits_eq (source : Station) (b : FrameBody) : Frame.contentBits { source := source, body := b } =
    bitsOfNat 2 b.frameClass.value ++ (bitsOfNat 4 source.val ++ (bitsOfNat 4 b.kindCode ++
      (bitsOfNat 5 (targetCode b.target) ++ b.fieldBits))) := by
  simp only [Frame.contentBits, Frame.headBits, List.append_assoc]

/-- Settles O60. -/
theorem framesAreReadAsSent : Obligations.FramesAreReadAsSent := by
  unfold Obligations.FramesAreReadAsSent
  refine ⟨fun f => judge_bodyBits, fun body f => eq_bodyBits_of_judge, ?_, fun b => ?_, ?_⟩
  · intro body content checkHolds
    refine ⟨fun h hno => judge_of_no_frame ((checkPasses_iff body).2 h) hno, fun h => judge_of_damaged ?_⟩
    rwa [checkPasses_iff]
  · cases b with
    | notice data => exact decide_eq_true_iff
    | wrReq t tag g o n payload => exact payloadLengthOk_iff n.toNat payload.length
    | rdData t tag g second last data => exact fieldsFit_rdData_iff t tag g second last data
    | _ => exact iff_of_true rfl trivial
  · intro f head tagged content
    have hcontent : f.contentBits = content := by
      obtain ⟨source, b⟩ := f
      cases b with
      | join => rfl
      | leave => rfl
      | notice data =>
        simp only [content, head, contentBits_eq, List.append_assoc]
        rfl
      | atReq t tag g o op a b =>
        simp only [content, head, tagged, contentBits_eq, FrameBody.fieldBits, tagBits, List.append_assoc]
        cases op <;> rfl
      | _ =>
        simp only [content, head, tagged, contentBits_eq, FrameBody.fieldBits, tagBits, List.append_assoc]
        rfl
    rw [Frame.bodyBits, hcontent]

end Sys2Proof.Machine
end
